-- ==== Sys2Proof/Word.lean ====
section
/-!
DEFINITION. The widths the manual gives its data: 32-bit lane values, 64-bit uniform values, bytes, lane masks
(spec/05_wave_state.md R109).
-/

namespace Sys2Proof

/-- One lane slice of a vector register (R109). -/
abbrev Word := BitVec 32

/-- One uniform register, one instruction word, one address (R59, R109). -/
abbrev DWord := BitVec 64

/-- The smallest addressable unit of every tier (R5). -/
abbrev Byte := BitVec 8

/-- A set of lanes: bit `l` for lane `l` (R109, R114). -/
abbrev Mask := BitVec 32

end Sys2Proof
end

