-- ==== Sys2Proof/Syntax.lean ====
section
/-!
DEFINITION. The steps of the ZH-9 as Lean data: one constructor of `Instr` for each row of spec/opcode_table.json.
The encoded instructions come first, in the order of spec/03_encoding.md Table 3.7; then the EVENTS, steps the device
takes with no encoding, each carrying as arguments what the manual leaves to the environment or to the order of agents.
-/

namespace Sys2Proof

/-! ## Operands -/

/-- The guard of an instruction: GRD and GNEG (R10, R77). -/
structure Guard where
  p   : BitVec 4
  neg : Bool
  deriving DecidableEq, Repr

/-- The unguarded encoding (R77). -/
def Guard.always : Guard := ⟨0, false⟩

/-- Block extents XR and XC (Table 3.3). -/
inductive Extent where
  | one | two | four | eight
  deriving DecidableEq, Repr

/-- A register block's rows and columns (R73). -/
structure Block where
  rows : Extent
  cols : Extent
  deriving DecidableEq, Repr

abbrev VReg := BitVec 8
abbrev SReg := BitVec 6
abbrev PReg := BitVec 4
abbrev TReg := BitVec 4
abbrev AReg := BitVec 4
abbrev HReg := BitVec 3

/-- A vector-or-uniform source with its class bit and broadcast bit (R70, R74). -/
inductive Src where
  | v (n : VReg) (bcast : Bool)
  | s (n : SReg)
  deriving DecidableEq, Repr

/-- Operand B in the register, immediate and literal forms (R72). -/
inductive SrcB where
  | reg (r : Src)
  | imm (i : BitVec 16)
  | lit (x : DWord)
  deriving DecidableEq, Repr

/-- A vector-or-uniform destination: DU (Table 3.4). -/
inductive Dst where
  | v (n : VReg)
  | s (n : SReg)
  deriving DecidableEq, Repr

structure Alu1 where
  g : Guard
  d : Dst
  a : Src
  blk : Block
  deriving DecidableEq, Repr

structure Alu2 where
  g : Guard
  d : Dst
  a : Src
  b : SrcB
  blk : Block
  deriving DecidableEq, Repr

structure Alu3 where
  g : Guard
  d : Dst
  a : Src
  b : SrcB
  c : Src
  blk : Block
  deriving DecidableEq, Repr

/-- Operands of IADDC and SEL: operand C is a predicate. -/
structure AluP where
  g : Guard
  d : Dst
  a : Src
  b : SrcB
  c : PReg
  blk : Block
  deriving DecidableEq, Repr

/-- Operands of a compare: a predicate destination. -/
structure Cmp2 where
  g : Guard
  d : PReg
  a : Src
  b : SrcB
  deriving DecidableEq, Repr

/-- The constant of MOVI, SETF: an immediate or a literal. -/
inductive Const where
  | imm (i : BitVec 16)
  | lit (x : DWord)
  deriving DecidableEq, Repr

/-- VAR of IADD, ISUB, IMUL, IMAD: wrap, .SS, .US (Table 3.7). -/
inductive Sat where
  | wrap | ss | us
  deriving DecidableEq, Repr

/-- VAR of ICMP. -/
inductive ICond where
  | eq | ne | lt | le | ltu | leu
  deriving DecidableEq, Repr

/-- MOD [2:0] of FCMP. -/
inductive FCond where
  | eq | ne | lt | le | un | ord
  deriving DecidableEq, Repr

/-- VAR of the float instructions: .F32, .F64, .F16x2, .BF16x2 (R150). -/
inductive FTy where
  | f32 | f64 | f16x2 | bf16x2
  deriving DecidableEq, Repr

/-- Type codes of CVT and CVTS (Table 3.8). -/
inductive CTy where
  | f32 | f64 | f16 | bf16 | int | uint | int8 | dp8
  deriving DecidableEq, Repr

/-- VAR of PACK and UNPACK. -/
inductive PTy where
  | f16x2 | bf16x2 | int8x4 | int4x8 | dp8x4
  deriving DecidableEq, Repr

/-- VAR of SHFL. -/
inductive ShflKind where
  | idx | up | dn | xor
  deriving DecidableEq, Repr

/-- VAR of REDW and SCANW. -/
inductive RedOp where
  | iadd | imin | imax | umin | umax | fadd | fmin | fmax
  deriving DecidableEq, Repr

/-- VOTE with the destination of each variant (R193). -/
inductive VoteKind where
  | any (d : PReg) | all (d : PReg) | bal (d : SReg)
  deriving DecidableEq, Repr

/-- PMOV with the operands of each variant (R166). -/
inductive PMovKind where
  | pp (d a : PReg) | sp (d : PReg) (a : SReg) | ps (d : SReg) (a : PReg)
  deriving DecidableEq, Repr

/-- A branch target: word offset or literal address (R81). -/
inductive Target where
  | imm (i : BitVec 16)
  | lit (x : DWord)
  deriving DecidableEq, Repr

/-- The value operand of SETF. -/
inductive SetV where
  | reg (a : SReg) | imm (i : BitVec 16) | lit (x : DWord)
  deriving DecidableEq, Repr

/-- Access size (R236). -/
inductive Size where
  | b | h | w | d
  deriving DecidableEq, Repr

/-- Cache hint (R232). -/
inductive Hint where
  | none | ef | el | na
  deriving DecidableEq, Repr

/-- Ordering code of an atomic (Table 3.7). -/
inductive Ord4 where
  | none | acq | rel | ar
  deriving DecidableEq, Repr

/-- Atomic operations (Table 9.6). -/
inductive AtomOp where
  | add | and | or | xor | min | max | umin | umax | swap | cas | fadd
  deriving DecidableEq, Repr

structure LdArgs where
  g : Guard
  size : Size
  sx : Bool
  acq : Bool
  hint : Hint
  d : VReg
  base : SReg
  off : VReg
  blk : Block
  deriving DecidableEq, Repr

structure StArgs where
  g : Guard
  size : Size
  rel : Bool
  hint : Hint
  base : SReg
  off : VReg
  data : VReg
  blk : Block
  deriving DecidableEq, Repr

structure LduArgs where
  g : Guard
  size : Size
  sx : Bool
  acq : Bool
  hint : Hint
  d : SReg
  base : SReg
  off : BitVec 16
  deriving DecidableEq, Repr

/-- Operands of ATOM, ATOMS, RATOM. With `.ND`, `d` is 0 (R240). -/
structure AtomArgs where
  g : Guard
  op : AtomOp
  ord : Ord4
  nd : Bool
  d : VReg
  base : SReg
  off : VReg
  c : VReg
  deriving DecidableEq, Repr

inductive FenceKind where
  | full | acq | rel
  deriving DecidableEq, Repr

/-- Routing mode of a remote operation (R465). -/
inductive Route where
  | a | d | v
  deriving DecidableEq, Repr

/-- Guard with one, two, three and four uniform fields. -/
structure U4 where
  g : Guard
  d : SReg
  a : SReg
  b : SReg
  c : SReg
  deriving DecidableEq, Repr

/-- MINOR of RRED. -/
inductive RredOp where
  | add | max | msv | iadd
  deriving DecidableEq, Repr

/-- Operand pairs (Table 11.2). -/
inductive Pair where
  | i8 | i8d8 | i4 | bf16 | f16
  deriving DecidableEq, Repr

/-- Destination types of MCVT. -/
inductive McvtTy where
  | int8 | dp8 | bf16 | fp16 | int4
  deriving DecidableEq, Repr

/-- Source of HBLD (Table 12.2). -/
inductive HSrc where
  | vec (a : VReg) | sp (a : SReg)
  deriving DecidableEq, Repr

/-- Destination and operand B of HPFX and HFIND: both vector or both uniform (R308). -/
inductive HQry where
  | vec (d : VReg) (b : VReg) | uni (d : SReg) (b : SReg)
  deriving DecidableEq, Repr

/-- Forms of TLBI (R374). -/
inductive TlbiKind where
  | addr (a : SReg) | ctx (a : SReg) | all
  deriving DecidableEq, Repr

/-! ## What events carry -/

/-- A live slot of a wave (R119). -/
inductive Slot where
  | a | b
  deriving DecidableEq, Repr

/-- A path that issues: a wave, by its number in the state, and one of its live slots. -/
structure PathRef where
  wave : Nat
  slot : Slot
  deriving DecidableEq, Repr

/-- A core by die and logical number (R384). -/
structure CoreId where
  die : Nat
  core : Nat
  deriving DecidableEq, Repr

/-- The errors of a read of one 64-byte line: symbols of its codeword, each by the power of x it is the coefficient of, with
the difference from what was stored (R365). -/
structure LineErr where
  symbols : List (Nat × BitVec 8)
  deriving DecidableEq, Repr

/-- A clean read. -/
def LineErr.clean : LineErr := ⟨[]⟩

/-- KIND of a header flit (Table 21.1). -/
inductive RKind where
  | rput | rgetReq | rgetData | ratom | ratomReply | rred | rarrv | ack | refusal
  deriving DecidableEq, Repr

/-- One RATOM lane record (Table 21.1): lane, offset, operand, compare. -/
structure LaneRec where
  lane : Nat
  addr : Nat
  operand : Word
  compare : Word
  deriving DecidableEq, Repr

/-- The header flit's payload (Table 21.1), as the fields it carries. -/
structure RHeader where
  kind    : RKind
  route   : BitVec 2
  relayed : Bool
  nd      : Bool
  cont    : Bool
  origin  : Nat
  target  : Nat
  context : Nat
  tag     : Nat
  addr    : Nat
  word    : Nat
  length  : Nat
  opcode  : Nat
  first   : Nat
  flags   : BitVec 6
  lanes   : List LaneRec
  tags    : List Nat
  deriving DecidableEq, Repr

/-- A flit's payload: a header, one 256-byte-bounded chunk of the operation named by its tag, RATOM reply values, the lane
records of a RATOM beyond the 17 that its header holds, fill (R443, R463), or bytes that stand where a header is due and whose
KIND Table 21.1 does not list. -/
inductive Payload where
  | header (h : RHeader)
  | chunk (origin tag first : Nat) (bytes : List Byte)
  | lanes (h : RHeader)
  | fill
  | noKind (bytes : List Byte)
  deriving DecidableEq, Repr

/-- A flit (Table 20.9): what its payload says when it is decrypted, HDR and TAG. -/
structure Flit where
  payload : Payload
  hdr : BitVec 32
  tag : BitVec 96
  deriving DecidableEq, Repr

/-- HDR: KGEN, TYPE and SEQ. -/
def flitHdr (kgen : Bool) (type seq : Nat) : BitVec 32 := BitVec.ofNat 32 (kgen.toNat * 2 ^ 31 + type % 4 * 2 ^ 29 + seq % 2 ^ 29)

def Flit.kgen (f : Flit) : Bool := f.hdr.getLsbD 31

/-- TYPE: 0 data, 1 fill, others corrupt. -/
def Flit.type (f : Flit) : Nat := f.hdr.toNat / 2 ^ 29 % 4

def Flit.seq (f : Flit) : Nat := f.hdr.toNat % 2 ^ 29

/-- What a peer shows of its SPDM session at a first meeting (R452): that it opened, that its certificate chains to the Isaiq
root, and its firmware security version. -/
structure PairSession where
  opened : Bool
  chained : Bool
  version : Nat
  deriving DecidableEq, Repr

/-- Why a core is fenced (Table 8.7). -/
inductive FenceCause where
  | selection | scoreboard | counter | stalled (part : Nat)
  deriving DecidableEq, Repr

/-! ## The instructions and the events -/

inductive Instr where
  -- integer and address (06 R136 to R149)
  | iadd (k : Sat) (o : Alu2)
  | isub (k : Sat) (o : Alu2)
  | imul (k : Sat) (o : Alu2)
  | imulh (u : Bool) (o : Alu2)
  | imad (k : Sat) (o : Alu3)
  | imadw (u : Bool) (o : Alu3)
  | iaddc (o : AluP)
  | ineg (ss : Bool) (o : Alu1)
  | iabs (ss : Bool) (o : Alu1)
  | imin (u : Bool) (o : Alu2)
  | imax (u : Bool) (o : Alu2)
  | andw (o : Alu2)
  | orw (o : Alu2)
  | xorw (o : Alu2)
  | andn (o : Alu2)
  | notw (o : Alu1)
  | shl (o : Alu2)
  | shr (o : Alu2)
  | sar (o : Alu2)
  | rotl (o : Alu2)
  | popc (o : Alu1)
  | clz (o : Alu1)
  | ctz (o : Alu1)
  | brev (o : Alu1)
  | bfx (sx : Bool) (o : Alu3)
  | bfi (o : Alu3)
  | icmp (c : ICond) (o : Cmp2)
  | lea (k : BitVec 3) (o : Alu2)
  | mov (o : Alu1)
  | movi (g : Guard) (d : Dst) (x : Const) (blk : Block)
  | sel (o : AluP)
  -- float and conversion (06 R150 to R164)
  | fadd (t : FTy) (o : Alu2)
  | fsub (t : FTy) (o : Alu2)
  | fmul (t : FTy) (o : Alu2)
  | ffma (t : FTy) (o : Alu3)
  | fmin (t : FTy) (o : Alu2)
  | fmax (t : FTy) (o : Alu2)
  | fcmp (t : FTy) (c : FCond) (o : Cmp2)
  | fclass (t : FTy) (o : Alu1)
  | frcp (t : FTy) (o : Alu1)
  | frsq (t : FTy) (o : Alu1)
  | fsqrt (t : FTy) (o : Alu1)
  | fexp2 (o : Alu1)
  | flog2 (o : Alu1)
  | fsin (o : Alu1)
  | fcos (o : Alu1)
  | ftanh (o : Alu1)
  | frnd (t : FTy) (o : Alu1)
  | fscale (t : FTy) (o : Alu2)
  | cvt (dt st : CTy) (o : Alu1)
  | cvts (dt st : CTy) (o : Alu2)
  | pack (k : PTy) (g : Guard) (d : Dst) (a b : Src) (blk : Block)
  | unpack (k : PTy) (i : BitVec 3) (o : Alu1)
  | qmass (m16 : Bool) (o : Alu2)
  -- lane and predicate (07 R188 to R196, 06 R165 to R167)
  | pand (g : Guard) (d a b : PReg)
  | por (g : Guard) (d a b : PReg)
  | pxor (g : Guard) (d a b : PReg)
  | pnot (g : Guard) (d a : PReg)
  | pmov (g : Guard) (k : PMovKind)
  | pcnt (g : Guard) (d : SReg) (a : PReg)
  | shfl (k : ShflKind) (o : Alu2)
  | bcast (o : Alu2)
  | rfl (g : Guard) (d : SReg) (a : VReg) (bc : Bool)
  | vote (g : Guard) (k : VoteKind) (a : PReg)
  | redw (op : RedOp) (g : Guard) (d : SReg) (a : VReg) (bc : Bool)
  | scanw (op : RedOp) (o : Alu1)
  | matchw (g : Guard) (d : PReg) (a : VReg) (bc : Bool)
  -- control and wait (07 R169 to R187)
  | bra (g : Guard) (t : Target)
  | bru (g : Guard) (t : Target)
  | brd (g : Guard) (t : Target)
  | brx (g : Guard) (a : SReg)
  | call (g : Guard) (d : SReg) (t : Target)
  | ret (g : Guard) (a : SReg)
  | exit (g : Guard)
  | yield (g : Guard)
  | nop (g : Guard)
  | waitc (g : Guard) (l s c t : BitVec 6)
  | waitw (g : Guard) (cls : BitVec 2) (a b : SReg)
  | tfence (g : Guard)
  | trapi (g : Guard) (n : BitVec 16)
  | setf (g : Guard) (flags : Bool) (v : SetV)
  | getf (g : Guard) (flags : Bool) (d : SReg)
  -- memory and synchronisation (09, 16, 17)
  | ld (o : LdArgs)
  | st (o : StArgs)
  | lds (o : LdArgs)
  | sts (o : StArgs)
  | ldv (o : LdArgs)
  | stv (o : StArgs)
  | ldu (o : LduArgs)
  | atom (o : AtomArgs)
  | atoms (o : AtomArgs)
  | ldres (g : Guard) (d : VReg) (base : SReg) (off : VReg)
  | stcond (g : Guard) (d : PReg) (base : SReg) (off data : VReg)
  | fence (g : Guard) (k : FenceKind)
  | pref (g : Guard) (hint : Hint) (base : SReg) (off : VReg)
  | arrv (g : Guard) (a b : SReg)
  | bar (g : Guard)
  | bard (g : Guard)
  | barp (g : Guard)
  | cinv (g : Guard) (a b : SReg)
  | cflsh (g : Guard) (a b : SReg)
  | pin (g : Guard) (d a b : SReg)
  | unpin (g : Guard) (a : SReg)
  -- copies and fabric (09 R254 to R256, 21 R468)
  | cpy (o : U4)
  | cpys (o : U4)
  | cpyg (g : Guard) (d a : SReg) (b : VReg) (c : SReg)
  | rput (rt : Route) (o : U4)
  | rputM (rt : Route) (o : U4)
  | rget (rt : Route) (o : U4)
  | ratom (rt : Route) (o : AtomArgs)
  | rred (op : RredOp) (rt : Route) (o : U4)
  | rarrv (rt : Route) (g : Guard) (a b : SReg)
  | rfence (g : Guard) (a : SReg)
  | vqst (g : Guard) (d a : SReg)
  -- matrix (11, 15)
  | munf (g : Guard) (a : SReg)
  | mscl (g : Guard) (a b : SReg)
  | mldt (g : Guard) (d : TReg) (a : SReg)
  | msta (g : Guard) (bf16 : Bool) (a : AReg) (b : SReg)
  | mza (g : Guard) (i32 : Bool) (d : AReg)
  | mmq (g : Guard) (k : Pair) (sc : Bool) (d : AReg) (b : TReg)
  | mmw (g : Guard) (k : Pair) (sc : Bool) (d : AReg) (b : TReg)
  | mmg (g : Guard) (k : Pair) (sc : Bool) (d : SReg) (a : VReg) (b : TReg)
  | mtrn (g : Guard) (k : Pair) (d : AReg) (b : TReg) (j : BitVec 3)
  | mprm (g : Guard) (k : Pair) (d : AReg) (a : VReg) (b : TReg)
  | mred (g : Guard) (k : Pair) (d : AReg) (b : TReg)
  | mcvt (g : Guard) (k : McvtTy) (d : TReg) (a : AReg) (j : BitVec 4)
  | mmt (g : Guard) (k : Pair) (sc : Bool) (d a : SReg)
  | mmts (g : Guard) (k : Pair) (sc : Bool) (d a : SReg)
  -- sum-tree (12)
  | hbld (g : Guard) (m16 : Bool) (d : HReg) (a : HSrc) (b : SReg)
  | hset (g : Guard) (d : HReg) (a b : VReg)
  | hadd (g : Guard) (d : HReg) (a b : VReg)
  | hpfx (g : Guard) (a : HReg) (q : HQry)
  | hfind (g : Guard) (a : HReg) (q : HQry)
  | hcut (g : Guard) (d : SReg) (a : HReg) (b : SReg)
  | htot (g : Guard) (d : SReg) (a : HReg)
  | hlenRead (g : Guard) (d : SReg) (a : HReg)
  | hlenSet (g : Guard) (d : HReg) (a : SReg)
  | hstl (g : Guard) (a : HReg) (b : SReg)
  -- effect list and collecting calls (14)
  | callc (g : Guard) (d : SReg) (t : Target)
  | retc (g : Guard) (a : SReg)
  | ecat (g : Guard) (d a b : SReg)
  | eflt (g : Guard) (drop : Bool) (d a b c : SReg)
  | erbs (g : Guard) (d a b c : SReg) (stop : DWord)
  | eapp (g : Guard) (a : SReg)
  | edrp (g : Guard) (a : SReg)
  | elen (g : Guard) (d a : SReg)
  -- system (16, 17, 19)
  | csrr (g : Guard) (d : SReg) (n : BitVec 16)
  | csrw (g : Guard) (a : SReg) (n : BitVec 16)
  | eret (g : Guard)
  | launch (g : Guard) (d a : SReg)
  | lstat (g : Guard) (d a : SReg)
  | tlbi (g : Guard) (k : TlbiKind)
  | bkpt (g : Guard) (n : BitVec 16)
  | hint (g : Guard) (n : BitVec 16)
  | halt (g : Guard)
  -- EVENTS: waits and boundary causes
  | boundaryCauseDelivery (p : PathRef)
  | waitcComplete (p : PathRef)
  | waitwComplete (p : PathRef)
  | barRelease (team : Nat)
  | bardRelease (launch : Nat) (ixd : Nat)
  | barpRelease (launch : Nat)
  -- EVENTS: paths, regrouping, merging
  | regroupWindowClose (team part : Nat) (brd : Nat)
  | regionResume (wave : Nat)
  | waveMerge (lo hi : Nat)
  | fairnessTimerExpiry (p : PathRef)
  | fairnessDeferredSwitch (p : PathRef)
  -- EVENTS: progress
  | starvationExpiry (wave : Nat)
  | starvationTeamReturn (team : Nat)
  -- EVENTS: selection and the Stable
  | rotationCycle (core : CoreId) (part : Nat)
  | waveComeIn (core : CoreId) (part : Nat)
  | stableDisplace (core : CoreId) (part : Nat)
  | stableImageMoved (wave : Nat)
  | paddockLeave (p : PathRef)
  -- EVENTS: memory
  | loadReturn (op : Nat)
  | hbmRequestServe (die chan : Nat) (pass : Option Nat) (err : LineErr)
  | ownershipAck (op : Nat)
  | ownershipRevoke (word : Nat)
  | copyChunk (op : Nat) (chunk : Nat)
  -- EVENTS: matrix and tree units
  | matrixEntryStart (core : CoreId) (part : Nat)
  | matrixWriteComplete (core : CoreId) (part : Nat)
  | mmtStep (p : PathRef) (stop : Bool)
  | treeUnitExecute (core : CoreId) (badLeaf : Option Nat)
  -- EVENTS: cores and placement
  | coreFence (core : CoreId) (cause : FenceCause)
  | coreDrainSelect (launch die cluster : Nat)
  | coreDrainEnd (core : CoreId)
  | repartitionDone (core : CoreId)
  | teamPlace (launch : Nat)
  | waveEnd (wave : Nat)
  -- EVENTS: launches
  | launchDependenceMet (launch : Nat)
  | queueAgePromotion (launch : Nat)
  | launchStart (launch : Nat)
  | launchEntryRelease (launch : Nat)
  | faultReply (stream entry : Nat)
  | commandLaunch (stream : Nat)
  | commandPreempt (stream : Nat)
  | commandResume (stream : Nat)
  | commandCancel (stream : Nat)
  | prectlPreempt (id : Nat)
  | prectlResume (id : Nat)
  | prectlCancel (id : Nat)
  | preemptSaveComplete (launch : Nat)
  | resumeRestore (launch : Nat)
  -- EVENTS: debug and effect area
  | dbgctlStop (ctx : Nat)
  | dbgctlResume (ctx : Nat)
  | dbgctlSwap (ctx : Nat)
  | eareaWrite (team : Nat) (value : DWord)
  -- EVENTS: the calendar's switch
  -- EVENTS: die service
  | windowFadeTick (die : Nat)
  | bistStart (die stack : Nat)
  | bistMarchDone (die stack : Nat) (pass : Bool)
  | patrolScrub (die : Nat) (line : Nat) (err : LineErr)
  -- EVENTS: power, reset, trust
  | throttleTick (watts temp : Nat)
  | thermalReset (die temp : Nat)
  | spdmAlgorithms (ok : Bool)
  | spdmChallenge (nonce : Nat)
  | spdmMeasurements (index : Nat)
  | spdmKeyExchange (share : Nat)
  | spdmFinish (ok : Bool)
  -- EVENTS: the host
  | hostMemRead (addr len : Nat)
  | hostMemWrite (addr : Nat) (data : List Byte)
  -- EVENTS: links and clock
  | meetingLoadFix (port : Nat)
  | portUnfence (port : Nat)
  | portRetireTimeout (port : Nat)
  | preambleReceive (port : Nat) (ack : Nat) (lanes : BitVec 16) (kgen : Bool) (offsetPs : Int)
  | flitReceive (port : Nat) (f : Flit)
  | laneAdmit (port : Nat) (trained : BitVec 16)
  | bootstrapMeeting (port : Nat) (verMin verMax : Nat) (session : PairSession) (n p slotlen guard : Nat)
  | epochAnnounce (cycle : Nat)
  | rekey (peer : Nat)
  | rekeyDeadline (peer : Nat)
  | laserFailure (port : Nat) (laserB : Bool)
  | laneFlitFailures (port lane : Nat)
  -- EVENTS: remote operations
  | remoteHeaderArrival (h : RHeader)
  | remoteChunkPerform (origin tag : Nat) (first : Nat) (bytes : List Byte)
  | remoteMsvCombine (origin tag : Nat)
  | remoteGetServe (origin tag : Nat)
  | remoteAtomPerform (origin tag : Nat)
  | remoteArrival (origin tag : Nat)
  | relayEnqueue (h : RHeader) (data : List Byte)
  | remoteAckReceive (h : RHeader)
  | remoteReplyReceive (h : RHeader) (data : List Byte)
  | remoteRefusal (h : RHeader)
  | loopbackPerform (op : Nat)
  -- EVENTS: writes, contexts, power
  | writePerformed (op : Nat)
  | contextDestruction (ctx : Nat)
  | powerLoss (duringTableWrite : Bool)
  -- EVENTS without arguments, last: compiled code numbers at most 245 constructors that have arguments
  | commandOpenStream
  | commandCreateContext
  | calnEnable
  | calnDisable
  | deviceReset
  | spdmVersion
  | spdmCapabilities
  | spdmDigests
  | spdmCertificate
  | spdmKeyUpdate
  | spdmEndSession
  | clockSteer
  | dataCalendarStart
  deriving DecidableEq, Repr

end Sys2Proof
end

