-- ==== Sys2Proof/WellFormed.lean ====
section
/-!
DEFINITION. Which instructions the encoding admits, apart from what depends on the issuing wave (its high-water marks
and allocation): register blocks on the grid, pairs, operand classes, listed variants and forms
(spec/03_encoding.md R70 to R76 and the encoding tables of each group). Events are always well formed.
-/

namespace Sys2Proof

/-- XR and XC decoded (Table 3.3). -/
def Extent.n : Extent → Nat
  | .one => 1 | .two => 2 | .four => 4 | .eight => 8

/-- The 1×1 block. -/
def Block.single : Block := ⟨.one, .one⟩

/-- R73, R75: a block based at `n` lies on the 16 × 16 grid; columns count pairs when `pair`. -/
def Block.fits (blk : Block) (pair : Bool) (n : VReg) : Bool :=
  let w := if pair then 2 * blk.cols.n else blk.cols.n
  n.toNat / 16 + blk.rows.n ≤ 16 && n.toNat % 16 + w ≤ 16 && (!pair || n.toNat % 2 == 0)

/-- A vector source fits, or is one broadcast register (or one even pair); a uniform source always does. -/
def Src.fits (blk : Block) (pair : Bool) : Src → Bool
  | .v n true => !pair || n.toNat % 2 == 0
  | .v n false => blk.fits pair n
  | .s _ => true

def Src.isS : Src → Bool
  | .s _ => true
  | .v _ _ => false

def SrcB.isReg : SrcB → Bool
  | .reg _ => true
  | _ => false

def SrcB.isImm : SrcB → Bool
  | .imm _ => true
  | _ => false

def SrcB.fits (blk : Block) (pair : Bool) : SrcB → Bool
  | .reg r => r.fits blk pair
  | _ => true

def SrcB.isS : SrcB → Bool
  | .reg r => r.isS
  | _ => true

/-- A destination with its block: a vector block on the grid, or a uniform register with extents 00 00 (R73). -/
def Dst.fits (blk : Block) (pair : Bool) : Dst → Bool
  | .v n => blk.fits pair n
  | .s _ => blk == .single

def Dst.isS : Dst → Bool
  | .s _ => true
  | .v _ => false

/-- `pd`, `pa`: the destination, the source is a pair in the vector form (R75). -/
def Alu1.wf (o : Alu1) (pd pa : Bool := false) : Bool :=
  o.d.fits o.blk pd && o.a.fits o.blk pa && (!o.d.isS || o.a.isS)

def Alu2.wf (o : Alu2) (pd pa pb : Bool := false) : Bool :=
  o.d.fits o.blk pd && o.a.fits o.blk pa && o.b.fits o.blk pb && (!o.d.isS || (o.a.isS && o.b.isS))

/-- R72: an instruction with an operand C has no immediate form. -/
def Alu3.wf (o : Alu3) (pd pa pb pc : Bool := false) : Bool :=
  o.d.fits o.blk pd && o.a.fits o.blk pa && o.b.fits o.blk pb && o.c.fits o.blk pc && !o.b.isImm &&
    (!o.d.isS || (o.a.isS && o.b.isS && o.c.isS))

def AluP.wf (o : AluP) : Bool :=
  o.d.fits o.blk false && o.a.fits o.blk false && o.b.fits o.blk false && !o.b.isImm &&
    (!o.d.isS || (o.a.isS && o.b.isS))

/-- A compare has extents 00 00, so its vector operands are single registers (or pairs). -/
def Cmp2.wf (o : Cmp2) (pair : Bool := false) : Bool :=
  o.a.fits .single pair && o.b.fits .single pair

/-- The float forms take pairs in .F64 (R75). -/
def FTy.pair : FTy → Bool
  | .f64 => true
  | _ => false

def FTy.single : FTy → Bool
  | .f32 | .f64 => true
  | _ => false

def CTy.pair : CTy → Bool
  | .f64 => true
  | _ => false

/-- R163: how many elements a packed type holds. -/
def PTy.count : PTy → Nat
  | .f16x2 | .bf16x2 => 2
  | .int8x4 | .dp8x4 => 4
  | .int4x8 => 8

def Dst.isV (d : Dst) : Bool := !d.isS

def Src.isV (a : Src) : Bool := !a.isS

def Pair.int : Pair → Bool
  | .i8 | .i8d8 | .i4 => true
  | _ => false

/-- The pairs of the constant-matrix operations (R283). -/
def Pair.constant : Pair → Bool
  | .i8 | .bf16 | .f16 => true
  | _ => false

/-- R297: the block range of MTRN. -/
def Pair.mtrnBlocks : Pair → Nat
  | .i8 => 6
  | _ => 3

/-- R298: the block range of MCVT. -/
def McvtTy.blocks : McvtTy → Nat
  | .int8 | .dp8 => 6
  | .int4 => 12
  | .bf16 | .fp16 => 3

/-- The CSR numbers that Tables 17.8 and 19.16 assign (R405, R419). -/
def csrAssigned (n : Nat) : Bool :=
  n ≤ 0x009 || (0x010 ≤ n && n ≤ 0x014) || (0x018 ≤ n && n ≤ 0x01A) || (0x020 ≤ n && n ≤ 0x024) ||
    (0x028 ≤ n && n ≤ 0x02B) || (0x030 ≤ n && n ≤ 0x032) || (0x040 ≤ n && n ≤ 0x048) ||
    (0x060 ≤ n && n ≤ 0x071) || (0x078 ≤ n && n ≤ 0x07A)

/-- R236: .S is for bytes and halves; a doubleword's register is an even pair on the grid. -/
def LdArgs.wf (o : LdArgs) (plain : Bool) : Bool :=
  (!o.sx || o.size == .b || o.size == .h) && o.blk.fits (o.size == .d) o.d && o.blk.fits false o.off &&
    (!plain || (!o.acq && o.hint == .none))

def StArgs.wf (o : StArgs) (plain : Bool) : Bool :=
  o.blk.fits (o.size == .d) o.data && o.blk.fits false o.off && (!plain || (!o.rel && o.hint == .none))

/-- R240: CAS with .ND, and .ND with a non-zero DST, are not encodings. -/
def AtomArgs.wf (o : AtomArgs) : Bool := !o.nd || (o.op != .cas && o.d == 0)

/-- The encoding admits the instruction. -/
def Instr.wf : Instr → Bool
  | .iadd _ o | .isub _ o | .imul _ o | .imulh _ o | .imin _ o | .imax _ o => o.wf
  | .andw o | .orw o | .xorw o | .andn o | .shl o | .shr o | .sar o | .rotl o => o.wf
  | .imad _ o | .bfx _ o | .bfi o => o.wf
  | .imadw _ o =>
    o.wf true false false true && match o.d with
      | .s n => n.toNat % 2 == 0
      | .v _ => true
  | .iaddc o => o.wf && o.blk == .single
  | .ineg _ o | .iabs _ o | .notw o | .popc o | .clz o | .ctz o | .brev o | .mov o => o.wf
  | .icmp _ o => o.wf
  | .lea k o => k.toNat ≤ 4 && o.wf
  | .movi _ d _ blk => d.fits blk false
  | .sel o => o.wf
  | .fadd t o | .fsub t o | .fmul t o | .fmin t o | .fmax t o => o.wf t.pair t.pair t.pair
  | .ffma t o => o.wf t.pair t.pair t.pair t.pair
  | .fcmp t _ o => o.wf t.pair
  | .fclass t o | .frnd t o => o.wf t.pair t.pair
  | .frcp t o | .frsq t o | .fsqrt t o => t.single && o.wf t.pair t.pair
  | .fexp2 o | .flog2 o | .fsin o | .fcos o | .ftanh o => o.wf
  | .fscale t o => t.single && o.wf t.pair t.pair false
  | .cvt dt src o => dt != src && o.wf dt.pair src.pair
  | .cvts dt src o => dt != src && o.wf dt.pair src.pair false
  | .pack _ _ d a b blk =>
    d.fits blk false && a.fits blk false && b.fits blk false && (!d.isS || (a.isS && b.isS))
  | .unpack k i o => i.toNat < k.count && o.wf
  | .qmass _ o => o.wf
  | .shfl _ o | .bcast o => o.d.isV && o.a.isV && o.wf
  | .scanw _ o => o.d.isV && o.a.isV && o.wf
  | .ld o => o.wf false
  | .lds o | .ldv o => o.wf true
  | .st o => o.wf false
  | .sts o | .stv o => o.wf true
  | .ldu o => !o.sx || o.size == .b || o.size == .h
  | .atom o | .atoms o | .ratom _ o => o.wf
  | .waitw _ cls _ _ => cls != 3
  | .cpyg _ _ _ b _ => b.toNat % 2 == 0
  | .munf _ a => a.toNat ≤ 56
  | .mmq _ k sc _ _ | .mmw _ k sc _ _ | .mmg _ k sc _ _ _ => !sc || k.int
  | .mtrn _ k _ _ j => k.constant && j.toNat < k.mtrnBlocks
  | .mprm _ k _ _ _ | .mred _ k _ _ => k.constant
  | .mcvt _ k _ _ j => j.toNat < k.blocks
  | .mmt _ k sc d a | .mmts _ k sc d a =>
    (!sc || k.int) && a.toNat + 3 ≤ 63 && !(a.toNat ≤ d.toNat && d.toNat ≤ a.toNat + 3)
  | .csrr _ _ n | .csrw _ _ n => csrAssigned n.toNat
  | .pand .. | .por .. | .pxor .. | .pnot .. | .pmov .. | .pcnt .. | .rfl .. | .vote .. | .redw .. | .matchw .. => true
  | .bra .. | .bru .. | .brd .. | .brx .. | .call .. | .ret .. | .exit .. | .yield .. | .nop .. | .waitc .. => true
  | .tfence .. | .trapi .. | .setf .. | .getf .. | .ldres .. | .stcond .. | .fence .. | .pref .. | .arrv .. => true
  | .bar .. | .bard .. | .barp .. | .cinv .. | .cflsh .. | .pin .. | .unpin .. | .cpy .. | .cpys .. => true
  | .rput .. | .rputM .. | .rget .. | .rred .. | .rarrv .. | .rfence .. | .vqst .. | .mscl .. | .mldt .. => true
  | .msta .. | .mza .. | .hbld .. | .hset .. | .hadd .. | .hpfx .. | .hfind .. | .hcut .. | .htot .. => true
  | .hlenRead .. | .hlenSet .. | .hstl .. | .callc .. | .retc .. | .ecat .. | .eflt .. | .erbs .. | .eapp .. => true
  | .edrp .. | .elen .. | .eret .. | .launch .. | .lstat .. | .tlbi .. | .bkpt .. | .hint .. | .halt .. => true
  -- events have no encoding and nothing to check
  | .boundaryCauseDelivery .. | .waitcComplete .. | .waitwComplete .. | .barRelease .. | .bardRelease .. | .barpRelease .. => true
  | .regroupWindowClose .. | .regionResume .. | .waveMerge .. | .fairnessTimerExpiry .. | .fairnessDeferredSwitch .. => true
  | .starvationExpiry .. | .starvationTeamReturn .. | .rotationCycle .. | .waveComeIn .. | .stableDisplace .. => true
  | .stableImageMoved .. | .paddockLeave .. | .loadReturn .. | .hbmRequestServe .. | .ownershipAck .. => true
  | .ownershipRevoke .. | .copyChunk .. | .matrixEntryStart .. | .matrixWriteComplete .. | .mmtStep .. => true
  | .treeUnitExecute .. | .coreFence .. | .coreDrainSelect .. | .coreDrainEnd .. | .repartitionDone .. | .teamPlace .. => true
  | .waveEnd .. | .launchDependenceMet .. | .queueAgePromotion .. | .launchStart .. | .launchEntryRelease .. => true
  | .faultReply .. | .commandLaunch .. | .commandPreempt .. | .commandResume .. | .commandCancel .. | .prectlPreempt .. => true
  | .prectlResume .. | .prectlCancel .. | .preemptSaveComplete .. | .resumeRestore .. | .dbgctlStop .. | .dbgctlResume .. => true
  | .dbgctlSwap .. | .eareaWrite .. | .windowFadeTick .. | .bistStart .. | .bistMarchDone .. | .patrolScrub .. => true
  | .throttleTick .. | .thermalReset .. | .spdmAlgorithms .. | .spdmChallenge .. | .spdmMeasurements .. => true
  | .spdmKeyExchange .. | .spdmFinish .. | .hostMemRead .. | .hostMemWrite .. | .meetingLoadFix .. | .portUnfence .. => true
  | .portRetireTimeout .. | .preambleReceive .. | .flitReceive .. | .laneAdmit .. | .bootstrapMeeting .. => true
  | .epochAnnounce .. | .rekey .. | .rekeyDeadline .. | .laserFailure .. | .laneFlitFailures .. | .remoteHeaderArrival .. => true
  | .remoteChunkPerform .. | .remoteMsvCombine .. | .remoteGetServe .. | .remoteAtomPerform .. | .remoteArrival .. => true
  | .relayEnqueue .. | .remoteAckReceive .. | .remoteReplyReceive .. | .remoteRefusal .. | .loopbackPerform .. => true
  | .writePerformed .. | .contextDestruction .. | .powerLoss .. | .commandOpenStream .. | .commandCreateContext .. => true
  | .calnEnable .. | .calnDisable .. | .deviceReset .. | .spdmVersion .. | .spdmCapabilities .. | .spdmDigests .. => true
  | .spdmCertificate .. | .spdmKeyUpdate .. | .spdmEndSession .. | .clockSteer .. | .dataCalendarStart .. => true

/-- The instruction is well formed. -/
abbrev Instr.WF (i : Instr) : Prop := i.wf = true

end Sys2Proof
end

