-- ==== Sys2Proof/Decode.lean ====
section
/-!
DEFINITION. From instruction words to instructions and back: the fields of a word (spec/03_encoding.md Table 3.3), the
decoder (Tables 3.4, 3.5, 3.7, 7.1, 9.4, 11.1, 12.2, 14.5, 15.3, 21.3), which rejects by name whatever R79 does not list,
the encoder written from the same tables, and the block header (Table 3.1).
-/

namespace Sys2Proof

/-! ## Fields -/

/-- The fields of an instruction word (Table 3.3), from the most significant down. -/
structure Fields where
  major : BitVec 8
  minor : BitVec 6
  dst   : BitVec 8
  a     : BitVec 8
  b     : BitVec 8
  c     : BitVec 8
  xr    : BitVec 2
  xc    : BitVec 2
  grd   : BitVec 4
  gneg  : BitVec 1
  ua    : BitVec 1
  ub    : BitVec 1
  uc    : BitVec 1
  mod   : BitVec 6
  deriving DecidableEq, Repr

/-- The word as a number. -/
def Fields.num (f : Fields) : Nat :=
  ((((((((((((f.major.toNat * 64 + f.minor.toNat) * 256 + f.dst.toNat) * 256 + f.a.toNat) * 256 + f.b.toNat) * 256
    + f.c.toNat) * 4 + f.xr.toNat) * 4 + f.xc.toNat) * 16 + f.grd.toNat) * 2 + f.gneg.toNat) * 2 + f.ua.toNat) * 2
    + f.ub.toNat) * 2 + f.uc.toNat) * 64 + f.mod.toNat

def Fields.pack (f : Fields) : DWord := BitVec.ofNat 64 f.num

/-- Field extraction by bit position (R4, Table 3.3). -/
def Fields.unpack (w : DWord) : Fields :=
  let n := w.toNat
  { major := .ofNat 8 (n / 2 ^ 56), minor := .ofNat 6 (n / 2 ^ 50), dst := .ofNat 8 (n / 2 ^ 42),
    a := .ofNat 8 (n / 2 ^ 34), b := .ofNat 8 (n / 2 ^ 26), c := .ofNat 8 (n / 2 ^ 18),
    xr := .ofNat 2 (n / 2 ^ 16), xc := .ofNat 2 (n / 2 ^ 14), grd := .ofNat 4 (n / 2 ^ 10),
    gneg := .ofNat 1 (n / 2 ^ 9), ua := .ofNat 1 (n / 2 ^ 8), ub := .ofNat 1 (n / 2 ^ 7),
    uc := .ofNat 1 (n / 2 ^ 6), mod := .ofNat 6 n }

/-- An instruction word with every field zero but its major opcode. -/
def Fields.zero (major : BitVec 8) : Fields :=
  { major, minor := 0, dst := 0, a := 0, b := 0, c := 0, xr := 0, xc := 0, grd := 0, gneg := 0, ua := 0, ub := 0,
    uc := 0, mod := 0 }

/-- Bits [33:18] (Table 3.3). -/
def Fields.imm (f : Fields) : BitVec 16 := .ofNat 16 (f.b.toNat * 256 + f.c.toNat)

/-- Put an immediate into [33:18]. -/
def Fields.withImm (f : Fields) (i : BitVec 16) : Fields :=
  { f with b := .ofNat 8 (i.toNat / 256), c := .ofNat 8 i.toNat }

def Fields.guard (f : Fields) : Guard := ⟨f.grd, f.gneg == 1⟩

def Fields.withGuard (f : Fields) (g : Guard) : Fields := { f with grd := g.p, gneg := if g.neg then 1 else 0 }

/-- Why a word in an instruction position is no instruction (R78, R79). All but the last raise 0x18; the last makes the
block malformed and raises 0x1A (R60, Table 3.2). -/
inductive Reject where
  | majorUnassigned
  | headerInBlock
  | minorUnlisted
  | fieldReserved
  | classBit
  | registerRange
  | modUnlisted
  | notWellFormed
  | literalBeyondBlock
  deriving DecidableEq, Repr

abbrev Parse (α : Type) := Except Reject α

/-- Go on when the check holds. -/
def need (b : Bool) (r : Reject) : Parse Unit := if b then .ok () else .error r

/-! ## Codes of the variants -/

/-- The listed value with this code, or a rejection. -/
def fromCode {α : Type} {n : Nat} (all : List α) (code : α → BitVec n) (c : BitVec n) (r : Reject) : Parse α :=
  match all.find? fun x => code x == c with
  | some x => .ok x
  | none => .error r

def Extent.code : Extent → BitVec 2
  | .one => 0 | .two => 1 | .four => 2 | .eight => 3

def Extent.ofCode (c : BitVec 2) : Extent :=
  if c == 0 then .one else if c == 1 then .two else if c == 2 then .four else .eight

def Sat.code : Sat → BitVec 3
  | .wrap => 0 | .ss => 1 | .us => 2

def ICond.code : ICond → BitVec 3
  | .eq => 0 | .ne => 1 | .lt => 2 | .le => 3 | .ltu => 4 | .leu => 5

def FCond.code : FCond → BitVec 3
  | .eq => 0 | .ne => 1 | .lt => 2 | .le => 3 | .un => 4 | .ord => 5

def FTy.code : FTy → BitVec 3
  | .f32 => 0 | .f64 => 1 | .f16x2 => 2 | .bf16x2 => 3

def CTy.code : CTy → BitVec 3
  | .f32 => 0 | .f64 => 1 | .f16 => 2 | .bf16 => 3 | .int => 4 | .uint => 5 | .int8 => 6 | .dp8 => 7

def PTy.code : PTy → BitVec 3
  | .f16x2 => 0 | .bf16x2 => 1 | .int8x4 => 2 | .int4x8 => 3 | .dp8x4 => 4

def ShflKind.code : ShflKind → BitVec 3
  | .idx => 0 | .up => 1 | .dn => 2 | .xor => 3

def RedOp.code : RedOp → BitVec 3
  | .iadd => 0 | .imin => 1 | .imax => 2 | .umin => 3 | .umax => 4 | .fadd => 5 | .fmin => 6 | .fmax => 7

def Size.code : Size → BitVec 2
  | .b => 0 | .h => 1 | .w => 2 | .d => 3

def Hint.code : Hint → BitVec 6
  | .none => 0 | .ef => 1 | .el => 2 | .na => 3

def Ord4.code : Ord4 → BitVec 2
  | .none => 0 | .acq => 1 | .rel => 2 | .ar => 3

def AtomOp.code : AtomOp → BitVec 4
  | .add => 0 | .and => 1 | .or => 2 | .xor => 3 | .min => 4 | .max => 5 | .umin => 6 | .umax => 7 | .swap => 8
  | .cas => 9 | .fadd => 10

def FenceKind.code : FenceKind → BitVec 6
  | .full => 0 | .acq => 1 | .rel => 2

def Route.code : Route → BitVec 2
  | .a => 0 | .d => 1 | .v => 2

def RredOp.code : RredOp → BitVec 6
  | .add => 0 | .max => 1 | .msv => 2 | .iadd => 3

def Pair.code : Pair → BitVec 3
  | .i8 => 0 | .i8d8 => 1 | .i4 => 2 | .bf16 => 3 | .f16 => 4

def McvtTy.code : McvtTy → BitVec 6
  | .int8 => 0 | .dp8 => 1 | .bf16 => 2 | .fp16 => 3 | .int4 => 4

def Sat.all : List Sat := [.wrap, .ss, .us]
def ICond.all : List ICond := [.eq, .ne, .lt, .le, .ltu, .leu]
def FCond.all : List FCond := [.eq, .ne, .lt, .le, .un, .ord]
def FTy.all : List FTy := [.f32, .f64, .f16x2, .bf16x2]
def CTy.all : List CTy := [.f32, .f64, .f16, .bf16, .int, .uint, .int8, .dp8]
def PTy.all : List PTy := [.f16x2, .bf16x2, .int8x4, .int4x8, .dp8x4]
def ShflKind.all : List ShflKind := [.idx, .up, .dn, .xor]
def RedOp.all : List RedOp := [.iadd, .imin, .imax, .umin, .umax, .fadd, .fmin, .fmax]
def Size.all : List Size := [.b, .h, .w, .d]
def Hint.all : List Hint := [.none, .ef, .el, .na]
def Ord4.all : List Ord4 := [.none, .acq, .rel, .ar]
def AtomOp.all : List AtomOp := [.add, .and, .or, .xor, .min, .max, .umin, .umax, .swap, .cas, .fadd]
def FenceKind.all : List FenceKind := [.full, .acq, .rel]
def Route.all : List Route := [.a, .d, .v]
def RredOp.all : List RredOp := [.add, .max, .msv, .iadd]
def Pair.all : List Pair := [.i8, .i8d8, .i4, .bf16, .f16]
def McvtTy.all : List McvtTy := [.int8, .dp8, .bf16, .fp16, .int4]

def Bool.bit (b : Bool) : BitVec 1 := if b then 1 else 0

/-! ## Groups 0x00 to 0x4F: the common minor layout (Table 3.4) -/

def Fields.var (f : Fields) : BitVec 3 := .ofNat 3 f.minor.toNat

def Fields.form (f : Fields) : BitVec 2 := .ofNat 2 (f.minor.toNat / 8)

def Fields.du (f : Fields) : Bool := f.minor.toNat / 32 == 1

/-- MINOR from DU, FORM and VAR (R135). -/
def minorOf (du : Bool) (form : BitVec 2) (var : BitVec 3) : BitVec 6 :=
  .ofNat 6 ((if du then 32 else 0) + 8 * form.toNat + var.toNat)

/-- The broadcast bits BA, BB, BC (R74) and MOD [2:0]. -/
def Fields.ba (f : Fields) : Bool := f.mod.toNat / 32 == 1
def Fields.bb (f : Fields) : Bool := f.mod.toNat / 16 % 2 == 1
def Fields.bc (f : Fields) : Bool := f.mod.toNat / 8 % 2 == 1
def Fields.own (f : Fields) : BitVec 3 := .ofNat 3 f.mod.toNat

def modOf (ba bb bc : Bool) (own : BitVec 3) : BitVec 6 :=
  .ofNat 6 ((if ba then 32 else 0) + (if bb then 16 else 0) + (if bc then 8 else 0) + own.toNat)

/-- A uniform register number (R70). -/
def sreg (x : BitVec 8) : Parse SReg := if x.toNat < 64 then .ok (.ofNat 6 x.toNat) else .error .registerRange

/-- A predicate, tile or accumulator number (R70). -/
def reg4 (x : BitVec 8) : Parse (BitVec 4) := if x.toNat < 16 then .ok (.ofNat 4 x.toNat) else .error .registerRange

/-- A sum-tree register number (R70). -/
def reg3 (x : BitVec 8) : Parse HReg := if x.toNat < 8 then .ok (.ofNat 3 x.toNat) else .error .registerRange

def Fields.block (f : Fields) : Block := ⟨Extent.ofCode f.xr, Extent.ofCode f.xc⟩

/-- A vector-or-uniform operand by its class and broadcast bits (R70, R74). -/
def parseSrc (x : BitVec 8) (u : BitVec 1) (bc : Bool) : Parse Src :=
  if u == 1 then do
    need (!bc) .classBit
    return .s (← sreg x)
  else return .v x bc

def Fields.dstP (f : Fields) : Parse Dst :=
  if f.du then do return .s (← sreg f.dst) else return .v f.dst

/-- Operand B in the form that MINOR names (R72). -/
def Fields.srcB (f : Fields) (lit : Option DWord) : Parse SrcB :=
  if f.form == 0 then do return .reg (← parseSrc f.b f.ub f.bb)
  else if f.form == 1 then do
    need (f.ub == 0 && f.uc == 0 && !f.bb) .classBit
    return .imm f.imm
  else if f.form == 2 then do
    need (f.b == 0) .fieldReserved
    need (f.ub == 0 && !f.bb) .classBit
    match lit with
    | some x => return .lit x
    | none => .error .literalBeyondBlock
  else .error .minorUnlisted

/-- No operand C: the field is zero unless the immediate covers it. -/
def Fields.noC (f : Fields) : Parse Unit := do
  need (f.form == 1 || f.c == 0) .fieldReserved
  need (f.uc == 0 && !f.bc) .classBit

def Fields.alu1 (f : Fields) : Parse Alu1 := do
  need (f.form == 0) .minorUnlisted
  need (f.b == 0 && f.c == 0) .fieldReserved
  need (f.ub == 0 && f.uc == 0 && !f.bb && !f.bc) .classBit
  return ⟨f.guard, ← f.dstP, ← parseSrc f.a f.ua f.ba, f.block⟩

def Fields.alu2 (f : Fields) (lit : Option DWord) : Parse Alu2 := do
  let b ← f.srcB lit
  f.noC
  return ⟨f.guard, ← f.dstP, ← parseSrc f.a f.ua f.ba, b, f.block⟩

def Fields.alu3 (f : Fields) (lit : Option DWord) : Parse Alu3 := do
  need (f.form != 1) .minorUnlisted
  let b ← f.srcB lit
  return ⟨f.guard, ← f.dstP, ← parseSrc f.a f.ua f.ba, b, ← parseSrc f.c f.uc f.bc, f.block⟩

def Fields.aluP (f : Fields) (lit : Option DWord) : Parse AluP := do
  need (f.form != 1) .minorUnlisted
  let b ← f.srcB lit
  need (f.uc == 0 && !f.bc) .classBit
  return ⟨f.guard, ← f.dstP, ← parseSrc f.a f.ua f.ba, b, ← reg4 f.c, f.block⟩

def Fields.cmp2 (f : Fields) (lit : Option DWord) : Parse Cmp2 := do
  need (!f.du) .minorUnlisted
  need (f.block == .single) .fieldReserved
  let b ← f.srcB lit
  f.noC
  return ⟨f.guard, ← reg4 f.dst, ← parseSrc f.a f.ua f.ba, b⟩

/-- The instruction takes VAR 000 only. -/
def Fields.var0 (f : Fields) : Parse Unit := need (f.var == 0) .minorUnlisted

/-- MOD [2:0] is zero where the entry gives no use for it (R74). -/
def Fields.own0 (f : Fields) : Parse Unit := need (f.own == 0) .modUnlisted

/-- VAR 000 signed or 100 .U. -/
def Fields.sgn (f : Fields) : Parse Bool := do
  need (f.var == 0 || f.var == 4) .minorUnlisted
  return f.var == 4

/-- VAR 000 or 001. -/
def Fields.var01 (f : Fields) : Parse Bool := do
  need (f.var == 0 || f.var == 1) .minorUnlisted
  return f.var == 1

def Fields.fty (f : Fields) : Parse FTy := fromCode FTy.all FTy.code f.var .minorUnlisted

/-- Integer and address group. -/
def Fields.parseInt (f : Fields) (lit : Option DWord) : Parse Instr := do
  f.own0
  match f.major.toNat with
  | 0x00 => return .iadd (← fromCode Sat.all Sat.code f.var .minorUnlisted) (← f.alu2 lit)
  | 0x01 => return .isub (← fromCode Sat.all Sat.code f.var .minorUnlisted) (← f.alu2 lit)
  | 0x02 => return .imul (← fromCode Sat.all Sat.code f.var .minorUnlisted) (← f.alu2 lit)
  | 0x03 => return .imulh (← f.sgn) (← f.alu2 lit)
  | 0x04 => return .imad (← fromCode Sat.all Sat.code f.var .minorUnlisted) (← f.alu3 lit)
  | 0x05 => return .imadw (← f.sgn) (← f.alu3 lit)
  | 0x06 => do f.var0; return .iaddc (← f.aluP lit)
  | 0x07 => return .ineg (← f.var01) (← f.alu1)
  | 0x08 => return .iabs (← f.var01) (← f.alu1)
  | 0x09 => return .imin (← f.sgn) (← f.alu2 lit)
  | 0x0A => return .imax (← f.sgn) (← f.alu2 lit)
  | 0x0B => do f.var0; return .andw (← f.alu2 lit)
  | 0x0C => do f.var0; return .orw (← f.alu2 lit)
  | 0x0D => do f.var0; return .xorw (← f.alu2 lit)
  | 0x0E => do f.var0; return .andn (← f.alu2 lit)
  | 0x0F => do f.var0; return .notw (← f.alu1)
  | 0x10 => do f.var0; return .shl (← f.alu2 lit)
  | 0x11 => do f.var0; return .shr (← f.alu2 lit)
  | 0x12 => do f.var0; return .sar (← f.alu2 lit)
  | 0x13 => do f.var0; return .rotl (← f.alu2 lit)
  | 0x14 => do f.var0; return .popc (← f.alu1)
  | 0x15 => do f.var0; return .clz (← f.alu1)
  | 0x16 => do f.var0; return .ctz (← f.alu1)
  | 0x17 => do f.var0; return .brev (← f.alu1)
  | 0x18 => return .bfx (← f.var01) (← f.alu3 lit)
  | 0x19 => do f.var0; return .bfi (← f.alu3 lit)
  | 0x1A => return .icmp (← fromCode ICond.all ICond.code f.var .minorUnlisted) (← f.cmp2 lit)
  | 0x1B => return .lea f.var (← f.alu2 lit)
  | 0x1C => do f.var0; return .mov (← f.alu1)
  | 0x1D => do
    f.var0
    f.noC
    need (f.a == 0) .fieldReserved
    need (f.ua == 0 && !f.ba) .classBit
    let d ← f.dstP
    match ← f.srcB lit with
    | .imm i => return .movi f.guard d (.imm i) f.block
    | .lit x => return .movi f.guard d (.lit x) f.block
    | .reg _ => .error .minorUnlisted
  | 0x1E => do f.var0; return .sel (← f.aluP lit)
  | _ => .error .majorUnassigned

/-- Float and conversion group. -/
def Fields.parseFloat (f : Fields) (lit : Option DWord) : Parse Instr := do
  match f.major.toNat with
  | 0x26 | 0x38 | 0x39 | 0x3B => pure ()
  | _ => f.own0
  match f.major.toNat with
  | 0x20 => return .fadd (← f.fty) (← f.alu2 lit)
  | 0x21 => return .fsub (← f.fty) (← f.alu2 lit)
  | 0x22 => return .fmul (← f.fty) (← f.alu2 lit)
  | 0x23 => return .ffma (← f.fty) (← f.alu3 lit)
  | 0x24 => return .fmin (← f.fty) (← f.alu2 lit)
  | 0x25 => return .fmax (← f.fty) (← f.alu2 lit)
  | 0x26 => return .fcmp (← f.fty) (← fromCode FCond.all FCond.code f.own .modUnlisted) (← f.cmp2 lit)
  | 0x27 => return .fclass (← f.fty) (← f.alu1)
  | 0x28 => return .frcp (← f.fty) (← f.alu1)
  | 0x29 => return .frsq (← f.fty) (← f.alu1)
  | 0x2A => return .fsqrt (← f.fty) (← f.alu1)
  | 0x2B => do f.var0; return .fexp2 (← f.alu1)
  | 0x2C => do f.var0; return .flog2 (← f.alu1)
  | 0x2D => do f.var0; return .fsin (← f.alu1)
  | 0x2E => do f.var0; return .fcos (← f.alu1)
  | 0x2F => do f.var0; return .ftanh (← f.alu1)
  | 0x30 => return .frnd (← f.fty) (← f.alu1)
  | 0x31 => return .fscale (← f.fty) (← f.alu2 lit)
  | 0x38 => do
    let dt ← fromCode CTy.all CTy.code f.var .minorUnlisted
    let src ← fromCode CTy.all CTy.code f.own .modUnlisted
    return .cvt dt src (← f.alu1)
  | 0x39 => do
    let dt ← fromCode CTy.all CTy.code f.var .minorUnlisted
    let src ← fromCode CTy.all CTy.code f.own .modUnlisted
    return .cvts dt src (← f.alu2 lit)
  | 0x3A => do
    let k ← fromCode PTy.all PTy.code f.var .minorUnlisted
    need (f.form == 0) .minorUnlisted
    f.noC
    return .pack k f.guard (← f.dstP) (← parseSrc f.a f.ua f.ba) (← parseSrc f.b f.ub f.bb) f.block
  | 0x3B => return .unpack (← fromCode PTy.all PTy.code f.var .minorUnlisted) f.own (← f.alu1)
  | 0x3C => return .qmass (← f.var01) (← f.alu2 lit)
  | _ => .error .majorUnassigned

/-- A lane or predicate instruction's checks: MINOR exactly `minor`, extents 00 00, B and C unused. -/
def Fields.lane1 (f : Fields) (minor : Nat) : Parse Unit := do
  need (f.minor.toNat == minor) .minorUnlisted
  need (f.b == 0 && f.c == 0 && f.block == .single) .fieldReserved
  need (f.ub == 0 && f.uc == 0 && !f.bb && !f.bc) .classBit

/-- Operand A is a vector register: class bit 0. -/
def Fields.vecA (f : Fields) : Parse VReg := do
  need (f.ua == 0) .classBit
  return f.a

/-- Operand A is a predicate: class and broadcast bits 0. -/
def Fields.predA (f : Fields) : Parse PReg := do
  need (f.ua == 0 && !f.ba) .classBit
  reg4 f.a

/-- A predicate operation of two sources (R165). -/
def Fields.pred2 (f : Fields) : Parse (PReg × PReg × PReg) := do
  need (f.minor == 0) .minorUnlisted
  need (f.c == 0 && f.block == .single) .fieldReserved
  need (f.ub == 0 && f.uc == 0 && !f.bb && !f.bc) .classBit
  return (← reg4 f.dst, ← f.predA, ← reg4 f.b)

/-- Lane and predicate group. -/
def Fields.parseLane (f : Fields) (lit : Option DWord) : Parse Instr := do
  f.own0
  match f.major.toNat with
  | 0x40 => return .shfl (← fromCode ShflKind.all ShflKind.code f.var .minorUnlisted) (← f.alu2 lit)
  | 0x41 => do f.var0; return .bcast (← f.alu2 lit)
  | 0x42 => do f.lane1 0x20; return .rfl f.guard (← sreg f.dst) (← f.vecA) f.ba
  | 0x43 => do
    f.lane1 f.minor.toNat
    let a ← f.predA
    match f.minor.toNat with
    | 0x00 => return .vote f.guard (.any (← reg4 f.dst)) a
    | 0x01 => return .vote f.guard (.all (← reg4 f.dst)) a
    | 0x22 => return .vote f.guard (.bal (← sreg f.dst)) a
    | _ => .error .minorUnlisted
  | 0x44 => do
    f.lane1 (0x20 + f.var.toNat)
    return .redw (← fromCode RedOp.all RedOp.code f.var .minorUnlisted) f.guard (← sreg f.dst) (← f.vecA) f.ba
  | 0x45 => return .scanw (← fromCode RedOp.all RedOp.code f.var .minorUnlisted) (← f.alu1)
  | 0x46 => do f.lane1 0x00; return .matchw f.guard (← reg4 f.dst) (← f.vecA) f.ba
  | 0x47 => do let (d, a, b) ← f.pred2; return .pand f.guard d a b
  | 0x48 => do let (d, a, b) ← f.pred2; return .por f.guard d a b
  | 0x49 => do let (d, a, b) ← f.pred2; return .pxor f.guard d a b
  | 0x4A => do f.lane1 0x00; return .pnot f.guard (← reg4 f.dst) (← f.predA)
  | 0x4B => do
    f.lane1 f.minor.toNat
    match f.minor.toNat with
    | 0x00 => return .pmov f.guard (.pp (← reg4 f.dst) (← f.predA))
    | 0x01 => do
      need (f.ua == 1 && !f.ba) .classBit
      return .pmov f.guard (.sp (← reg4 f.dst) (← sreg f.a))
    | 0x22 => return .pmov f.guard (.ps (← sreg f.dst) (← f.predA))
    | _ => .error .minorUnlisted
  | 0x4C => do f.lane1 0x20; return .pcnt f.guard (← sreg f.dst) (← f.predA)
  | _ => .error .majorUnassigned

/-! ## Groups 0x50 to 0xBF: fields by role -/

/-- What an operand field holds: nothing, a uniform register (class bit 1), or a register of a class without a class
bit (vector, predicate, tile, accumulator, sum-tree). -/
inductive Role where
  | z | s | v
  deriving DecidableEq, Repr

/-- The field agrees with its role and class bit (R70, R170, R282, R308, R334, R468). -/
def Role.ok (r : Role) (x : BitVec 8) (u : BitVec 1) : Parse Unit :=
  match r with
  | .z => do need (x == 0) .fieldReserved; need (u == 0) .classBit
  | .s => do need (u == 1) .classBit; need (x.toNat < 64) .registerRange
  | .v => need (u == 0) .classBit

/-- The operand fields agree with their roles; no DST when `dst` is false. -/
def Fields.roles (f : Fields) (dst : Bool) (a b c : Role) : Parse Unit := do
  need (dst || f.dst == 0) .fieldReserved
  a.ok f.a f.ua
  b.ok f.b f.ub
  c.ok f.c f.uc

/-- Extents 00 00, MINOR and MOD zero (R73, R79). -/
def Fields.bare (f : Fields) : Parse Unit := do
  need (f.block == .single) .fieldReserved
  need (f.minor == 0) .minorUnlisted
  need (f.mod == 0) .modUnlisted

def Fields.noExt (f : Fields) : Parse Unit := need (f.block == .single) .fieldReserved

def Fields.noMod (f : Fields) : Parse Unit := need (f.mod == 0) .modUnlisted

/-- [33:18] is an immediate: UB and UC are zero. -/
def Fields.immRole (f : Fields) (dst : Bool) (a : Role) : Parse Unit := do
  need (dst || f.dst == 0) .fieldReserved
  a.ok f.a f.ua
  need (f.ub == 0 && f.uc == 0) .classBit

/-- Registers of the fields whose role has been checked. -/
def Fields.sa (f : Fields) : SReg := .ofNat 6 f.a.toNat
def Fields.sb (f : Fields) : SReg := .ofNat 6 f.b.toNat
def Fields.sc (f : Fields) : SReg := .ofNat 6 f.c.toNat

/-- MINOR 0x08 with an immediate, 0x10 with a literal (R169, R334). -/
def Fields.target (f : Fields) (lit : Option DWord) (dst : Bool) : Parse Target := do
  f.noExt
  f.noMod
  if f.minor == 0x08 then do
    f.immRole dst .z
    return .imm f.imm
  else if f.minor == 0x10 then do
    f.roles dst .z .z .z
    match lit with
    | some x => return .lit x
    | none => .error .literalBeyondBlock
  else .error .minorUnlisted

/-- Control and wait group, with the MINOR of TRAPI (0x08) that Table 7.1 gives. DESIGN CHOICE, log 129. -/
def Fields.parseControl (f : Fields) (lit : Option DWord) : Parse Instr :=
  let g := f.guard
  match f.major.toNat with
  | 0x50 => do return .bra g (← f.target lit false)
  | 0x51 => do return .bru g (← f.target lit false)
  | 0x52 => do return .brd g (← f.target lit false)
  | 0x53 => do f.bare; f.roles false .s .z .z; return .brx g f.sa
  | 0x54 => do let t ← f.target lit true; return .call g (← sreg f.dst) t
  | 0x55 => do f.bare; f.roles false .s .z .z; return .ret g f.sa
  | 0x56 => do f.bare; f.roles false .z .z .z; return .exit g
  | 0x57 => do f.bare; f.roles false .z .z .z; return .yield g
  | 0x58 => do f.bare; f.roles false .z .z .z; return .nop g
  | 0x59 => do
    f.bare
    need (f.dst == 0) .fieldReserved
    need (f.ua == 0 && f.ub == 0 && f.uc == 0) .classBit
    let n := f.a.toNat * 65536 + f.b.toNat * 256 + f.c.toNat
    return .waitc g (.ofNat 6 (n / 2 ^ 18)) (.ofNat 6 (n / 2 ^ 12)) (.ofNat 6 (n / 2 ^ 6)) (.ofNat 6 n)
  | 0x5A => do
    f.noExt; f.noMod
    need (f.minor.toNat ≤ 3) .minorUnlisted
    f.roles false .s .s .z
    return .waitw g (.ofNat 2 f.minor.toNat) f.sa f.sb
  | 0x5B => do f.bare; f.roles false .z .z .z; return .tfence g
  | 0x5C => do
    f.noExt; f.noMod
    need (f.minor == 0x08) .minorUnlisted
    f.immRole false .z
    return .trapi g f.imm
  | 0x5D => do
    f.noExt; f.noMod
    let fl := f.var == 1
    match f.minor.toNat with
    | 0x00 | 0x01 => do f.roles false .s .z .z; return .setf g fl (.reg f.sa)
    | 0x08 | 0x09 => do f.immRole false .z; return .setf g fl (.imm f.imm)
    | 0x10 | 0x11 => do
      f.roles false .z .z .z
      match lit with
      | some x => return .setf g fl (.lit x)
      | none => .error .literalBeyondBlock
    | _ => .error .minorUnlisted
  | 0x5E => do
    f.noExt; f.noMod
    need (f.minor == 0 || f.minor == 1) .minorUnlisted
    f.roles true .z .z .z
    return .getf g (f.minor == 1) (← sreg f.dst)
  | _ => .error .majorUnassigned

/-- MINOR [5:4] size, [3] .S, [2:0] ordering; MOD the hint (R236). -/
def Fields.size (f : Fields) : Size :=
  let c := f.minor.toNat / 16
  if c == 0 then .b else if c == 1 then .h else if c == 2 then .w else .d

def Fields.sx (f : Fields) : Bool := f.minor.toNat / 8 % 2 == 1

def Fields.hintP (f : Fields) : Parse Hint := fromCode Hint.all Hint.code f.mod .modUnlisted

/-- Block extents as Table 9.4 gives them. DESIGN CHOICE, log 130. -/
def Fields.ldArgs (f : Fields) : Parse LdArgs := do
  f.roles true .s .v .z
  need (f.var == 0 || f.var == 1) .minorUnlisted
  return ⟨f.guard, f.size, f.sx, f.var == 1, ← f.hintP, f.dst, f.sa, f.b, f.block⟩

/-- Block extents as Table 9.4 gives them. DESIGN CHOICE, log 130. -/
def Fields.stArgs (f : Fields) : Parse StArgs := do
  f.roles false .s .v .v
  need ((f.var == 0 || f.var == 2) && !f.sx) .minorUnlisted
  return ⟨f.guard, f.size, f.var == 2, ← f.hintP, f.sa, f.b, f.c, f.block⟩

/-- ATOM, ATOMS, RATOM: MINOR [5:2] operation, [1:0] ordering (Table 3.7). -/
def Fields.atomArgs (f : Fields) (nd : Bool) : Parse AtomArgs := do
  f.noExt
  f.roles true .s .v .v
  let op ← fromCode AtomOp.all AtomOp.code (.ofNat 4 (f.minor.toNat / 4)) .minorUnlisted
  let o ← fromCode Ord4.all Ord4.code (.ofNat 2 f.minor.toNat) .minorUnlisted
  return ⟨f.guard, op, o, nd, f.dst, f.sa, f.b, f.c⟩

/-- Memory and synchronisation group (Table 9.4, R376, R378, R382, R415). -/
def Fields.parseMemory (f : Fields) : Parse Instr :=
  let g := f.guard
  match f.major.toNat with
  | 0x60 => do return .ld (← f.ldArgs)
  | 0x61 => do return .st (← f.stArgs)
  | 0x62 => do return .lds (← f.ldArgs)
  | 0x63 => do return .sts (← f.stArgs)
  | 0x64 => do return .ldv (← f.ldArgs)
  | 0x65 => do return .stv (← f.stArgs)
  | 0x66 => do
    f.noExt
    f.immRole true .s
    need (f.var == 0 || f.var == 1) .minorUnlisted
    return .ldu ⟨g, f.size, f.sx, f.var == 1, ← f.hintP, ← sreg f.dst, f.sa, f.imm⟩
  | 0x67 => do need (f.mod == 0 || f.mod == 4) .modUnlisted; return .atom (← f.atomArgs (f.mod == 4))
  | 0x68 => do need (f.mod == 0 || f.mod == 4) .modUnlisted; return .atoms (← f.atomArgs (f.mod == 4))
  | 0x69 => do
    f.noExt; f.noMod
    need (f.minor == 0x20) .minorUnlisted
    f.roles true .s .v .z
    return .ldres g f.dst f.sa f.b
  | 0x6A => do
    f.noExt; f.noMod
    need (f.minor == 0x20) .minorUnlisted
    f.roles true .s .v .v
    return .stcond g (← reg4 f.dst) f.sa f.b f.c
  | 0x6B => do
    f.noExt; f.noMod
    f.roles false .z .z .z
    return .fence g (← fromCode FenceKind.all FenceKind.code f.minor .minorUnlisted)
  | 0x6C => do
    f.noExt
    need (f.minor == 0) .minorUnlisted
    f.roles false .s .v .z
    return .pref g (← f.hintP) f.sa f.b
  | 0x6D => do f.bare; f.roles false .s .s .z; return .arrv g f.sa f.sb
  | 0x6E => do f.bare; f.roles false .z .z .z; return .bar g
  | 0x6F => do f.bare; f.roles false .z .z .z; return .bard g
  | 0x70 => do f.bare; f.roles false .z .z .z; return .barp g
  | 0x71 => do f.bare; f.roles false .s .s .z; return .cinv g f.sa f.sb
  | 0x72 => do f.bare; f.roles false .s .s .z; return .cflsh g f.sa f.sb
  | 0x73 => do f.bare; f.roles true .s .s .z; return .pin g (← sreg f.dst) f.sa f.sb
  | 0x74 => do f.bare; f.roles false .s .z .z; return .unpin g f.sa
  | _ => .error .majorUnassigned

/-- MOD [1:0] the route, the rest of MOD zero (R465). -/
def Fields.route (f : Fields) : Parse Route := do
  need (f.mod.toNat < 4) .modUnlisted
  fromCode Route.all Route.code (.ofNat 2 f.mod.toNat) .modUnlisted

/-- DST and three uniform operands. -/
def Fields.u4 (f : Fields) : Parse U4 := do
  f.noExt
  f.roles true .s .s .s
  return ⟨f.guard, ← sreg f.dst, f.sa, f.sb, f.sc⟩

/-- Copies and fabric group (Table 21.3). -/
def Fields.parseFabric (f : Fields) : Parse Instr :=
  let g := f.guard
  match f.major.toNat with
  | 0x80 => do f.bare; return .cpy (← f.u4)
  | 0x81 => do f.bare; return .cpys (← f.u4)
  | 0x82 => do f.bare; f.roles true .s .v .s; return .cpyg g (← sreg f.dst) f.sa f.b f.sc
  | 0x83 => do
    need (f.minor == 0 || f.minor == 1) .minorUnlisted
    let rt ← f.route
    if f.minor == 1 then return .rputM rt (← f.u4) else return .rput rt (← f.u4)
  | 0x84 => do need (f.minor == 0) .minorUnlisted; return .rget (← f.route) (← f.u4)
  | 0x85 => do
    need (f.mod.toNat < 8) .modUnlisted
    let rt ← fromCode Route.all Route.code (.ofNat 2 f.mod.toNat) .modUnlisted
    return .ratom rt (← f.atomArgs (f.mod.toNat / 4 == 1))
  | 0x86 => do
    let op ← fromCode RredOp.all RredOp.code f.minor .minorUnlisted
    return .rred op (← f.route) (← f.u4)
  | 0x87 => do
    f.noExt
    need (f.minor == 0) .minorUnlisted
    f.roles false .s .s .z
    return .rarrv (← f.route) g f.sa f.sb
  | 0x88 => do f.bare; f.roles false .s .z .z; return .rfence g f.sa
  | 0x89 => do f.bare; f.roles true .s .z .z; return .vqst g (← sreg f.dst) f.sa
  | _ => .error .majorUnassigned

/-- MINOR [3] .SC and [2:0] the operand pair (R283). -/
def Fields.pair (f : Fields) : Parse (Pair × Bool) := do
  need (f.minor.toNat < 16) .minorUnlisted
  return (← fromCode Pair.all Pair.code f.var .minorUnlisted, f.minor.toNat / 8 == 1)

/-- Matrix group (Tables 11.1 and 15.3). -/
def Fields.parseMatrix (f : Fields) : Parse Instr :=
  let g := f.guard
  match f.major.toNat with
  | 0x90 => do f.bare; f.roles false .s .z .z; return .munf g f.sa
  | 0x91 => do f.bare; f.roles false .s .s .z; return .mscl g f.sa f.sb
  | 0x92 => do f.bare; f.roles true .s .z .z; return .mldt g (← reg4 f.dst) f.sa
  | 0x93 => do
    f.noExt; f.noMod
    need (f.minor == 0 || f.minor == 1) .minorUnlisted
    f.roles false .v .s .z
    return .msta g (f.minor == 1) (← reg4 f.a) f.sb
  | 0x94 => do
    f.noExt; f.noMod
    need (f.minor == 0 || f.minor == 1) .minorUnlisted
    f.roles true .z .z .z
    return .mza g (f.minor == 1) (← reg4 f.dst)
  | 0x95 => do
    f.noExt; f.noMod
    f.roles true .z .v .z
    let (k, sc) ← f.pair
    return .mmq g k sc (← reg4 f.dst) (← reg4 f.b)
  | 0x96 => do
    f.noExt; f.noMod
    f.roles true .z .v .z
    let (k, sc) ← f.pair
    return .mmw g k sc (← reg4 f.dst) (← reg4 f.b)
  | 0x97 => do
    f.noExt; f.noMod
    f.roles true .v .v .z
    let (k, sc) ← f.pair
    return .mmg g k sc (← sreg f.dst) f.a (← reg4 f.b)
  | 0x98 => do
    f.noExt
    need (f.mod.toNat < 8) .modUnlisted
    f.roles true .z .v .z
    let (k, sc) ← f.pair
    need (!sc) .minorUnlisted
    return .mtrn g k (← reg4 f.dst) (← reg4 f.b) f.own
  | 0x99 => do
    f.noExt; f.noMod
    f.roles true .v .v .z
    let (k, sc) ← f.pair
    need (!sc) .minorUnlisted
    return .mprm g k (← reg4 f.dst) f.a (← reg4 f.b)
  | 0x9A => do
    f.noExt; f.noMod
    f.roles true .z .v .z
    let (k, sc) ← f.pair
    need (!sc) .minorUnlisted
    return .mred g k (← reg4 f.dst) (← reg4 f.b)
  | 0x9B => do
    f.noExt
    need (f.mod.toNat < 16) .modUnlisted
    f.roles true .v .z .z
    let k ← fromCode McvtTy.all McvtTy.code f.minor .minorUnlisted
    return .mcvt g k (← reg4 f.dst) (← reg4 f.a) (.ofNat 4 f.mod.toNat)
  | 0x9C => do
    f.noExt; f.noMod
    f.roles true .s .z .z
    let (k, sc) ← f.pair
    return .mmt g k sc (← sreg f.dst) f.sa
  | 0x9D => do
    f.noExt; f.noMod
    f.roles true .s .z .z
    let (k, sc) ← f.pair
    return .mmts g k sc (← sreg f.dst) f.sa
  | _ => .error .majorUnassigned

/-- Sum-tree group (Table 12.2). -/
def Fields.parseTree (f : Fields) : Parse Instr := do
  f.noExt; f.noMod
  let g := f.guard
  match f.major.toNat with
  | 0xA0 => do
    need (f.minor.toNat < 4) .minorUnlisted
    let m16 := f.minor.toNat % 2 == 1
    if f.minor.toNat / 2 == 1 then do
      f.roles true .s .s .z
      return .hbld g m16 (← reg3 f.dst) (.sp f.sa) f.sb
    else do
      f.roles true .v .s .z
      return .hbld g m16 (← reg3 f.dst) (.vec f.a) f.sb
  | 0xA1 => do f.bare; f.roles true .v .v .z; return .hset g (← reg3 f.dst) f.a f.b
  | 0xA2 => do f.bare; f.roles true .v .v .z; return .hadd g (← reg3 f.dst) f.a f.b
  | 0xA3 => do
    need (f.minor == 0) .minorUnlisted
    if f.ub == 1 then do
      f.roles true .v .s .z
      return .hpfx g (← reg3 f.a) (.uni (← sreg f.dst) f.sb)
    else do
      f.roles true .v .v .z
      return .hpfx g (← reg3 f.a) (.vec f.dst f.b)
  | 0xA4 => do
    need (f.minor == 0) .minorUnlisted
    if f.ub == 1 then do
      f.roles true .v .s .z
      return .hfind g (← reg3 f.a) (.uni (← sreg f.dst) f.sb)
    else do
      f.roles true .v .v .z
      return .hfind g (← reg3 f.a) (.vec f.dst f.b)
  | 0xA5 => do f.bare; f.roles true .v .s .z; return .hcut g (← sreg f.dst) (← reg3 f.a) f.sb
  | 0xA6 => do
    match f.minor.toNat with
    | 0 => do f.roles true .v .z .z; return .htot g (← sreg f.dst) (← reg3 f.a)
    | 1 => do f.roles true .v .z .z; return .hlenRead g (← sreg f.dst) (← reg3 f.a)
    | 2 => do f.roles true .s .z .z; return .hlenSet g (← reg3 f.dst) f.sa
    | _ => .error .minorUnlisted
  | 0xA7 => do f.bare; f.roles false .v .s .z; return .hstl g (← reg3 f.a) f.sb
  | _ => .error .majorUnassigned

/-- Effect-list and collecting-call group (Table 14.5). -/
def Fields.parseEffect (f : Fields) (lit : Option DWord) : Parse Instr :=
  let g := f.guard
  match f.major.toNat with
  | 0xA8 => do let t ← f.target lit true; return .callc g (← sreg f.dst) t
  | 0xA9 => do f.bare; f.roles false .s .z .z; return .retc g f.sa
  | 0xAA => do f.bare; f.roles true .s .s .z; return .ecat g (← sreg f.dst) f.sa f.sb
  | 0xAB => do
    f.noExt; f.noMod
    need (f.minor == 0 || f.minor == 1) .minorUnlisted
    f.roles true .s .s .s
    return .eflt g (f.minor == 1) (← sreg f.dst) f.sa f.sb f.sc
  | 0xAC => do
    f.bare
    f.roles true .s .s .s
    match lit with
    | some x => return .erbs g (← sreg f.dst) f.sa f.sb f.sc x
    | none => .error .literalBeyondBlock
  | 0xAD => do f.bare; f.roles false .s .z .z; return .eapp g f.sa
  | 0xAE => do f.bare; f.roles false .s .z .z; return .edrp g f.sa
  | 0xAF => do f.bare; f.roles true .s .z .z; return .elen g (← sreg f.dst) f.sa
  | _ => .error .majorUnassigned

/-- System group (R405, R402, R374, Table 19.3). -/
def Fields.parseSystem (f : Fields) : Parse Instr :=
  let g := f.guard
  match f.major.toNat with
  | 0xB0 => do f.bare; f.immRole true .z; return .csrr g (← sreg f.dst) f.imm
  | 0xB1 => do f.bare; f.immRole false .s; return .csrw g f.sa f.imm
  | 0xB2 => do f.bare; f.roles false .z .z .z; return .eret g
  | 0xB3 => do f.bare; f.roles true .s .z .z; return .launch g (← sreg f.dst) f.sa
  | 0xB4 => do f.bare; f.roles true .s .z .z; return .lstat g (← sreg f.dst) f.sa
  | 0xB5 => do
    f.noExt; f.noMod
    match f.minor.toNat with
    | 0 => do f.roles false .s .z .z; return .tlbi g (.addr f.sa)
    | 1 => do f.roles false .s .z .z; return .tlbi g (.ctx f.sa)
    | 2 => do f.roles false .z .z .z; return .tlbi g .all
    | _ => .error .minorUnlisted
  | 0xB6 => do f.bare; f.immRole false .z; return .bkpt g f.imm
  | 0xB7 => do f.bare; f.immRole false .z; return .hint g f.imm
  | 0xB8 => do f.bare; f.roles false .z .z .z; return .halt g
  | _ => .error .majorUnassigned

/-- One instruction from its fields and, where it has one, its literal word (Table 3.6 gives the groups). -/
def Fields.parse (f : Fields) (lit : Option DWord) : Parse Instr :=
  let m := f.major.toNat
  if m < 0x20 then f.parseInt lit
  else if m < 0x40 then f.parseFloat lit
  else if m < 0x50 then f.parseLane lit
  else if m < 0x60 then f.parseControl lit
  else if m < 0x80 then f.parseMemory
  else if m < 0x90 then f.parseFabric
  else if m < 0xA0 then f.parseMatrix
  else if m < 0xA8 then f.parseTree
  else if m < 0xB0 then f.parseEffect lit
  else if m < 0xC0 then f.parseSystem
  else if m = 0xF8 then .error .headerInBlock
  else .error .majorUnassigned

/-- R60, R72: the instruction word is followed by a literal word. FORM 10 in the groups with the common minor layout and
in the branches, calls and SETF; ERBS always. -/
def Fields.hasLiteral (f : Fields) : Bool :=
  let m := f.major.toNat
  (m < 0x50 && f.form == 2) || (0x50 ≤ m && m ≤ 0x54 && m != 0x53 && f.minor == 0x10) ||
    (m == 0x5D && (f.minor == 0x10 || f.minor == 0x11)) || (m == 0xA8 && f.minor == 0x10) || m == 0xAC

/-- Decode a word and its literal word: parsed, and well formed. -/
def decode (w : DWord) (lit : Option DWord) : Parse Instr := do
  let f := Fields.unpack w
  let i ← f.parse (if f.hasLiteral then lit else none)
  need i.wf .notWellFormed
  return i

/-! ## Bytes -/

/-- The little-endian word in the first eight bytes (R5). -/
def wordOfBytes : List Byte → Option (DWord × List Byte)
  | b0 :: b1 :: b2 :: b3 :: b4 :: b5 :: b6 :: b7 :: rest =>
    some (.ofNat 64 (b0.toNat + 256 * (b1.toNat + 256 * (b2.toNat + 256 * (b3.toNat + 256 * (b4.toNat + 256 *
      (b5.toNat + 256 * (b6.toNat + 256 * b7.toNat))))))), rest)
  | _ => none

/-- Decode from bytes: the instruction and the bytes after it. Fewer bytes than the instruction has are a block cut
short. -/
def decodeBytes (bs : List Byte) : Parse (Instr × List Byte) :=
  match wordOfBytes bs with
  | none => .error .literalBeyondBlock
  | some (w, rest) =>
    if (Fields.unpack w).hasLiteral then
      match wordOfBytes rest with
      | none => .error .literalBeyondBlock
      | some (x, rest') => do return (← decode w (some x), rest')
    else do return (← decode w none, rest)

/-- The eight bytes of a word, the lowest address first (R5). -/
def bytesOfWord (w : DWord) : List Byte :=
  (List.range 8).map fun k => .ofNat 8 (w.toNat / 256 ^ k)

/-- The instruction whose bits are `w`, bit 0 the least significant bit of the first word; the bits above `nbits` are
zero, up to the longest instruction of two words. -/
def decodeTableWord (nbits w : Nat) : Option Instr :=
  let n := w % 2 ^ nbits
  match decodeBytes (bytesOfWord (.ofNat 64 n) ++ bytesOfWord (.ofNat 64 (n / 2 ^ 64))) with
  | .ok (i, _) => some i
  | .error _ => none

/-! ## The block header (Table 3.1) -/

/-- The fields of a header word that the machine acts on. -/
structure Header where
  hdr    : Nat
  length : Nat
  vhw    : Nat
  uhw    : Nat
  rcv    : BitVec 16
  zero   : Bool
  rgp    : Bool
  idem   : Bool
  deriving DecidableEq, Repr

def Header.ofWord (w : DWord) : Header :=
  let n := w.toNat
  { hdr := n / 2 ^ 56, length := n / 2 ^ 46 % 1024, vhw := n / 2 ^ 38 % 256, uhw := n / 2 ^ 32 % 64,
    rcv := .ofNat 16 (n / 2 ^ 16), zero := n / 2 ^ 8 % 32 == 0 && n % 32 == 0, rgp := n / 128 % 2 == 1,
    idem := n / 64 % 2 == 1 }

/-- Table 3.2, but for its last row: the header is well formed for a wave of `vg` and `ug` granules. -/
def Header.ok (h : Header) (vg ug : Nat) : Bool :=
  h.hdr == 0xF8 && h.length != 0 && h.zero && h.vhw / 8 < vg && h.uhw / 8 < ug

/-! ## The encoder -/

def Src.bits : Src → BitVec 8 × BitVec 1 × Bool
  | .v n bc => (n, 0, bc)
  | .s n => (.ofNat 8 n.toNat, 1, false)

def Dst.num : Dst → BitVec 8
  | .v n => n
  | .s n => .ofNat 8 n.toNat

def r8 {n : Nat} (x : BitVec n) : BitVec 8 := .ofNat 8 x.toNat

/-- Fields of a group 0x00 to 0x4F word but for operands B and C. -/
def encBase (major : BitVec 8) (g : Guard) (dst : BitVec 8) (blk : Block) : Fields :=
  { Fields.zero major with dst, xr := blk.rows.code, xc := blk.cols.code }.withGuard g

def SrcB.form : SrcB → BitVec 2
  | .reg _ => 0
  | .imm _ => 1
  | .lit _ => 2

def SrcB.literal : SrcB → Option DWord
  | .lit x => some x
  | _ => none

/-- Put operand B into its fields. -/
def Fields.withB (f : Fields) : SrcB → Fields
  | .reg r => { f with b := r.bits.1, ub := r.bits.2.1 }
  | .imm i => f.withImm i
  | .lit _ => f

def SrcB.bcast : SrcB → Bool
  | .reg r => r.bits.2.2
  | _ => false

abbrev Enc := Fields × Option DWord

def enc1 (major : BitVec 8) (var : BitVec 3) (own : BitVec 3) (o : Alu1) : Enc :=
  ({ encBase major o.g o.d.num o.blk with
      minor := minorOf o.d.isS 0 var, a := o.a.bits.1, ua := o.a.bits.2.1, mod := modOf o.a.bits.2.2 false false own },
    none)

def enc2 (major : BitVec 8) (var : BitVec 3) (own : BitVec 3) (o : Alu2) : Enc :=
  (Fields.withB { encBase major o.g o.d.num o.blk with
      minor := minorOf o.d.isS o.b.form var, a := o.a.bits.1, ua := o.a.bits.2.1,
      mod := modOf o.a.bits.2.2 o.b.bcast false own } o.b, o.b.literal)

def enc3 (major : BitVec 8) (var : BitVec 3) (o : Alu3) : Enc :=
  ({ Fields.withB { encBase major o.g o.d.num o.blk with
      minor := minorOf o.d.isS o.b.form var, a := o.a.bits.1, ua := o.a.bits.2.1,
      mod := modOf o.a.bits.2.2 o.b.bcast o.c.bits.2.2 0 } o.b with c := o.c.bits.1, uc := o.c.bits.2.1 }, o.b.literal)

def encP (major : BitVec 8) (o : AluP) : Enc :=
  ({ Fields.withB { encBase major o.g o.d.num o.blk with
      minor := minorOf o.d.isS o.b.form 0, a := o.a.bits.1, ua := o.a.bits.2.1,
      mod := modOf o.a.bits.2.2 o.b.bcast false 0 } o.b with c := r8 o.c }, o.b.literal)

def encC (major : BitVec 8) (var : BitVec 3) (own : BitVec 3) (o : Cmp2) : Enc :=
  (Fields.withB { encBase major o.g (r8 o.d) .single with
      minor := minorOf false o.b.form var, a := o.a.bits.1, ua := o.a.bits.2.1,
      mod := modOf o.a.bits.2.2 o.b.bcast false own } o.b, o.b.literal)

/-- A word of groups 0x50 to 0xBF: guard, MINOR, the operand fields and their class bits. -/
def encF (major : BitVec 8) (g : Guard) (minor : BitVec 6 := 0) (dst a b c : BitVec 8 := 0)
    (ua ub uc : BitVec 1 := 0) (mod : BitVec 6 := 0) (blk : Block := .single) : Fields :=
  { Fields.zero major with
    minor, dst, a, b, c, ua, ub, uc, mod, xr := blk.rows.code, xc := blk.cols.code }.withGuard g

def encTarget (major : BitVec 8) (g : Guard) (dst : BitVec 8) : Target → Enc
  | .imm i => ((encF major g (minor := 0x08) (dst := dst)).withImm i, none)
  | .lit x => (encF major g (minor := 0x10) (dst := dst), some x)

def encLd (major : BitVec 8) (o : LdArgs) : Enc :=
  (encF major o.g (minor := .ofNat 6 (16 * o.size.code.toNat + (if o.sx then 8 else 0) + (if o.acq then 1 else 0)))
    (dst := o.d) (a := r8 o.base) (b := o.off) (ua := 1) (mod := o.hint.code) (blk := o.blk), none)

def encSt (major : BitVec 8) (o : StArgs) : Enc :=
  (encF major o.g (minor := .ofNat 6 (16 * o.size.code.toNat + (if o.rel then 2 else 0)))
    (a := r8 o.base) (b := o.off) (c := o.data) (ua := 1) (mod := o.hint.code) (blk := o.blk), none)

def encAtom (major : BitVec 8) (route : Nat) (o : AtomArgs) : Enc :=
  (encF major o.g (minor := .ofNat 6 (4 * o.op.code.toNat + o.ord.code.toNat)) (dst := o.d) (a := r8 o.base)
    (b := o.off) (c := o.c) (ua := 1) (mod := .ofNat 6 ((if o.nd then 4 else 0) + route)), none)

def encU4 (major : BitVec 8) (minor mod : BitVec 6) (o : U4) : Enc :=
  (encF major o.g (minor := minor) (dst := r8 o.d) (a := r8 o.a) (b := r8 o.b) (c := r8 o.c) (ua := 1) (ub := 1)
    (uc := 1) (mod := mod), none)

/-- `MINOR` of the multiplies: .SC and the pair. -/
def pairMinor (k : Pair) (sc : Bool) : BitVec 6 := .ofNat 6 ((if sc then 8 else 0) + k.code.toNat)

def r6 (rt : Route) : BitVec 6 := .ofNat 6 rt.code.toNat

/-- Fields and literal word of an encoded instruction; none for an event. -/
def encodeFields : Instr → Option Enc
  | .iadd k o => some (enc2 0x00 k.code 0 o)
  | .isub k o => some (enc2 0x01 k.code 0 o)
  | .imul k o => some (enc2 0x02 k.code 0 o)
  | .imulh u o => some (enc2 0x03 (if u then 4 else 0) 0 o)
  | .imad k o => some (enc3 0x04 k.code o)
  | .imadw u o => some (enc3 0x05 (if u then 4 else 0) o)
  | .iaddc o => some (encP 0x06 o)
  | .ineg k o => some (enc1 0x07 (if k then 1 else 0) 0 o)
  | .iabs k o => some (enc1 0x08 (if k then 1 else 0) 0 o)
  | .imin u o => some (enc2 0x09 (if u then 4 else 0) 0 o)
  | .imax u o => some (enc2 0x0A (if u then 4 else 0) 0 o)
  | .andw o => some (enc2 0x0B 0 0 o)
  | .orw o => some (enc2 0x0C 0 0 o)
  | .xorw o => some (enc2 0x0D 0 0 o)
  | .andn o => some (enc2 0x0E 0 0 o)
  | .notw o => some (enc1 0x0F 0 0 o)
  | .shl o => some (enc2 0x10 0 0 o)
  | .shr o => some (enc2 0x11 0 0 o)
  | .sar o => some (enc2 0x12 0 0 o)
  | .rotl o => some (enc2 0x13 0 0 o)
  | .popc o => some (enc1 0x14 0 0 o)
  | .clz o => some (enc1 0x15 0 0 o)
  | .ctz o => some (enc1 0x16 0 0 o)
  | .brev o => some (enc1 0x17 0 0 o)
  | .bfx s o => some (enc3 0x18 (if s then 1 else 0) o)
  | .bfi o => some (enc3 0x19 0 o)
  | .icmp c o => some (encC 0x1A c.code 0 o)
  | .lea k o => some (enc2 0x1B k 0 o)
  | .mov o => some (enc1 0x1C 0 0 o)
  | .movi g d (.imm i) blk => some (({ encBase 0x1D g d.num blk with minor := minorOf d.isS 1 0 }).withImm i, none)
  | .movi g d (.lit x) blk => some ({ encBase 0x1D g d.num blk with minor := minorOf d.isS 2 0 }, some x)
  | .sel o => some (encP 0x1E o)
  | .fadd t o => some (enc2 0x20 t.code 0 o)
  | .fsub t o => some (enc2 0x21 t.code 0 o)
  | .fmul t o => some (enc2 0x22 t.code 0 o)
  | .ffma t o => some (enc3 0x23 t.code o)
  | .fmin t o => some (enc2 0x24 t.code 0 o)
  | .fmax t o => some (enc2 0x25 t.code 0 o)
  | .fcmp t c o => some (encC 0x26 t.code c.code o)
  | .fclass t o => some (enc1 0x27 t.code 0 o)
  | .frcp t o => some (enc1 0x28 t.code 0 o)
  | .frsq t o => some (enc1 0x29 t.code 0 o)
  | .fsqrt t o => some (enc1 0x2A t.code 0 o)
  | .fexp2 o => some (enc1 0x2B 0 0 o)
  | .flog2 o => some (enc1 0x2C 0 0 o)
  | .fsin o => some (enc1 0x2D 0 0 o)
  | .fcos o => some (enc1 0x2E 0 0 o)
  | .ftanh o => some (enc1 0x2F 0 0 o)
  | .frnd t o => some (enc1 0x30 t.code 0 o)
  | .fscale t o => some (enc2 0x31 t.code 0 o)
  | .cvt dt src o => some (enc1 0x38 dt.code src.code o)
  | .cvts dt src o => some (enc2 0x39 dt.code src.code o)
  | .pack k g d a b blk => some (enc2 0x3A k.code 0 ⟨g, d, a, .reg b, blk⟩)
  | .unpack k i o => some (enc1 0x3B k.code i o)
  | .qmass m o => some (enc2 0x3C (if m then 1 else 0) 0 o)
  | .shfl k o => some (enc2 0x40 k.code 0 o)
  | .bcast o => some (enc2 0x41 0 0 o)
  | .rfl g d a bc => some (enc1 0x42 0 0 ⟨g, .s d, .v a bc, .single⟩)
  | .vote g (.any d) a => some (encF 0x43 g (minor := 0x00) (dst := r8 d) (a := r8 a), none)
  | .vote g (.all d) a => some (encF 0x43 g (minor := 0x01) (dst := r8 d) (a := r8 a), none)
  | .vote g (.bal d) a => some (encF 0x43 g (minor := 0x22) (dst := r8 d) (a := r8 a), none)
  | .redw op g d a bc => some (enc1 0x44 op.code 0 ⟨g, .s d, .v a bc, .single⟩)
  | .scanw op o => some (enc1 0x45 op.code 0 o)
  | .matchw g d a bc => some (encF 0x46 g (dst := r8 d) (a := a) (mod := modOf bc false false 0), none)
  | .pand g d a b => some (encF 0x47 g (dst := r8 d) (a := r8 a) (b := r8 b), none)
  | .por g d a b => some (encF 0x48 g (dst := r8 d) (a := r8 a) (b := r8 b), none)
  | .pxor g d a b => some (encF 0x49 g (dst := r8 d) (a := r8 a) (b := r8 b), none)
  | .pnot g d a => some (encF 0x4A g (dst := r8 d) (a := r8 a), none)
  | .pmov g (.pp d a) => some (encF 0x4B g (minor := 0x00) (dst := r8 d) (a := r8 a), none)
  | .pmov g (.sp d a) => some (encF 0x4B g (minor := 0x01) (dst := r8 d) (a := r8 a) (ua := 1), none)
  | .pmov g (.ps d a) => some (encF 0x4B g (minor := 0x22) (dst := r8 d) (a := r8 a), none)
  | .pcnt g d a => some (encF 0x4C g (minor := 0x20) (dst := r8 d) (a := r8 a), none)
  | .bra g t => some (encTarget 0x50 g 0 t)
  | .bru g t => some (encTarget 0x51 g 0 t)
  | .brd g t => some (encTarget 0x52 g 0 t)
  | .brx g a => some (encF 0x53 g (a := r8 a) (ua := 1), none)
  | .call g d t => some (encTarget 0x54 g (r8 d) t)
  | .ret g a => some (encF 0x55 g (a := r8 a) (ua := 1), none)
  | .exit g => some (encF 0x56 g, none)
  | .yield g => some (encF 0x57 g, none)
  | .nop g => some (encF 0x58 g, none)
  | .waitc g l s c t =>
    let n := ((l.toNat * 64 + s.toNat) * 64 + c.toNat) * 64 + t.toNat
    some (encF 0x59 g (a := .ofNat 8 (n / 65536)) (b := .ofNat 8 (n / 256)) (c := .ofNat 8 n), none)
  | .waitw g cls a b =>
    some (encF 0x5A g (minor := .ofNat 6 cls.toNat) (a := r8 a) (b := r8 b) (ua := 1) (ub := 1), none)
  | .tfence g => some (encF 0x5B g, none)
  | .trapi g n => some ((encF 0x5C g (minor := 0x08)).withImm n, none)
  | .setf g fl (.reg a) => some (encF 0x5D g (minor := if fl then 0x01 else 0x00) (a := r8 a) (ua := 1), none)
  | .setf g fl (.imm i) => some ((encF 0x5D g (minor := if fl then 0x09 else 0x08)).withImm i, none)
  | .setf g fl (.lit x) => some (encF 0x5D g (minor := if fl then 0x11 else 0x10), some x)
  | .getf g fl d => some (encF 0x5E g (minor := if fl then 1 else 0) (dst := r8 d), none)
  | .ld o => some (encLd 0x60 o)
  | .st o => some (encSt 0x61 o)
  | .lds o => some (encLd 0x62 o)
  | .sts o => some (encSt 0x63 o)
  | .ldv o => some (encLd 0x64 o)
  | .stv o => some (encSt 0x65 o)
  | .ldu o =>
    some ((encF 0x66 o.g (minor := .ofNat 6 (16 * o.size.code.toNat + (if o.sx then 8 else 0) + (if o.acq then 1 else 0)))
      (dst := r8 o.d) (a := r8 o.base) (ua := 1) (mod := o.hint.code)).withImm o.off, none)
  | .atom o => some (encAtom 0x67 0 o)
  | .atoms o => some (encAtom 0x68 0 o)
  | .ldres g d base off => some (encF 0x69 g (minor := 0x20) (dst := d) (a := r8 base) (b := off) (ua := 1), none)
  | .stcond g d base off data =>
    some (encF 0x6A g (minor := 0x20) (dst := r8 d) (a := r8 base) (b := off) (c := data) (ua := 1), none)
  | .fence g k => some (encF 0x6B g (minor := k.code), none)
  | .pref g h base off => some (encF 0x6C g (a := r8 base) (b := off) (ua := 1) (mod := h.code), none)
  | .arrv g a b => some (encF 0x6D g (a := r8 a) (b := r8 b) (ua := 1) (ub := 1), none)
  | .bar g => some (encF 0x6E g, none)
  | .bard g => some (encF 0x6F g, none)
  | .barp g => some (encF 0x70 g, none)
  | .cinv g a b => some (encF 0x71 g (a := r8 a) (b := r8 b) (ua := 1) (ub := 1), none)
  | .cflsh g a b => some (encF 0x72 g (a := r8 a) (b := r8 b) (ua := 1) (ub := 1), none)
  | .pin g d a b => some (encF 0x73 g (dst := r8 d) (a := r8 a) (b := r8 b) (ua := 1) (ub := 1), none)
  | .unpin g a => some (encF 0x74 g (a := r8 a) (ua := 1), none)
  | .cpy o => some (encU4 0x80 0 0 o)
  | .cpys o => some (encU4 0x81 0 0 o)
  | .cpyg g d a b c =>
    some (encF 0x82 g (dst := r8 d) (a := r8 a) (b := b) (c := r8 c) (ua := 1) (uc := 1), none)
  | .rput rt o => some (encU4 0x83 0 (r6 rt) o)
  | .rputM rt o => some (encU4 0x83 1 (r6 rt) o)
  | .rget rt o => some (encU4 0x84 0 (r6 rt) o)
  | .ratom rt o => some (encAtom 0x85 rt.code.toNat o)
  | .rred op rt o => some (encU4 0x86 op.code (r6 rt) o)
  | .rarrv rt g a b => some (encF 0x87 g (a := r8 a) (b := r8 b) (ua := 1) (ub := 1) (mod := r6 rt), none)
  | .rfence g a => some (encF 0x88 g (a := r8 a) (ua := 1), none)
  | .vqst g d a => some (encF 0x89 g (dst := r8 d) (a := r8 a) (ua := 1), none)
  | .munf g a => some (encF 0x90 g (a := r8 a) (ua := 1), none)
  | .mscl g a b => some (encF 0x91 g (a := r8 a) (b := r8 b) (ua := 1) (ub := 1), none)
  | .mldt g d a => some (encF 0x92 g (dst := r8 d) (a := r8 a) (ua := 1), none)
  | .msta g bf a b => some (encF 0x93 g (minor := if bf then 1 else 0) (a := r8 a) (b := r8 b) (ub := 1), none)
  | .mza g i d => some (encF 0x94 g (minor := if i then 1 else 0) (dst := r8 d), none)
  | .mmq g k sc d b => some (encF 0x95 g (minor := pairMinor k sc) (dst := r8 d) (b := r8 b), none)
  | .mmw g k sc d b => some (encF 0x96 g (minor := pairMinor k sc) (dst := r8 d) (b := r8 b), none)
  | .mmg g k sc d a b => some (encF 0x97 g (minor := pairMinor k sc) (dst := r8 d) (a := a) (b := r8 b), none)
  | .mtrn g k d b j =>
    some (encF 0x98 g (minor := pairMinor k false) (dst := r8 d) (b := r8 b) (mod := .ofNat 6 j.toNat), none)
  | .mprm g k d a b => some (encF 0x99 g (minor := pairMinor k false) (dst := r8 d) (a := a) (b := r8 b), none)
  | .mred g k d b => some (encF 0x9A g (minor := pairMinor k false) (dst := r8 d) (b := r8 b), none)
  | .mcvt g k d a j => some (encF 0x9B g (minor := k.code) (dst := r8 d) (a := r8 a) (mod := .ofNat 6 j.toNat), none)
  | .mmt g k sc d a => some (encF 0x9C g (minor := pairMinor k sc) (dst := r8 d) (a := r8 a) (ua := 1), none)
  | .mmts g k sc d a => some (encF 0x9D g (minor := pairMinor k sc) (dst := r8 d) (a := r8 a) (ua := 1), none)
  | .hbld g m d (.vec a) b => some (encF 0xA0 g (minor := if m then 1 else 0) (dst := r8 d) (a := a) (b := r8 b) (ub := 1), none)
  | .hbld g m d (.sp a) b =>
    some (encF 0xA0 g (minor := if m then 3 else 2) (dst := r8 d) (a := r8 a) (b := r8 b) (ua := 1) (ub := 1), none)
  | .hset g d a b => some (encF 0xA1 g (dst := r8 d) (a := a) (b := b), none)
  | .hadd g d a b => some (encF 0xA2 g (dst := r8 d) (a := a) (b := b), none)
  | .hpfx g a (.vec d b) => some (encF 0xA3 g (dst := d) (a := r8 a) (b := b), none)
  | .hpfx g a (.uni d b) => some (encF 0xA3 g (dst := r8 d) (a := r8 a) (b := r8 b) (ub := 1), none)
  | .hfind g a (.vec d b) => some (encF 0xA4 g (dst := d) (a := r8 a) (b := b), none)
  | .hfind g a (.uni d b) => some (encF 0xA4 g (dst := r8 d) (a := r8 a) (b := r8 b) (ub := 1), none)
  | .hcut g d a b => some (encF 0xA5 g (dst := r8 d) (a := r8 a) (b := r8 b) (ub := 1), none)
  | .htot g d a => some (encF 0xA6 g (dst := r8 d) (a := r8 a), none)
  | .hlenRead g d a => some (encF 0xA6 g (minor := 1) (dst := r8 d) (a := r8 a), none)
  | .hlenSet g d a => some (encF 0xA6 g (minor := 2) (dst := r8 d) (a := r8 a) (ua := 1), none)
  | .hstl g a b => some (encF 0xA7 g (a := r8 a) (b := r8 b) (ub := 1), none)
  | .callc g d t => some (encTarget 0xA8 g (r8 d) t)
  | .retc g a => some (encF 0xA9 g (a := r8 a) (ua := 1), none)
  | .ecat g d a b => some (encF 0xAA g (dst := r8 d) (a := r8 a) (b := r8 b) (ua := 1) (ub := 1), none)
  | .eflt g dr d a b c =>
    some (encF 0xAB g (minor := if dr then 1 else 0) (dst := r8 d) (a := r8 a) (b := r8 b) (c := r8 c) (ua := 1) (ub := 1)
      (uc := 1), none)
  | .erbs g d a b c x =>
    some (encF 0xAC g (dst := r8 d) (a := r8 a) (b := r8 b) (c := r8 c) (ua := 1) (ub := 1) (uc := 1), some x)
  | .eapp g a => some (encF 0xAD g (a := r8 a) (ua := 1), none)
  | .edrp g a => some (encF 0xAE g (a := r8 a) (ua := 1), none)
  | .elen g d a => some (encF 0xAF g (dst := r8 d) (a := r8 a) (ua := 1), none)
  | .csrr g d n => some ((encF 0xB0 g (dst := r8 d)).withImm n, none)
  | .csrw g a n => some ((encF 0xB1 g (a := r8 a) (ua := 1)).withImm n, none)
  | .eret g => some (encF 0xB2 g, none)
  | .launch g d a => some (encF 0xB3 g (dst := r8 d) (a := r8 a) (ua := 1), none)
  | .lstat g d a => some (encF 0xB4 g (dst := r8 d) (a := r8 a) (ua := 1), none)
  | .tlbi g (.addr a) => some (encF 0xB5 g (minor := 0) (a := r8 a) (ua := 1), none)
  | .tlbi g (.ctx a) => some (encF 0xB5 g (minor := 1) (a := r8 a) (ua := 1), none)
  | .tlbi g .all => some (encF 0xB5 g (minor := 2), none)
  | .bkpt g n => some ((encF 0xB6 g).withImm n, none)
  | .hint g n => some ((encF 0xB7 g).withImm n, none)
  | .halt g => some (encF 0xB8 g, none)
  -- events have no encoding
  | .boundaryCauseDelivery .. | .waitcComplete .. | .waitwComplete .. | .barRelease .. | .bardRelease .. | .barpRelease .. => none
  | .regroupWindowClose .. | .regionResume .. | .waveMerge .. | .fairnessTimerExpiry .. | .fairnessDeferredSwitch .. => none
  | .starvationExpiry .. | .starvationTeamReturn .. | .rotationCycle .. | .waveComeIn .. | .stableDisplace .. => none
  | .stableImageMoved .. | .paddockLeave .. | .loadReturn .. | .hbmRequestServe .. | .ownershipAck .. => none
  | .ownershipRevoke .. | .copyChunk .. | .matrixEntryStart .. | .matrixWriteComplete .. | .mmtStep .. => none
  | .treeUnitExecute .. | .coreFence .. | .coreDrainSelect .. | .coreDrainEnd .. | .repartitionDone .. | .teamPlace .. => none
  | .waveEnd .. | .launchDependenceMet .. | .queueAgePromotion .. | .launchStart .. | .launchEntryRelease .. => none
  | .faultReply .. | .commandLaunch .. | .commandPreempt .. | .commandResume .. | .commandCancel .. | .prectlPreempt .. => none
  | .prectlResume .. | .prectlCancel .. | .preemptSaveComplete .. | .resumeRestore .. | .dbgctlStop .. | .dbgctlResume .. => none
  | .dbgctlSwap .. | .eareaWrite .. | .windowFadeTick .. | .bistStart .. | .bistMarchDone .. | .patrolScrub .. => none
  | .throttleTick .. | .thermalReset .. | .spdmAlgorithms .. | .spdmChallenge .. | .spdmMeasurements .. => none
  | .spdmKeyExchange .. | .spdmFinish .. | .hostMemRead .. | .hostMemWrite .. | .meetingLoadFix .. | .portUnfence .. => none
  | .portRetireTimeout .. | .preambleReceive .. | .flitReceive .. | .laneAdmit .. | .bootstrapMeeting .. => none
  | .epochAnnounce .. | .rekey .. | .rekeyDeadline .. | .laserFailure .. | .laneFlitFailures .. | .remoteHeaderArrival .. => none
  | .remoteChunkPerform .. | .remoteMsvCombine .. | .remoteGetServe .. | .remoteAtomPerform .. | .remoteArrival .. => none
  | .relayEnqueue .. | .remoteAckReceive .. | .remoteReplyReceive .. | .remoteRefusal .. | .loopbackPerform .. => none
  | .writePerformed .. | .contextDestruction .. | .powerLoss .. | .commandOpenStream .. | .commandCreateContext .. => none
  | .calnEnable .. | .calnDisable .. | .deviceReset .. | .spdmVersion .. | .spdmCapabilities .. | .spdmDigests .. => none
  | .spdmCertificate .. | .spdmKeyUpdate .. | .spdmEndSession .. | .clockSteer .. | .dataCalendarStart .. => none

/-- The words of an instruction: its word and its literal word; none for an event. -/
def encode (i : Instr) : Option (DWord × Option DWord) :=
  (encodeFields i).map fun e => (e.1.pack, e.2)

/-- An event: a step of the device that no instruction word encodes. -/
def Instr.isEvent (i : Instr) : Bool := (encodeFields i).isNone

end Sys2Proof
end

