-- ==== Sys2Proof/Config.lean ====
section
/-!
DEFINITION. What one package fixes, and the FREE VALUES: constants without a body for every value the manual leaves
open, so that no proof can rest on one. Each is named in the assumption log.
-/

namespace Sys2Proof.Config

/-- R373: whether the access numbered `n` uses a TLB entry that no longer agrees with the page tables (the old
translation) or walks them again (the new one). The manual leaves the choice to each access. DESIGN CHOICE, log 12. -/
opaque keepsOldTranslation : Nat → Bool

/-- R231, R347, R349: whether the access numbered by the first argument still finds an unowned word (the second) in L1 that no longer agrees with its home
slice (a stale copy), or the line has been evicted meanwhile. The manual gives no replacement rule and no bound on how long
a stale copy lasts. The third argument is the line's priority (R232). DESIGN CHOICE, log 17. -/
opaque l1Keeps : Nat → Nat → Nat → Bool

/-- R348, R260: whether the other waves of a core see its store numbered `n` before it is performed. By R348 they do; rows 2
and 5 of Table 9.11 allow outcomes in which they do not. DESIGN CHOICE, log 136. -/
opaque shownEarly : Nat → Bool

/-- R465: the draw numbered `n` of the port engine's generator, which picks the intermediate of route .V.
DESIGN CHOICE, log 13. -/
opaque routeDraw : Nat → Nat

/-- R431: the byte that a read of a confidential line returns under keys other than the line's own, for the reading
context, the writing context (0 for none), the local physical address, and the 16 bytes stored around it as they were before
encryption. DESIGN CHOICE, log 14. -/
opaque foreignByte : Nat → Nat → Nat → Nat → Byte

/-- R429, R430: SHA-512 digests, signatures, certificates and session secrets of Agham, numbered by what they are of.
The manual gives their algorithms and not their values. DESIGN CHOICE, log 15. -/
opaque aghamSecret : Nat → BitVec 512

/-- R429, Table 19.8: the SHA-512 digest of the persistent retirement tables, given as the numbers of the units they record.
DESIGN CHOICE, log 15. -/
opaque tablesDigest : List Nat → BitVec 512

/-- R437: the syndrome that a machine-check log entry holds, for the entry numbered `n`; the manual gives the code and not
its matrix. DESIGN CHOICE, log 18. -/
opaque syndrome : Nat → BitVec 64

/-- R437, Tables 19.14 and 19.15: a field of a machine-check entry whose code or packing the manual does not give (the
number of a register class, "pseudo-channel and bank", a reason, a failing structure, two leaf indexes): the entry's kind,
and the numbers that the field tells. DESIGN CHOICE, log 19. -/
opaque logField : Nat → Nat → Nat → BitVec 64

/-- R325: the bytes of an effect area as a save area holds them; the manual does not specify their layout. For a directory, given
as numbers, and the offset within the area. DESIGN CHOICE, log 16. -/
opaque effectAreaByte : List Nat → Nat → Byte

/-- R325: what the team's lists are when the bytes of its effect area have been changed: for the area's bytes as a number, the
entry, the record and the field. DESIGN CHOICE, log 16. -/
opaque effectAreaField : Nat → Nat → Nat → Nat → Nat

/-- A byte that an operation writes and the manual does not give: the draw's number and the byte's place in it (a copy
chunk of a poisoned line to host memory, Table 16.1). DESIGN CHOICE, log 27. -/
opaque openByte : Nat → Nat → Byte

/-- The two AES-XTS keys of the context numbered `n`, which a memory controller holds and nothing reads (R431). DESIGN CHOICE,
log 15. -/
opaque contextKey : Nat → BitVec 512

/-- R443, R456: the 96-bit tag of a flit under AES-256-GCM with a key that is never readable: the sender, the receiver, the
number of the key, the nonce, HDR and the payload's bytes as a number. DESIGN CHOICE, log 140. -/
opaque flitTag : Nat → Nat → Nat → BitVec 96 → BitVec 32 → Nat → BitVec 96

/-- R443: the encrypted payload of a flit, likewise. DESIGN CHOICE, log 140. -/
opaque flitCipher : Nat → Nat → Nat → BitVec 96 → Nat → BitVec 2048

/-- Which of several accesses that no rule orders is performed next: the draw's number. DESIGN CHOICE, log 134. -/
opaque pick : Nat → Nat

/-- R396: B, the base of the CXL.mem range through which the host reaches device memory. The host programs it, and the
manual gives no value. DESIGN CHOICE, log 8. -/
opaque hostBase : Nat

/-- R396: the size of that range, the 2^40 bytes for which R396 defines host addresses. -/
def hostRange : Nat := 2 ^ 40

/-- R439: the domain holds at most 1,152 packages (Table 20.1). -/
def maxPackages : Nat := 1152

end Sys2Proof.Config
end

