-- ==== Sys2Proof/Machine/State.lean ====
section
/-!
DEFINITION. The state of one ZH-9 package as plain data, and the package right after device reset. Every piece of
state the manual names has one home here; INVENTORY.md lists each with its rule, width and reset value.
-/

namespace Sys2Proof.Machine

/-! ## Sparse data -/

/-- Values by key: keys strictly rising, and no entry equal to what an unlisted key reads as, which is 0. -/
abbrev Sparse (w : Nat) := List (Nat × BitVec w)

/-- Bytes by address. What an unlisted address reads as is 0: DESIGN CHOICE, log 7. -/
abbrev Memory := List Host.Cell

/-- Records by number: numbers strictly rising. -/
abbrev Table (α : Type) := List (Nat × α)

/-! ## Places and accesses -/

/-- The tiers of Table 9.1. A scratchpad is its team's. -/
inductive Tier where
  | spad (team : Nat) | vault | dev | host
  deriving DecidableEq, Repr

/-- A byte's place after the address checks: its tier and its address there (scratchpad offset, vault offset, local
physical address, host physical address), the key of a confidential page (0 for none, R431), and whether the page is a
TSO page (R389). -/
structure Place where
  tier : Tier
  addr : Nat
  key  : Nat
  tso  : Bool
  deriving DecidableEq, Repr

/-- A register an instruction names (Table 5.1). -/
inductive Reg where
  | v (n : Nat) | s (n : Nat) | p (n : Nat) | t (n : Nat) | a (n : Nat) | h (n : Nat)
  deriving DecidableEq, Repr

/-- One lane's access of a memory instruction at one block position (R237), with what it read at issue (R235): the
store data, atomic operand or compare value. `virt` is the address the program formed. -/
structure Acc where
  lane  : Nat
  reg   : Nat
  place : Place
  virt  : DWord
  data  : DWord
  cmp   : Word
  deriving DecidableEq, Repr

/-- The counters of R116. -/
inductive OpClass where
  | load | store | copy | tile
  deriving DecidableEq, Repr

/-- A piece of a copy: `len` bytes at `src` go to `dst`, within one 256-byte chunk of the destination (R255). A run
never crosses a page, so source and destination are single places; the addresses that named them stand beside them for a
residual (R410). `seg` is the lane of a CPYG. -/
structure Run where
  seg   : Nat
  chunk : Nat
  src   : Place
  dst   : Place
  srcVa : Nat
  dstVa : Nat
  len   : Nat
  deriving DecidableEq, Repr

/-- A remote operation as its origin keeps it until it completes (R467): the numbers of its copies that have not been
acknowledged, each with its remote address (one, but for RPUT.M); the packages it names; its local range and, for RGET, its
local arrival word; the reply bytes asked for (R466) and come back; when its reply stands in a reply slot, that it does
(R411); and the flits that have been sent through intermediates, by copy and intermediate (R466). -/
structure Remote where
  kind    : RKind
  opcode  : Nat
  nd      : Bool
  copies  : List (Nat × Nat)
  targets : List Nat
  loc     : List (Place × Nat)
  word    : Option Place
  dstReg  : Nat
  lanes   : List LaneRec
  length  : Nat
  asked   : Nat
  got     : Nat
  slotted : Bool
  relayed : List (Nat × Nat × Nat)
  deriving DecidableEq, Repr

/-- An effect record as a list holds it (R326): a store of `size` bytes, or a deferred atomic or arrival. `sp` says that a
scratchpad instruction made it, so that its address is a scratchpad offset: log 24. -/
inductive Effect where
  | store (sp : Bool) (addr : DWord) (size : Nat) (value : DWord)
  | atomic (sp : Bool) (addr : DWord) (op : AtomOp) (operand : Word)
  | arrive (addr : DWord) (n : Nat)
  deriving DecidableEq, Repr

/-- What an outstanding operation is (Tables 9.3 and 21.x, R303). An EAPP keeps the handle and length of its list, the
records issued and not yet performed, and whether it is still issuing some (R337, R338). -/
inductive OpBody where
  | load (size : Size) (sx : Bool) (uniform : Bool) (hint : Hint) (accs : List Acc)
  | reserve (accs : List Acc)
  | store (size : Size) (hint : Hint) (accs : List Acc)
  | atomic (op : AtomOp) (nd : Bool) (accs : List Acc)
  | cond (pd : PReg) (accs : List Acc)
  | arrive (word : Place) (n : Nat)
  | apply (handle records : Nat) (parts : List (Place × Effect)) (more : Bool)
  | copy (word : Option (Nat × Place)) (runs : List Run)
  | matrix (entry : Nat)
  | tree (instr : Nat)
  | remote (r : Remote)
  deriving DecidableEq, Repr

/-- An outstanding operation: the wave and path that issued it, the core it went through, the counter it counts in, its
ordering codes, the destinations the scoreboard holds until it writes them, and whether it has completed. -/
structure Op where
  wave : Nat
  path : Mask
  core : Nat
  cls  : OpClass
  acq  : Bool
  rel  : Bool
  dests : List Reg
  long : Bool
  body : OpBody
  done : Bool
  deriving DecidableEq, Repr

/-! ## A wave -/

/-- KIND of a leaf (Table 5.4). -/
inductive LeafKind where
  | running | pending | yielded
  deriving DecidableEq, Repr

/-- What a path is held on. A WAITC keeps the home waves whose counters it awaits (R128). A WAITW keeps, for each home wave,
the word it translated and the generation it captured (R181, R128); a demand-paging fault keeps its stream and log entry
(R406); a TLBI keeps the operations it waits for (R374); a watched access keeps its operations and the trap that follows
them, by home wave (R422). -/
inductive Wait where
  | idle
  | counters (ws : List Nat) (l s c t : Nat)
  | word (ws : List (Nat × Place × Nat))
  | bar | bard | barp
  | window
  | fault (stream entry : Nat)
  | noEntry (stream : Nat) (code tval : Nat)
  | drain (ops : List Nat)
  | watch (ops : List Nat) (causes : List (Nat × Mask × Nat)) (step : Bool)
  | stepped
  deriving DecidableEq, Repr

/-- A path (Table 5.4): EMASK, FMT, PC, POS, the fields of the block it has entered as its header word (R204), the
number the next operation had when it entered the block (R409), the cycle since which it has been blocked on its next
instruction (R31), the phase of the barrier in which that instruction has arrived already (R34), and whether its entry holds an
uncorrectable error (R226). -/
structure Leaf where
  mask : Mask
  fmt  : BitVec 14
  kind : LeafKind
  pc   : DWord
  pos  : Nat
  hdr  : DWord
  wait : Wait
  stopped : Bool
  entered : Nat
  blockedAt : Option Nat
  arrived : Option Nat
  bad : Bool
  deriving DecidableEq, Repr

/-- A node's record (Table 5.4), and whether its entry holds an uncorrectable error (R226). -/
structure Node where
  mask : Mask
  fmt  : BitVec 14
  join : DWord
  bad  : Bool
  deriving DecidableEq, Repr

/-- The tree of one live slot. A parked or ended child is `empty`. -/
inductive PTree where
  | empty
  | leaf (l : Leaf)
  | node (n : Node) (taken other : PTree)
  deriving DecidableEq, Repr

/-- Status bits of a tile (Table 5.2). -/
structure TileStat where
  valid : Bool
  dirty : Bool
  inflight : Bool
  deriving DecidableEq, Repr

/-- Tags and status bits of an accumulator (Tables 5.2 and 10.3): TYPE (`int`: I32), SCL, and the span position and
index of each of the four rows groups. -/
structure AccTag where
  valid : Bool
  dirty : Bool
  inflight : Bool
  int : Bool
  scl : Bool
  spanPos : List Nat
  spanIdx : List Nat
  deriving DecidableEq, Repr

/-- A lane's reservation (R242): the address recorded, the place that holds its granule, when it was made and how many
instructions its leaf has issued since (R124). -/
structure Resv where
  virt  : DWord
  place : Place
  made  : Nat
  since : Nat
  deriving DecidableEq, Repr

/-- Conditions of a wave (Table 8.1); `waiting` holds no slot and has not been admitted; `ended` has no lane left and
waits for its outstanding operations (R177); `out` has left its core with its team (R408, R421). -/
inductive Cond where
  | waiting | new | resident | stable | ended | out
  deriving DecidableEq, Repr

/-- A wave's part in a regrouped region (R127 to R130): the region's JOIN, the lanes it brought, the FMT of its path at
the BRD, the lanes that have parked, and the window close that formed its groups. -/
structure Region where
  join   : DWord
  mask   : Mask
  fmt    : BitVec 14
  parked : Mask
  close  : Nat
  deriving DecidableEq, Repr

/-- A tile macro in progress (R356 to R358): its slot and instruction, what it read at issue (R355), the next step and the
number of steps, and whether a stop has been requested. -/
structure Macro where
  slot  : Slot
  lanes : Mask
  store : Bool
  kind  : Pair
  sc    : Bool
  dst   : Nat
  desc  : List DWord
  mxscl : DWord
  step  : Nat
  steps : Nat
  stop  : Bool
  deriving DecidableEq, Repr

/-- Kinds of a reply slot (Table 17.14). -/
inductive SlotKind where
  | register | scratchpad | arrival
  deriving DecidableEq, Repr

/-- A reply slot (R411, Table 17.14): LANES of a register reply and the number of bytes of another, DEST, the data, and
whether the operation failed. -/
structure ReplySlot where
  kind : SlotKind
  failed : Bool
  lanes : Nat
  dest : Nat
  data : List Byte
  deriving DecidableEq, Repr

/-- A residual command (R410): the tail of a copy, by the addresses that named it, the wave that issued it, and the address of
its arrival word, 0 for none. -/
structure ResidualCmd where
  dst : Nat
  src : Nat
  len : Nat
  ixw : Nat
  word : Nat
  deriving DecidableEq, Repr

/-- The trap registers of a wave as its context handler has them, kept while a page fault or a debugger stop inside the handler
uses them (R205, R207). -/
structure TrapSave where
  tcause : DWord
  tpc : DWord
  tval : DWord
  written : Bool
  hdr : DWord
  pos : Nat
  arr : Option Nat
  deriving DecidableEq, Repr

/-- A wave. `upset` lists the parts of its registers that hold an uncorrectable error (a lane of a vector register, a quarter of
an accumulator, else 0); `faded` the tiles and accumulators that read as zero until the listed parts are written too (R281);
`savedArr` goes with the saved block state: the barrier phase in
which the trapped path had arrived; `ldres` counts, for each lane, the instructions issued since its most recent LDRES, up to
64 (R124). `residuals` holds, with their operation and part, the tails of copies that await their reissue (R410). -/
structure Wave where
  team : Nat
  ixw  : Nat
  part : Nat
  slot : Option Nat
  cond : Cond
  started : Bool
  -- registers (R109)
  v : Sparse 32
  s : Sparse 64
  p : Sparse 32
  t : Sparse 8
  a : Sparse 32
  partial_ : Sparse 32
  tstat : Table TileStat
  acc : Table AccTag
  unfold : Sparse 64
  mxkoff : DWord
  mxscl : DWord
  -- small registers
  flags : BitVec 6
  recCount : BitVec 8
  tcause : DWord
  tpc : DWord
  tval : DWord
  tpcWritten : Bool
  savedHdr : DWord
  savedPos : Nat
  savedArr : Option Nat
  nest : Option TrapSave
  trapSlot : Option Slot
  trapMask : Mask
  boundary : List (Nat × Nat)
  starvArmed : Bool
  starvLeft : Nat
  starvExp : Nat
  starvOp : Nat
  -- the path table (R117)
  root : Option Node
  slotA : PTree
  slotB : PTree
  fairA : Nat
  fairB : Nat
  deferA : Bool
  deferB : Bool
  region : Option Region
  resv : Table Resv
  ldres : Table Nat
  -- collecting (R329)
  collAct : Bool
  collEntry : Nat
  collReg : Nat
  apos : Nat
  eapp : Option (Nat × List Effect)
  -- selection and the Stable (R213 to R220)
  age : Nat
  stall : Nat
  lastSlot : Option Slot
  yieldedAt : Option Nat
  issuedAt : Option Nat
  readyAt : Option Nat
  stableAt : Nat
  residentAt : Nat
  promoted : Bool
  moving : Bool
  paddockA : Bool
  paddockB : Bool
  stallc : List Nat
  upset : List (Reg × Nat)
  faded : List (Reg × List Nat)
  mmt : Option Macro
  slots : List ReplySlot
  residuals : List (Nat × Nat × ResidualCmd)
  deriving DecidableEq, Repr

/-! ## Teams, launches, contexts -/

/-- A sum-tree register (R301): element width, number of live leaves, and the leaf words. -/
structure Tree where
  m16 : Bool
  len : Nat
  leaves : Sparse 32
  deriving DecidableEq, Repr

/-- A directory entry of the effect area (R327). -/
structure EffEntry where
  tag  : Nat
  list : Option (List Effect)
  deriving DecidableEq, Repr

/-- A team. `placed` says that it holds room on its core; `out` that it has been saved and not restored (R411, R421),
`returning` that it may take a placement again, `swapped` that it left by a team swap-out, `starvedOut` that it did so under
R31, and `swapReq` that it is to leave. `barPhase`, `bardPhase` and `barpPhase` count the completed phases of its barriers
(R257, R382, R415), `outPhases` the last two as they stood when it left. -/
structure Team where
  launch : Nat
  ixt : Nat
  ixc : Nat
  ixd : Nat
  placed : Bool
  die : Nat
  lcore : Nat
  base : Nat
  out : Bool
  returning : Bool
  starvedOut : Bool
  swapped : Bool
  swapReq : Bool
  spad : Memory
  spadUpset : List Nat
  spadLen : Nat
  effLen : Nat
  dir : Table EffEntry
  trees : Table Tree
  barArr : Nat
  exited : Nat
  bardArr : Nat
  barpArr : Nat
  bardIn : Bool
  barpIn : Bool
  barPhase : Nat
  bardPhase : Nat
  barpPhase : Nat
  outPhases : Nat × Nat
  startCyc : Nat
  placedAt : Nat
  deriving DecidableEq, Repr

/-- Granules of a pool split (Table 8.4). -/
structure Split where
  spad : Nat
  l1   : Nat
  stbl : Nat
  deriving DecidableEq, Repr

/-- A launch record's fields (Table 17.6). -/
structure LaunchRec where
  merge  : Bool
  phased : Bool
  ctx    : Nat
  prio   : Nat
  laneClass : Nat
  waveClass : Nat
  teamClass : Nat
  entry  : DWord
  w : Nat
  c : Nat
  d : Nat
  t : Nat
  g : Nat
  vg : Nat
  ug : Nat
  tiles : Nat
  accs : Nat
  hregs : Nat
  split : Split
  spad : Nat
  eff : Nat
  n : Nat
  ns : Nat
  ixg : Nat
  scheds : List Nat
  deps : List (Nat × Nat)
  done : Nat
  args : List DWord
  save : Nat
  stream : Nat
  deriving DecidableEq, Repr

/-- An entry of the launch table (R402) while it is claimed. `ostler` names the stream, by its base, whose Ostler wave this is
(R393): the Ostler's code is not given, and no step of the model makes one (log 92). `st` is a code of Table 17.7. `image` is
the record as LAUNCH read it. `nextTeam` gives, for cluster group `d * 8 + c`, the next team to place. `ended` lists the teams that have
ended by IXD, IXC and IXT. -/
structure Launch where
  recd : LaunchRec
  image : List Byte
  st : Nat
  queue : Nat
  enq : Nat
  phase : Nat
  sched : Nat
  phaseAt : Nat
  times : List Nat
  dies : List Nat
  clusters : List (List Nat)
  nextTeam : Table Nat
  ended : List (Nat × Nat × Nat)
  promoted : Bool
  startAt : Nat
  doneAt : Option Nat
  readIt : Bool
  preAt : Nat
  ostler : Option Nat
  deriving DecidableEq, Repr

structure Context where
  ptroot : DWord
  ctxvec : DWord
  limit : Nat
  rgwin : Nat
  mthr : Nat
  fair : Nat
  thr : Nat
  conf : Bool
  keyNo : Nat
  demand : Bool
  att : Bool
  stepOn : Bool
  wp : List DWord
  trbuf : DWord
  mbuf : DWord
  evCount : Nat
  blkCount : Nat
  deriving DecidableEq, Repr

/-! ## Cores and dies -/

/-- States of Table 8.5. -/
inductive CoreState where
  | active | draining | repartitioning | fenced
  deriving DecidableEq, Repr

/-- A word of L1 (R347). -/
structure L1Word where
  val : Word
  owned : Bool
  key : Nat
  deriving DecidableEq, Repr

/-- A translation kept by a TLB: the page and what the walk found; or, in a walk cache, a table entry that is no leaf, with the
range of addresses that it translates (R373). -/
structure TlbEntry where
  ctx  : Nat
  page : Nat
  size : Nat
  leaf : DWord
  deriving DecidableEq, Repr

/-- What a matrix queue entry does (R262, R292 to R298), with what its instruction read at issue (R263). `folds`: the accumulator
has an open span, which the entry folds (R274). -/
inductive MBody where
  | mldt (t : Nat) (off : Nat)
  | msta (bf16 : Bool) (a : Nat) (off : Nat) (folds : Bool)
  | mza (int : Bool) (a : Nat)
  | mmq (k : Pair) (sc : Bool) (a t q koff : Nat)
  | mmg (k : Pair) (sc : Bool) (t q koff : Nat) (idx entries : List Nat)
  | mtrn (k : Pair) (a t q j : Nat)
  | mprm (k : Pair) (a t q : Nat) (idx : List Nat)
  | mred (k : Pair) (a t q : Nat)
  | mcvt (k : McvtTy) (t a j : Nat) (folds : Bool)
  deriving DecidableEq, Repr

/-- An entry of a partition's matrix queue. `born` is the number the next operation had when its instruction issued;
`tOp`, `sOp` are the operations it completes when `last`. `got` holds the scratchpad bytes read so far (R299). A started entry
has read them all; its datapath cycles end in cycle `ends` (R262), and it holds the flags and scratchpad writes and additions
it makes when its writes complete. -/
structure MEntry where
  wave : Nat
  born : Nat
  body : MBody
  unfold : List DWord
  mxscl : DWord
  tOp : Option Nat
  sOp : Option Nat
  last : Bool
  got : List (Nat × Byte)
  started : Bool
  ends : Nat
  flags : BitVec 6
  writes : List Host.Cell
  adds : List (Nat × Word)
  deriving DecidableEq, Repr

/-- What the tree unit executes (R308 to R316). Lane lists pair a lane with its operand; `recs` holds the records that an
HBLD.SP of a collecting wave finds before it (R331), `collect` names the open collection that an HSTL records in (R319). -/
inductive TreeDo where
  | build (m16 : Bool) (len : Nat) (leaves : List Nat)
  | buildSp (m16 : Bool) (len off : Nat) (recs : Option (List Effect))
  | set (lanes : List (Nat × Nat × Nat))
  | add (lanes : List (Nat × Nat × Nat))
  | pfxV (d : Nat) (lanes : List (Nat × Nat))
  | pfxS (d : Nat) (i : Nat)
  | findV (d : Nat) (lanes : List (Nat × Nat))
  | findS (d : Nat) (m : Nat)
  | cut (d : Nat) (m : Nat)
  | tot (d : Nat)
  | lenRead (d : Nat)
  | lenSet (n : Nat)
  | stl (off : Nat) (collect : Option Nat)
  deriving DecidableEq, Repr

/-- An entry of a core's tree-unit queue. `born` is the number the next operation had when its instruction issued. -/
structure TreeCmd where
  wave : Nat
  born : Nat
  path : Mask
  team : Nat
  h : Nat
  op : Option Nat
  body : TreeDo
  deriving DecidableEq, Repr

/-- The replacement priority of a cached line: the hint of its most recent access, and the cycle of that access (R232). -/
structure LinePrio where
  hint : Hint
  at_  : Nat
  deriving DecidableEq, Repr

/-- A core by its logical number: its state and split (Table 8.5), the split it drains for, the cycle at which its
repartition ends, the cycle from which launches may use the number (R227), L1 with the priorities of its lines, TLB, the
tree-unit queue, the matrix queues, and for how many cycles each partition has issued nothing while a candidate was ready (R226). -/
structure Core where
  st : CoreState
  split : Split
  nextSplit : Option Split
  dueAt : Nat
  since : Nat
  l1 : Table L1Word
  l1prio : Table LinePrio
  tlb : List TlbEntry
  treeQ : List TreeCmd
  mq : Table (List MEntry)
  idle : List Nat
  deriving DecidableEq, Repr

/-- A regroup arrival window (R126): the waves that have arrived with their taken and other lanes, and where the
two arms go. -/
structure RWindow where
  team : Nat
  core : Nat
  part : Nat
  brd : DWord
  join : DWord
  opened : Nat
  arrived : List (Nat × Mask × Mask)
  takenPc : DWord
  otherPc : DWord
  deriving DecidableEq, Repr

/-- A regrouped group (R127): the window close that formed it, the live slot it occupies in its lead wave, its home
waves with their lanes, and the region's JOIN. -/
structure Group where
  close : Nat
  lead : Nat
  slot : Slot
  join : DWord
  homes : List (Nat × Mask)
  deriving DecidableEq, Repr

/-- A pinned window (R375 to R377). -/
structure Pinned where
  ctx : Nat
  base : Nat
  len : Nat
  fade : Nat
  touched : Bool
  deriving DecidableEq, Repr

/-- A request of a load or store instruction in a pseudo-channel's queue since the cycle `since`: the issuing wave, the
instruction's tag, the line, and the 32-byte sectors that the instruction needs in total (R363). -/
structure HbmReq where
  wave : Nat
  op : Nat
  line : Nat
  sectors : Nat
  since : Nat
  deriving DecidableEq, Repr

/-- Phases of the self-test of one bank (R367): the copy and march, and the pass's restore is one step. -/
structure Bist where
  chan : Nat
  bank : Nat
  deriving DecidableEq, Repr

/-- A die's memory service (R361 to R367, R377, R383): HBMCTL's fields, the live channels of each stack and the keys of the
pseudo-channels retired at reset, pinned windows with their tags, the lines that the memory-side cache holds with their
priorities (R231, R232), the last-level TLB, the walk cache (R373), the pseudo-channel queues and the tag each serves,
corrected reads counted by pseudo-channel and TSV group, erasure marks, the TSV groups in error of uncorrectable lines, the
lines and vault words found uncorrectable in this scrub period, vault words that hold an error, self-tests, and retired vault
banks. -/
structure Die where
  cethr : Nat
  bistint : Nat
  scrub : Nat
  fadep : Nat
  ch : List Nat
  dead : List Nat
  win : Table Pinned
  winTag : Sparse 16
  msc : Table LinePrio
  tlb : List TlbEntry
  walkc : List TlbEntry
  chq : Table (List HbmReq)
  serving : Table Nat
  ce : List (Nat × Nat × Nat)
  erased : List (Nat × Nat)
  lineGroups : Sparse 10
  lineErrs : List Nat
  vaultErrs : List Nat
  vaultUpset : List Nat
  bist : Table Bist
  bistAt : Table (Nat × Nat)
  vbret : List Nat
  deriving DecidableEq, Repr

/-! ## The package -/

/-- A unit the persistent tables can record (R432). -/
inductive Retired where
  | core (die cluster phys : Nat)
  | channel (die stack n : Nat)
  | bank (die chan bank : Nat)
  | vaultBank (die vault bank : Nat)
  | tsv (die chan group : Nat)
  | port (n : Nat)
  | waves (port : Nat) (laserB : Bool)
  deriving DecidableEq, Repr

/-- One of the two copies of the persistent tables (R432). `intact` is whether its check verifies. -/
structure PersistCopy where
  seq : Nat
  intact : Bool
  units : List Retired
  deriving DecidableEq, Repr

/-- A copy of the firmware image in on-package flash (19 R429): the number of its content, its security version, and whether the
vendor's signature over its digest verifies. -/
structure Firmware where
  content : Nat
  version : Nat
  signed : Bool
  deriving DecidableEq, Repr

/-- A command stream (R392 to R395); stream 0 is the bootstrap stream. `halted` says that its Ostler wave has executed HALT
(19 R425). -/
structure Stream where
  base : Nat
  size : Nat
  flogn : Nat
  flog : Nat
  halted : Bool
  deriving DecidableEq, Repr

inductive CalPhase where
  | off | boot | data
  deriving DecidableEq, Repr

/-- The calendar's CSRs and clock (20 R438 to R447, R452 to R454). `ps` is the slot clock in picoseconds since the
start of the calendar in force; `offsets` are the offsets measured in this calendar cycle from peers of lower index, and
`worstNow` the largest predicted magnitude in it. -/
structure Cal where
  phase : CalPhase
  en : Bool
  index : Nat
  n : Nat
  psel : BitVec 16
  slotlen : Nat
  guard : Nat
  ps : Int
  stopping : Bool
  announced : Option Nat
  steered : Nat
  offsets : List Int
  worst : Nat
  worstNow : Nat
  silent : Nat
  deriving DecidableEq, Repr

/-- A physical port (R447, R448, R455, R457). `admittedAt` is the calendar cycle in which it last admitted a lane, `goodSince`
the first from which every offset it measured while fenced was good; `fixedAt` and `gotAt` are one more than the number of the
slot whose meeting it last fixed, and in which it last locked a preamble; `darkAt` is the same of the slot in which a laser failed. -/
structure Port where
  live : Bool
  w8 : Bool
  laserA : Bool
  laserB : Bool
  lanes : BitVec 16
  admittedAt : Nat
  silentRun : Nat
  fenced : Bool
  fencedAt : Nat
  goodSince : Nat
  fixedAt : Nat
  gotAt : Nat
  toldAt : Nat
  darkAt : Nat
  deriving DecidableEq, Repr

/-- What the target has translated when it accepts an operation (R459, R469, R473): the places of its range, its arrival word there,
and the words of a RATOM's lanes. -/
structure Accepted where
  range : List (Place × Nat)
  word : Option Place
  lanes : List (LaneRec × Place)
  deriving DecidableEq, Repr

/-- What waits in a queue of the Yard (R461): an operation's header and the bytes that travel with it. An operation of this
package names itself and its copy, and reads its bytes when a chunk is sent (R470); `next` is the offset of the first chunk
not sent, and `opened` tells that its header has been sent. `since` is the cycle in which it entered its queue (R482); `acc` what a
loopback operation was accepted with (R469). -/
structure YardItem where
  op : Option (Nat × Nat)
  header : RHeader
  data : List Byte
  next : Nat
  opened : Bool
  since : Nat
  acc : Option Accepted
  deriving DecidableEq, Repr

/-- The preamble that a package sends (R444): the cumulative acknowledgement, its lane mask, and the key bank it sends under. -/
structure Preamble where
  ack : Nat
  lanes : BitVec 16
  kgen : Bool
  deriving DecidableEq, Repr

/-- What this package keeps for one peer (20 R443 to R456, 21 R461). `measured` is the offset of a preamble locked in the guard
in force; `bad` that no further flit of the meeting counts; `newSent` how many of the replay buffer's last flits were new in the meeting
last fixed; `keyToldAt` is one more than the slot in which a key that stands pending was first announced; `newInGot` that a flit under
the newest inbound key has come, `keyInAt` and `keyInLate` are for that direction what `keyAt` and `keyLate` are for the other. -/
structure Peer where
  admitted : Bool
  sendSeq : Nat
  recvSeq : Nat
  bad : Bool
  replay : List (Nat × Payload)
  kgenOut : Bool
  kgenIn : Bool
  oldInKept : Bool
  keyAt : Nat
  keyPending : Bool
  keyToldAt : Nat
  keyLate : Bool
  newInGot : Bool
  keyInAt : Nat
  keyInLate : Bool
  newSent : Nat
  offset : Int
  measured : Int
  steeredSince : Int
  width : Nat
  peerLanes : BitVec 16
  peerSilent : Bool
  keysOut : Nat
  keysIn : Nat
  gotFlits : Nat
  told : Option Nat
  direct : List YardItem
  relay : List YardItem
  reply : List YardItem
  deriving DecidableEq, Repr

/-- A remote operation in progress at this package as target (R469 to R475): its header, how many bytes of it have been
performed or served, the chunks that are written and whose arrival is due, the flags its steps have raised, and what it was accepted
with. -/
structure Inbound where
  header : RHeader
  got : Nat
  owed : List (Nat × Nat)
  flags : BitVec 6
  part : Option (Nat × Nat)
  replies : List Word
  acc : Accepted
  deriving DecidableEq, Repr

/-- Replies of the SPDM responder (R430), each as what it carries. -/
inductive SpdmReply where
  | none | version | capabilities | algorithms | digests | certificate
  | challengeAuth (nonce : Nat) | measurements (index : Nat) (block : List Byte) | keyExchange (share : Nat)
  | finish | keyUpdate | endSession | error
  deriving DecidableEq, Repr

structure Spdm where
  version : Bool
  caps : Bool
  algs : Bool
  pending : Bool
  session : Bool
  keyGen : Nat
  reply : SpdmReply
  deriving DecidableEq, Repr

/-- The last answer to a host CXL.mem read: its bytes, or CXL poison (R388). -/
inductive HostReply where
  | none | bytes (b : List Byte) | poison
  deriving DecidableEq, Repr

structure State where
  -- machine and model control
  cycle : Nat
  cur : Option PathRef
  grant : Option PathRef
  rot : List Nat
  agenda : List Instr
  turn : Nat
  spent : List Nat
  free : Nat
  nextId : Nat
  held : Option Nat
  -- work
  waves : Table Wave
  teams : Table Team
  launches : Table Launch
  launchTags : Sparse 20
  contexts : Table Context
  ops : Table Op
  groups : List Group
  regroup : List RWindow
  closes : Nat
  streams : List Stream
  -- storage
  dev : Memory
  vault : Memory
  host : Memory
  poison : List Nat
  lineKeys : Table Nat
  owners : List (Nat × Nat)
  cores : Table Core
  dies : Table Die
  -- package
  oos : Bool
  mccnt : Nat
  pwr : Nat
  tmax : Nat
  level : Nat
  plim : Nat
  copyA : PersistCopy
  copyB : PersistCopy
  image : Option Nat
  fwA : Firmware
  fwB : Firmware
  fwFused : Nat
  bootFailed : Bool
  spdm : Spdm
  hostReply : HostReply
  -- fabric
  cal : Cal
  ports : Table Port
  peers : Table Peer
  inbound : List Inbound
  sent : List (Nat × Flit)
  preambles : Table Preamble
  arrived : List (Nat × Payload)
  deriving DecidableEq, Repr

/-! ## Stops -/

/-- Reasons for which the machine stops with a fault. -/
inductive Fault where
  /-- An encoded instruction is asked for while no path is issuing it. Raised by every encoded instruction's meaning,
  through the shared issue operation; `step` never asks for that. Safe: nothing is claimed of such a state. -/
  | noIssuingPath
  deriving DecidableEq, Repr

/-- Reasons for which the machine refuses. -/
inductive Refusal where
  /-- An instruction without a meaning yet, by its mnemonic: raised by its arm of `exec`. Safe: nothing is claimed. -/
  | notModelled (mnemonic : String)
  deriving DecidableEq, Repr

/-! ## Reset -/

/-- The default split 8/6/2 (Table 8.5). -/
def Split.default : Split := ⟨8, 6, 2⟩

/-- CSR resets of a context (Tables 1.6, 5.5, 8.3, 16.5, 7.9, 19.1, 19.2, 19.4). -/
def Context.fresh : Context where
  ptroot := 0
  ctxvec := 0
  limit := 0x100000
  rgwin := 64
  mthr := 16
  fair := 4096
  thr := 2048
  conf := false
  keyNo := 0
  demand := false
  att := false
  stepOn := false
  wp := [0, 0, 0, 0]
  trbuf := 0
  mbuf := 0
  evCount := 0
  blkCount := 0

/-- A core at reset (Table 8.5): Active with the default split, nothing cached or queued. -/
def Core.fresh : Core where
  st := .active
  split := Split.default
  nextSplit := none
  dueAt := 0
  since := 0
  l1 := []
  l1prio := []
  tlb := []
  treeQ := []
  mq := []
  idle := [0, 0, 0, 0]

/-- A die at reset (Tables 16.2, 16.11), with 32 live channels in each stack: log 5. DESIGN CHOICE, log 6. -/
def Die.fresh : Die where
  cethr := 4
  bistint := 16
  scrub := 24
  fadep := 20
  ch := [32, 32, 32, 32]
  dead := []
  win := []
  winTag := []
  msc := []
  tlb := []
  walkc := []
  chq := []
  serving := []
  ce := []
  erased := []
  lineGroups := []
  lineErrs := []
  vaultErrs := []
  vaultUpset := []
  bist := []
  bistAt := []
  vbret := []

/-- The calendar at reset (Tables 20.1 to 20.5, 20.12). -/
def Cal.fresh : Cal where
  phase := .off
  en := false
  index := 0
  n := 0
  psel := 0
  slotlen := 400
  guard := 12
  ps := 0
  stopping := false
  announced := none
  steered := 0
  offsets := []
  worst := 0
  worstNow := 0
  silent := 0

/-- A live port at 16 wavelengths: log 5. -/
def Port.fresh : Port where
  live := true
  w8 := false
  laserA := true
  laserB := true
  lanes := 0
  admittedAt := 0
  silentRun := 0
  fenced := false
  fencedAt := 0
  goodSince := 0
  fixedAt := 0
  gotAt := 0
  toldAt := 0
  darkAt := 0

/-- A peer that has not been met. -/
def Peer.fresh : Peer where
  admitted := false
  sendSeq := 0
  recvSeq := 0
  bad := false
  replay := []
  kgenOut := false
  kgenIn := false
  oldInKept := false
  keyAt := 0
  keyPending := false
  keyToldAt := 0
  keyLate := false
  newInGot := false
  keyInAt := 0
  keyInLate := false
  newSent := 0
  offset := 0
  measured := 0
  steeredSince := 0
  width := 0
  peerLanes := 0
  peerSilent := false
  keysOut := 0
  keysIn := 0
  gotFlits := 0
  told := none
  direct := []
  relay := []
  reply := []

def Spdm.fresh : Spdm := ⟨false, false, false, false, false, 0, .none⟩

/-- The bootstrap stream (R394): its header at local physical address 0, SIZE 16, no fault log. -/
def Stream.boot : Stream := ⟨0, 16, 0, 0, false⟩

/-- The package right after device reset (R394): persistent tables with nothing retired (log 5), firmware image 0
started (log 10), context 0 and the bootstrap stream. -/
def State.reset : State where
  cycle := 0
  cur := none
  grant := none
  rot := []
  agenda := []
  turn := 0
  spent := []
  free := 0
  nextId := 1
  held := none
  waves := []
  teams := []
  launches := []
  launchTags := []
  contexts := [(0, Context.fresh)]
  ops := []
  groups := []
  regroup := []
  closes := 0
  streams := [Stream.boot]
  dev := []
  vault := []
  host := []
  poison := []
  lineKeys := []
  owners := []
  cores := []
  dies := [(0, Die.fresh), (1, Die.fresh), (2, Die.fresh), (3, Die.fresh)]
  oos := false
  mccnt := 0
  pwr := 0
  tmax := 0
  level := 0
  plim := 3000
  copyA := ⟨1, true, []⟩
  copyB := ⟨0, true, []⟩
  image := some 0
  fwA := ⟨0, 0, true⟩
  fwB := ⟨0, 0, true⟩
  fwFused := 0
  bootFailed := false
  spdm := Spdm.fresh
  hostReply := .none
  cal := Cal.fresh
  ports := (List.range 16).map fun n => (n, Port.fresh)
  peers := []
  inbound := []
  sent := []
  preambles := []
  arrived := []

end Sys2Proof.Machine
end

