-- ==== Sys2Proof/Machine/Store.lean ====
section
/-!
DEFINITION. Reading and writing tables, register files and byte memories. Every write keeps the one canonical form: keys
strictly rising, and in a `Sparse` or `Memory` no entry equal to what an unlisted key reads as.
-/

namespace Sys2Proof.Machine

/-! ## Tables -/

def Table.look {α : Type} : Table α → Nat → Option α
  | [], _ => none
  | (k, a) :: r, n => if n = k then some a else if n < k then none else Table.look r n

def Table.put {α : Type} : Table α → Nat → α → Table α
  | [], n, x => [(n, x)]
  | (k, a) :: r, n, x =>
    if n = k then (n, x) :: r else if n < k then (n, x) :: (k, a) :: r else (k, a) :: Table.put r n x

def Table.del {α : Type} : Table α → Nat → Table α
  | [], _ => []
  | (k, a) :: r, n => if n = k then r else if n < k then (k, a) :: r else (k, a) :: Table.del r n

/-- The value at `n`, or `d` when nothing is listed there. -/
def Table.lookD {α : Type} (t : Table α) (n : Nat) (d : α) : α := (t.look n).getD d

/-- Apply `f` to the record numbered `n`, when there is one. -/
def Table.upd {α : Type} (t : Table α) (n : Nat) (f : α → α) : Table α :=
  match t.look n with
  | some x => t.put n (f x)
  | none => t

def Table.map {α β : Type} (f : Nat → α → β) : Table α → Table β
  | [] => []
  | (k, a) :: r => (k, f k a) :: Table.map f r

/-- The records for which `f` holds. -/
def Table.keep {α : Type} (f : Nat → α → Bool) : Table α → Table α
  | [] => []
  | (k, a) :: r => if f k a then (k, a) :: Table.keep f r else Table.keep f r

def Table.keys {α : Type} : Table α → List Nat
  | [] => []
  | (k, _) :: r => k :: Table.keys r

/-- The lowest number at or above `n` that the table does not list. -/
def Table.freeFrom {α : Type} : Nat → Table α → Nat
  | n, [] => n
  | n, (k, _) :: r => if k < n then Table.freeFrom n r else if k = n then Table.freeFrom (n + 1) r else n

/-- Numbers strictly rising, all at or above `lo`. -/
def Table.wfFrom {α : Type} : Nat → Table α → Bool
  | _, [] => true
  | lo, (k, _) :: r => decide (lo ≤ k) && Table.wfFrom (k + 1) r

def Table.wf {α : Type} (t : Table α) : Bool := Table.wfFrom 0 t

/-! ## Sparse values -/

def Sparse.rd {w : Nat} (t : Sparse w) (n : Nat) : BitVec w := (Table.look t n).getD 0

def Sparse.wr {w : Nat} (t : Sparse w) (n : Nat) (x : BitVec w) : Sparse w :=
  if x = 0 then Table.del t n else Table.put t n x

/-- The entries whose key satisfies `f`; the others read 0 from then on. -/
def Sparse.keepKeys {w : Nat} (f : Nat → Bool) (t : Sparse w) : Sparse w := Table.keep (fun k _ => f k) t

/-- Keys strictly rising from `lo`, and no value 0. -/
def Sparse.wfFrom {w : Nat} : Nat → Sparse w → Bool
  | _, [] => true
  | lo, (k, x) :: r => decide (lo ≤ k) && decide (x ≠ 0) && Sparse.wfFrom (k + 1) r

def Sparse.wf {w : Nat} (t : Sparse w) : Bool := Sparse.wfFrom 0 t

/-! ## Bytes -/

/-- What an address nothing has written reads as: DESIGN CHOICE, log 7. -/
def Memory.unlisted : Byte := 0

/-- DESIGN CHOICE, log 7. -/
def Memory.byte (m : Memory) (a : Nat) : Byte := Sparse.rd (w := 8) m a

def Memory.setByte (m : Memory) (a : Nat) (x : Byte) : Memory := Sparse.wr (w := 8) m a x

/-- The canonical form of a memory. -/
def Memory.wf (m : Memory) : Bool := Sparse.wf (w := 8) m

/-- `mem(a, n)`: the n bytes at `a`, little-endian (R5, Table 0.7). -/
def Memory.read (m : Memory) (a : Nat) : Nat → Nat
  | 0 => 0
  | n + 1 => (m.byte a).toNat + 256 * Memory.read m (a + 1) n

/-- `mem(a, n) := x`, little-endian. -/
def Memory.write (m : Memory) (a : Nat) : Nat → Nat → Memory
  | 0, _ => m
  | n + 1, x => Memory.write (m.setByte a (BitVec.ofNat 8 x)) (a + 1) n (x / 256)

def Memory.readBytes (m : Memory) (a : Nat) : Nat → List Byte
  | 0 => []
  | n + 1 => m.byte a :: Memory.readBytes m (a + 1) n

def Memory.writeBytes (m : Memory) (a : Nat) : List Byte → Memory
  | [] => m
  | b :: r => Memory.writeBytes (m.setByte a b) (a + 1) r

/-- Bytes `n` of `x`, little-endian. -/
def bytesLE : Nat → Nat → List Byte
  | 0, _ => []
  | n + 1, x => BitVec.ofNat 8 x :: bytesLE n (x / 256)

def natOfBytes : List Byte → Nat
  | [] => 0
  | b :: r => b.toNat + 256 * natOfBytes r

/-! ## Small list helpers -/

/-- The first position at or after `i` for which `f` holds. -/
def firstIdx {α : Type} (f : α → Bool) : List α → Nat → Option Nat
  | [], _ => none
  | a :: r, i => if f a then some i else firstIdx f r (i + 1)

def setIdx {α : Type} : List α → Nat → α → List α
  | [], _, _ => []
  | _ :: r, 0, x => x :: r
  | a :: r, n + 1, x => a :: setIdx r n x

def nth {α : Type} (d : α) : List α → Nat → α
  | [], _ => d
  | a :: _, 0 => a
  | _ :: r, n + 1 => nth d r n

/-- The element of least key, the earliest on a tie. -/
def leastBy {α : Type} (key : α → Nat) : List α → Option α
  | [] => none
  | a :: r =>
    match leastBy key r with
    | none => some a
    | some b => if key b < key a then some b else some a

/-- The element of greatest key, the earliest on a tie. -/
def greatestBy {α : Type} (key : α → Nat) : List α → Option α
  | [] => none
  | a :: r =>
    match greatestBy key r with
    | none => some a
    | some b => if key a < key b then some b else some a

/-- `n` as a list of the numbers below it, in order. -/
def upto (n : Nat) : List Nat := List.range n

/-- The lanes of a mask, ascending. -/
def lanesOf (m : Mask) : List Nat := (upto 32).filter fun l => m.getLsbD l

/-- The mask of one lane. -/
def laneBit (l : Nat) : Mask := BitVec.ofNat 32 (2 ^ l)

def maskOf (ls : List Nat) : Mask := ls.foldl (fun m l => m ||| laneBit l) 0

end Sys2Proof.Machine
end

