-- ==== Sys2Proof/Machine/Translate.lean ====
section
/-!
DEFINITION. Device physical memory, page tables and TLBs (spec/16_die.md R361, R370 to R373, R383), the storage of confidential
lines (spec/19_observation_and_service.md R431), and where an address points (spec/09_core_memory.md R228).
-/

namespace Sys2Proof.Machine

/-! ## Device physical memory -/

/-- R361, Table 16.11: the live pseudo-channels of a die. -/
def Die.channels (d : Die) : Nat := 2 * d.ch.foldl (· + ·) 0

def State.die (s : State) (n : Nat) : Die := s.dies.lookD n Die.fresh

/-- R361: `a` is a local physical address of device memory. -/
def State.isDev (s : State) (a : Nat) : Bool :=
  decide (a < 2 ^ 40) && decide (a % 2 ^ 38 < (s.die (a / 2 ^ 38)).channels * 2 ^ 30)

/-- R361: the pseudo-channel slot and the byte within it of an offset into a die's memory. -/
def chanOf (n o : Nat) : Nat × Nat :=
  let u := o / 256
  (u % n, (u / n) * 256 + o % 256)

/-- R343: the home slice of a device address on its die. -/
def homeSlice (a : Nat) : Nat := (a / 64 % 8) ^^^ (a / 2 ^ 14 % 8) ^^^ (a / 2 ^ 22 % 8)

/-! ## Confidential lines (R431) -/

/-- What the byte at `a`, stored under key number `k`, reads as under the key number `key`: AES-XTS works on blocks of 16 bytes.
DESIGN CHOICE, log 14. -/
def State.foreign (s : State) (key k a : Nat) : Byte := Config.foreignByte key k a (s.dev.read (a / 16 * 16) 16)

/-- The byte a read of device memory under key number `key` gives. DESIGN CHOICE, log 14. -/
def State.devByte (s : State) (key a : Nat) : Byte :=
  let k := s.lineKeys.lookD (a / 64) 0
  if k = key then s.dev.byte a else s.foreign key k a

/-- The line holding `a`, as a writer under `key` finds it before it changes some of its bytes. -/
def State.rekeyLine (s : State) (key a : Nat) : State :=
  let line := a / 64
  let k := s.lineKeys.lookD line 0
  if k = key then s
  else
    { s with
      dev := s.dev.writeBytes (line * 64) ((upto 64).map fun i => s.foreign key k (line * 64 + i))
      lineKeys := if key = 0 then s.lineKeys.del line else s.lineKeys.put line key }

def State.setDevByte (s : State) (key a : Nat) (x : Byte) : State :=
  let s := s.rekeyLine key a
  { s with dev := s.dev.setByte a x }

/-! ## Page tables -/

/-- What an access wants of a page. -/
inductive Want where
  | read | write | fetch
  deriving DecidableEq, Repr

/-- Bit fields of a natural number: `bits(x, hi, lo)`. -/
def bitsN (x hi lo : Nat) : Nat := x / 2 ^ lo % 2 ^ (hi + 1 - lo)

def bitN (x n : Nat) : Bool := x / 2 ^ n % 2 == 1

/-- Table 16.6: for each level, the lowest virtual address bit that indexes it and how many bits do. -/
def pageLevels : List (Nat × Nat) := [(43, 13), (31, 12), (21, 10), (16, 5)]

/-- R371, R372: a leaf at the level whose pages are 2^`sh` bytes is well placed. DEDUCED, log 28. -/
def State.leafOk (s : State) (sh e : Nat) : Bool :=
  if bitN e 61 then
    let pa := bitsN e 55 8 * 256
    decide (pa % 2 ^ sh = 0) && decide (pa < 2 ^ 52) &&
      (decide (pa + 2 ^ sh ≤ Config.hostBase) || decide (Config.hostBase + Config.hostRange ≤ pa))
  else
    let pa := bitsN e 45 8 * 256
    decide (bitsN e 55 46 = 0) && decide (pa % 2 ^ sh = 0) && s.isDev pa && s.isDev (pa + 2 ^ sh - 1)

/-- R370, R371: the walk from the table at `table`: the page's size as a power of two, and its leaf. -/
def State.walk (s : State) (va table : Nat) : List (Nat × Nat) → Option (Nat × Nat)
  | [] => none
  | (sh, b) :: rest =>
    let ea := table + 8 * (va / 2 ^ sh % 2 ^ b)
    let e := s.dev.read ea 8
    if !(s.isDev ea) || !(bitN e 63) then none
    else if bitN e 62 then
      if sh == 43 || !(s.leafOk sh e) then none else some (sh, e)
    else
      match rest with
      | [] => none
      | (_, b') :: _ =>
        let next := bitsN e 45 8 * 256
        if bitsN e 61 46 != 0 || next % (8 * 2 ^ b') != 0 then none
        else State.walk s va next rest

/-- R373: the entries that are no leaves, on the way of the walk from the table at `table`: the lowest address bit that each
leaves untranslated, and the entry. -/
def State.walkTrail (s : State) (va table : Nat) : List (Nat × Nat) → List (Nat × Nat)
  | [] => []
  | (sh, b) :: rest =>
    let ea := table + 8 * (va / 2 ^ sh % 2 ^ b)
    let e := s.dev.read ea 8
    if !(s.isDev ea) || !(bitN e 63) || bitN e 62 then []
    else (sh, e) :: State.walkTrail s va (bitsN e 45 8 * 256) rest

/-- R373: the entry for a page in a list of TLB entries. -/
def tlbFind (ctx va : Nat) : List TlbEntry → Option (Nat × Nat)
  | [] => none
  | t :: r => if t.ctx == ctx && va / 2 ^ t.size == t.page then some (t.size, t.leaf.toNat) else tlbFind ctx va r

def State.core (s : State) (k : Nat) : Core := s.cores.lookD k Core.fresh

/-- The number of the draw `k` of the current step (fewer than 2^14 draws are made in one step). DESIGN CHOICE, log 1. -/
def State.draw (s : State) (k : Nat) : Nat := s.free * 2 ^ 14 + k

def State.ctx (s : State) (n : Nat) : Option Context := s.contexts.look n

/-- R370: the level-0 table of a context. -/
def Context.root (c : Context) : Nat := bitsN c.ptroot.toNat 45 16 * 2 ^ 16

/-- R373: the entry of least size for `va` in a walk cache. -/
def walkFind (ctx va : Nat) (l : List TlbEntry) : Option TlbEntry :=
  leastBy TlbEntry.size (l.filter fun t => t.ctx == ctx && va / 2 ^ t.size == t.page)

/-- R373: what the TLBs and the walk cache hold for `va`; `none` when they hold nothing. -/
def State.keptPage (s : State) (core ctx va : Nat) : Option (Option (Nat × Nat)) :=
  let d := s.die (core / 64)
  match (tlbFind ctx va (s.core core).tlb).orElse fun _ => tlbFind ctx va d.tlb with
  | some e => some (some e)
  | none =>
    (walkFind ctx va d.walkc).map fun t =>
      s.walk va (bitsN t.leaf.toNat 45 8 * 256) (pageLevels.filter fun x => x.1 < t.size)

/-- R373: what translates `va` for an access numbered `draw`: the walk of the tables as they stand, or what has been kept of
it. What no longer agrees may be used or not, chosen for each access by a free value. DESIGN CHOICE, log 12. -/
def State.pageOf (s : State) (core ctx va draw : Nat) : Option (Nat × Nat) :=
  match s.ctx ctx with
  | none => none
  | some c =>
    let fresh := s.walk va c.root pageLevels
    match s.keptPage core ctx va with
    | none => fresh
    | some old => if fresh = old then fresh else if Config.keepsOldTranslation draw then old else fresh

/-- R371: whether a leaf permits the access. -/
def leafPermits (leaf : Nat) (priv : Bool) : Want → Bool
  | .read => priv || bitN leaf 56
  | .write => bitN leaf 58 && (priv || bitN leaf 56)
  | .fetch => bitN leaf 57 && (priv || bitN leaf 56)

/-- R372: the place a leaf gives a virtual address. -/
def leafPlace (keyNo sh leaf va : Nat) : Place :=
  let off := va % 2 ^ sh
  if bitN leaf 61 then ⟨.host, bitsN leaf 55 8 * 256 + off, 0, bitN leaf 60⟩
  else ⟨.dev, bitsN leaf 45 8 * 256 + off, if bitN leaf 59 then keyNo else 0, bitN leaf 60⟩

/-- R396: context 0 maps every local physical address of device memory at the same virtual address. -/
def State.xlate (s : State) (core ctx : Nat) (priv : Bool) (want : Want) (va draw : Nat) : Except Nat Place :=
  let f := match want with | .fetch => true | _ => false
  let tf := if f then 0x10 else 0x30
  let pf := if f then 0x11 else 0x31
  if va ≥ 2 ^ 56 then .error tf
  else if ctx == 0 then
    if s.isDev va then .ok ⟨.dev, va, 0, false⟩ else .error tf
  else
    match s.pageOf core ctx va draw with
    | none => .error tf
    | some (sh, leaf) =>
      if leafPermits leaf priv want then
        .ok (leafPlace ((s.ctx ctx).getD Context.fresh).keyNo sh leaf va)
      else .error pf

/-- R373: the page holding `va`, as a TLB entry to keep. -/
def State.tlbEntry (s : State) (core ctx va draw : Nat) : Option TlbEntry :=
  (s.pageOf core ctx va draw).map fun (sh, leaf) => ⟨ctx, va / 2 ^ sh, sh, BitVec.ofNat 64 leaf⟩

def tlbKeep (cap : Nat) (e : TlbEntry) (l : List TlbEntry) : List TlbEntry :=
  (e :: l.filter fun x => !(x.ctx == e.ctx && x.page == e.page && x.size == e.size)).take cap

/-- The entries of a table that hold something: the addresses of its listed bytes, each as its entry's address. -/
def State.entriesIn (s : State) (table size : Nat) : List Nat :=
  s.dev.foldl (fun l c =>
    let e := c.1 / 8 * 8
    if decide (table ≤ e) && decide (e < table + size) && !(l.contains e) then l ++ [e] else l) []

/-- A leaf with CONF set, reached from the table at `table`, maps the local physical address `a` (R370, R371).
DEDUCED, log 104. -/
def State.confLeaf (s : State) (a table : Nat) : List (Nat × Nat) → Bool
  | [] => false
  | (sh, b) :: rest =>
    (s.entriesIn table (8 * 2 ^ b)).any fun ea =>
      let e := s.dev.read ea 8
      if !(bitN e 63) then false
      else if bitN e 62 then
        sh != 43 && s.leafOk sh e && !(bitN e 61) && bitN e 59 && bitsN e 45 8 * 256 / 2 ^ sh == a / 2 ^ sh
      else
        match rest with
        | [] => false
        | (_, b') :: _ =>
          let next := bitsN e 45 8 * 256
          bitsN e 61 46 == 0 && next % (8 * 2 ^ b') == 0 && State.confLeaf s a next rest

/-- R459: a confidential page of another context than `ctx` holds the local physical address. DEDUCED, log 104. -/
def State.confElse (s : State) (ctx a : Nat) : Bool :=
  s.contexts.any fun (n, c) => n != 0 && n != ctx && s.confLeaf a c.root pageLevels

def State.setCore (s : State) (k : Nat) (c : Core) : State := { s with cores := s.cores.put k c }

def State.updCore (s : State) (k : Nat) (f : Core → Core) : State := s.setCore k (f (s.core k))

def State.setDie (s : State) (n : Nat) (d : Die) : State := { s with dies := s.dies.put n d }

def State.updDie (s : State) (n : Nat) (f : Die → Die) : State := s.setDie n (f (s.die n))

/-- R373: the entries that the walk cache keeps of a walk of the tables as they stand. -/
def State.walkEntries (s : State) (ctx va : Nat) : List TlbEntry :=
  match s.ctx ctx with
  | none => []
  | some c => (s.walkTrail va c.root pageLevels).map fun x => ⟨ctx, va / 2 ^ x.1, x.1, BitVec.ofNat 64 x.2⟩

/-- The table entries that a walk from the table at `table` reads. -/
def State.pteReads (s : State) (va table : Nat) : List (Nat × Nat) → List Nat
  | [] => []
  | (sh, b) :: rest =>
    let ea := table + 8 * (va / 2 ^ sh % 2 ^ b)
    let e := s.dev.read ea 8
    if !(s.isDev ea) then []
    else if !(bitN e 63) || bitN e 62 then [ea]
    else ea :: State.pteReads s va (bitsN e 45 8 * 256) rest

/-- The table entries that the translation numbered `draw` reads: none where a TLB translates, those below what the walk cache holds,
or all of the walk (R373). -/
def State.walkReads (s : State) (core ctx va draw : Nat) : List Nat :=
  match s.ctx ctx with
  | none => []
  | some c =>
    let fresh := s.walk va c.root pageLevels
    let all := s.pteReads va c.root pageLevels
    match s.keptPage core ctx va with
    | none => all
    | some old =>
      if fresh != old && !(Config.keepsOldTranslation draw) then all
      else
        let d := s.die (core / 64)
        match (tlbFind ctx va (s.core core).tlb).orElse fun _ => tlbFind ctx va d.tlb, walkFind ctx va d.walkc with
        | none, some t => s.pteReads va (bitsN t.leaf.toNat 45 8 * 256) (pageLevels.filter fun x => x.1 < t.size)
        | _, _ => []

/-! ## Where an address points (R228) -/

def spadBase : Nat := 0x00FF_0000_0000_0000
def spadSize : Nat := 0x20_0000
def vaultBase : Nat := 0x00FE_0000_0000_0000
def vaultSize : Nat := 0x8000_0000

/-- R228: the two fixed windows, which are never translated. -/
def inWindows (a : Nat) : Bool :=
  (vaultBase ≤ a && a < vaultBase + vaultSize) || (spadBase ≤ a && a < spadBase + spadSize)

/-- R369, R383: the vault bank at a vault offset has been retired. -/
def State.vaultRetired (s : State) (off : Nat) : Bool :=
  (s.die (off / 2 ^ 29)).vbret.contains (off % 2 ^ 29 / 2 ^ 20)

end Sys2Proof.Machine
end

