-- ==== Sys2Proof/Machine/Home.lean ====
section
/-!
DEFINITION. Bytes at their homes: reads and writes of the four tiers, the ownership of device words and the copies in L1
(spec/15_cluster.md R344 to R349), reservations (spec/09_core_memory.md R242 to R244), arrival words (R249, R250) and the
poison of lines (spec/16_die.md Table 16.1).
-/

namespace Sys2Proof.Machine

def Place.at_ (p : Place) (i : Nat) : Place := { p with addr := p.addr + i }

/-! ## Waves and teams, as far as memory needs them -/

def State.setWaves (s : State) (t : Table Wave) : State := { s with waves := t }

/-- Apply `f` to the wave numbered `w`. -/
def State.updWave (s : State) (w : Nat) (f : Wave → Wave) : State := { s with waves := s.waves.upd w f }

def State.updTeam (s : State) (t : Nat) (f : Team → Team) : State := { s with teams := s.teams.upd t f }

/-- A team's scratchpad contents. -/
def State.spadOf (s : State) (t : Nat) : Memory :=
  match s.teams.look t with
  | some x => x.spad
  | none => []

/-! ## Reads at home -/

/-- The byte at a place. -/
def State.placeByte (s : State) (p : Place) : Byte :=
  match p.tier with
  | .spad t => (s.spadOf t).byte p.addr
  | .vault => s.vault.byte p.addr
  | .dev => s.devByte p.key p.addr
  | .host => s.host.byte p.addr

/-- `mem(a, n)` at a place, little-endian. -/
def State.placeRead (s : State) (p : Place) : Nat → Nat
  | 0 => 0
  | n + 1 => (s.placeByte p).toNat + 256 * State.placeRead s (p.at_ 1) n

def State.placeBytes (s : State) (p : Place) : Nat → List Byte
  | 0 => []
  | n + 1 => s.placeByte p :: State.placeBytes s (p.at_ 1) n

/-! ## Reservations -/

/-- The 64-byte granule a reservation stands on (R242). -/
def sameGranule (p q : Place) : Bool := p.tier == q.tier && p.addr / 64 == q.addr / 64

/-- R244: a write to any byte of a granule clears every reservation on it. -/
def State.clearResv (s : State) (p : Place) : State :=
  { s with waves := s.waves.map fun _ w => { w with resv := w.resv.keep fun _ r => !(sameGranule r.place p) } }

/-! ## Cached lines (R231, R232, R375) -/

/-- Lines that go first have the least rank: .EF, then those without a hint, then .EL. -/
def prioRank : Hint → Nat
  | .ef => 0
  | .none | .na => 1
  | .el => 2

/-- R232: the priority after an access in cycle `now`: its hint, or .EL where such an access has reached the line in that
cycle. -/
def nextPrio (old : Option LinePrio) (h : Hint) (now : Nat) : LinePrio :=
  match old with
  | some p => if p.at_ == now && p.hint == .el && h == .ef then p else ⟨h, now⟩
  | none => ⟨h, now⟩

/-- R375: the line lies in a live pinned window. -/
def Die.pinnedLine (d : Die) (line : Nat) : Bool :=
  d.win.any fun w => decide (w.2.base ≤ line * 64) && decide (line * 64 < w.2.base + w.2.len)

/-- The lines of a slice, which holds 32 MiB (Table 0.1). -/
def sliceLines : Nat := 524288

/-- A full slice gives up a line of least priority that is not pinned; which one is free. DESIGN CHOICE, log 134. -/
def Die.mscRoom (d : Die) (slice draw : Nat) : Die :=
  let mine := d.msc.filter fun l => homeSlice (l.1 * 64) == slice
  if mine.length < sliceLines then d
  else
    let out := mine.filter fun l => !(d.pinnedLine l.1)
    match leastBy (fun l => prioRank l.2.hint) out with
    | none => d
    | some x =>
      let same := out.filter fun l => prioRank l.2.hint == prioRank x.2.hint
      { d with msc := d.msc.del (nth x same (Config.pick draw % same.length)).1 }

/-- An access reaches its line at the home slice: a present line takes its hint, and a line is allocated for a load (`alloc`)
whose hint is not .NA, or at any access to a pinned line, which has no hint (R231, R232, R375). DEDUCED, log 25. -/
def Die.reach (d : Die) (line : Nat) (h : Hint) (alloc : Bool) (now draw : Nat) : Die :=
  let pin := d.pinnedLine line
  let h' := if pin then .none else h
  match d.msc.look line with
  | some p => if h == .na then d else { d with msc := d.msc.put line (nextPrio (some p) h' now) }
  | none =>
    if pin || (alloc && h != .na) then
      let d := d.mscRoom (homeSlice (line * 64)) draw
      { d with msc := d.msc.put line ⟨if h' == .na then .none else h', now⟩ }
    else d

/-- R375, R378: the lines that the cache holds of a window have no hint from its pinning on, nor after its release. -/
def Die.plainLines (d : Die) (p : Pinned) : Die :=
  { d with msc := d.msc.map fun l x =>
      if p.base ≤ l * 64 && l * 64 < p.base + p.len then { x with hint := .none } else x }

/-- R377: the windows that hold a line have been accessed. -/
def Die.touchLine (d : Die) (line : Nat) : Die :=
  { d with win := d.win.map fun _ p =>
      if p.base ≤ line * 64 && line * 64 < p.base + p.len then { p with fade := 255, touched := true } else p }

/-- An access reaches a line of device memory. -/
def State.reach (s : State) (line : Nat) (h : Hint) (alloc : Bool) : State :=
  let n := line * 64 / 2 ^ 38
  let d := s.die n
  if !alloc && d.win.isEmpty && d.msc.isEmpty then s
  else s.setDie n ((d.reach line h alloc s.cycle (s.draw (8192 + line % 4096))).touchLine line)

/-- The memory-side cache holds the line. -/
def State.mscHas (s : State) (line : Nat) : Bool := ((s.die (line * 64 / 2 ^ 38)).msc.look line).isSome

/-- The lines of `n` bytes at an address. -/
def linesAt (a n : Nat) : List Nat := if n = 0 then [] else (upto ((a + n - 1) / 64 - a / 64 + 1)).map fun i => a / 64 + i

/-- An access without a hint to `n` bytes at a place (R232, R377). -/
def State.touch (s : State) (p : Place) (n : Nat) : State :=
  match p.tier with
  | .dev => (linesAt p.addr n).foldl (fun s l => s.reach l .none false) s
  | _ => s

/-- R373: both TLBs keep the translation an access used (128 and 4,096 entries), and the walk cache (256) the entries on its
way, where it walked the tables as they stand; the walk reaches the lines of the entries it reads (R377). -/
def State.tlbFill (s : State) (core ctx va draw : Nat) : State :=
  if ctx == 0 then s
  else
    match s.tlbEntry core ctx va draw with
    | none => s
    | some e =>
      let s := (s.walkReads core ctx va draw).foldl (fun s a => s.touch ⟨.dev, a, 0, false⟩ 8) s
      let fresh := (s.ctx ctx).bind fun c => s.walk va c.root pageLevels
      let trail := if fresh = some (e.size, e.leaf.toNat) then s.walkEntries ctx va else []
      (s.updCore core fun c => { c with tlb := tlbKeep 128 e c.tlb }).updDie (core / 64) fun d =>
        { d with tlb := tlbKeep 4096 e d.tlb, walkc := trail.foldl (fun l t => tlbKeep 256 t l) d.walkc }

/-- Accesses without a hint to the pieces of a range. -/
def State.touchPieces (s : State) (ps : List (Place × Nat)) : State := ps.foldl (fun s x => s.touch x.1 x.2) s

/-- The words of L1 for which `f` holds stay, and the priorities of the lines that still have one. -/
def Core.keepL1 (c : Core) (f : Nat → L1Word → Bool) : Core :=
  let l1 := c.l1.keep f
  { c with l1 := l1, l1prio := c.l1prio.keep fun l _ => l1.any fun w => w.1 / 16 == l }

/-- R232: a line that L1 holds takes the hint of an access. -/
def State.hintL1 (s : State) (core line : Nat) (h : Hint) : State :=
  let h' := if (s.die (line * 64 / 2 ^ 38)).pinnedLine line then .none else h
  s.updCore core fun c =>
    if h == .na || !(c.l1.any fun w => w.1 / 16 == line) then c
    else { c with l1prio := c.l1prio.put line (nextPrio (c.l1prio.look line) h' s.cycle) }

/-! ## Ownership -/

def ownerOf (owners : List (Nat × Nat)) (word : Nat) : Option Nat :=
  match owners with
  | [] => none
  | (w, c) :: r => if w == word then some c else ownerOf r word

/-- R345, R347: the owner of a word drops it from its L1, and the word is owned by no core. -/
def State.revoke (s : State) (word : Nat) : State :=
  match ownerOf s.owners word with
  | none => s
  | some c =>
    let s := s.updCore c fun k => k.keepL1 fun w _ => w != word
    { s with owners := s.owners.filter fun o => o.1 != word }

/-- Die and slice of a word's home (R343). -/
def homeOf (word : Nat) : Nat × Nat := (word * 4 / 2 ^ 38, homeSlice (word * 4))

/-- R345, R349: register `core` as owner of `word`; a full owner table first revokes its oldest entry. -/
def State.own (s : State) (word core : Nat) : State :=
  let s := { s with owners := s.owners.filter fun o => o.1 != word }
  let mine : List (Nat × Nat) := s.owners.filter fun o => homeOf o.1 == homeOf word
  let s :=
    if mine.length < 1048576 then s
    else
      match mine with
      | [] => s
      | (old, _) :: _ => s.revoke old
  { s with owners := s.owners ++ [(word, core)] }

/-! ## Writes -/

/-- R346: one byte of device memory written by anything other than a store: the word's ownership is cleared with a
revoke, and reservations on the granule end. DEDUCED, log 45. -/
def State.devWriteByte (s : State) (p : Place) (x : Byte) : State :=
  ((s.revoke (p.addr / 4)).setDevByte p.key p.addr x).clearResv p

/-- The 64-bit word of a scratchpad or vault place holds an uncorrectable error (R226, R369). -/
def State.upsetAt (s : State) (p : Place) : Bool :=
  match p.tier with
  | .spad t => match s.teams.look t with
    | some x => x.spadUpset.contains (p.addr / 8)
    | none => false
  | .vault => (s.die (p.addr / 2 ^ 29)).vaultUpset.contains (p.addr / 8)
  | _ => false

/-- A write replaces a word that holds an error: its other bytes read as zero from then on. -/
def State.repair (s : State) (p : Place) : State :=
  if s.upsetAt p then
    let at0 := p.addr / 8 * 8
    match p.tier with
    | .spad t => s.updTeam t fun m =>
        { m with spad := m.spad.writeBytes at0 (List.replicate 8 0), spadUpset := m.spadUpset.erase (p.addr / 8) }
    | .vault =>
      { (s.updDie (p.addr / 2 ^ 29) fun d => { d with vaultUpset := d.vaultUpset.erase (p.addr / 8) }) with
        vault := s.vault.writeBytes at0 (List.replicate 8 0) }
    | _ => s
  else s

/-- One byte written at a place by anything other than a store of a core to device memory. R328: a byte that the scratchpad has
given up to the effect area takes none. -/
def State.writeByte (s : State) (p : Place) (x : Byte) : State :=
  let s := s.repair p
  match p.tier with
  | .spad t =>
    (s.updTeam t fun m => if m.spadLen ≤ p.addr then m else { m with spad := m.spad.setByte p.addr x }).clearResv p
  | .vault => { s with vault := s.vault.setByte p.addr x }
  | .dev => s.devWriteByte p x
  | .host => { s with host := s.host.setByte p.addr x }

/-- Consecutive bytes written from a place upward. -/
def State.writeBytes (s : State) (p : Place) : List Byte → State
  | [] => s
  | b :: r => State.writeBytes (s.writeByte p b) (p.at_ 1) r

/-- Table 16.1: a write of a whole line clears its poison. -/
def State.unpoison (s : State) (p : Place) (n : Nat) : State :=
  match p.tier with
  | .dev => { s with poison := s.poison.filter fun l => !(p.addr ≤ l * 64 && l * 64 + 64 ≤ p.addr + n) }
  | _ => s

/-- A write of `bs` at its home by an agent that is no storing core. -/
def State.homeWrite (s : State) (p : Place) (bs : List Byte) : State :=
  ((s.writeBytes p bs).unpoison p bs.length).touch p bs.length

/-- One byte stored by a core to device memory (R345): the core becomes the word's owner, and a copy in its L1 that agrees with
the home is updated and carries the owned bit from then on (R231, R347); a stale copy is dropped. -/
def State.storeByte (s : State) (core : Nat) (p : Place) (x : Byte) : State :=
  let word := p.addr / 4
  let old := BitVec.ofNat 32 (s.placeRead ⟨.dev, word * 4, p.key, false⟩ 4)
  let s := (s.setDevByte p.key p.addr x).clearResv p
  let s := s.own word core
  s.updCore core fun k =>
    match k.l1.look word with
    | none => k
    | some v =>
      if v.key == p.key && v.val == old then
        let sh := 8 * (p.addr % 4)
        let val := (v.val &&& ~~~(BitVec.ofNat 32 (255 * 2 ^ sh))) ||| BitVec.ofNat 32 (x.toNat * 2 ^ sh)
        { k with l1 := k.l1.put word ⟨val, true, v.key⟩ }
      else k.keepL1 fun w _ => w != word

def State.storeBytes (s : State) (core : Nat) (p : Place) : List Byte → State
  | [] => s
  | b :: r => State.storeBytes (s.storeByte core p b) core (p.at_ 1) r

/-- The bytes of a store reach their home. -/
def State.store (s : State) (core : Nat) (hint : Hint) (p : Place) (bs : List Byte) : State :=
  match p.tier with
  | .dev =>
    (linesAt p.addr bs.length).foldl (fun s l => (s.reach l hint false).hintL1 core l hint)
      ((s.storeBytes core p bs).unpoison p bs.length)
  | _ => s.homeWrite p bs

/-! ## What a wave sees of stores that have not been performed -/

def sizeBytes : Size → Nat
  | .b => 1 | .h => 2 | .w => 4 | .d => 8

/-- A store as it stands: place, bytes and datum. -/
abbrev Pend := Place × Nat × DWord

/-- The stores an operation has yet to perform, those that win on a common byte later (R239, R338). -/
def OpBody.stores : OpBody → List Pend
  | .store size _ accs => accs.map fun a => (a.place, sizeBytes size, a.data)
  | .apply _ _ parts _ => parts.filterMap fun x =>
      match x.2 with
      | .store _ _ n v => some (x.1, n, v)
      | _ => none
  | _ => []

/-- Bytes of a record's access (R326). -/
def Effect.bytes : Effect → Nat
  | .store _ _ n _ => n
  | .atomic .. => 4
  | .arrive .. => 16

/-- The accesses an operation has yet to make that are no stores, each with its bytes. -/
def OpBody.others : OpBody → List (Place × Nat)
  | .load sz _ _ _ a => a.map fun x => (x.place, sizeBytes sz)
  | .reserve a => a.map fun x => (x.place, 4)
  | .atomic _ _ a => a.map fun x => (x.place, 4)
  | .cond _ a => a.map fun x => (x.place, 4)
  | .arrive p _ => [(p, 16)]
  | .apply _ _ parts _ => parts.filterMap fun x =>
      match x.2 with
      | .store .. => none
      | r => some (x.1, r.bytes)
  | .store .. | .copy .. | .matrix _ | .tree _ | .remote _ => []

/-- The places an operation has yet to access, each with its bytes. -/
def OpBody.places (b : OpBody) : List (Place × Nat) := b.others ++ b.stores.map fun x => (x.1, x.2.1)

/-- R246: every older operation of the wave counted in L, S, C or T before number `n` has completed. -/
def State.olderDone (s : State) (w n : Nat) : Bool :=
  (s.ops.keep fun k o => o.wave == w && k < n && !o.done).isEmpty

/-- R307: every sum-tree instruction of the wave that is older than operation `n` has been executed. DEDUCED, log 52. -/
def State.treeIdle (s : State) (w n : Nat) : Bool :=
  s.cores.all fun c => c.2.treeQ.all fun t => t.wave != w || decide (n < t.born)

/-- R246: what a release numbered `n` of the wave waits for is over. -/
def State.releasable (s : State) (w n : Nat) : Bool := s.olderDone w n && s.treeIdle w n

/-- Who reads: the wave, the number of its operation, its core, and the number of the draw. -/
structure Reader where
  wave : Nat
  op   : Nat
  core : Nat
  draw : Nat
  deriving DecidableEq, Repr

/-- The waves are of one team. -/
def State.teammates (s : State) (a b : Nat) : Bool := (s.waves.look a).map Wave.team == (s.waves.look b).map Wave.team

/-- The operation only reads memory. -/
def OpBody.isLoad : OpBody → Bool
  | .load .. => true
  | .reserve _ => true
  | _ => false

/-- An access of the reader's wave that is no load, issued after the reader's and before number `k`, has the word of `p` before it. -/
def State.ownBetween (s : State) (r : Reader) (p : Place) (k : Nat) : Bool :=
  s.ops.any fun (m, x) => x.wave == r.wave && !x.done && decide (r.op < m) && decide (m < k) && !x.body.isLoad &&
    x.body.places.any fun q => q.1.tier == p.tier && decide (q.1.addr / 4 ≤ p.addr / 4) && decide (p.addr / 4 ≤ (q.1.addr + q.2 - 1) / 4)

/-- The reader sees, at the place `p`, the stores of operation `k` before they are performed. Those of its own wave it does when they
are older (R258). Those of other waves to device memory it does in the same core from when they are issued to their line, which is
at once where the free value says so and else when they are performed (R348, R260), unless its own wave has a write of the word
between the two (R258, R344). Those of other waves of its team to a vault it does when they are older, once their wave's older
accesses to vaults that are no stores are made (R259). A release that has to wait is not seen. DESIGN CHOICE, log 136. -/
def State.shows (s : State) (r : Reader) (p : Place) (k : Nat) (o : Op) : Bool :=
  if o.wave == r.wave then decide (k < r.op)
  else
    (!o.rel || s.releasable o.wave k) &&
      match p.tier with
      | .dev => o.core == r.core && Config.shownEarly k && (decide (k < r.op) || !(s.ownBetween r p k))
      | .vault => decide (k < r.op) && s.teammates o.wave r.wave && s.ops.all fun x =>
          x.2.wave != o.wave || decide (k ≤ x.1) || x.2.done || x.2.body.others.all fun p => p.1.tier != .vault
      | _ => false

/-- The byte at `p` that a store holds. -/
def pendByte (p : Place) (x : Pend) : Option Byte :=
  if x.1.tier == p.tier && x.1.key == p.key && decide (x.1.addr ≤ p.addr) && decide (p.addr < x.1.addr + x.2.1) then
    some (BitVec.ofNat 8 (x.2.2.toNat / 2 ^ (8 * (p.addr - x.1.addr))))
  else none

/-- The newest byte at `p` among the operations that `shows` admits, which stand in issue order. -/
def pendingIn (shows : Nat → Op → Bool) (p : Place) : Table Op → Option Byte
  | [] => none
  | (k, o) :: r =>
    match pendingIn shows p r with
    | some b => some b
    | none => if !o.done && shows k o then o.body.stores.foldl (fun b x => (pendByte p x).orElse fun _ => b) none else none

/-- R348: the newest byte that a store which the reader sees, and which is not performed, holds for a place. -/
def State.pendingByte (s : State) (r : Reader) (p : Place) : Option Byte := pendingIn (s.shows r p) p s.ops

/-! ## L1 -/

/-- The word of this core's L1 that a load may use: an owned word always; an unowned one that no longer agrees with its
home only when the free value says that it is still there (R347, R349). DESIGN CHOICE, log 17. -/
def State.l1Word (s : State) (core key word draw : Nat) : Option Word :=
  let c := s.core core
  match c.l1.look word with
  | none => none
  | some v =>
    if v.key != key then none
    else if v.owned then some v.val
    else
      let home := BitVec.ofNat 32 (s.placeRead ⟨.dev, word * 4, key, false⟩ 4)
      if v.val = home then some home
      else if Config.l1Keeps draw word (((c.l1prio.look (word / 16)).map fun p => prioRank p.hint).getD 1) then some v.val
      else none

/-- The byte a load binds: the newest that a pending store shows it, else, at a device place that is no TSO page, L1's, else
the home's. -/
def State.loadByte (s : State) (r : Reader) (p : Place) : Byte :=
  match s.pendingByte r p with
  | some b => b
  | none =>
    if p.tier != .dev || p.tso then s.placeByte p
    else
      match s.l1Word r.core p.key (p.addr / 4) r.draw with
      | some w => BitVec.ofNat 8 (w.toNat / 2 ^ (8 * (p.addr % 4)))
      | none => s.placeByte p

/-- The byte comes from its home. -/
def State.readsHome (s : State) (r : Reader) (p : Place) : Bool :=
  (s.pendingByte r p).isNone && (p.tier != .dev || p.tso || (s.l1Word r.core p.key (p.addr / 4) r.draw).isNone)

/-- Table 16.1: a load of a poisoned line writes zero. -/
def State.poisoned (s : State) (p : Place) : Bool :=
  match p.tier with
  | .dev => s.poison.contains (p.addr / 64)
  | _ => false

/-- What stands at a place cannot be read: an uncorrectable word (R226, R369), or a poisoned line (Table 16.1). -/
def State.badAt (s : State) (p : Place) : Bool := s.upsetAt p || s.poisoned p

/-- `n` bytes at a place as an access at home reads them: zero where they are in error. -/
def State.soundRead (s : State) (p : Place) (n : Nat) : Nat := if s.badAt p then 0 else s.placeRead p n

def State.loadRead (s : State) (r : Reader) (p : Place) : Nat → Nat
  | 0 => 0
  | n + 1 => (s.loadByte r p).toNat + 256 * State.loadRead s r (p.at_ 1) n

/-- R231: a load allocates its line in L1 with its hint; words still held there stay as they are. -/
def State.fillLine (s : State) (core draw : Nat) (hint : Hint) (p : Place) : State :=
  match p.tier with
  | .dev =>
    if p.tso then s
    else
      let words := (upto 16).map fun i => p.addr / 64 * 16 + i
      let keep := fun (w : Nat) (v : L1Word) =>
        v.key == p.key && (v.owned || s.l1Word core p.key w draw == some v.val)
      let home := fun (w : Nat) => BitVec.ofNat 32 (s.placeRead ⟨.dev, w * 4, p.key, false⟩ 4)
      (s.updCore core fun k =>
        { k with l1 := words.foldl (fun t w =>
            match t.look w with
            | some v => if keep w v then t else t.put w ⟨home w, false, p.key⟩
            | none => t.put w ⟨home w, false, p.key⟩) k.l1 }).hintL1 core (p.addr / 64) hint
  | _ => s

/-- R344: the core has seen the word's latest value at its home, so its L1 holds no older one. -/
def State.dropWord (s : State) (core : Nat) (p : Place) : State :=
  match p.tier with
  | .dev => s.updCore core fun k => k.keepL1 fun w v => w != p.addr / 4 || v.owned
  | _ => s

/-- R347: an acquire invalidates exactly the unowned words of the core's L1. -/
def State.dropUnowned (s : State) (core : Nat) : State := s.updCore core fun k => k.keepL1 fun _ v => v.owned

/-! ## Arrival words (R249, R250) -/

def arrTarget (s : State) (p : Place) : Nat := Nat.min (s.soundRead p 8) (2 ^ 48)
def arrCount (s : State) (p : Place) : Nat := s.soundRead (p.at_ 8) 6
def arrGen (s : State) (p : Place) : Nat := s.soundRead (p.at_ 14) 2

/-- R250: the count and generation after an arrival of `n`. -/
def arrivalResult (target count gen n : Nat) : Nat × Nat :=
  if target = 0 then ((count + n) % 2 ^ 48, gen)
  else ((count + n) % target, (gen + (count + n) / target) % 2 ^ 16)

/-- R250: an arrival of `n`, one indivisible step at the word's tier. -/
def State.arrive (s : State) (p : Place) (n : Nat) : State :=
  let (c, g) := arrivalResult (arrTarget s p) (arrCount s p) (arrGen s p) n
  s.homeWrite (p.at_ 8) (bytesLE 6 c ++ bytesLE 2 g)

end Sys2Proof.Machine
end

