-- ==== Sys2Proof/Machine/Operands.lean ====
section
/-!
DEFINITION. Every operand form: register blocks (spec/03_encoding.md R73 to R76), immediates and literals (R72), the guard (R10),
and which registers, counters and queues each instruction needs (the operand rules of its encoding table).
-/

namespace Sys2Proof.Machine

/-! ## Registers of a wave -/

/-- Lane `l` of vN. -/
def Wave.vreg (w : Wave) (n l : Nat) : Word := Sparse.rd w.v (n * 32 + l)

/-- R226: the marked errors that are left when a part of a register has been written. -/
def Wave.upsetBut (w : Wave) (r : Reg) (part : Nat) : List (Reg × Nat) := w.upset.filter fun u => u != (r, part)

def Wave.setV (w : Wave) (n l : Nat) (x : Word) : Wave :=
  { w with v := Sparse.wr w.v (n * 32 + l) x, upset := w.upsetBut (.v n) l }

def Wave.sreg (w : Wave) (n : Nat) : DWord := Sparse.rd w.s n

def Wave.setS (w : Wave) (n : Nat) (x : DWord) : Wave :=
  { w with s := Sparse.wr w.s n x, upset := w.upsetBut (.s n) 0 }

/-- R111: p0 reads all ones. -/
def Wave.preg (w : Wave) (n : Nat) : Mask := if n = 0 then BitVec.allOnes 32 else Sparse.rd w.p n

/-- R111: p0 is never written. -/
def Wave.setP (w : Wave) (n : Nat) (x : Mask) : Wave :=
  if n = 0 then w else { w with p := Sparse.wr w.p n x, upset := w.upsetBut (.p n) 0 }

/-- A list of lane values written in order: register, lane, value. -/
def Wave.setLanes (w : Wave) : List (Nat × Nat × Word) → Wave
  | [] => w
  | (n, l, x) :: r => Wave.setLanes (w.setV n l x) r

/-- Lane `l` of the pair vN, vN+1 (R75). -/
def Wave.vpair (w : Wave) (n l : Nat) : DWord := w.vreg (n + 1) l ++ w.vreg n l

def pairWrites (n l : Nat) (x : DWord) : List (Nat × Nat × Word) :=
  [(n, l, x.setWidth 32), (n + 1, l, (x >>> 32).setWidth 32)]

end Sys2Proof.Machine

namespace Sys2Proof

open Machine

/-! ## The guard -/

/-- R10: the lanes of `m` that are active under the guard. -/
def Guard.active (g : Guard) (w : Wave) (m : Mask) : Mask :=
  let q := w.preg g.p.toNat
  m &&& (if g.neg then ~~~q else q)

/-! ## Block positions -/

/-- R73: the positions of a block, row-major. -/
def Block.positions (b : Block) : List (Nat × Nat) :=
  (upto b.rows.n).flatMap fun r => (upto b.cols.n).map fun c => (r, c)

/-- The register at a position of a block based at `n`; columns count pairs when `pair` (R75). -/
def regAt (n : VReg) (pair : Bool) (pos : Nat × Nat) : Nat :=
  n.toNat + 16 * pos.1 + (if pair then 2 * pos.2 else pos.2)

/-- R74: the register a vector source reads at a position. -/
def srcReg (n : VReg) (bcast pair : Bool) (pos : Nat × Nat) : Nat :=
  if bcast then n.toNat else regAt n pair pos

/-! ## Reading sources -/

/-- R76: what a source supplies to one lane of a vector operation. -/
def Src.word (a : Src) (w : Wave) (pos : Nat × Nat) (l : Nat) : Word :=
  match a with
  | .v n bc => w.vreg (srcReg n bc false pos) l
  | .s n => (w.sreg n.toNat).setWidth 32

/-- R75: what a pair source, or a whole uniform, supplies. -/
def Src.dword (a : Src) (w : Wave) (pos : Nat × Nat) (l : Nat) : DWord :=
  match a with
  | .v n bc => w.vpair (srcReg n bc true pos) l
  | .s n => w.sreg n.toNat

/-- A uniform source, whole. (A vector source has no uniform value; R76 keeps it out of uniform operations.) -/
def Src.uni (a : Src) (w : Wave) : DWord :=
  match a with
  | .s n => w.sreg n.toNat
  | .v _ _ => 0

/-- Operand B of a vector operation: `conv` gives the immediate its value (R72). -/
def SrcB.word (b : SrcB) (conv : BitVec 16 → Word) (w : Wave) (pos : Nat × Nat) (l : Nat) : Word :=
  match b with
  | .reg a => a.word w pos l
  | .imm i => conv i
  | .lit x => x.setWidth 32

def SrcB.dword (b : SrcB) (conv : BitVec 16 → DWord) (w : Wave) (pos : Nat × Nat) (l : Nat) : DWord :=
  match b with
  | .reg a => a.dword w pos l
  | .imm i => conv i
  | .lit x => x

def SrcB.uni (b : SrcB) (conv : BitVec 16 → DWord) (w : Wave) : DWord :=
  match b with
  | .reg a => a.uni w
  | .imm i => conv i
  | .lit x => x

/-- R72: the immediate of an integer instruction, to a vector and to a uniform destination. -/
def immInt32 (i : BitVec 16) : Word := i.signExtend 32
def immInt64 (i : BitVec 16) : DWord := i.signExtend 64

/-! ## Which registers an instruction names -/

/-- The matrix queue entries an instruction takes (R262). -/
inductive MatNeed where
  | none | quarters | entries (n : Nat)
  deriving DecidableEq, Repr

/-- What an instruction needs: the registers it reads and writes, whether it is privileged, the counters it counts in,
whether it is a memory access (held behind an acquire of its path, R246) and whether it enters the tree unit's queue. -/
structure Use where
  rd   : List Reg := []
  wr   : List Reg := []
  priv : Bool := false
  cls  : List OpClass := []
  mem  : Bool := false
  tree : Bool := false
  mat  : MatNeed := .none
  deriving DecidableEq, Repr

def vregs (b : Block) (pair : Bool) (n : VReg) : List Reg :=
  b.positions.flatMap fun p =>
    let r := regAt n pair p
    if pair then [.v r, .v (r + 1)] else [.v r]

def Src.regs (a : Src) (b : Block) (pair : Bool) : List Reg :=
  match a with
  | .s n => [.s n.toNat]
  | .v n true => if pair then [.v n.toNat, .v (n.toNat + 1)] else [.v n.toNat]
  | .v n false => vregs b pair n

def SrcB.regs (x : SrcB) (b : Block) (pair : Bool) : List Reg :=
  match x with
  | .reg a => a.regs b pair
  | _ => []

def Dst.regs (d : Dst) (b : Block) (pair : Bool) : List Reg :=
  match d with
  | .s n => [.s n.toNat]
  | .v n => vregs b pair n

def Guard.regs (g : Guard) : List Reg := [.p g.p.toNat]

def Alu1.use (o : Alu1) (pd pa : Bool := false) : Use :=
  { rd := o.g.regs ++ o.a.regs o.blk pa, wr := o.d.regs o.blk pd }

def Alu2.use (o : Alu2) (pd pa pb : Bool := false) : Use :=
  { rd := o.g.regs ++ o.a.regs o.blk pa ++ o.b.regs o.blk pb, wr := o.d.regs o.blk pd }

def Alu3.use (o : Alu3) (pd pa pb pc : Bool := false) : Use :=
  { rd := o.g.regs ++ o.a.regs o.blk pa ++ o.b.regs o.blk pb ++ o.c.regs o.blk pc, wr := o.d.regs o.blk pd }

def AluP.use (o : AluP) (carry : Bool) : Use :=
  { rd := o.g.regs ++ o.a.regs o.blk false ++ o.b.regs o.blk false ++ [.p o.c.toNat]
    wr := o.d.regs o.blk false ++ (if carry then [.p o.c.toNat] else []) }

def Cmp2.use (o : Cmp2) (pair : Bool := false) : Use :=
  { rd := o.g.regs ++ o.a.regs .single pair ++ o.b.regs .single pair, wr := [.p o.d.toNat] }

def LdArgs.use (o : LdArgs) : Use :=
  { rd := o.g.regs ++ [.s o.base.toNat] ++ vregs o.blk false o.off, wr := vregs o.blk (o.size == .d) o.d
    cls := [.load], mem := true }

def StArgs.use (o : StArgs) : Use :=
  { rd := o.g.regs ++ [.s o.base.toNat] ++ vregs o.blk false o.off ++ vregs o.blk (o.size == .d) o.data
    cls := [.store], mem := true }

def AtomArgs.use (o : AtomArgs) : Use :=
  { rd := o.g.regs ++ [.s o.base.toNat, .v o.off.toNat, .v o.c.toNat] ++ (if o.op == .cas then [.v o.d.toNat] else [])
    wr := if o.nd then [] else [.v o.d.toNat]
    cls := [if o.nd then .store else .load], mem := true }

/-- Guard and uniform registers read, uniform registers written. -/
def uniUse (g : Guard) (rd wr : List SReg) : Use :=
  { rd := g.regs ++ rd.map fun n => .s n.toNat, wr := wr.map fun n => .s n.toNat }

def sregRun (n : SReg) (k : Nat) : List Reg := (upto k).map fun i => .s (n.toNat + i)

/-- A uniform source that may also be a vector with its own pair-ness. -/
def HSrc.regs : HSrc → List Reg
  | .vec a => [.v a.toNat]
  | .sp a => [.s a.toNat]

/-- R162: the integer forms of PACK read their destination. -/
def PTy.readsDst : PTy → Bool
  | .f16x2 | .bf16x2 => false
  | .int8x4 | .int4x8 | .dp8x4 => true

/-- For each instruction, the registers of its encoding row and what it needs to issue. Events need nothing. -/
def useOf : Instr → Use
  | .iadd _ o | .isub _ o | .imul _ o | .imulh _ o | .imin _ o | .imax _ o => o.use
  | .andw o | .orw o | .xorw o | .andn o | .shl o | .shr o | .sar o | .rotl o => o.use
  | .imad _ o | .bfx _ o => o.use
  | .bfi o => { o.use with rd := (Alu3.use o).rd ++ o.d.regs o.blk false }
  | .imadw _ o =>
    match o.d with
    | .v _ => o.use true false false true
    | .s n =>
      { rd := (Alu3.use o).rd, wr := [.s n.toNat, .s (n.toNat + 1)] }
  | .iaddc o => o.use true
  | .sel o => o.use false
  | .ineg _ o | .iabs _ o | .notw o | .popc o | .clz o | .ctz o | .brev o | .mov o => o.use
  | .icmp _ o => o.use
  | .lea _ o => o.use
  | .movi g d _ b => { rd := g.regs, wr := d.regs b false }
  | .fadd t o | .fsub t o | .fmul t o | .fmin t o | .fmax t o => o.use t.pair t.pair t.pair
  | .ffma t o => o.use t.pair t.pair t.pair t.pair
  | .fcmp t _ o => o.use t.pair
  | .fclass t o | .frnd t o | .frcp t o | .frsq t o | .fsqrt t o => o.use t.pair t.pair
  | .fexp2 o | .flog2 o | .fsin o | .fcos o | .ftanh o => o.use
  | .fscale t o => o.use t.pair t.pair false
  | .cvt dt st o => o.use dt.pair st.pair
  | .cvts dt st o => o.use dt.pair st.pair false
  | .pack k g d a b blk =>
    { rd := g.regs ++ a.regs blk false ++ b.regs blk false ++ (if k.readsDst then d.regs blk false else []), wr := d.regs blk false }
  | .unpack _ _ o => o.use
  | .qmass _ o => o.use
  | .pand g d a b | .por g d a b | .pxor g d a b =>
    { rd := g.regs ++ [.p a.toNat, .p b.toNat], wr := [.p d.toNat] }
  | .pnot g d a => { rd := g.regs ++ [.p a.toNat], wr := [.p d.toNat] }
  | .pmov g k =>
    match k with
    | .pp d a => { rd := g.regs ++ [.p a.toNat], wr := [.p d.toNat] }
    | .sp d a => { rd := g.regs ++ [.s a.toNat], wr := [.p d.toNat] }
    | .ps d a => { rd := g.regs ++ [.p a.toNat], wr := [.s d.toNat] }
  | .pcnt g d a => { rd := g.regs ++ [.p a.toNat], wr := [.s d.toNat] }
  | .shfl _ o | .bcast o => o.use
  | .rfl g d a _ => { rd := g.regs ++ [.v a.toNat], wr := [.s d.toNat] }
  | .vote g k a =>
    { rd := g.regs ++ [.p a.toNat]
      wr := match k with | .any d => [.p d.toNat] | .all d => [.p d.toNat] | .bal d => [.s d.toNat] }
  | .redw _ g d a _ => { rd := g.regs ++ [.v a.toNat], wr := [.s d.toNat] }
  | .scanw _ o => o.use
  | .matchw g d a _ => { rd := g.regs ++ [.v a.toNat], wr := [.p d.toNat] }
  | .bra g _ | .bru g _ | .brd g _ => { rd := g.regs }
  | .brx g a | .ret g a => uniUse g [a] []
  | .call g d _ => uniUse g [] [d]
  | .exit g | .yield g | .nop g | .waitc g .. | .tfence g | .trapi g _ => { rd := g.regs }
  | .waitw g _ a b => { uniUse g [a, b] [] with mem := true }
  | .setf g _ v => uniUse g (match v with | .reg a => [a] | _ => []) []
  | .getf g _ d => uniUse g [] [d]
  | .ld o | .lds o | .ldv o => o.use
  | .st o | .sts o | .stv o => o.use
  | .ldu o => { uniUse o.g [o.base] [o.d] with cls := [.load], mem := true }
  | .atom o | .atoms o => o.use
  | .ldres g d base off =>
    { rd := g.regs ++ [.s base.toNat, .v off.toNat], wr := [.v d.toNat], cls := [.load], mem := true }
  | .stcond g d base off data =>
    { rd := g.regs ++ [.s base.toNat, .v off.toNat, .v data.toNat], wr := [.p d.toNat], cls := [.load], mem := true }
  | .fence g _ => { rd := g.regs }
  | .pref g _ base off => { rd := g.regs ++ [.s base.toNat, .v off.toNat], mem := true }
  | .arrv g a b => { uniUse g [a, b] [] with cls := [.store], mem := true }
  | .bar g | .bard g | .barp g => { rd := g.regs }
  | .cinv g a b | .cflsh g a b => uniUse g [a, b] []
  | .pin g d a b => uniUse g [a, b] [d]
  | .unpin g a => uniUse g [a] []
  | .cpy o | .cpys o => { uniUse o.g [o.d, o.a, o.b, o.c] [] with cls := [.copy], mem := true }
  | .cpyg g d a b c =>
    let u := uniUse g [d, a, c] []
    { u with rd := u.rd ++ [.v b.toNat, .v (b.toNat + 1)], cls := [.copy], mem := true }
  | .rput _ o | .rputM _ o | .rget _ o | .rred _ _ o =>
    { uniUse o.g [o.d, o.a, o.b, o.c] [] with cls := [.copy], mem := true }
  | .ratom _ o => o.use
  | .rarrv _ g a b => { uniUse g [a, b] [] with cls := [.store], mem := true }
  | .rfence g a => uniUse g [a] []
  | .vqst g d a => uniUse g [a] [d]
  | .munf g a => { rd := g.regs ++ sregRun a 8 }
  | .mscl g a b => uniUse g [a, b] []
  | .mldt g d a => { rd := g.regs ++ [.s a.toNat], wr := [.t d.toNat], cls := [.tile], mem := true, mat := .entries 1 }
  | .msta g _ a b => { rd := g.regs ++ [.s b.toNat, .a a.toNat], cls := [.store], mem := true, mat := .entries 1 }
  | .mza g _ d => { rd := g.regs, wr := [.a d.toNat], mat := .entries 1 }
  | .mmq g _ _ d b =>
    { rd := g.regs ++ [.t b.toNat, .a d.toNat], wr := [.a d.toNat], cls := [.tile], mem := true, mat := .quarters }
  | .mmw g _ _ d b =>
    { rd := g.regs ++ [.t b.toNat, .a d.toNat], wr := [.a d.toNat], cls := [.tile], mem := true, mat := .entries 4 }
  | .mmg g _ _ d a b =>
    { rd := g.regs ++ [.s d.toNat, .v a.toNat, .t b.toNat], cls := [.tile, .store], mem := true, mat := .quarters }
  | .mtrn g _ d b _ => { rd := g.regs ++ [.t b.toNat, .a d.toNat], wr := [.a d.toNat], mat := .quarters }
  | .mprm g _ d a b =>
    { rd := g.regs ++ [.v a.toNat, .t b.toNat, .a d.toNat], wr := [.a d.toNat], mat := .quarters }
  | .mred g _ d b => { rd := g.regs ++ [.t b.toNat, .a d.toNat], wr := [.a d.toNat], mat := .quarters }
  | .mcvt g _ d a _ => { rd := g.regs ++ [.a a.toNat], wr := [.t d.toNat], mem := true, mat := .entries 1 }
  | .mmt g _ _ d a | .mmts g _ _ d a =>
    { rd := g.regs ++ [.s d.toNat] ++ sregRun a 4
      wr := .s d.toNat :: (upto 8).map fun i => .a i
      mem := true }
  | .hbld g _ d a b =>
    { rd := g.regs ++ a.regs ++ [.s b.toNat], wr := [.h d.toNat]
      cls := match a with | .sp _ => [.load] | .vec _ => []
      tree := true }
  | .hset g d a b | .hadd g d a b =>
    { rd := g.regs ++ [.v a.toNat, .v b.toNat], wr := [.h d.toNat], tree := true }
  | .hpfx g a q | .hfind g a q =>
    match q with
    | .vec d b => { rd := g.regs ++ [.h a.toNat, .v b.toNat], wr := [.v d.toNat], tree := true }
    | .uni d b => { rd := g.regs ++ [.h a.toNat, .s b.toNat], wr := [.s d.toNat], tree := true }
  | .hcut g d a b => { rd := g.regs ++ [.h a.toNat, .s b.toNat], wr := [.s d.toNat], tree := true }
  | .htot g d a | .hlenRead g d a => { rd := g.regs ++ [.h a.toNat], wr := [.s d.toNat], tree := true }
  | .hlenSet g d a => { rd := g.regs ++ [.s a.toNat], wr := [.h d.toNat], tree := true }
  | .hstl g a b => { rd := g.regs ++ [.h a.toNat, .s b.toNat], cls := [.store], tree := true }
  | .callc g d _ => uniUse g [] [d]
  | .retc g a => uniUse g [a] []
  | .ecat g d a b => uniUse g [a, b] [d]
  | .eflt g _ d a b c => uniUse g [a, b, c] [d]
  | .erbs g d a b c _ => uniUse g [a, b, c] [d]
  | .eapp g a => { uniUse g [a] [] with cls := [.store], mem := true }
  | .edrp g a => uniUse g [a] []
  | .elen g d a => uniUse g [a] [d]
  | .csrr g d _ => uniUse g [] [d]
  | .csrw g a _ => uniUse g [a] []
  | .eret g => { rd := g.regs, priv := true }
  | .launch g d a => { uniUse g [a] [d] with priv := true }
  | .lstat g d a => { uniUse g [a] [d] with priv := true }
  | .tlbi g k =>
    { uniUse g (match k with | .addr a => [a] | .ctx a => [a] | .all => []) [] with priv := true }
  | .bkpt g _ | .hint g _ => { rd := g.regs }
  | .halt g => { rd := g.regs, priv := true }
  | .boundaryCauseDelivery .. | .waitcComplete .. | .waitwComplete .. | .barRelease .. | .bardRelease ..
  | .barpRelease .. | .regroupWindowClose .. | .regionResume .. | .waveMerge .. | .fairnessTimerExpiry ..
  | .fairnessDeferredSwitch .. | .starvationExpiry .. | .starvationTeamReturn .. | .rotationCycle .. | .waveComeIn ..
  | .stableDisplace .. | .stableImageMoved .. | .paddockLeave .. | .loadReturn .. | .hbmRequestServe ..
  | .ownershipAck .. | .ownershipRevoke .. | .copyChunk .. | .matrixEntryStart .. | .matrixWriteComplete ..
  | .mmtStep .. | .treeUnitExecute .. | .coreFence .. | .coreDrainSelect .. | .coreDrainEnd .. | .repartitionDone ..
  | .teamPlace .. | .waveEnd .. | .launchDependenceMet .. | .queueAgePromotion .. | .launchStart ..
  | .launchEntryRelease .. | .faultReply .. | .commandLaunch .. | .commandPreempt .. | .commandResume ..
  | .commandCancel .. | .commandOpenStream | .commandCreateContext | .prectlPreempt .. | .prectlResume ..
  | .prectlCancel .. | .preemptSaveComplete .. | .resumeRestore .. | .dbgctlStop .. | .dbgctlResume .. | .dbgctlSwap ..
  | .eareaWrite .. | .calnEnable | .calnDisable | .windowFadeTick .. | .bistStart .. | .bistMarchDone ..
  | .patrolScrub .. | .throttleTick .. | .thermalReset .. | .deviceReset | .spdmVersion | .spdmCapabilities
  | .spdmAlgorithms .. | .spdmDigests | .spdmCertificate | .spdmChallenge .. | .spdmMeasurements ..
  | .spdmKeyExchange .. | .spdmFinish .. | .spdmKeyUpdate | .spdmEndSession | .hostMemRead .. | .hostMemWrite ..
  | .meetingLoadFix .. | .portUnfence .. | .portRetireTimeout .. | .preambleReceive .. | .flitReceive .. | .clockSteer
  | .laneAdmit .. | .bootstrapMeeting .. | .epochAnnounce .. | .dataCalendarStart | .rekey .. | .rekeyDeadline ..
  | .laserFailure .. | .laneFlitFailures .. | .remoteHeaderArrival .. | .remoteChunkPerform .. | .remoteMsvCombine ..
  | .remoteGetServe .. | .remoteAtomPerform .. | .remoteArrival .. | .relayEnqueue .. | .remoteAckReceive ..
  | .remoteReplyReceive .. | .remoteRefusal .. | .loopbackPerform .. | .writePerformed .. | .contextDestruction ..
  | .powerLoss .. => {}

end Sys2Proof
end

