-- ==== Sys2Proof/Machine/Paths.lean ====
section
/-!
DEFINITION. Waves, teams and launches by number, and the path table: the tree of each live slot, parking and joining, the
choice of the next leaf, divergence, exit and groups (spec/05_wave_state.md R117 to R131).
-/

namespace Sys2Proof.Machine

/-! ## Records by number -/

/-- A wave before it has started (17 R404): every register zero, no path. -/
def Wave.blank (team ixw part : Nat) : Wave where
  team := team
  ixw := ixw
  part := part
  slot := none
  cond := .waiting
  started := false
  v := []
  s := []
  p := []
  t := []
  a := []
  partial_ := []
  tstat := []
  acc := []
  unfold := []
  mxkoff := 0
  mxscl := 0
  flags := 0
  recCount := 0
  tcause := 0
  tpc := 0
  tval := 0
  tpcWritten := false
  savedHdr := 0
  savedPos := 0
  savedArr := none
  nest := none
  trapSlot := none
  trapMask := 0
  boundary := []
  starvArmed := false
  starvLeft := 0
  starvExp := 0
  starvOp := 0
  root := none
  slotA := .empty
  slotB := .empty
  fairA := 0
  fairB := 0
  deferA := false
  deferB := false
  region := none
  resv := []
  ldres := []
  collAct := false
  collEntry := 0
  collReg := 0
  apos := 0
  eapp := none
  age := 0
  stall := 0
  lastSlot := none
  yieldedAt := none
  issuedAt := none
  readyAt := none
  stableAt := 0
  residentAt := 0
  promoted := false
  moving := false
  paddockA := false
  paddockB := false
  stallc := List.replicate 16 0
  upset := []
  faded := []
  mmt := none
  slots := []
  residuals := []

def Team.blank : Team where
  launch := 0
  ixt := 0
  ixc := 0
  ixd := 0
  placed := false
  die := 0
  lcore := 0
  base := 0
  out := false
  returning := false
  starvedOut := false
  swapped := false
  swapReq := false
  spad := []
  spadUpset := []
  spadLen := 0
  effLen := 0
  dir := []
  trees := []
  barArr := 0
  exited := 0
  bardArr := 0
  barpArr := 0
  bardIn := false
  barpIn := false
  barPhase := 0
  bardPhase := 0
  barpPhase := 0
  outPhases := (0, 0)
  startCyc := 0
  placedAt := 0

def LaunchRec.blank : LaunchRec where
  merge := false
  phased := false
  ctx := 0
  prio := 0
  laneClass := 0
  waveClass := 0
  teamClass := 0
  entry := 0
  w := 0
  c := 0
  d := 0
  t := 0
  g := 0
  vg := 0
  ug := 0
  tiles := 0
  accs := 0
  hregs := 0
  split := Split.default
  spad := 0
  eff := 0
  n := 0
  ns := 0
  ixg := 0
  scheds := []
  deps := []
  done := 0
  args := []
  save := 0
  stream := 0

def Launch.blank : Launch where
  recd := LaunchRec.blank
  image := []
  st := 0
  queue := 0
  enq := 0
  phase := 0
  sched := 0
  phaseAt := 0
  times := [0, 0, 0, 0]
  dies := []
  clusters := []
  nextTeam := []
  ended := []
  promoted := false
  startAt := 0
  doneAt := none
  readIt := false
  preAt := 0
  ostler := none

def State.wave (s : State) (w : Nat) : Wave := s.waves.lookD w (Wave.blank 0 0 0)

def State.team (s : State) (t : Nat) : Team := s.teams.lookD t Team.blank

def State.launch (s : State) (l : Nat) : Launch := s.launches.lookD l Launch.blank

def State.context (s : State) (n : Nat) : Context := s.contexts.lookD n Context.fresh

def State.updLaunch (s : State) (l : Nat) (f : Launch → Launch) : State := { s with launches := s.launches.upd l f }

def State.updCtx (s : State) (n : Nat) (f : Context → Context) : State := { s with contexts := s.contexts.upd n f }

/-- The launch entry, its record, and the context of a wave. -/
def State.launchNo (s : State) (w : Nat) : Nat := (s.team (s.wave w).team).launch

def State.recdOf (s : State) (w : Nat) : LaunchRec := (s.launch (s.launchNo w)).recd

def State.ctxNo (s : State) (w : Nat) : Nat := (s.recdOf w).ctx

def State.ctxOf (s : State) (w : Nat) : Context := s.context (s.ctxNo w)

/-- R396: the Ostler and the system handler run in context 0, the privileged context. -/
def State.privileged (s : State) (w : Nat) : Bool := s.ctxNo w == 0

/-- The progress classes of a wave's launch; privileged waves are concurrent at every level (R32). -/
def State.laneClassOf (s : State) (w : Nat) : Nat := if s.privileged w then 2 else (s.recdOf w).laneClass

def State.waveClassOf (s : State) (w : Nat) : Nat := if s.privileged w then 2 else (s.recdOf w).waveClass

def State.teamClassOf (s : State) (w : Nat) : Nat := if s.privileged w then 2 else (s.recdOf w).teamClass

def Team.core (t : Team) : Nat := t.die * 64 + t.lcore

/-- The core a wave's team is placed on, as a key of `State.cores`. -/
def State.coreOf (s : State) (w : Nat) : Nat := (s.team (s.wave w).team).core

/-- R402: a launch identifier: the entry's tag and number. -/
def State.launchId (s : State) (l : Nat) : Nat := (Sparse.rd s.launchTags l).toNat * 4096 + l

/-- R393: an Ostler wave's launch. -/
def State.isOstler (s : State) (l : Nat) : Bool := (s.launch l).ostler.isSome

/-- Tables 19.5, 19.14: the launch identifier of a record, 0 for an Ostler wave. -/
def State.recordId (s : State) (l : Nat) : Nat := if s.isOstler l then 0 else s.launchId l

/-- The waves of a team, and of a launch. -/
def State.teamWaves (s : State) (t : Nat) : List Nat := (s.waves.keep fun _ w => w.team == t).keys

def State.launchTeams (s : State) (l : Nat) : List Nat := (s.teams.keep fun _ t => t.launch == l).keys

def State.launchWaves (s : State) (l : Nat) : List Nat := (s.launchTeams l).flatMap s.teamWaves

/-! ## Leaves -/

/-- A leaf that stands at a header it has not entered. -/
def Leaf.atHeader (mask : Mask) (fmt : BitVec 14) (kind : LeafKind) (pc : DWord) : Leaf :=
  ⟨mask, fmt, kind, pc, 0, 0, .idle, false, 0, none, none, false⟩

/-- The word after `k` words; past the end of its block a leaf stands at a header not yet entered (R61, R117). -/
def Leaf.advance (l : Leaf) (k : Nat) : Leaf :=
  let pos := l.pos + k
  { l with
    pc := l.pc + BitVec.ofNat 64 (8 * k)
    pos := if pos > (Header.ofWord l.hdr).length then 0 else pos
    blockedAt := none
    arrived := none }

def Leaf.jump (l : Leaf) (target : DWord) : Leaf := { l with pc := target, pos := 0, blockedAt := none, arrived := none }

/-- The address of the header of the block the leaf is in (R117). -/
def Leaf.header (l : Leaf) : DWord := l.pc - BitVec.ofNat 64 (8 * l.pos)

/-- R172: nexthdr. -/
def Leaf.nextHdr (l : Leaf) : DWord := l.header + BitVec.ofNat 64 (8 * ((Header.ofWord l.hdr).length + 1))

/-- R66: the address of the block's reconvergence header. -/
def Leaf.rcv (l : Leaf) : DWord := l.header + 8 * ((Header.ofWord l.hdr).rcv.signExtend 64)

/-! ## Trees -/

def PTree.leaves : PTree → List Leaf
  | .empty => []
  | .leaf l => [l]
  | .node _ a b => a.leaves ++ b.leaves

def PTree.nodes : PTree → Nat
  | .empty => 0
  | .leaf _ => 0
  | .node _ a b => a.nodes + b.nodes + 1

def PTree.lanes (t : PTree) : Mask := t.leaves.foldl (fun m l => m ||| l.mask) 0

def PTree.map (f : Leaf → Leaf) : PTree → PTree
  | .empty => .empty
  | .leaf l => .leaf (f l)
  | .node n a b => .node n (a.map f) (b.map f)

/-- Replace leaf number `k` in leaf order (R120). -/
def PTree.modify (k : Nat) (f : Leaf → PTree) : PTree → PTree
  | .empty => .empty
  | .leaf l => if k = 0 then f l else .leaf l
  | .node n a b =>
    let c := a.leaves.length
    if k < c then .node n (a.modify k f) b else .node n a (b.modify (k - c) f)

def isRunning (l : Leaf) : Bool := l.kind == .running

/-- The place in leaf order of the running leaf, and the leaf. -/
def PTree.runIdx (t : PTree) : Option Nat := firstIdx isRunning t.leaves 0

def PTree.running (t : PTree) : Option Leaf := t.leaves.find? isRunning

def PTree.updRunning (f : Leaf → Leaf) (t : PTree) : PTree := t.map fun l => if isRunning l then f l else l

/-- R406: the wait of a path whose fault has not been answered. -/
def Wait.faulted : Wait → Bool
  | .fault .. | .noEntry .. => true
  | _ => false

/-- R122: the place of the next leaf: the first at or after place `k`, wrapping to the first of the slot, among those
with a lane in `within` (all lanes, or those of a handler's path while it runs, R202). A leaf that a debugger has stopped
(R420), or that waits for a fault to be answered (R406), is passed over while another can run. DEDUCED, log 118. -/
def PTree.nextIdx (within : Mask) (k : Nat) (t : PTree) : Option Nat :=
  let ok := fun (l : Leaf) => l.mask &&& within != 0
  let free := fun (l : Leaf) => ok l && !l.stopped && !l.wait.faulted
  let from_ := fun (f : Leaf → Bool) => (firstIdx f (t.leaves.drop k) k).orElse fun _ => firstIdx f t.leaves 0
  (from_ free).orElse fun _ => from_ ok

/-- When no leaf runs, the next one runs. -/
def PTree.activate (within : Mask) (k : Nat) (t : PTree) : PTree :=
  if t.leaves.any isRunning then t
  else
    match t.nextIdx within k with
    | none => t
    | some i => t.modify i fun l => .leaf { l with kind := .running }

/-- R122, R123, R178: the running leaf gives way, marked `kind`; the next leaf after it runs, itself when it is alone.
DEDUCED, log 40. -/
def PTree.switch (within : Mask) (kind : LeafKind) (t : PTree) : PTree :=
  match t.runIdx with
  | none => t.activate within 0
  | some k => (t.map fun l => if isRunning l then { l with kind := kind } else l).activate within (k + 1)

/-- R121, R176: lanes leave every leaf and node. -/
def PTree.exit (m : Mask) : PTree → PTree
  | .empty => .empty
  | .leaf l => if l.mask &&& ~~~m = 0 then .empty else .leaf { l with mask := l.mask &&& ~~~m }
  | .node n a b =>
    if n.mask &&& ~~~m = 0 then .empty else .node { n with mask := n.mask &&& ~~~m } (a.exit m) (b.exit m)

/-- A path whose watched access has yet to complete takes its trap first (R422), and so does one that is to take its single step. -/
def Wait.watches : Wait → Bool
  | .watch .. | .stepped => true
  | _ => false

/-- Nothing keeps the leaf from parking: no debugger stop (R420) and no trap to come. -/
def Leaf.mayPark (l : Leaf) : Bool := !l.stopped && !l.wait.watches

/-- What is left of a path's wait when its wave is stopped or leaves: a wait is made again, and a trap to come stays. -/
def Wait.rest : Wait → Wait
  | .watch ids cs step => .watch ids cs step
  | .stepped => .stepped
  | _ => .idle

/-- R121, R226: the leaf that a node becomes at its JOIN. It takes the node's entry, with the error that the entry holds. -/
def Node.rejoined (n : Node) : Leaf := { Leaf.atHeader n.mask n.fmt .pending n.join with bad := n.bad }

/-- R121: a leaf at the header named by its parent's JOIN parks; a node whose lanes have all parked or exited becomes
one leaf at its JOIN. `join` is the JOIN of the parent. A leaf held by a debugger stop keeps its place (R420). -/
def PTree.settle (join : Option DWord) : PTree → PTree
  | .empty => .empty
  | .leaf l => if join = some l.pc && l.pos = 0 && l.mayPark then .empty else .leaf l
  | .node n a b =>
    match a.settle (some n.join), b.settle (some n.join) with
    | .empty, .empty =>
      if n.mask = 0 then .empty
      else if join = some n.join then .empty
      else .leaf n.rejoined
    | a', b' => .node n a' b'

/-- The lanes of leaves that stand at a header (R130). -/
def PTree.parkedAt (join : DWord) (t : PTree) : Mask :=
  t.leaves.foldl (fun m l => if l.pc = join && l.pos = 0 && l.mayPark then m ||| l.mask else m) 0

/-- R131: the tree restricted to some lanes; nodes that keep none of them are dropped. -/
def PTree.restrict (m : Mask) (f : Leaf → Leaf) : PTree → PTree
  | .empty => .empty
  | .leaf l => if l.mask &&& m = 0 then .empty else .leaf (f { l with mask := l.mask &&& m })
  | .node n a b =>
    if n.mask &&& m = 0 then .empty
    else .node { n with mask := n.mask &&& m } (a.restrict m f) (b.restrict m f)

/-- The leaves of a slot's tree with their path index (Table 19.5), `n` being the next stack entry's number. -/
def PTree.indexed (slot : Nat) : PTree → Nat → List (Leaf × Nat) × Nat
  | .empty, n => ([], n)
  | .leaf l, n => if isRunning l then ([(l, slot)], n) else ([(l, 2 + n)], n + 1)
  | .node _ a b, n =>
    let x := a.indexed slot (n + 1)
    let y := b.indexed slot x.2
    (x.1 ++ y.1, y.2)

/-! ## Live slots -/

def Wave.tree (w : Wave) : Slot → PTree
  | .a => w.slotA
  | .b => w.slotB

def Wave.setTree (w : Wave) (k : Slot) (t : PTree) : Wave :=
  match k with
  | .a => { w with slotA := t }
  | .b => { w with slotB := t }

/-- Table 5.3, DEPTH: entries in use: nodes and leaves that do not run. -/
def Wave.depth (w : Wave) : Nat :=
  let f := fun (t : PTree) => t.nodes + (t.leaves.filter fun l => !isRunning l).length
  f w.slotA + f w.slotB

/-- R118: the wave is converged: its only path is in slot A, and it is in no region. -/
def Wave.converged (w : Wave) : Bool :=
  w.root.isNone && w.slotB == .empty && w.region.isNone &&
    match w.slotA with
    | .leaf _ => true
    | _ => false

/-- FAIR as it acts (Table 5.5). -/
def Context.fairness (c : Context) : Nat := Nat.max c.fair 256

def runMask (t : PTree) : Mask := (t.running.map Leaf.mask).getD 0

/-- R113, R276: a save or a restore of the wave leaves no register dirty. -/
def Wave.cleanDirty (w : Wave) : Wave :=
  { w with
    tstat := w.tstat.map fun _ x => { x with dirty := false }
    acc := w.acc.map fun _ x => { x with dirty := false } }

/-- R202: while a path runs a handler, only its lanes' leaves may run in a slot that holds any of them. -/
def Wave.within (w : Wave) (k : Slot) : Mask :=
  if w.trapSlot.isSome && (w.tree k).lanes &&& w.trapMask != 0 then w.trapMask else BitVec.allOnes 32

/-- R121, R123: parking, joining and the choice of the running leaf in both slots after a change, the running leaf of
slot A having stood at place `ka` and that of slot B at `kb`. A change of running leaf, also to one with the same lanes,
reloads its slot's timer and ends a deferral of the leaf that has gone (R124). -/
def Wave.resettle (fair ka kb : Nat) (w : Wave) : Wave :=
  let join := w.root.map Node.join
  let a := (w.slotA.settle join).activate (w.within .a) ka
  let b := (w.slotB.settle join).activate (w.within .b) kb
  let w' :=
    match w.root, a, b with
    | some n, .empty, .empty =>
      { w with
        root := none
        slotA := if n.mask = 0 then .empty else .leaf { n.rejoined with kind := .running }
        slotB := .empty }
    | _, _, _ => { w with slotA := a, slotB := b }
  { w' with
    fairA := if w'.slotA.running = w.slotA.running then w'.fairA else fair
    fairB := if w'.slotB.running = w.slotB.running then w'.fairB else fair
    deferA := w'.deferA && w'.slotA.running == w.slotA.running
    deferB := w'.deferB && w'.slotB.running == w.slotB.running }

/-! ## Groups -/

/-- The group a path is, when it is one (R127). -/
def State.groupOf (s : State) (p : PathRef) : Option Group :=
  s.groups.find? fun g => g.lead == p.wave && g.slot == p.slot

/-- The waves a path acts for, with their lanes: its own wave, or the home waves of its group in ascending order. -/
def State.homes (s : State) (p : PathRef) : List (Nat × Mask) :=
  match s.groupOf p with
  | some g => g.homes
  | none => [(p.wave, BitVec.allOnes 32)]

def State.leafAt (s : State) (p : PathRef) : Option Leaf :=
  match s.waves.look p.wave with
  | some w => (w.tree p.slot).running
  | none => none

def State.updLeaf (s : State) (p : PathRef) (f : Leaf → Leaf) : State :=
  s.updWave p.wave fun w => w.setTree p.slot ((w.tree p.slot).updRunning f)

/-- A wait of a group, as one home wave keeps it when the group dissolves. -/
def Wait.forWave (h : Nat) : Wait → Wait
  | .word ws => .word (ws.filter fun x => x.1 == h)
  | .counters ws l s c t => .counters (ws.filter fun x => x == h) l s c t
  | .watch ids cs step => if cs.any fun c => c.1 == h then .watch ids (cs.filter fun c => c.1 == h) step else .idle
  | x => x

/-- R131: the trees of a dissolution: each home wave of the groups formed at one window close takes the groups' trees restricted
to its lanes, taken in slot A and other in slot B, under a root node at the region's JOIN. Nothing parks or ends yet. -/
def State.dissolveTrees (s : State) (close : Nat) : State :=
  let gs := s.groups.filter fun g => g.close == close
  let part := fun (h : Nat) (k : Slot) =>
    match gs.find? fun g => g.slot == k && g.homes.any fun x => x.1 == h with
    | none => PTree.empty
    | some g =>
      let m := ((g.homes.find? fun x => x.1 == h).map Prod.snd).getD 0
      ((s.wave g.lead).tree k).restrict m fun l => { l with wait := l.wait.forWave h }
  let waves := s.waves.map fun h w =>
    match w.region with
    | none => w
    | some r =>
      if r.close != close then w
      else
        let w' := { w with
          slotA := part h .a
          slotB := part h .b
          root := some ⟨r.mask, r.fmt, r.join, false⟩
          region := none
          fairA := (s.ctxOf h).fairness
          fairB := (s.ctxOf h).fairness
          deferA := false
          deferB := false }
        { w' with slotA := w'.slotA.activate (w'.within .a) 0, slotB := w'.slotB.activate (w'.within .b) 0 }
  { s with waves := waves, groups := s.groups.filter fun g => g.close != close }

/-- The home waves of the groups formed at one window close. -/
def State.closeHomes (s : State) (close : Nat) : List Nat :=
  s.waves.filterMap fun (h, w) => if (w.region.map Region.close) == some close then some h else none

/-- A wave without any path left, and in no region, has ended (R177). -/
def Wave.checkEnd (w : Wave) : Wave :=
  if w.slotA == .empty && w.slotB == .empty && w.root.isNone && w.region.isNone &&
      (w.cond == .resident || w.cond == .stable) then
    { w with cond := .ended, trapSlot := none, trapMask := 0 }
  else w

/-- R124: the lanes lose their reservations. -/
def Wave.dropResv (w : Wave) (m : Mask) : Wave := { w with resv := w.resv.keep fun l _ => !(m.getLsbD l) }

/-- Lanes `m` of a path lose their reservations, each in its home wave. -/
def State.loseResv (s : State) (p : PathRef) (m : Mask) : State :=
  if m = 0 then s else (s.homes p).foldl (fun s h => s.updWave h.1 fun w => w.dropResv (m &&& h.2)) s

/-- R122, R124: the lanes of a slot's running leaf that another leaf of the slot has taken the place of. -/
def descheduled (old new : PTree) : Mask := if new.running.isSome then runMask old &&& ~~~(runMask new) else 0

/-- R121 to R124, R177: wave `h`, whose trees stood as in `old`, is brought up to date: parking, joining, the next leaf, the
reservations of the lanes that give way, and the end. -/
def State.resettle (s : State) (h : Nat) (old : Wave) (ka kb : Nat) : State :=
  let new := (s.wave h).resettle (s.ctxOf h).fairness ka kb
  let s := [Slot.a, Slot.b].foldl (fun s q => s.loseResv ⟨h, q⟩ (descheduled (old.tree q) (new.tree q))) s
  s.updWave h fun w => (w.resettle (s.ctxOf h).fairness ka kb).checkEnd

/-- Parking, joining, the next leaf and the end, in waves whose trees have changed (R121, R177). -/
def State.settleWaves (s : State) (ws : List Nat) : State := ws.foldl (fun s h => s.resettle h (s.wave h) 0 0) s

/-- R131: every group formed at one window close dissolves. -/
def State.dissolve (s : State) (close : Nat) : State := (s.dissolveTrees close).settleWaves (s.closeHomes close)

/-- R130: the lanes of a group's path that stand at the region's JOIN park for the region, leaving every inner node. -/
def State.parkRegion (s : State) (p : PathRef) : State :=
  match s.groupOf p with
  | none => s
  | some g =>
    let t := (s.wave p.wave).tree p.slot
    let m := t.parkedAt g.join
    if m = 0 then s
    else
      let s := s.updWave p.wave fun w => w.setTree p.slot (t.exit m)
      { s with waves := s.waves.map fun h w =>
          match w.region with
          | none => w
          | some r =>
            if r.close != g.close then w
            else
              let mine := ((g.homes.find? fun x => x.1 == h).map Prod.snd).getD 0
              { w with region := some { r with parked := r.parked ||| (m &&& mine) } } }

/-- After the path `p`, whose leaf stood at place `k` of its slot, has moved: parking, joining, the next leaf, the end
of the wave. -/
def State.moved (s : State) (p : PathRef) (k : Nat) : State :=
  let old := s.wave p.wave
  (s.parkRegion p).resettle p.wave old (match p.slot with | .a => k | .b => 0) (match p.slot with | .a => 0 | .b => k)

/-- The place in leaf order of the path's leaf. -/
def State.place (s : State) (p : PathRef) : Nat :=
  (((s.wave p.wave).tree p.slot).runIdx).getD 0

/-! ## Switches of the running leaf (R122 to R124) -/

/-- The running leaf of a slot gives way, marked `kind` (R122, R123, R178). Lanes that are descheduled lose their
reservations, and the timer is loaded at a change of running leaf. -/
def State.switchLeaf (s : State) (p : PathRef) (kind : LeafKind) : State :=
  let w := s.wave p.wave
  let t := w.tree p.slot
  let t' := t.switch (w.within p.slot) kind
  let old := runMask t
  let changed := runMask t' != old
  let s := if changed then s.loseResv p old else s
  let fair := (s.ctxOf p.wave).fairness
  s.updWave p.wave fun w =>
    let w := w.setTree p.slot t'
    match p.slot with
    | .a => { w with fairA := if changed then fair else w.fairA, deferA := false }
    | .b => { w with fairB := if changed then fair else w.fairB, deferB := false }

end Sys2Proof.Machine
end

