-- ==== Sys2Proof/Machine/Calendar.lean ====
section
/-!
DEFINITION. The fabric calendar (spec/20_fabric_calendar.md R439 to R445): the matching, the slot clock, which peer a port meets;
and the routes and queues of the Yard as they bear on issue (spec/21_fabric_transfers.md R460 to R465).
-/

namespace Sys2Proof.Machine

/-! ## The matching (R439 to R441) -/

/-- N'. -/
def Cal.nEven (c : Cal) : Nat := if c.n % 2 = 0 then c.n else c.n + 1

/-- The physical ports that PSEL selects, ascending. -/
def Cal.selected (c : Cal) : List Nat := (upto 16).filter fun i => c.psel.getLsbD i

/-- P. -/
def Cal.portCount (c : Cal) : Nat := c.selected.length

/-- S. -/
def Cal.slots (c : Cal) : Nat := if c.portCount = 0 then 1 else (c.nEven - 1 + c.portCount - 1) / c.portCount

def Cal.slotNs (c : Cal) : Nat :=
  match c.phase with
  | .boot => 6400
  | _ => c.slotlen

def Cal.guardNs (c : Cal) : Nat :=
  match c.phase with
  | .boot => 64
  | _ => c.guard

def Cal.ns (c : Cal) : Nat := c.ps.toNat / 1000

/-- Calendar cycles, and slots, since the calendar in force began. -/
def Cal.cycleNo (c : Cal) : Nat := c.ns / (Nat.max 1 c.slots * Nat.max 1 c.slotNs)

def Cal.slotAbs (c : Cal) : Nat := c.ns / Nat.max 1 c.slotNs

/-- The slot in force, and the picoseconds passed in it. -/
def Cal.slotNow (c : Cal) : Nat := c.slotAbs % Nat.max 1 c.slots

def Cal.intoSlot (c : Cal) : Nat := c.ps.toNat % (Nat.max 1 c.slotNs * 1000)

/-- R440. -/
def Cal.partner (c : Cal) (i j : Nat) : Nat :=
  let m := c.nEven - 1
  if i < m then
    let k := (j + m - i % m) % m
    if k = i then m else k
  else (j * (c.nEven / 2)) % m

/-- The logical port of a physical one. -/
def Cal.logical (c : Cal) (port : Nat) : Option Nat := firstIdx (fun n => n == port) c.selected 0

/-- The peer that a physical port meets in a slot; `none` in an idle slot-port. -/
def Cal.meets (c : Cal) (port slot : Nat) : Option Nat :=
  match c.logical port with
  | none => none
  | some p =>
    let j := slot * c.portCount + p
    if c.n < 2 || j + 1 ≥ c.nEven then none
    else
      let q := c.partner c.index j
      if q < c.n && q != c.index then some q else none

/-- R441: the matching in which this package meets `q`. -/
def Cal.matching (c : Cal) (q : Nat) : Nat :=
  let m := c.nEven - 1
  if c.index < m && q < m then (c.index + q) % m else if c.index < m then 2 * c.index % m else 2 * q % m

/-- The physical port and the slot of the pair. -/
def Cal.pairPort (c : Cal) (q : Nat) : Nat := nth 16 c.selected (c.matching q % Nat.max 1 c.portCount)

def Cal.pairSlot (c : Cal) (q : Nat) : Nat := c.matching q / Nat.max 1 c.portCount

/-! ## CYCLE (R445) -/

/-- The data calendar runs and EN is 1. -/
def State.inData (s : State) : Bool :=
  s.cal.en && match s.cal.phase with | .data => true | _ => false

/-- CYCLE, which reads zero while EN is 0 and during the bootstrap calendar. -/
def State.calCycle (s : State) : Nat := if s.inData then s.cal.cycleNo % 2 ^ 48 else 0

/-! ## Ports and flits -/

def State.port (s : State) (n : Nat) : Port := s.ports.lookD n { Port.fresh with live := false }

def State.updPort (s : State) (n : Nat) (f : Port → Port) : State := { s with ports := s.ports.upd n f }

def State.peer (s : State) (q : Nat) : Peer := s.peers.lookD q Peer.fresh

def State.updPeer (s : State) (q : Nat) (f : Peer → Peer) : State := { s with peers := s.peers.put q (f (s.peer q)) }

/-- The meeting port of a pair is retired at this package. -/
def State.portGone (s : State) (q : Nat) : Bool := !(s.port (s.cal.pairPort q)).live

def bits16 (x : BitVec 16) : Nat := ((upto 16).filter fun i => x.getLsbD i).length

/-- KIND of a header flit (Table 21.1). -/
def kindCode : RKind → Nat
  | .rput => 1
  | .rgetReq => 2
  | .rgetData => 3
  | .ratom => 4
  | .ratomReply => 5
  | .rred => 6
  | .rarrv => 7
  | .ack => 8
  | .refusal => 9

/-- `n` bytes, cut or filled with zeros. -/
def padTo (n : Nat) (bs : List Byte) : List Byte := (bs ++ List.replicate n 0).take n

/-- A lane record (Table 21.1): offset, operand and compare. -/
def laneBytes (h : RHeader) (l : LaneRec) : List Byte :=
  bytesLE 4 (l.addr + 2 ^ 53 - h.addr) ++ bytesLE 4 l.operand.toNat ++ bytesLE 4 l.compare.toNat

/-- The 256 bytes of a header (Table 21.1). -/
def headerBytes (h : RHeader) : List Byte :=
  let len := if h.kind == .ratom then h.lanes.length else h.length
  let b1 := h.route.toNat + h.relayed.toNat * 4 + h.nd.toNat * 8 + h.cont.toNat * 16
  let tail := if h.kind == .ratom then (h.lanes.take 17).flatMap (laneBytes h) else (h.tags.take 26).flatMap (bytesLE 8)
  padTo 256 (bytesLE 1 (kindCode h.kind) ++ bytesLE 1 b1 ++ bytesLE 2 h.origin ++ bytesLE 2 h.target ++ bytesLE 2 h.context ++
    bytesLE 8 h.tag ++ bytesLE 8 h.addr ++ bytesLE 8 h.word ++ bytesLE 4 len ++ bytesLE 4 h.opcode ++ bytesLE 4 h.first ++
    bytesLE 4 h.flags.toNat ++ tail)

/-- The 256 bytes of a payload (R443, R463). -/
def payloadBytes : Payload → List Byte
  | .header h => headerBytes h
  | .chunk _ _ _ bs => padTo 256 bs
  | .lanes h => padTo 256 ((h.lanes.drop 17).flatMap (laneBytes h))
  | .fill => padTo 256 []
  | .noKind bs => padTo 256 bs

/-- TYPE of a flit that carries a payload (Table 20.9). -/
def payloadType : Payload → Nat
  | .fill => 1
  | _ => 0

/-- R456: CYCLE, the flit's position within its meeting, 32 zero bits. -/
def Cal.nonce (c : Cal) (pos : Nat) : BitVec 96 := BitVec.ofNat 96 ((c.cycleNo % 2 ^ 48 * 2 ^ 16 + pos % 2 ^ 16) * 2 ^ 32)

/-- A flit from package `a` to package `b` under key number `key`, at a position of the meeting. -/
def Cal.flit (c : Cal) (a b key pos : Nat) (kgen : Bool) (seq : Nat) (y : Payload) : Flit :=
  let h := flitHdr kgen (payloadType y) seq
  ⟨y, h, Config.flitTag a b key (c.nonce pos) h (natOfBytes (payloadBytes y))⟩

/-- R449: the tag verifies. -/
def Cal.tagOk (c : Cal) (a b key pos : Nat) (f : Flit) : Bool :=
  f.tag == Config.flitTag a b key (c.nonce pos) f.hdr (natOfBytes (payloadBytes f.payload))

/-- The 272 bytes of a flit on the fibre (Table 20.9). -/
def Cal.flitBytes (c : Cal) (a b key pos : Nat) (f : Flit) : List Byte :=
  bytesLE 256 (Config.flitCipher a b key (c.nonce pos) (natOfBytes (payloadBytes f.payload))).toNat ++ bytesLE 4 f.hdr.toNat ++
    bytesLE 12 f.tag.toNat

/-- R442: F, at `w` lanes. -/
def Cal.flits (c : Cal) (w : Nat) : Nat := 25 * w * (c.slotlen - c.guard) / 272

/-- R463: chunks of `len` bytes at the target address `a`. -/
def chunkCount (a len : Nat) : Nat := if len = 0 then 0 else (a + len + 255) / 256 - a / 256

/-- Bytes of the chunk that begins `off` bytes into an operation. DEDUCED, log 87. -/
def chunkLen (a len off : Nat) : Nat := Nat.min (len - off) (256 - (a + off) % 256)

/-- Flits beyond the first that an item still has to send. -/
def YardItem.dataFlits (x : YardItem) : Nat :=
  match x.header.kind with
  | .rput | .rred => chunkCount (x.header.addr + x.next) (x.header.length - x.next)
  | .ratom => if x.header.lanes.length ≤ 17 then 0 else 1
  | .rgetData | .ratomReply => if x.data.isEmpty then 0 else 1
  | .rgetReq => (x.header.length - x.next + 65535) / 65536 - 1
  | .rarrv | .ack | .refusal => 0

def YardItem.flits (x : YardItem) : Nat := 1 + x.dataFlits

/-- Table 21.5, BYTES. -/
def Peer.directBytes (p : Peer) : Nat := p.direct.foldl (fun n x => n + 272 * x.flits) 0

/-! ## Routes (R460, R465) -/

/-- Where an operation goes: this package's own loopback, the direct queue of a peer, an intermediate, or nowhere. -/
inductive Way where
  | loop | direct (q : Nat) | via (k : Nat) | refused
  deriving DecidableEq, Repr

/-- The real packages that may relay to `q`. -/
def State.intermediates (s : State) (q : Nat) : List Nat :=
  (upto s.cal.n).filter fun k =>
    k != s.cal.index && k != q && let p := s.port (s.cal.pairPort k); p.live && !p.fenced

def State.goDirect (s : State) (q : Nat) : Way := if s.portGone q then .refused else .direct q

/-- .V draws its intermediate uniformly; the draw's number is `n` (log 13). -/
def State.goVia (s : State) (q n : Nat) : Way :=
  let ks := s.intermediates q
  if ks.isEmpty then s.goDirect q else .via (nth 0 ks (Config.routeDraw n % ks.length))

def State.routeOf (s : State) (rt : Route) (q n : Nat) : Way :=
  if q = s.cal.index then .loop
  else if q ≥ s.cal.n then .refused
  else
    match rt with
    | .d => s.goDirect q
    | .v => s.goVia q n
    | .a =>
      let p := s.peer q
      if s.portGone q || decide (p.directBytes > 2 * 256 * s.cal.flits p.width) then s.goVia q n else s.goDirect q

/-- R461: 16,384 operations. DESIGN CHOICE, log 84. -/
def State.yardFull (s : State) : Way → Bool
  | .loop | .refused => false
  | .direct q | .via q => decide ((s.peer q).direct.length ≥ 16384)

/-- R459: the target package of a remote address, and the address there. -/
def remoteTarget (a : DWord) : Nat := a.toNat / 2 ^ 53

def remoteAddr (a : DWord) : Nat := a.toNat % 2 ^ 53

end Sys2Proof.Machine
end

