-- ==== Sys2Proof/Machine/LineCode.lean ====
section
/-!
DEFINITION. The line code: Reed-Solomon over GF(2^8) (spec/16_die.md R365), and what its decoder finds (R366).
-/

namespace Sys2Proof.Machine

/-- An element of GF(2^8) as the coefficients of 1 to x^7. -/
abbrev Gf := BitVec 8

/-- The product by x modulo x^8 + x^4 + x^3 + x^2 + 1. -/
def gfX (a : Gf) : Gf := (a <<< 1) ^^^ (if a.msb then 0x1D else 0)

/-- The product, the upper bits of `b` first. -/
def gfMul (a b : Gf) : Gf := (upto 8).reverse.foldl (fun r i => gfX r ^^^ (if b.getLsbD i then a else 0)) 0

/-- α^n, with α = x. -/
def gfPow : Nat → Gf
  | 0 => 1
  | n + 1 => gfX (gfPow n)

/-- The value at `x` of the polynomial with these coefficients, that of x^0 first. -/
def gfEval (x : Gf) : List Gf → Gf
  | [] => 0
  | c :: r => c ^^^ gfMul x (gfEval x r)

/-- The product by (x − r). -/
def gfRoot (r : Gf) (g : List Gf) : List Gf := ((0 :: g).zip (g.map (gfMul r) ++ [0])).map fun p => p.1 ^^^ p.2

/-- g(x) = (x − α^0)(x − α^1) … (x − α^15), the coefficient of x^0 first. -/
def genPoly : List Gf := (upto 16).foldl (fun g i => gfRoot (gfPow i) g) [1]

/-- One data byte, the upper ones first, enters the remainder modulo g. -/
def checkStep (rem : List Gf) (d : Gf) : List Gf :=
  let top := rem.getLastD 0 ^^^ d
  ((0 :: rem.dropLast).zip (genPoly.take 16)).map fun p => p.1 ^^^ gfMul top p.2

/-- The check symbols c0 to c15 of the data bytes d0 to d63. -/
def lineCheck (data : List Gf) : List Gf := data.reverse.foldl checkStep (List.replicate 16 0)

/-- A line's codeword: the coefficients of x^0 to x^79. -/
def lineWord (data : List Gf) : List Gf := lineCheck data ++ data

/-- Whether a word is divisible by g. -/
def isLineWord (c : List Gf) : Bool := (upto 16).all fun i => gfEval (gfPow i) c == 0

/-- TSV group and beat of the symbol that is the coefficient of x^k. -/
def tsvOf (k : Nat) : Nat × Nat := if k < 16 then (8 + k % 2, k / 2) else ((k - 16) % 8, (k - 16) / 8)

/-- The symbols in error, each once. -/
def badSymbols (e : LineErr) : List Nat := (upto 80).filter fun k => ((e.symbols.find? fun x => x.1 == k).map Prod.snd).getD 0 != 0

/-- The difference from the word that was stored. -/
def errWord (e : LineErr) : List Gf := (upto 80).map fun k => ((e.symbols.find? fun x => x.1 == k).map Prod.snd).getD 0

/-- The TSV group in which all errors fall. -/
def errGroup (e : LineErr) : Option Nat :=
  match badSymbols e with
  | [] => none
  | k :: r => if r.all fun x => (tsvOf x).1 == (tsvOf k).1 then some (tsvOf k).1 else none

/-- What a read of a line finds: nothing, a correctable error, or an uncorrectable one. -/
inductive LineRead where
  | clean | corrected | poisoned
  deriving DecidableEq, Repr

/-- R365, R366: the decoder finds nothing where the word it reads is a codeword; it corrects 8 symbols, or 4 beyond those of an
erased group. DEDUCED, log 44. -/
def lineRead (erased : Option Nat) (e : LineErr) : LineRead :=
  if (badSymbols e).isEmpty || isLineWord (errWord e) then .clean
  else
    match erased with
    | none => if (badSymbols e).length ≤ 8 then .corrected else .poisoned
    | some g => if ((badSymbols e).filter fun k => (tsvOf k).1 != g).length ≤ 4 then .corrected else .poisoned

end Sys2Proof.Machine
end

