-- ==== Sys2Proof/Machine/Retire.lean ====
section
/-!
DEFINITION. The machine-check log (spec/19_observation_and_service.md R437). Retirement: the persistent tables (spec/19_observation_and_service.md R432), what a retirement takes away
(spec/16_die.md R361, R383, R384) and leaving service (R434).
-/

namespace Sys2Proof.Machine

/-! ## The machine-check log (19 R437) -/

/-- Table 19.5, offset 14: the wave identifier. -/
def State.waveId (s : State) (w : Nat) : Nat :=
  let x := s.wave w
  let t := s.team x.team
  t.die * 2 ^ 14 + t.lcore * 2 ^ 8 + x.part * 2 ^ 6 + x.slot.getD 0 * 4

/-- R437, R461, Table 19.12: the ring's local physical address, directly below the Yard, which is the top 512 MiB of die 0's memory.
DEDUCED, log 9. -/
def State.mclogBase (s : State) : Nat := (s.die 0).channels * 2 ^ 30 - 2 ^ 29 - 2 ^ 18

/-- Table 19.14: one entry of the ring; MCCNT advances. DEDUCED, log 9. DESIGN CHOICE, log 18. -/
def State.mclog (s : State) (kind waveId launchId unit addr detail : Nat) : State :=
  let bs := bytesLE 8 s.calCycle ++ bytesLE 4 s.mccnt ++ bytesLE 2 kind ++ bytesLE 2 waveId ++ bytesLE 4 launchId ++
    bytesLE 2 unit ++ bytesLE 2 0 ++ bytesLE 8 addr ++ bytesLE 8 detail ++ bytesLE 24 0
  let s := s.homeWrite ⟨.dev, s.mclogBase + 64 * (s.mccnt % 4096), 0, false⟩ bs
  { s with mccnt := (s.mccnt + 1) % 2 ^ 32 }

def unitOf (die n : Nat) : Nat := die * 2 ^ 14 + n

/-- R432: the copy of the persistent tables in force: the higher sequence number whose check verifies. -/
def State.tables (s : State) : List Retired :=
  if s.copyA.intact && (!s.copyB.intact || s.copyB.seq ≤ s.copyA.seq) then s.copyA.units
  else if s.copyB.intact then s.copyB.units
  else []

/-- R384: the physical core that holds a logical number: its own, or the spare of its cluster. -/
def State.physCore (s : State) (die lcore : Nat) : Nat :=
  let cl := lcore / 8
  if s.tables.contains (.core die cl (lcore % 8)) then cl * 9 + 8 else cl * 9 + lcore % 8

/-- The unit of a wave's core (Table 19.15). -/
def State.coreUnit (s : State) (w : Nat) : Nat :=
  let t := s.team (s.wave w).team
  unitOf t.die (s.physCore t.die t.lcore)

/-- A machine-check entry about a wave, and its trap 0x01, pending at the wave's next boundary with TVAL the entry's
number (R200, R437). -/
def State.machineCheck (s : State) (w kind unit addr detail : Nat) : State :=
  let n := s.mccnt
  let s := s.mclog kind (s.waveId w) (s.recordId (s.launchNo w)) unit addr detail
  s.updWave w fun x => { x with boundary := x.boundary ++ [(0x01, n)] }

/-! ## The persistent tables -/

/-- R432: a retirement is written to the older copy in one step; a unit is recorded once. -/
def State.recordUnit (s : State) (u : Retired) : State :=
  let us := s.tables
  if us.contains u then s
  else
    let n := Nat.max s.copyA.seq s.copyB.seq + 1
    let c : PersistCopy := ⟨n, true, us ++ [u]⟩
    let aOlder := !s.copyA.intact || (s.copyB.intact && decide (s.copyA.seq < s.copyB.seq))
    if aOlder then { s with copyA := c } else { s with copyB := c }

/-- R384: the occupied logical numbers of a die: each cluster has eight while at most one of its nine cores is retired. -/
def coresLive (us : List Retired) (die : Nat) : Nat :=
  (upto 8).foldl (fun n cl =>
    n + Nat.min 8 (9 - (us.filter fun u => match u with | .core d c _ => d == die && c == cl | _ => false).length)) 0

def channelsLive (us : List Retired) (die stack : Nat) : Nat :=
  32 - (us.filter fun u => match u with | .channel d k _ => d == die && k == stack | _ => false).length

def vaultBanksGone (us : List Retired) (die : Nat) : Nat :=
  (us.filter fun u => match u with | .vaultBank d _ _ => d == die | _ => false).length

def portsGone (us : List Retired) : Nat :=
  (us.filter fun u => match u with | .port _ => true | _ => false).length

/-- R434: the configuration lies below the ranges of R433. -/
def belowRange (us : List Retired) : Bool :=
  ((upto 4).any fun d =>
    decide (coresLive us d < 56) || decide (vaultBanksGone us d ≥ 512) ||
      (upto 4).any fun k => decide (channelsLive us d k < 24)) ||
    decide (portsGone us > 4)

/-- R433: the retirements that the configuration shows. One that would take it below its ranges puts the package out of service
instead (R434). DEDUCED, log 139. -/
def shownRetired (us : List Retired) : List Retired := us.foldl (fun l u => if belowRange (l ++ [u]) then l else l ++ [u]) []

/-- A unit is retired: recorded, and the package leaves service when too little is left (R434). -/
def State.retireUnit (s : State) (u : Retired) : State :=
  let s := s.recordUnit u
  { s with oos := s.oos || belowRange s.tables }

/-! ## Pseudo-channels -/

/-- R361: the key pch × 4 + stack of entry `slot` of the pseudo-channel table, the keys retired at reset left out. -/
def chanKey (dead : List Nat) (slot : Nat) : Nat :=
  if dead.isEmpty then slot else nth 0 ((upto 256).filter fun k => !(dead.contains k)) slot

/-- Stack and pseudo-channel of an entry. -/
def Die.stackOf (d : Die) (slot : Nat) : Nat := chanKey d.dead slot % 4

def Die.pchOf (d : Die) (slot : Nat) : Nat := chanKey d.dead slot / 4

/-- The entry that serves a line of device memory. -/
def State.slotOfLine (s : State) (line : Nat) : Nat × Nat :=
  let die := line * 64 / 2 ^ 38
  (die, (chanOf (Nat.max (s.die die).channels 1) (line * 64 % 2 ^ 38)).1)

/-- UNIT of an entry about a line: its stack (Table 19.15). -/
def State.lineUnit (s : State) (line : Nat) : Nat :=
  let x := s.slotOfLine line
  unitOf x.1 ((s.die x.1).stackOf x.2)

/-! ## Reads of lines (R366) -/

def Die.erasedGroup (d : Die) (slot : Nat) : Option Nat := (d.erased.find? fun x => x.1 == slot).map Prod.snd

def bumpCe : List (Nat × Nat × Nat) → Nat → Nat → List (Nat × Nat × Nat)
  | [], c, g => [(c, g, 1)]
  | x :: r, c, g => if x.1 == c && x.2.1 == g then (c, g, x.2.2 + 1) :: r else x :: bumpCe r c g

def ceCount (l : List (Nat × Nat × Nat)) (c g : Nat) : Nat :=
  ((l.find? fun x => x.1 == c && x.2.1 == g).map fun x => x.2.2).getD 0

/-- R366: a corrected read confined to one TSV group; the group is marked as an erasure at CETHR of them. -/
def State.correctedRead (s : State) (die slot g : Nat) : State :=
  let d := s.die die
  let d := { d with ce := bumpCe d.ce slot g }
  let s := s.setDie die d
  if ceCount d.ce slot g ≥ Nat.max d.cethr 1 && (d.erasedGroup slot).isNone then
    let s := s.setDie die { d with erased := d.erased ++ [(slot, g)] }
    let s := s.mclog 5 0 0 (unitOf die (d.stackOf slot)) (d.pchOf slot) g
    s.retireUnit (.tsv die (chanKey d.dead slot) g)
  else s

/-- R383: a line found uncorrectable; the channel is retired at the sixteenth of a scrub period. DEDUCED, log 98. -/
def State.badLine (s : State) (line : Nat) : State :=
  let x := s.slotOfLine line
  let d := s.die x.1
  if d.lineErrs.contains line then s
  else
    let d := { d with lineErrs := d.lineErrs ++ [line] }
    let s := s.setDie x.1 d
    let stack := d.stackOf x.2
    let chan := d.pchOf x.2 / 2
    let same := d.lineErrs.filter fun l => let y := (s.slotOfLine l).2; d.stackOf y == stack && d.pchOf y / 2 == chan
    if same.length ≥ 16 && !(s.tables.contains (.channel x.1 stack chan)) then
      (s.mclog 6 0 0 (unitOf x.1 stack) (Config.logField 6 (d.pchOf x.2) 0).toNat (Config.logField 6 256 0).toNat).retireUnit (.channel x.1 stack chan)
    else s

/-- Table 19.15: the TSV groups in error, a bit for each. -/
def badGroups (e : LineErr) : BitVec 10 := (badSymbols e).foldl (fun m k => m ||| ((1 : BitVec 10) <<< (tsvOf k).1)) 0

/-- A line is read under the line code: poisoned when its errors cannot be corrected (Table 16.1). DEDUCED, log 44. -/
def State.readLine (s : State) (line : Nat) (e : LineErr) : State :=
  let x := s.slotOfLine line
  match lineRead ((s.die x.1).erasedGroup x.2) e with
  | .clean => s
  | .corrected =>
    match errGroup e with
    | some g => s.correctedRead x.1 x.2 g
    | none => s
  | .poisoned =>
    let s := (s.setDie x.1 { s.die x.1 with lineGroups := Sparse.wr (s.die x.1).lineGroups line (badGroups e) }).badLine line
    { s with poison := if s.poison.contains line then s.poison else line :: s.poison }

/-! ## Vault words (R369, R383) -/

/-- A vault word found uncorrectable: its bank is retired at the fourth of a scrub period. -/
def State.badVaultWord (s : State) (word : Nat) : State :=
  let die := word * 8 / 2 ^ 29
  let d := s.die die
  if d.vaultErrs.contains word then s
  else
    let d := { d with vaultErrs := d.vaultErrs ++ [word] }
    let s := s.setDie die d
    let bank := fun (x : Nat) => x * 8 % 2 ^ 29 / 2 ^ 20
    let b := bank word
    if (d.vaultErrs.filter fun x => bank x == b).length ≥ 4 && !(d.vbret.contains b) then
      let s := s.setDie die { d with vbret := d.vbret ++ [b] }
      (s.mclog 7 0 0 (unitOf die (b / 64)) (word * 8) (Config.syndrome s.mccnt).toNat).retireUnit (.vaultBank die (b / 64) (b % 64))
    else s

/-! ## Reads in error -/

/-- A read that met an uncorrectable error: the kind, unit and address of its log entry (Table 19.15). -/
abbrev ReadErr := Nat × Nat × Nat

/-- The log entry of an error met in wave `w` at a place (R226, R369, Table 16.1). -/
def State.errAt (s : State) (w : Nat) (p : Place) : Option ReadErr :=
  if !(s.badAt p) then none
  else
    match p.tier with
    | .spad _ => some (2, s.coreUnit w, p.addr)
    | .vault => some (7, unitOf (p.addr / 2 ^ 29) (p.addr % 2 ^ 29 / 2 ^ 26), p.addr / 8 * 8)
    | .dev => some (4, s.lineUnit (p.addr / 64), p.addr / 64 * 64)
    | .host => none

/-- R383: the vault words among some errors count. -/
def State.countErrs (s : State) (es : List ReadErr) : State :=
  es.foldl (fun s x => if x.1 = 7 then s.badVaultWord (x.2.2 / 8) else s) s

/-- DETAIL of an error's log entry: the TSV groups in error of a line, the syndrome of a word (Table 19.15). -/
def State.errDetail (s : State) (e : ReadErr) : Nat :=
  if e.1 = 4 then (Sparse.rd (s.die (e.2.2 / 2 ^ 38)).lineGroups (e.2.2 / 64)).toNat else (Config.syndrome s.mccnt).toNat

/-- The first error of an operation is logged and raises 0x01 in the wave; vault words in error count (R383). -/
def State.raiseErrs (s : State) (w : Nat) (es : List ReadErr) : State :=
  match es with
  | [] => s
  | e :: _ => (s.machineCheck w e.1 e.2.1 e.2.2 (s.errDetail e)).countErrs es

/-- R250: an arrival in the name of wave `w`, whose read of the word may meet an error (R369). -/
def State.arriveBy (s : State) (w : Nat) (p : Place) (n : Nat) : State :=
  (s.raiseErrs w ((s.errAt w p).toList ++ (s.errAt w (p.at_ 8)).toList)).arrive p n

/-- R250: an arrival that no wave of the package makes. -/
def State.arriveAlone (s : State) (p : Place) (n : Nat) : State :=
  (s.countErrs ((s.errAt 0 p).toList ++ (s.errAt 0 (p.at_ 8)).toList)).arrive p n

end Sys2Proof.Machine
end

