-- ==== Sys2Proof/Machine/Ops.lean ====
section
/-!
DEFINITION. The shared operations of issue: event records, completing a launch, TAKING AN EXCEPTION
and returning from one (spec/07_wave_control.md R197 to R207), readiness (spec/08_core.md R212), and the one wrapper through which
every encoded instruction issues (R77, R78, R128).
-/

namespace Sys2Proof.Machine

def slotNo : Slot → Nat
  | .a => 0
  | .b => 1

/-! ## Soft errors of registers (08 R226) -/

/-- ADDR of a kind 1 entry: [15:8] register class, [7:0] register number. The classes' numbers are free values: log 19. -/
def regCode (r : Reg) : Nat :=
  let f := fun (k n : Nat) => (Config.logField 1 k 0).toNat % 256 * 256 + n
  match r with
  | .v n => f 0 n
  | .s n => f 1 n
  | .p n => f 2 n
  | .t n => f 3 n
  | .a n => f 4 n
  | .h n => f 5 n

/-- The register reads as zero from now on. -/
def Wave.zeroReg (w : Wave) : Reg → Wave
  | .v n => (upto 32).foldl (fun w l => w.setV n l 0) w
  | .s n => w.setS n 0
  | .p n => w.setP n 0
  | .t n => { w with t := Sparse.keepKeys (fun k => k / 6144 != n) w.t }
  | .a n => { w with
    a := Sparse.keepKeys (fun k => k / 1024 != n) w.a
    partial_ := Sparse.keepKeys (fun k => k / 1024 != n) w.partial_ }
  | .h _ => w

/-- R226, R281: an error has been found in the register: it reads as zero until it is written, a tile or an accumulator until it
is written in full. -/
def Wave.poisonReg (w : Wave) (r : Reg) : Wave :=
  let left := w.faded.filter fun f => f.1 != r
  { w.zeroReg r with
    upset := w.upset.filter fun u => u.1 != r
    faded := match r with
      | .t _ => left ++ [(r, [0])]
      | .a _ => left ++ [(r, [0, 1, 2, 3])]
      | _ => w.faded }

/-- R226: the registers of wave `w` for which `f` holds are read; each that holds an uncorrectable error is logged. -/
def State.checkRegs (s : State) (w : Nat) (f : Reg → Bool) : State :=
  let bad := (s.wave w).upset.foldl (fun l u => if f u.1 && !(l.contains u.1) then l ++ [u.1] else l) []
  bad.foldl (fun s r =>
    (s.machineCheck w 1 (s.coreUnit w) (regCode r) (Config.syndrome s.mccnt).toNat).updWave w fun x => x.poisonReg r) s

/-- R226, R281: each register that the instruction reads in wave `w` and that holds an uncorrectable error. -/
def State.readErrors (s : State) (i : Instr) (w : Nat) : State := s.checkRegs w fun r => (useOf i).rd.contains r

/-- R226: the path-table entry of the path holds an uncorrectable error: it is logged, and the entry reads as zero. The class and
number that the log gives are free values. DESIGN CHOICE, log 107. -/
def State.entryError (s : State) (p : PathRef) : State :=
  let s := s.machineCheck p.wave 1 (s.coreUnit p.wave) ((Config.logField 1 6 (slotNo p.slot)).toNat) (Config.syndrome s.mccnt).toNat
  s.updLeaf p fun l => { l with mask := 0, fmt := 0, pc := 0, pos := 0, hdr := 0, bad := false }

/-! ## Event records (19 R426) -/

/-- One record of a context's buffer (`TRBUF` or `MBUF`), written through its translations; a record that
would fault at any byte is dropped whole. `slotBytes` is the size of a record slot. DEDUCED, log 67. -/
def State.bufWrite (s : State) (core ctx : Nat) (buf : DWord) (slotBytes n : Nat) (bs : List Byte) : State :=
  let base := bitsN buf.toNat 55 12 * 2 ^ 12
  let va := base + slotBytes * (n % 2 ^ bitsN buf.toNat 59 56)
  let at_ := fun (i : Nat) => (s.xlate core ctx true .write (va + i) (s.draw 0)).toOption
  if (upto bs.length).all fun i => (at_ i).isSome then
    (bs.zipIdx).foldl (fun s x => (at_ x.2).elim s fun p => s.writeByte p x.1) s
  else s

/-- Table 19.5. `k` is the kind, `detail` offset 20, and `pc` offset 24. DEDUCED, log 59. -/
def State.eventRecord (s : State) (w k : Nat) (path : Nat) (mask : Mask) (detail : Nat) (pc : DWord) : State :=
  let c := s.ctxNo w
  let x := s.context c
  if bitsN x.trbuf.toNat 55 12 = 0 then s
  else
    let l := s.launchNo w
    let bs := bytesLE 8 s.calCycle ++ bytesLE 4 (s.recordId l) ++ bytesLE 1 k ++ bytesLE 1 path ++
      bytesLE 2 (s.waveId w) ++ bytesLE 4 mask.toNat ++ bytesLE 4 detail ++ bytesLE 8 pc.toNat
    let s := s.bufWrite (s.coreOf w) c x.trbuf 32 x.evCount bs
    s.updCtx c fun x => { x with evCount := (x.evCount + 1) % 2 ^ 32 }

/-! ## Completing a launch (17 R401) -/

/-- The bytes of an address that the launch record names, through its context's translations or the vault window. -/
def State.recordPlace (s : State) (ctx : Nat) (want : Want) (va : Nat) : Option Place :=
  if vaultBase ≤ va && va < vaultBase + vaultSize then
    if s.vaultRetired (va - vaultBase) then none else some ⟨.vault, va - vaultBase, 0, false⟩
  else
    match s.xlate 0 ctx true want va (s.draw 0) with
    | .ok p => if p.tier == .dev then some p else none
    | .error _ => none

/-- R401: the arrival of 1 at DONE, when DONE is not 0. -/
def State.arriveDone (s : State) (l : Nat) : State :=
  let r := (s.launch l).recd
  if r.done = 0 || r.done % 16 != 0 then s
  else
    match s.recordPlace r.ctx .write r.done with
    | some p => s.arriveAlone p 1
    | none => s

/-- R177, R327: the open collection of a wave whose lanes have all gone is discarded. -/
def State.dropCollection (s : State) (w : Nat) : State :=
  let x := s.wave w
  if x.collAct then
    let s := s.updTeam x.team fun t =>
      { t with dir := t.dir.upd x.collEntry fun e => { e with tag := (e.tag + 1) % 2 ^ 16, list := none } }
    s.updWave w fun x => { x with collAct := false, collEntry := 0 }
  else s

/-- An EAPP whose wave has gone takes no further record. -/
def Op.endApply (o : Op) : Op :=
  match o.body with
  | .apply h k parts _ => { o with body := .apply h k parts false, done := o.done || parts.isEmpty }
  | _ => o

/-- R401: every path of a launch stops; what its waves have outstanding is left to finish as at wave end. -/
def State.stopWaves (s : State) (l : Nat) : State :=
  let ws := s.launchWaves l
  let s := ws.foldl State.dropCollection s
  { s with
    waves := s.waves.map fun k w =>
      if ws.contains k then
        { w with
          slotA := .empty, slotB := .empty, root := none, region := none, trapSlot := none, trapMask := 0, mmt := none, eapp := none, resv := []
          starvArmed := false, starvLeft := 0, boundary := [], cond := .ended }
      else w
    ops := s.ops.map fun _ o => if ws.contains o.wave then o.endApply else o
    groups := s.groups.filter fun g => !(ws.contains g.lead)
    regroup := s.regroup.filter fun r => !((s.launchTeams l).contains r.team) }

/-- R401: a launch completes at once with a failure status. The arrival on DONE follows its last wave. -/
def State.finishLaunch (s : State) (l status : Nat) : State :=
  match s.launches.look l with
  | none => s
  | some x =>
    if x.st ≥ 5 then s
    else
      let s := s.updLaunch l fun x => { x with st := status, doneAt := some s.cycle }
      if (s.launchWaves l).isEmpty then
        (({ s with teams := s.teams.keep fun _ t => t.launch != l }).arriveDone l)
      else s.stopWaves l

/-! ## The fault log (17 R406) -/

def State.streamAt (s : State) (base : Nat) : Option Stream := s.streams.find? fun x => x.base == base

def devPlace (a : Nat) : Place := ⟨.dev, a, 0, false⟩

/-- FLOGT of a stream header (Table 17.3). -/
def State.flogt (s : State) (x : Stream) : Nat := s.placeRead (devPlace (x.base + 40)) 4

/-- Every entry of the log has been written and still has REPLY 0. DEDUCED, log 29. -/
def State.flogFull (s : State) (x : Stream) : Bool :=
  decide (x.flogn ≤ s.flogt x) && (upto x.flogn).all fun i => s.placeRead (devPlace (x.flog + 32 * i + 24)) 8 == 0

/-- Table 17.10: one entry with its REPLY; FLOGT advances. The answer is the entry's number. DEDUCED, log 29. -/
def State.flogWrite (s : State) (x : Stream) (w code addr reply : Nat) : State × Nat :=
  let k := s.flogt x
  let e := if x.flogn = 0 then 0 else k % x.flogn
  let t := s.team (s.wave w).team
  let bs := bytesLE 8 addr ++ bytesLE 4 (s.launchId t.launch) ++ bytesLE 2 code ++ bytesLE 2 (s.wave w).ixw ++
    bytesLE 4 (t.ixt + 65536 * t.ixc) ++ bytesLE 4 0 ++ bytesLE 8 reply
  let s := s.homeWrite (devPlace (x.flog + 32 * e)) bs
  (s.homeWrite (devPlace (x.base + 40)) (bytesLE 4 (k + 1)), e)

def Stream.hasLog (x : Stream) : Bool := x.flog != 0 && x.flogn != 0

/-! ## Causes -/

/-- One cause that an instruction raises in one wave: its code (Table 7.4), the lanes that raise it, and the TVAL of the
lowest of them. -/
structure Cause where
  wave : Nat
  code : Nat
  lanes : Mask
  tval : Nat
  deriving DecidableEq, Repr

def lowestLane (m : Mask) : Nat := ((lanesOf m).head?).getD 32

/-- R13, R199: the lowest code. -/
def lowestCode (cs : List Cause) : Nat :=
  match leastBy Cause.code cs with
  | some c => c.code
  | none => 0

/-- R198, R199: what one wave delivers of a code: its lanes, and the TVAL of the lowest lane raising it. -/
def codeLanes (cs : List Cause) (code : Nat) : Mask :=
  cs.foldl (fun m c => if c.code = code then m ||| c.lanes else m) 0

def codeTval (cs : List Cause) (code : Nat) : Nat :=
  match leastBy (fun c => lowestLane c.lanes) (cs.filter fun c => c.code == code) with
  | some c => c.tval
  | none => 0

/-- Table 7.4, route column. -/
def systemCause (code : Nat) : Bool := [0x01, 0x10, 0x11, 0x30, 0x31].contains code

def debugCause (code : Nat) : Bool := [0x50, 0x51, 0x52].contains code

/-- Table 7.6: TCAUSE as a delivery writes it; HIN is kept. -/
def tcauseWord (old : DWord) (code : Nat) (lanes : Mask) (slot : Slot) (drop step : Bool) : DWord :=
  BitVec.ofNat 64 (code + (if old.getLsbD 16 then 2 ^ 16 else 0) + slotNo slot * 2 ^ 17 + (if drop then 2 ^ 18 else 0) +
    (if step then 2 ^ 19 else 0) + lanes.toNat * 2 ^ 32)

def Wave.hin (w : Wave) : Bool := w.tcause.getLsbD 16

def Wave.setHin (w : Wave) (b : Bool) : Wave :=
  { w with tcause := if b then w.tcause ||| 0x10000 else w.tcause &&& ~~~0x10000 }

/-- R29: the timer is disarmed. -/
def Wave.disarm (w : Wave) : Wave := { w with starvArmed := false, starvLeft := 0, starvExp := 0 }

/-- The blocking operation at `pc` is over for the wave: the timer it armed is disarmed (R29). DEDUCED, log 39. -/
def Wave.disarmFor (w : Wave) (pc : DWord) : Wave := if w.starvOp = pc.toNat then w.disarm else w

/-! ## TAKING AN EXCEPTION -/

/-- R204: what a delivery saves: TCAUSE, TPC, TVAL, and the block header word and position, with the barrier phase in which the
instruction at TPC has arrived (R34). -/
def Wave.saveTrap (w : Wave) (slot : Slot) (l : Leaf) (code : Nat) (lanes : Mask) (tval : Nat) (drop step : Bool) : Wave :=
  { w with
    tcause := tcauseWord w.tcause code lanes slot drop step
    tpc := l.pc
    tval := BitVec.ofNat 64 tval
    tpcWritten := false
    savedHdr := if l.pos = 0 then 0 else l.hdr
    savedPos := l.pos
    savedArr := l.arrived }

/-- R205, R207: the trap registers of the running context handler are put aside, the outermost ones where several stops nest.
DEDUCED, log 135. -/
def Wave.keepTrap (w : Wave) : Wave :=
  { w with nest := w.nest.orElse fun _ => some ⟨w.tcause, w.tpc, w.tval, w.tpcWritten, w.savedHdr, w.savedPos, w.savedArr⟩ }

/-- The handler goes on: its trap registers come back. -/
def Wave.dropNest (w : Wave) : Wave :=
  match w.nest with
  | none => w
  | some t => { w with
    tcause := t.tcause, tpc := t.tpc, tval := t.tval, tpcWritten := t.written, savedHdr := t.hdr, savedPos := t.pos
    savedArr := t.arr, nest := none }

/-- The leaf runs the wave's context handler. -/
def Wave.handles (w : Wave) (l : Leaf) : Bool :=
  w.hin && w.trapSlot.isSome && l.mask &&& w.trapMask != 0

/-- R406, R122: the path waits for its fault to be answered, and gives way to another leaf of its slot. DEDUCED, log 118. -/
def State.faultWait (s : State) (p : PathRef) (x : Wait) : State := (s.updLeaf p fun l => { l with wait := x }).switchLeaf p .pending

/-- R406: the system handler's treatment of the causes routed "system". DEDUCED, log 92. -/
def State.systemFault (s : State) (p : PathRef) (code tval : Nat) : State :=
  let l := s.launchNo p.wave
  if code = 0x01 then s.finishLaunch l 0x22
  else
    let stream := s.streamAt (s.recdOf p.wave).stream
    if (s.ctxOf p.wave).demand then
      match stream with
      | none => s.faultWait p (.noEntry 0 code tval)
      | some x =>
        if !x.hasLog || s.flogFull x then s.faultWait p (.noEntry x.base code tval)
        else
          let (s, e) := s.flogWrite x p.wave code tval 0
          s.faultWait p (.fault x.base e)
    else
      let s :=
        match stream with
        | none => s
        | some x => if x.hasLog then (s.flogWrite x p.wave code tval 0).1 else s
      s.finishLaunch l 0x23

/-- R206: the context handler is entered on the trapping path, or the team is stopped. DEDUCED, log 59. DEDUCED, log 92. -/
def State.contextEntry (s : State) (p : PathRef) : State :=
  let vec := (s.ctxOf p.wave).ctxvec
  if vec = 0 || (s.wave p.wave).hin then s.finishLaunch (s.launchNo p.wave) 0x20
  else
    let s := s.updWave p.wave fun w => { w.setHin true with trapSlot := some p.slot, trapMask := (s.leafAt p).elim 0 Leaf.mask }
    s.updLeaf p fun l => { l.jump vec with wait := .idle }

/-- Every path of every wave of the team that has not ended is stopped (R421). -/
def State.allStopped (s : State) (t : Nat) : Bool :=
  (s.teamWaves t).all fun w =>
    let x := s.wave w
    x.cond == .ended || x.cond == .out || ((x.slotA.leaves ++ x.slotB.leaves).all Leaf.stopped && x.region.isNone)

/-- R33: no swap-out under R31 is made while a debugger stops a team of the launch: one that is due is withdrawn.
DEDUCED, log 119. -/
def State.cancelStarved (s : State) (l : Nat) : State :=
  { s with teams := s.teams.map fun _ t =>
      if t.launch == l && t.starvedOut && !t.out then { t with starvedOut := false, swapReq := false } else t }

/-- R420, R421: a debug stop: the path issues nothing until RESUME, and gives way to another leaf of its slot as at a trap
(R122); when no path of its team can run, the team is to be swapped out (not when the launch has no save area). -/
def State.debugStop (s : State) (p : PathRef) (code : Nat) (l : Leaf) : State :=
  let s := s.updLeaf p fun x => { x with stopped := true }
  let s := (s.cancelStarved (s.launchNo p.wave)).eventRecord p.wave 1 (slotNo p.slot) l.mask code l.pc
  let s := s.switchLeaf p .pending
  let t := (s.wave p.wave).team
  if s.allStopped t && (s.recdOf p.wave).save != 0 && !(s.isOstler (s.launchNo p.wave)) then s.updTeam t fun x => { x with swapReq := true } else s

/-- R204 to R206, R406, R420: ONE exception delivered on the path `p` of one wave. The leaf's PC is the address of
resumption: the instruction's own for a before cause, the next word for an after cause, the next instruction for a
boundary cause (R197). -/
def State.deliver (s : State) (p : PathRef) (code : Nat) (lanes : Mask) (tval : Nat) (drop step : Bool) : State :=
  match s.leafAt p with
  | none => s
  | some l =>
    let stops := debugCause code && (s.ctxOf p.wave).att
    let comesBack := stops || (systemCause code && code != 0x01 && (s.ctxOf p.wave).demand)
    let s := s.updWave p.wave fun w =>
      (if comesBack && w.handles l then w.keepTrap else w).saveTrap p.slot l code lanes tval drop step
    -- R33: the starvation timer holds at a debug stop
    if stops then s.debugStop p code l
    else
      let s := (s.updWave p.wave Wave.disarm).eventRecord p.wave 2 (slotNo p.slot) l.mask code l.pc
      if systemCause code then s.systemFault p code tval else s.contextEntry p

/-- R199, R203: the causes of one instruction of the path `p`. A group dissolves first, and each home wave that has a lane raising
the delivered code takes the trap on its own path, before any path parks; where no lane of the group was active, those whose lanes
the path holds. DESIGN CHOICE, log 120. -/
def State.raise (s : State) (p : PathRef) (cs : List Cause) (step : Bool) : State :=
  let code := lowestCode cs
  let drop := cs.any fun c => c.code != code
  match s.groupOf p with
  | none => s.deliver p code (codeLanes cs code) (codeTval cs code) drop step
  | some g =>
    let ws := s.closeHomes g.close
    let here := ((s.leafAt p).map Leaf.mask).getD 0
    let none_ := cs.all fun c => c.code != code || c.lanes == 0
    let s := s.dissolveTrees g.close
    let s := g.homes.foldl (fun s h =>
      let mine := cs.filter fun c => c.wave == h.1
      if mine.any fun c => c.code == code && (c.lanes != 0 || none_ && here &&& h.2 != 0) then
        s.deliver ⟨h.1, p.slot⟩ code (codeLanes mine code) (codeTval mine code) drop step
      else s) s
    s.settleWaves ws

/-! ## RETURNING FROM AN EXCEPTION -/

/-- R204: an unchanged TPC restores the saved block state; past the end of the saved block the word at TPC is reached as
a header. The wave's other paths may issue again (R202). -/
def State.returnTrap (s : State) (p : PathRef) : State :=
  let w := s.wave p.wave
  let s := s.updLeaf p fun l => { l with pc := w.tpc, pos := w.savedPos, hdr := w.savedHdr, wait := .idle, arrived := w.savedArr }
  s.updWave p.wave fun w =>
    { w.setHin false with trapSlot := none, trapMask := 0, savedHdr := 0, savedPos := 0, savedArr := none, tpcWritten := false }

/-- R207: the return to a written TPC that has passed R82. -/
def State.returnTo (s : State) (p : PathRef) (target : DWord) : State :=
  let s := s.updLeaf p fun l => { l.jump target with wait := .idle }
  s.updWave p.wave fun w =>
    { w.setHin false with trapSlot := none, trapMask := 0, savedHdr := 0, savedPos := 0, savedArr := none, tpcWritten := false }

/-! ## Outstanding operations -/

/-- The operations of a wave that still count in a class (R116, R234). -/
def State.pending (s : State) (w : Nat) (k : OpClass) : Table Op :=
  s.ops.keep fun _ o => o.wave == w && o.cls == k

def State.counter (s : State) (w : Nat) (k : OpClass) : Nat := (s.pending w k).length

/-- R234: an operation falls out of its counter when it has completed and no older one of its wave and class stands. -/
def retireFrom : List (Nat × OpClass) → Table Op → Table Op
  | _, [] => []
  | seen, (k, o) :: r =>
    if o.done && !(seen.contains (o.wave, o.cls)) then retireFrom seen r
    else (k, o) :: retireFrom ((o.wave, o.cls) :: seen) r

def retire (ops : Table Op) : Table Op := retireFrom [] ops

def State.retireOps (s : State) : State := { s with ops := retire s.ops }

/-- A new operation, with the next number. -/
def State.pushOp (s : State) (o : Op) : State :=
  { s with ops := s.ops.put s.nextId o, nextId := s.nextId + 1 }

def State.updOp (s : State) (n : Nat) (f : Op → Op) : State := { s with ops := s.ops.upd n f }

/-- The operation has completed: its destinations are free and it waits only for older ones of its class. -/
def State.opDone (s : State) (n : Nat) : State :=
  (s.updOp n fun o => { o with done := true, dests := [] }).retireOps

/-- The release half: nothing of the wave is outstanding. DEDUCED, log 52. -/
def State.releaseOk (s : State) (w : Nat) : Bool := s.releasable w s.nextId

/-- R337: the EAPP that the path with lanes `m` of wave `w` has begun and not ended, as its operation. -/
def State.eappOpen (s : State) (w : Nat) (m : Mask) : Option (Nat × Op) :=
  s.ops.find? fun x => x.2.wave == w && x.2.path &&& m != 0 &&
    match x.2.body with
    | .apply _ _ _ more => more
    | _ => false

/-- The EAPP's operation takes no further record. Its list stays with the wave until the EAPP itself has ended, which a record's
fault or a pre-emption only interrupts (R337, R340). -/
def State.closeEapp (s : State) (w : Nat) (m : Mask) : State :=
  match s.eappOpen w m with
  | none => s
  | some (n, o) =>
    match o.body with
    | .apply h k parts _ =>
      let o' := { o with body := .apply h k parts false }
      let s' := s.updOp n fun _ => o'
      if parts.isEmpty then s'.opDone n else s'
    | _ => s

/-! ## Readiness (R212) -/

/-- The register a queued sum-tree instruction is to write (R303). -/
def TreeDo.dest : TreeDo → List Reg
  | .pfxV d _ => [.v d]
  | .findV d _ => [.v d]
  | .pfxS d _ => [.s d]
  | .findS d _ => [.s d]
  | .cut d _ => [.s d]
  | .tot d => [.s d]
  | .lenRead d => [.s d]
  | .build .. | .buildSp .. | .set _ | .add _ | .lenSet _ | .stl .. => []

def isUniform : Reg → Bool
  | .s _ => true
  | _ => false

/-- The lanes of the live slot in which the path with lanes `m` runs. -/
def Wave.slotLanes (w : Wave) (m : Mask) : Mask :=
  if w.slotA.lanes &&& m != 0 then w.slotA.lanes ||| m
  else if w.slotB.lanes &&& m != 0 then w.slotB.lanes ||| m
  else m

/-- R119: of the destinations `ds` of an operation of lanes `path`, those that hold the path with lanes `m`, whose slot's lanes are
`all`. -/
def dueRegs (m all path : Mask) (ds : List Reg) : List Reg :=
  if path &&& m != 0 then ds else if path &&& all != 0 then ds.filter isUniform else []

/-- R119, R305: the destinations that the scoreboard of a path's live slot holds: those of the path's own operations and tree
instructions, and the uniform ones, which all lanes share, of every path of the slot. -/
def State.busyRegs (s : State) (w : Nat) (m : Mask) : List Reg :=
  let all := (s.wave w).slotLanes m
  ((s.ops.filter fun x => x.2.wave == w && !x.2.done).flatMap fun x => dueRegs m all x.2.path x.2.dests) ++
    (((s.core (s.coreOf w)).treeQ.filter fun c => c.wave == w).flatMap fun c => dueRegs m all c.path c.body.dest)

def Wave.inflight (w : Wave) : Reg → Bool
  | .t n => ((w.tstat.look n).map TileStat.inflight).getD false
  | .a n => ((w.acc.look n).map AccTag.inflight).getD false
  | _ => false

/-- R275: an accumulator that a quarter operation, MMW or MZA writes does not hold it behind another such writer. -/
def chains : Instr → Bool
  | .mza .. | .mmq .. | .mmw .. | .mtrn .. | .mprm .. | .mred .. => true
  | _ => false

def isAcc : Reg → Bool
  | .a _ => true
  | _ => false

/-- The matrix queue of a partition, with the entries whose writes are still to complete. -/
def Core.mqOf (c : Core) (part : Nat) : List MEntry := c.mq.lookD part []

/-- R262: the entries in a partition's queue, which they leave when their datapath cycles end. DEDUCED, log 56. -/
def Core.mqUsed (c : Core) (now part : Nat) : Nat :=
  ((c.mqOf part).filter fun m => !m.started || decide (now < m.ends)).length

/-- R266: the full quarters of a mask. -/
def fullQuarters (m : Mask) : List Nat :=
  (upto 4).filter fun q => m.toNat / 2 ^ (8 * q) % 256 == 255

def partialQuarters (m : Mask) : Bool :=
  (upto 4).any fun q => let x := m.toNat / 2 ^ (8 * q) % 256; x != 0 && x != 255

def matCount (m : Mask) : MatNeed → Nat
  | .none => 0
  | .entries n => n
  | .quarters => (fullQuarters m).length

def classNo : OpClass → Nat
  | .load => 0 | .store => 1 | .copy => 2 | .tile => 3

/-- R180: a counter satisfies a threshold. -/
def thresholdMet (n t : Nat) : Bool := t == 63 || decide (n ≤ t)

/-- R180: the first unsatisfied threshold of a WAITC in the order L, S, C, T; `none` when all hold. -/
def State.waitcHold (s : State) (w l sv c t : Nat) : Option Nat :=
  if !thresholdMet (s.counter w .load) l then some 2
  else if !thresholdMet (s.counter w .store) sv then some 3
  else if !thresholdMet (s.counter w .copy) c then some 4
  else if !thresholdMet (s.counter w .tile) t then some 5
  else none

/-- Table 19.6: the reason a path's wait counts under, `none` when it waits for nothing. -/
def State.waitReason (s : State) : Wait → Option Nat
  | .idle => none
  | .counters ws l sv c t => some ((ws.findSome? fun w => s.waitcHold w l sv c t).getD 2)
  | .word _ => some 9
  | .bar | .bard | .barp => some 8
  | .window => some 10
  | .fault .. | .noEntry .. => some 15
  | .stepped => none
  | .drain ids | .watch ids _ _ => if s.ops.any fun x => ids.contains x.1 && !x.2.done then some 15 else none

/-- R461: the queue that the operation would enter is full. RPUT.M, which enters several, is held by its own meaning. -/
def State.yardHeld (s : State) (w : Wave) (i : Instr) : Bool :=
  let at_ := fun (rt : Route) (a : SReg) => s.yardFull (s.routeOf rt (remoteTarget (w.sreg a.toNat)) (s.draw 0))
  match i with
  | .rput rt o | .rget rt o | .rred _ rt o => at_ rt o.a
  | .ratom rt o => at_ rt o.base
  | .rarrv rt _ a _ => at_ rt a
  | _ => false

/-- Why one home wave cannot issue `i` now, by Table 19.6; `none` when it can. `m` is the path's lanes in that wave and
`act` those active. DEDUCED, log 56. -/
def State.waveHold (s : State) (i : Instr) (w : Nat) (m act : Mask) : Option Nat :=
  let u := useOf i
  let x := s.wave w
  let busy := s.busyRegs w m
  -- R338: an EAPP that has begun counts in S already
  let cls := match i with
    | .eapp .. => if (s.eappOpen w m).isSome then [] else u.cls
    | _ => u.cls
  -- R336: RETC writes the register that the open collection's CALLC has named
  let regs := u.rd ++ u.wr ++ match i with
    | .retc .. => if x.collAct then [.s x.collReg] else []
    | _ => []
  let core := s.core (s.coreOf w)
  match cls.find? fun k => s.counter w k ≥ 62 with
  | some k => some (2 + classNo k)
  | none =>
    if u.mat != .none && core.mqUsed s.cycle x.part + matCount act u.mat > 8 then some 13
    else if s.yardHeld x i then some 14
    else if u.tree && core.treeQ.length ≥ 16 then some 15
    else if (u.mem || u.tree) && (s.ops.any fun o => o.2.wave == w && o.2.acq && !o.2.done && o.2.path &&& m != 0) then
      some 15
    else if regs.any (fun r => busy.contains r || (x.inflight r && !(chains i && isAcc r))) then some 1
    else none

/-- R408, R421: the waves of the launch, or of the team, issue nothing more. -/
def State.frozen (s : State) (w : Nat) : Bool :=
  let t := s.team (s.wave w).team
  t.swapReq || t.out || (s.launch t.launch).st == 3

/-- The path's last instruction has issued and ends when the path is chosen again. -/
def Wait.completes : Wait → Bool
  | .drain _ | .watch .. | .stepped => true
  | _ => false

/-- What holds the path `p`, whatever its next instruction. -/
def State.pathHolds (s : State) (p : PathRef) (l : Leaf) : List Nat :=
  let w := s.wave p.wave
  (s.waitReason l.wait).toList ++
    (if l.stopped || s.frozen p.wave then [15] else []) ++
    -- R200, R202: an EAPP that has begun goes on to its end, and an instruction that has issued takes its own trap
    (if (s.eappOpen p.wave l.mask).isNone && (!l.wait.completes && ((s.homes p).any fun h => !(s.wave h.1).boundary.isEmpty) ||
        w.trapSlot.isSome && l.mask &&& w.trapMask == 0) then [15] else []) ++
    if (w.mmt.map fun x => x.slot == p.slot && l.mask &&& x.lanes != 0).getD false then [13] else []

/-- Why the path `p` cannot issue now, whatever its next instruction; and, below, why it cannot issue `i`. -/
def State.pathHold (s : State) (p : PathRef) (l : Leaf) : Option Nat := (s.pathHolds p l).head?

def State.holdOf (s : State) (p : PathRef) (l : Leaf) (i : Instr) (envs : List (Nat × Mask × Mask)) : Option Nat :=
  match s.pathHold p l with
  | some c => some c
  | none => envs.findSome? fun e => s.waveHold i e.1 e.2.1 e.2.2

/-! ## The issue of an instruction -/

/-- What one home wave's performance of an instruction knows: the issuing path, the wave, the path's lanes in it,
those of them that are active, the path's leaf and the instruction word. -/
structure Env where
  ref  : PathRef
  wave : Nat
  mine : Mask
  act  : Mask
  leaf : Leaf
  word : Nat
  deriving DecidableEq, Repr

def instrWord (i : Instr) : Nat :=
  match encode i with
  | some (w, _) => w.toNat
  | none => 0

/-- How many words the instruction takes (R60). -/
def instrWords (i : Instr) : Nat :=
  match encode i with
  | some (_, some _) => 2
  | _ => 1

/-- R65, R110: a register within the block's high-water marks and the wave's and team's allocations. -/
def regOk (h : Header) (r : LaunchRec) : Reg → Bool
  | .v n => n ≤ h.vhw
  | .s n => n ≤ h.uhw
  | .p _ => true
  | .t n => n < r.tiles
  | .a n => n < r.accs
  | .h n => n < r.hregs

/-- Table 3.5, rows 2 and 3, as far as they depend on the wave: the code of the first that fails. -/
def State.decodeCause (s : State) (p : PathRef) (l : Leaf) (i : Instr) : Option Nat :=
  let u := useOf i
  if !((u.rd ++ u.wr).all (regOk (Header.ofWord l.hdr) (s.recdOf p.wave))) then some 0x18
  else if u.priv && !(s.privileged p.wave) then some 0x19
  else none

/-- The path that issues and its running leaf. DESIGN CHOICE, log 113. -/
def State.issuing (s : State) : Option (PathRef × Leaf) :=
  match s.cur with
  | none => none
  | some p =>
    match s.leafAt p with
    | none => none
    | some l => some (p, l)

/-- The performances of an instruction: one for each home wave of the path's lanes, with the lanes active there. -/
def State.envs (s : State) (p : PathRef) (l : Leaf) (g : Guard) (word : Nat) : List Env :=
  ((s.homes p).filter fun h => l.mask &&& h.2 != 0 || l.mask == 0).map fun h =>
    ⟨p, h.1, l.mask &&& h.2, g.active (s.wave h.1) (l.mask &&& h.2), l, word⟩

/-- R124, R220: an instruction of a leaf with lanes `m` counts for the lanes that hold a reservation or have issued LDRES. -/
def Wave.countIssue (w : Wave) (m : Mask) : Wave :=
  { w with
    resv := w.resv.map fun lane r => if m.getLsbD lane then { r with since := r.since + 1 } else r
    ldres := w.ldres.map fun lane n => if m.getLsbD lane then Nat.min (n + 1) 64 else n }

/-- R124, R213, R128: the wave has issued from this slot, for its path's home waves. -/
def State.issued (s : State) (p : PathRef) (l : Leaf) : State :=
  let s := (s.homes p).foldl (fun s h => s.updWave h.1 fun w => w.countIssue (l.mask &&& h.2)) s
  s.updWave p.wave fun w =>
    { w with age := 0, stall := 0, started := true, lastSlot := some p.slot, issuedAt := some s.cycle }

/-- The path moves on past the instruction's words. -/
def State.advance (s : State) (p : PathRef) (i : Instr) : State :=
  s.updLeaf p fun l => l.advance (instrWords i)

/-- The path transfers to a header (R81). -/
def State.jump (s : State) (p : PathRef) (target : DWord) : State := s.updLeaf p fun l => l.jump target

def State.hold (s : State) (code : Nat) : State := { s with held := some code }

/-- R199, 19 R421: a single step is due after an instruction other than BKPT and TRAPI while STEP is set. -/
def State.stepDue (s : State) (p : PathRef) (i : Instr) : Bool :=
  (s.ctxOf p.wave).stepOn &&
    match i with
    | .bkpt .. | .trapi .. => false
    | _ => true

/-- A path that waited has what it waited for (R180, R181, R257): it moves past its one-word instruction. -/
def State.waitOver (s : State) (p : PathRef) : State :=
  (s.updLeaf p fun l => { l.advance 1 with wait := .idle })

/-- R358: the wave's tile macro is asked to stop at its next step end; the path that asks is held until then. -/
def State.askMacro (s : State) (w : Nat) : State :=
  match (s.wave w).mmt with
  | some m => if m.stop then s.hold 13 else s.updWave w fun x => { x with mmt := some { m with stop := true } }
  | none => s

/-- The single step of a path whose instruction has completed (R199), in each home wave of its lanes. -/
def State.raiseStep (s : State) (p : PathRef) : State :=
  if (s.wave p.wave).mmt.isSome then s.askMacro p.wave
  else
    match s.leafAt p with
    | some l => (s.updLeaf p fun l => { l with wait := .idle }).raise p ((s.homes p).map fun h => ⟨h.1, 0x52, l.mask &&& h.2, 0⟩) false
    | none => s

/-- R197, R199: the leaf that stood at place `k` of the path's slot has issued `i` to its end, and a single step is due. -/
def State.stepNow (s : State) (p : PathRef) (k : Nat) (i : Instr) (l : Leaf) : Bool :=
  s.stepDue p i && s.place p == k && l.wait == .idle && !l.stopped &&
    (s.wave p.wave).mmt.all (fun m => m.slot != p.slot || l.mask &&& m.lanes == 0) && (s.eappOpen p.wave l.mask).isNone

/-- The end of an issue: after causes are delivered (R199), or the path's tree is brought up to date. A single step that comes due
while a tile macro runs waits for it to stop (R358). -/
def State.finishIssue (s : State) (p : PathRef) (k : Nat) (i : Instr) (after : List Cause) : State :=
  if after.isEmpty then
    match s.leafAt p with
    | some l =>
      if s.stepNow p k i l then
        if (s.wave p.wave).mmt.isSome then (s.updLeaf p fun l => { l with wait := .stepped }).askMacro p.wave else s.raiseStep p
      else s.moved p k
    | none => s.moved p k
  else s.raise p after false

/-- R358: while a tile macro runs on the other slot, a trap first asks it to stop and is taken afterwards. -/
def State.raiseOrHold (s : State) (p : PathRef) (cs : List Cause) : State :=
  let s := match s.leafAt p with
    | some l => s.closeEapp p.wave l.mask
    | none => s
  if (s.wave p.wave).mmt.isSome then s.askMacro p.wave else s.raise p cs false

/-- R422: 0x51 is raised when the instruction's accesses, the operations from number `n` on, have completed; until then its path
waits at the next word. DEDUCED, log 42. -/
def State.awaitWatch (s : State) (p : PathRef) (n : Nat) (cs : List Cause) (step : Bool) : State :=
  let ids := (upto (s.nextId - n)).map fun i => n + i
  s.updLeaf p fun l => { l with wait := .watch ids (cs.map fun c => (c.wave, c.lanes, c.tval)) step }

/-- The accesses have completed, and the watchpoint trap is taken. -/
def State.raiseWatch (s : State) (p : PathRef) (cs : List (Nat × Mask × Nat)) (step : Bool) : State :=
  if (s.wave p.wave).mmt.isSome then s.askMacro p.wave
  else (s.updLeaf p fun l => { l with wait := .idle }).raise p (cs.map fun c => ⟨c.1, 0x51, c.2.1, c.2.2⟩) step

/-- THE ISSUE of the instruction `i` under its guard `g`. In order: the decode checks that depend on the wave; readiness;
an instruction with no active lane only moves on (R77), unless `always` (a branch, whose guard is its condition); its
execution-time causes (lowest code first, R13); its own wait, made only when no cause arises; its effect `act` on every
home wave with an active lane, which also moves the path; its after causes. -/
def issueWith (i : Instr) (g : Guard) (always : Bool) (chk : Env → State → List Cause) (wait : Env → State → Option Nat)
    (act : PathRef → List Env → State → State) (after : Env → State → List Cause) (s : State) :
    Host.Outcome State Fault Refusal :=
  match s.issuing with
  | none => .fault .noIssuingPath
  | some (p, l) =>
    let word := instrWord i
    let all := s.envs p l g word
    let envs := all.filter fun e => e.act != 0
    match s.decodeCause p l i with
    | some code =>
      let on := if envs.isEmpty then all else envs
      .next (s.raiseOrHold p (on.map fun e => ⟨e.wave, code, e.act, word⟩))
    | none =>
      match s.holdOf p l i ((if always then all else envs).map fun e => (e.wave, e.mine, e.act)) with
      | some c => .next (s.hold c)
      | none =>
        if !always && envs.isEmpty then
          if (s.wave p.wave).mmt.isSome && s.stepDue p i then .next (s.askMacro p.wave)
          else .next (((s.issued p l).advance p i).finishIssue p (s.place p) i [])
        else
          let on := if always then all else envs
          let s := on.foldl (fun s e => s.readErrors i e.wave) s
          let cs := on.flatMap fun e => chk e s
          if !cs.isEmpty then .next (s.raiseOrHold p cs)
          else
            match on.findSome? fun e => wait e s with
            | some c => .next (s.hold c)
            | none =>
              let late := on.flatMap fun e => after e s
              -- R358: an instruction that is to trap when it has completed waits for the macro to stop
              if (s.wave p.wave).mmt.isSome && (!late.isEmpty || s.stepDue p i) then .next (s.askMacro p.wave)
              else if lowestCode late = 0x51 then
                .next ((act p on (s.issued p l)).awaitWatch p s.nextId late (s.stepDue p i))
              else .next ((act p on (s.issued p l)).finishIssue p (s.place p) i late)

def noCause (_ : Env) (_ : State) : List Cause := []

def noWait (_ : Env) (_ : State) : Option Nat := none

/-- The effects of the home waves in ascending order, then the next word. -/
def seqAct (i : Instr) (eff : Env → State → State) (p : PathRef) (envs : List Env) (s : State) : State :=
  (envs.foldl (fun s e => eff e s) s).advance p i

/-- The plain form: an effect on each home wave with an active lane, and on to the next word. -/
def issue (i : Instr) (g : Guard) (chk : Env → State → List Cause) (eff : Env → State → State) (s : State) :
    Host.Outcome State Fault Refusal :=
  issueWith i g false chk noWait (seqAct i eff) noCause s

/-- A cause of the whole instruction in one home wave (R198): every active lane. -/
def whole (e : Env) (code tval : Nat) : Cause := ⟨e.wave, code, e.act, tval⟩

/-- `c` when `b` holds. -/
def causeIf (b : Bool) (c : Cause) : List Cause := if b then [c] else []

/-- R129: the trap of a cross-lane operation issued by a group. -/
def groupCause (e : Env) (s : State) : List Cause :=
  causeIf (s.groupOf e.ref).isSome (whole e 0x21 e.word)

end Sys2Proof.Machine
end

