-- ==== Sys2Proof/Machine/Records.lean ====
section
/-!
DEFINITION. The effect area of a team: directory, handles, lists and room (spec/14_collecting_mode.md R325 to R332, R340).
-/

namespace Sys2Proof.Machine

/-- The blocks that a list of `n` records occupies (R325). -/
def blocksFor (n : Nat) : Nat := (n + 15) / 16

/-- R319, R330: records that HSTL instructions in the core's tree-unit queue hold room for in entry `k` of team `t`. -/
def State.heldRecords (s : State) (t k : Nat) : Nat :=
  512 * ((s.core (s.team t).core).treeQ.filter fun c => c.team == t &&
    match c.body with
    | .stl _ (some e) => e == k
    | _ => false).length

/-- The records that entry `k` has or holds room for. -/
def State.entryRecords (s : State) (t k : Nat) : Nat :=
  match (s.team t).dir.look k with
  | some e => (e.list.map fun l => l.length + s.heldRecords t k).getD 0
  | none => 0

/-- R327: a handle names an entry by tag and number. -/
def handleOf (k tag : Nat) : Nat := tag * 2 ^ 16 + k

/-- R327: the list that a handle names; `none` when the handle is invalid. -/
def State.listOf (s : State) (t h : Nat) : Option (List Effect) :=
  if h = 0 then some []
  else if h ≥ 2 ^ 32 then none
  else
    match (s.team t).dir.look (h % 2 ^ 16) with
    | none => none
    | some e => if e.tag = h / 2 ^ 16 then e.list else none

/-- R340: lists dropped while an EAPP of them has started and not completed, by handle, with their length. -/
def State.lingering (s : State) (t : Nat) : List (Nat × Nat) :=
  let ofWaves := s.waves.flatMap fun (_, w) =>
    if w.team == t then (w.eapp.map fun x => (x.1, x.2.length)).toList else []
  let ofOps := s.ops.flatMap fun (_, o) =>
    match o.body with
    | .apply h n _ _ => if !o.done && (s.wave o.wave).team == t then [(h, n)] else []
    | _ => []
  ((ofWaves ++ ofOps).filter fun x => (s.listOf t x.1).isNone).foldl
    (fun l x => if l.any fun y => y.1 == x.1 then l else l ++ [x]) []

/-- The record blocks in use. -/
def State.blocksUsed (s : State) (t : Nat) : Nat :=
  ((s.team t).dir.keys.foldl (fun n k => n + blocksFor (s.entryRecords t k)) 0) +
    (s.lingering t).foldl (fun n x => n + blocksFor x.2) 0

/-- EAREA.FREE (Table 14.2). -/
def State.blocksFree (s : State) (t : Nat) : Nat := (s.team t).effLen / 256 - 1 - s.blocksUsed t

/-- The lowest directory entry that is not live. -/
def Team.freeEntry (t : Team) : Option Nat :=
  if t.effLen = 0 then none else (t.dir.find? fun e => e.2.list.isNone).map Prod.fst

/-- R332: the open collection of wave `w` can take `n` more records. -/
def State.recordRoom (s : State) (w n : Nat) : Bool :=
  let x := s.wave w
  let have_ := s.entryRecords x.team x.collEntry
  decide (blocksFor (have_ + n) - blocksFor have_ ≤ s.blocksFree x.team)

def State.updEntry (s : State) (t k : Nat) (f : EffEntry → EffEntry) : State :=
  s.updTeam t fun x => { x with dir := x.dir.upd k f }

/-- Records appended to the open collection of a wave. -/
def State.record (s : State) (w : Nat) (rs : List Effect) : State :=
  let x := s.wave w
  s.updEntry x.team x.collEntry fun e => { e with list := e.list.map fun l => l ++ rs }

/-- The records of a wave's open collection. -/
def State.collection (s : State) (w : Nat) : List Effect :=
  let x := s.wave w
  (((s.team x.team).dir.look x.collEntry).bind EffEntry.list).getD []

/-- R327, R340: an entry is released and its tag advances. -/
def State.releaseEntry (s : State) (t k : Nat) : State :=
  s.updEntry t k fun e => { e with tag := (e.tag + 1) % 2 ^ 16, list := none }

/-- R339: a new list can be made. -/
def State.listRoom (s : State) (t n : Nat) : Bool :=
  n == 0 || ((s.team t).freeEntry.isSome && decide (blocksFor n ≤ s.blocksFree t))

/-- R339: the new list and its handle; an empty one is handle 0. -/
def State.newList (s : State) (t : Nat) (rs : List Effect) : State × DWord :=
  if rs.isEmpty then (s, 0)
  else
    match (s.team t).freeEntry with
    | none => (s, 0)
    | some k =>
      let tag := (((s.team t).dir.look k).map EffEntry.tag).getD 0
      (s.updEntry t k fun e => { e with list := some rs }, BitVec.ofNat 64 (handleOf k tag))

/-- The address a record holds (R339). -/
def Effect.addr : Effect → DWord
  | .store _ a _ _ => a
  | .atomic _ a _ _ => a
  | .arrive a _ => a

def Effect.moveTo (a : DWord) : Effect → Effect
  | .store sp _ n v => .store sp a n v
  | .atomic sp _ op v => .atomic sp a op v
  | .arrive _ n => .arrive a n

/-- The directory of a new team: entries 1 to 15 (R325, R327). DESIGN CHOICE, log 3. -/
def freshDir : Table EffEntry := (List.range 15).map fun n => (n + 1, ⟨0, none⟩)

/-! ## The effect area's bytes (R325) -/

/-- The atomic operation of a code (Table 9.6). -/
def atomOpOf (code : Nat) : AtomOp := (AtomOp.all.find? fun o => o.code.toNat == code).getD .add

/-- A record as numbers. -/
def Effect.nums : Effect → List Nat
  | .store sp a n v => [0, sp.toNat, a.toNat, n, v.toNat]
  | .atomic sp a op v => [1, sp.toNat, a.toNat, op.code.toNat, v.toNat]
  | .arrive a n => [2, 0, a.toNat, n, 0]

/-- The record that some numbers name. -/
def Effect.ofNums (f : Nat → Nat) : Effect :=
  if f 0 % 3 = 0 then .store (f 1 % 2 == 1) (.ofNat 64 (f 2)) (1 + f 3 % 8) (.ofNat 64 (f 4))
  else if f 0 % 3 = 1 then .atomic (f 1 % 2 == 1) (.ofNat 64 (f 2)) (atomOpOf (f 3 % 16)) (.ofNat 32 (f 4))
  else .arrive (.ofNat 64 (f 2)) (f 3 % 2 ^ 48)

/-- A directory as numbers. -/
def dirNums (d : Table EffEntry) : List Nat :=
  d.flatMap fun x => [x.1, x.2.tag, x.2.list.isSome.toNat, (x.2.list.getD []).length] ++ (x.2.list.getD []).flatMap Effect.nums

/-- The bytes of an area of `n` bytes that a save area holds. DESIGN CHOICE, log 16. -/
def areaOf (d : Table EffEntry) (n : Nat) : List Byte := (upto n).map (Config.effectAreaByte (dirNums d))

/-- The directory that changed bytes make: any records, no more than the area has room for. DESIGN CHOICE, log 16. -/
def dirOf (image blocks : Nat) : Table EffEntry :=
  (List.range 15).map fun n =>
    let f := Config.effectAreaField image (n + 1)
    let len := f 0 1 % (16 * blocks + 1)
    (n + 1, ⟨f 0 0 % 2 ^ 16, if len = 0 then none else some ((upto len).map fun i => Effect.ofNums (f (i + 1)))⟩)

/-- R325: the directory of a restored team: as it left, unless the area's bytes have been changed. -/
def restoredDir (d : Table EffEntry) (n image : Nat) : Table EffEntry :=
  if image = natOfBytes (areaOf d n) then d else dirOf image (n / 256 - 1)

/-- The sum-tree registers of a new team (R302). -/
def freshTrees (n : Nat) : Table Tree := (List.range n).map fun k => (k, ⟨false, 0, []⟩)

/-! ## Reading through the open collection (R331) -/

/-- The byte that a store record of a collection holds for the byte at window address `a` (R229); what is not a store
record and covers the byte hides the older ones. -/
def recordByte (window : Bool → DWord → Nat) (a : Nat) : List Effect → Option (Option Byte)
  | [] => none
  | r :: rest =>
    match recordByte window a rest with
    | some x => some x
    | none =>
      match r with
      | .store sp b n v =>
        let b := window sp b
        if b ≤ a && a < b + n then some (some (BitVec.ofNat 8 (v.toNat / 2 ^ (8 * (a - b))))) else none
      | .atomic sp b _ _ => let b := window sp b; if b ≤ a && a < b + 4 then some none else none
      | .arrive b _ => if b.toNat ≤ a && a < b.toNat + 16 then some none else none

/-- The bytes of an `n`-byte load at window address `a` that come from a collection: a value and a mask of bytes. -/
def overlayFor (window : Bool → DWord → Nat) (rs : List Effect) (a : Nat) : Nat → DWord × Word
  | 0 => (0, 0)
  | n + 1 =>
    let r := overlayFor window rs a n
    match recordByte window (a + n) rs with
    | some (some b) => (r.1 ||| BitVec.ofNat 64 (b.toNat * 2 ^ (8 * n)), r.2 ||| BitVec.ofNat 32 (2 ^ n))
    | _ => r

end Sys2Proof.Machine
end

