-- ==== Sys2Proof/Machine/Access.lean ====
section
/-!
DEFINITION. Memory accesses of instructions: the address checks of Table 9.5, the accesses an instruction makes (spec/09_core_memory.md
R228 to R239), watchpoints (spec/19_observation_and_service.md R422), and when an outstanding operation may be performed
(R230, R234, R246, R258, spec/17_package.md R389).
-/

namespace Sys2Proof.Machine

/-! ## Address checks (Table 9.5) -/

/-- Which instructions name an address: generic, scratchpad or vault ones (R229). -/
inductive Via where
  | gen | spad | vault
  deriving DecidableEq, Repr

/-- A scratchpad offset: its codes and its place. -/
def State.spadAccess (s : State) (w off : Nat) : List Nat × Place :=
  let t := (s.wave w).team
  (if off ≥ (s.team t).spadLen then [0x33] else [], ⟨.spad t, off, 0, false⟩)

def State.vaultAccess (s : State) (off : Nat) : List Nat × Place :=
  (if s.vaultRetired off then [0x34] else [], ⟨.vault, off, 0, false⟩)

def inSpadWindow (a : Nat) : Bool := decide (spadBase ≤ a) && decide (a < spadBase + spadSize)

def inVaultWindow (a : Nat) : Bool := decide (vaultBase ≤ a) && decide (a < vaultBase + vaultSize)

/-- The codes that an address raises for wave `w` but for alignment, and its place when it raises none (R228, R229).
DEDUCED, log 51. -/
def State.addrAccess (s : State) (w : Nat) (via : Via) (want : Want) (a draw : Nat) : List Nat × Place :=
  let none : Place := ⟨.dev, 0, 0, false⟩
  match via with
  | .spad => s.spadAccess w a
  | .vault =>
    if inVaultWindow a then s.vaultAccess (a - vaultBase)
    else ((if a ≥ 2 ^ 56 then [0x30] else []) ++ [0x34], none)
  | .gen =>
    if a ≥ 2 ^ 56 then ([0x30], none)
    else if inSpadWindow a then s.spadAccess w (a - spadBase)
    else if inVaultWindow a then s.vaultAccess (a - vaultBase)
    else
      match s.xlate (s.coreOf w) (s.ctxNo w) (s.privileged w) want a draw with
      | .ok p => ([], p)
      | .error c => ([c], none)

/-- Table 9.5 for one access of `n` bytes. -/
def State.access (s : State) (w : Nat) (via : Via) (want : Want) (n a draw : Nat) : List Nat × Place :=
  let r := s.addrAccess w via want a draw
  (r.1 ++ (if a % n != 0 then [0x32] else []), r.2)

/-- The pieces of `[a, a + len)` between multiples of 64 KiB, ascending, each as its first address and the one past it; the first
argument bounds them. -/
def rangePieces : Nat → Nat → Nat → List (Nat × Nat)
  | 0, _, _ => []
  | k + 1, a, len =>
    if len = 0 then []
    else
      let n := Nat.min len (65536 - a % 65536)
      (a, a + n) :: rangePieces k (a + n) (len - n)

def rangePages (a len : Nat) : List (Nat × Nat) := rangePieces ((a % 65536 + len) / 65536 + 1) a len

/-- The first failure of each code. -/
def firstOfEach (fs : List (Nat × Nat)) : List (Nat × Nat) :=
  fs.foldl (fun l f => if l.any fun x => x.1 == f.1 then l else l ++ [f]) []

/-- The virtual address of the byte that an instruction's address names (R229). -/
def windowAddr (via : Via) (a : DWord) : DWord :=
  match via with
  | .spad => BitVec.ofNat 64 spadBase + a
  | _ => a

/-! ## The accesses of an instruction (R237) -/

/-- One access before its checks: lane, block position, address. -/
structure Req where
  lane : Nat
  pos  : Nat × Nat
  addr : DWord
  deriving DecidableEq, Repr

/-- sa + sext(b[l], 32), for each block position in row-major order and each active lane, ascending. -/
def Env.reqs (e : Env) (w : Wave) (base : SReg) (off : VReg) (blk : Block) : List Req :=
  blk.positions.flatMap fun pos => (lanesOf e.act).map fun l =>
    ⟨l, pos, w.sreg base.toNat + (w.vreg (regAt off false pos) l).signExtend 64⟩

/-- The draw of a request, one for each lane and position. -/
def State.reqDraw (s : State) (r : Req) : Nat := s.draw (r.lane + 32 * (r.pos.1 * 16 + r.pos.2))

def State.reqAccess (s : State) (w : Nat) (via : Via) (want : Want) (n : Nat) (r : Req) : List Nat × Place :=
  s.access w via want n r.addr.toNat (s.reqDraw r)

/-- R237: the causes of the accesses, lane by lane. -/
def State.reqCauses (s : State) (w : Nat) (via : Via) (want : Want) (n : Nat) (rs : List Req) : List Cause :=
  rs.flatMap fun r => (s.reqAccess w via want n r).1.map fun c => ⟨w, c, laneBit r.lane, r.addr.toNat⟩

/-- R332: the address of the instruction's lowest-lane access. -/
def lowestAddr (rs : List Req) : Nat := ((leastBy Req.lane rs).map fun r => r.addr.toNat).getD 0

/-- The active lanes of the whole issuing path, those of every home wave. -/
def State.pathActive (s : State) (e : Env) (g : Guard) : Mask :=
  (s.homes e.ref).foldl (fun m h => m ||| g.active (s.wave h.1) (e.leaf.mask &&& h.2)) 0

/-- R330: the wave is collecting; suspended in a handler (R329). -/
def Wave.collecting (w : Wave) : Bool := w.collAct && w.trapSlot.isNone

/-- R332: an instruction of a collecting wave that is to make `n` records, the room for which is missing. -/
def State.recordCauses (s : State) (e : Env) (n tval : Nat) : List Cause :=
  causeIf ((s.wave e.wave).collecting && !(s.recordRoom e.wave n)) (whole e 0x38 tval)

/-- Table 14.4: an instruction that a collecting wave may not issue. -/
def State.collectCause (s : State) (e : Env) : List Cause := causeIf (s.wave e.wave).collecting (whole e 0x39 e.word)

/-- R373: the TLBs keep the translations the accesses used. -/
def State.fillReqs (s : State) (w : Nat) (via : Via) (rs : List Req) : State :=
  match via with
  | .gen =>
    rs.foldl (fun s r =>
      if inWindows r.addr.toNat then s else s.tlbFill (s.coreOf w) (s.ctxNo w) r.addr.toNat (s.reqDraw r)) s
  | _ => s

/-- R363: the lines of device memory among some places, each once. -/
def devLines (ps : List Place) : List Nat :=
  ps.foldl (fun ls p => if p.tier == .dev && !(ls.contains (p.addr / 64)) then ls ++ [p.addr / 64] else ls) []

/-- R363: the 32-byte sectors that some accesses need in total. -/
def sectorCount (ps : List (Place × Nat)) : Nat :=
  (ps.foldl (fun (l : List Nat) p => if p.1.tier == .dev && !(l.contains (p.1.addr / 32)) then p.1.addr / 32 :: l else l) []).length

/-- R361, R363: the operation's requests enter the queues of their pseudo-channels. -/
def State.hbmRequest (s : State) (w op sectors : Nat) (lines : List Nat) : State :=
  lines.foldl (fun s l =>
    let die := l * 64 / 2 ^ 38
    s.updDie die fun d =>
      let ch := (chanOf (Nat.max d.channels 1) (l * 64 % 2 ^ 38)).1
      { d with chq := d.chq.put ch (d.chq.lookD ch [] ++ [⟨w, op, l, sectors, s.cycle⟩]) }) s

/-- R364: requests of the operation stand at a pseudo-channel. -/
def State.hbmWaits (s : State) (op : Nat) : Bool := s.dies.any fun d => d.2.chq.any fun q => q.2.any fun r => r.op == op

/-- The operation no longer waits for a pseudo-channel. -/
def State.hbmDrop (s : State) (op : Nat) : State :=
  { s with dies := s.dies.map fun _ d =>
      { d with chq := (d.chq.map fun _ q => q.filter fun r => r.op != op).keep fun _ q => !q.isEmpty } }

/-- The core's L1 holds the word of a device place, which is no TSO page. -/
def State.l1Has (s : State) (core : Nat) (p : Place) : Bool :=
  !p.tso && (((s.core core).l1.look (p.addr / 4)).map fun v => v.key == p.key).getD false

/-- R231, R363: an access to a place of device memory misses to HBM4E: its line is not in the memory-side cache and, for a load,
its word is not in L1. -/
def State.missesHbm (s : State) (load : Bool) (core : Nat) (p : Place) : Bool :=
  p.tier == .dev && !(s.mscHas (p.addr / 64)) && !(load && s.l1Has core p)

/-- R214: a load that misses to HBM4E or host memory. -/
def State.longMiss (s : State) (core : Nat) (ps : List Place) : Bool :=
  ps.any fun p => p.tier == .host || s.missesHbm true core p

/-- A new operation of a home wave, with its requests. -/
def State.pushMem (s : State) (e : Env) (cls : OpClass) (acq rel : Bool) (dests : List Reg) (body : OpBody) : State :=
  let core := s.coreOf e.wave
  let n := s.nextId
  let ps := body.places.map Prod.fst
  let long := match cls with | .load => s.longMiss core ps | _ => false
  let load := match body with | .load .. | .reserve _ => true | _ => false
  let lines := match body with
    | .load .. | .reserve _ | .store .. => devLines (ps.filter (s.missesHbm load core))
    | _ => []
  (s.pushOp ⟨e.wave, e.mine, core, cls, acq, rel, dests, long, body, false⟩).hbmRequest e.wave n (sectorCount body.places) lines

/-! ## Watchpoints (R422) -/

/-- R422: the after cause of accesses that write, read or both. TVAL is the lowest lane's address. DEDUCED, log 42. -/
def State.watchCauses (s : State) (e : Env) (via : Via) (n : Nat) (wr rd : Bool) (rs : List Req) : List Cause :=
  let hit := fun (r : Req) => (s.ctxOf e.wave).wp.any fun x =>
    let line := bitsN x.toNat 55 6
    let a := (windowAddr via r.addr).toNat
    (wr && x.getLsbD 62 || rd && x.getLsbD 63) && decide (a < 2 ^ 56) && line == a / 64 &&
      line == (a + n - 1) / 64
  let hits := rs.filter hit
  match leastBy Req.lane hits with
  | none => []
  | some r => [⟨e.wave, 0x51, maskOf (hits.map Req.lane), r.addr.toNat⟩]

/-! ## When an operation may be performed -/

def overlaps (p q : Place × Nat) : Bool :=
  p.1.tier == q.1.tier && decide (p.1.addr < q.1.addr + q.2) && decide (q.1.addr < p.1.addr + p.2)

def isSpad : Tier → Bool
  | .spad _ => true
  | _ => false

/-- Two accesses that the tiers keep in issue order: both to the scratchpad (R230), or to one vault (R234). -/
def tierOrdered (p q : Place × Nat) : Bool :=
  (isSpad p.1.tier && isSpad q.1.tier) || (p.1.tier == .vault && q.1.tier == .vault && p.1.addr / 2 ^ 26 == q.1.addr / 2 ^ 26)

/-- The lanes of a LDRES or STCOND that are still to be performed. -/
def OpBody.resvLanes : OpBody → Mask
  | .reserve a | .cond _ a => maskOf (a.map Acc.lane)
  | _ => 0

/-- R258, R259, R389: the older operation `o` of the same wave holds back the access of `x` to the place `q`. A load passes the
wave's older stores of device memory, whose bytes it takes (R348). A vault access follows the older ones to that vault, and
older ones that are no stores to any: the stores to different vaults keep no order but for the team, which sees them while they
are pending. DESIGN CHOICE, log 136. -/
def blocksAt (o x : Op) (q : Place × Nat) : Bool :=
  (o.body.stores.any fun b =>
    let p := (b.1, b.2.1)
    tierOrdered p q || (overlaps p q && !(x.body.isLoad && q.1.tier == .dev)) || (p.1.tso && q.1.tso && !x.body.isLoad)) ||
  (o.body.others.any fun p =>
    tierOrdered p q || (p.1.tier == .vault && q.1.tier == .vault) || overlaps p q ||
      (p.1.tso && q.1.tso && (!x.body.isLoad || o.path &&& x.path != 0))) ||
  -- R244: the LDRES and STCOND of a lane make and clear its reservation in issue order
  (o.body.resvLanes &&& x.body.resvLanes != 0)

/-- The words of a place. -/
def sameWord (p q : Place × Nat) : Bool :=
  p.1.addr / 4 ≤ (q.1.addr + q.2 - 1) / 4 && q.1.addr / 4 ≤ (p.1.addr + p.2 - 1) / 4

/-- R344, R345: an access that is no load follows the older stores to its word that its wave's core has issued, and to its bytes
of a vault that its team has, since they may have been seen (R348). -/
def State.seenOrdered (s : State) (o x : Op) (q : Place × Nat) : Bool :=
  !x.body.isLoad && o.body.stores.any fun b =>
    let p := (b.1, b.2.1)
    (q.1.tier == .dev && p.1.tier == .dev && o.core == x.core && sameWord p q) ||
      (q.1.tier == .vault && overlaps p q && s.teammates o.wave x.wave)

/-- R259: operation `n`, which is no load, would reach a vault before an older store of its wave reaches another, while an older
access of the team to a vault is still to be made: the team has to find the two in order. DESIGN CHOICE, log 136. -/
def State.overtakes (s : State) (n : Nat) (x : Op) (qs : List (Place × Nat)) : Bool :=
  let vault := fun (ps : List (Place × Nat)) => ps.any fun p => p.1.tier == .vault
  !x.body.isLoad && vault qs &&
    (s.ops.any fun (k, o) => o.wave == x.wave && decide (k < n) && !o.done && o.body.stores.any fun b => b.1.tier == .vault) &&
    s.ops.any fun (k, o) => o.wave != x.wave && decide (k < n) && !o.done && s.teammates o.wave x.wave && vault o.body.others

/-- Operation `n` may make its accesses to the places `qs` now. The sectors that it waits for have been served (R364). -/
def State.mayPerform (s : State) (n : Nat) (x : Op) (qs : List (Place × Nat)) : Bool :=
  !(s.hbmWaits n) && !(s.overtakes n x qs) &&
  (s.ops.all fun (k, o) =>
    o.done || decide (n ≤ k) ||
      !(qs.any fun q => (o.wave == x.wave && blocksAt o x q) || s.seenOrdered o x q)) &&
    (!x.rel || s.releasable x.wave n)

end Sys2Proof.Machine
end

