-- ==== Sys2Proof/Machine/Flags.lean ====
section
/-!
DEFINITION. FLAGS and FMT (spec/02_number_formats.md R39 to R43): the bits of the sticky flags, the fields of FMT, and the
saturating and wrapping primitives of Table 0.7 with the flag they set.
-/

namespace Sys2Proof.Machine

/-- Table 2.4. -/
abbrev Fl := BitVec 6

def flIV : Fl := 1
def flDZ : Fl := 2
def flOF : Fl := 4
def flUF : Fl := 8
def flNX : Fl := 16
def flSAT : Fl := 32

def flagIf (b : Bool) (f : Fl) : Fl := if b then f else 0

/-- R43: flags are sticky. -/
def Wave.orFlags (w : Wave) (f : Fl) : Wave := { w with flags := w.flags ||| f }

/-- FMT.RM (Table 2.3): 0 nearest even, 1 toward zero, 2 toward +infinity, 3 toward −infinity. -/
def fmtRM (f : BitVec 14) : Nat := (f.extractLsb' 0 2).toNat
def fmtFZO (f : BitVec 14) : Bool := f.getLsbD 2
def fmtFZI (f : BitVec 14) : Bool := f.getLsbD 3

/-- R183: the enabled flags: FLAGS [5:0] and FMT [13:8]. -/
def enabledFlags (flags : Fl) (fmt : BitVec 14) : Fl := flags &&& fmt.extractLsb' 8 6

/-- R185: bits [13:8] and [3:0] of a value; reserved positions are ignored. -/
def fmtOf (v : DWord) : BitVec 14 := v.setWidth 14 &&& 0x3F0F

/-- `wrap(x, n)`. -/
def wrapI (n : Nat) (x : Int) : BitVec n := BitVec.ofInt n x

/-- `sats(x, n)` with its flag. -/
def satS (n : Nat) (x : Int) : BitVec n × Fl :=
  let hi : Int := 2 ^ (n - 1) - 1
  let lo : Int := -(2 ^ (n - 1))
  if x > hi then (BitVec.ofInt n hi, flSAT) else if x < lo then (BitVec.ofInt n lo, flSAT) else (BitVec.ofInt n x, 0)

/-- `satu(x, n)` with its flag. -/
def satU (n : Nat) (x : Int) : BitVec n × Fl :=
  let hi : Int := 2 ^ n - 1
  if x > hi then (BitVec.ofInt n hi, flSAT) else if x < 0 then (0, flSAT) else (BitVec.ofInt n x, 0)

end Sys2Proof.Machine
end

