-- ==== Sys2Proof/Machine/Float.lean ====
section
/-!
DEFINITION. Floating-point formats and the one rounding of an exact value (spec/02_number_formats.md R36 to R41, Tables 2.1 to
2.3), with sums, products and fused products formed exactly and rounded once (R52).
-/

namespace Sys2Proof.Machine

/-- A format of Table 2.1: exponent and fraction widths. -/
structure FFmt where
  e : Nat
  f : Nat
  deriving DecidableEq, Repr

def fp64 : FFmt := ⟨11, 52⟩
def fp32 : FFmt := ⟨8, 23⟩
def fp16 : FFmt := ⟨5, 10⟩
def bf16 : FFmt := ⟨8, 7⟩

def FFmt.bias (t : FFmt) : Nat := 2 ^ (t.e - 1) - 1
def FFmt.width (t : FFmt) : Nat := t.e + t.f + 1
/-- The exponent of the smallest normal. -/
def FFmt.emin (t : FFmt) : Int := 1 - t.bias

/-- A floating-point datum: a NaN (signalling or not), an infinity, or the finite value ±m × 2^e. -/
inductive FV where
  | nan (signalling : Bool)
  | inf (neg : Bool)
  | fin (neg : Bool) (m : Nat) (e : Int)
  deriving DecidableEq, Repr

/-- Table 2.2. -/
def FFmt.dec (t : FFmt) (x : Nat) : FV :=
  let f := x % 2 ^ t.f
  let e := x / 2 ^ t.f % 2 ^ t.e
  let neg := x / 2 ^ (t.e + t.f) % 2 == 1
  if e = 2 ^ t.e - 1 then
    if f = 0 then .inf neg else .nan (f / 2 ^ (t.f - 1) % 2 == 0)
  else if e = 0 then .fin neg f (t.emin - t.f)
  else .fin neg (f + 2 ^ t.f) ((e : Int) - t.bias - t.f)

/-- An encoding that is a subnormal (Table 2.2). -/
def FFmt.subnormal (t : FFmt) (x : Nat) : Bool := x / 2 ^ t.f % 2 ^ t.e == 0 && x % 2 ^ t.f != 0

/-- R41: with FZI, a subnormal operand is read as a zero of its sign. -/
def FFmt.rd (t : FFmt) (fzi : Bool) (x : Nat) : FV :=
  if fzi && t.subnormal x then .fin (x / 2 ^ (t.e + t.f) % 2 == 1) 0 0 else t.dec x

def FFmt.signBit (t : FFmt) (neg : Bool) : Nat := if neg then 2 ^ (t.e + t.f) else 0

/-- R37: the canonical quiet NaN. -/
def FFmt.cnan (t : FFmt) : Nat := (2 ^ t.e - 1) * 2 ^ t.f + 2 ^ (t.f - 1)
def FFmt.infBits (t : FFmt) (neg : Bool) : Nat := t.signBit neg + (2 ^ t.e - 1) * 2 ^ t.f
def FFmt.maxBits (t : FFmt) (neg : Bool) : Nat := t.signBit neg + (2 ^ t.e - 1) * 2 ^ t.f - 1
def FFmt.zeroBits (t : FFmt) (neg : Bool) : Nat := t.signBit neg

/-- How a result is rounded: FMT.RM and FMT.FZO. -/
structure Mode where
  rm : Nat
  fzo : Bool
  fzi : Bool
  deriving DecidableEq, Repr

def modeOf (f : BitVec 14) : Mode := ⟨fmtRM f, fmtFZO f, fmtFZI f⟩

/-- `rne(x, f)`: to nearest, subnormals kept (R42). -/
def Mode.rne : Mode := ⟨0, false, false⟩

/-- Divide by 2^k and round the magnitude: quotient after rounding, and whether anything was lost. `more` says that the
exact magnitude lies strictly between m and m + 1. -/
def roundShift (rm : Nat) (neg : Bool) (m k : Nat) (more : Bool) : Nat × Bool :=
  let q := m / 2 ^ k
  let r := m % 2 ^ k
  let inexact := r != 0 || more
  let half := 2 ^ k / 2
  let up :=
    match rm with
    | 0 => decide (k ≠ 0) && (decide (r > half) || (r == half && (more || q % 2 == 1)))
    | 1 => false
    | 2 => inexact && !neg
    | _ => inexact && neg
  (if up then q + 1 else q, inexact)

/-- Number of bits of a magnitude. -/
def bitLen (m : Nat) : Nat := if m = 0 then 0 else Nat.log2 m + 1

/-- R40, R41: round ±(m or, with `more`, a value strictly between m and m + 1) × 2^e to the format: bits and flags. A
caller that passes `more` gives m more bits than the format's precision. -/
def FFmt.round (t : FFmt) (md : Mode) (neg : Bool) (m : Nat) (e : Int) (more : Bool := false) : Nat × Fl :=
  if m = 0 && !more then (t.zeroBits neg, 0)
  else
    let top : Int := e + bitLen m - 1
    let q : Int := max (top - t.f) (t.emin - t.f)
    let (big, inexact) :=
      if e ≥ q then (m * 2 ^ (e - q).toNat, more) else roundShift md.rm neg m (q - e).toNat more
    -- tininess after rounding, as if the exponent were unbounded
    let tiny : Bool :=
      if top ≥ t.emin then false
      else if top < t.emin - 1 then true
      else
        let q' := top - t.f
        let big' := if e ≥ q' then m * 2 ^ (e - q').toNat else (roundShift md.rm neg m (q' - e).toNat more).1
        decide (big' < 2 ^ (t.f + 1))
    let (sig, q) := if big = 2 ^ (t.f + 1) then (2 ^ t.f, q + 1) else (big, q)
    if q + t.f > t.bias then
      let toInf := md.rm == 0 || (md.rm == 2 && !neg) || (md.rm == 3 && neg)
      (if toInf then t.infBits neg else t.maxBits neg, flOF ||| flNX)
    else if tiny && md.fzo then (t.zeroBits neg, flUF ||| flNX)
    else
      -- for a subnormal the exponent field is 0 and the fraction is the significand itself
      let bits := if sig < 2 ^ t.f then sig else (q + t.f + t.bias).toNat * 2 ^ t.f + (sig - 2 ^ t.f)
      (t.signBit neg + bits, flagIf (tiny && inexact) flUF ||| flagIf inexact flNX)

/-! ## Exact sums and products -/

/-- The signed magnitude of a finite datum at exponent `e` (at or below its own). -/
def finInt (neg : Bool) (m : Nat) (e e0 : Int) : Int :=
  let v : Int := m * 2 ^ (e - e0).toNat
  if neg then -v else v

/-- R37: a NaN operand gives the canonical NaN, with IV when it signals. -/
def nanFlag (a : FV) : Fl :=
  match a with
  | .nan true => flIV
  | _ => 0

def FV.isNaN : FV → Bool
  | .nan _ => true
  | _ => false

def FV.neg : FV → FV
  | .nan s => .nan s
  | .inf n => .inf !n
  | .fin n m e => .fin (!n) m e

/-- R40: round the exact sum of two finite data, with the sign rules of a zero sum. -/
def FFmt.roundSum (t : FFmt) (md : Mode) (na : Bool) (ma : Nat) (ea : Int) (nb : Bool) (mb : Nat) (eb : Int) : Nat × Fl :=
  let e := min ea eb
  let v := finInt na ma ea e + finInt nb mb eb e
  if v = 0 then
    (t.zeroBits (if na == nb && ma == 0 && mb == 0 then na else md.rm == 3), 0)
  else t.round md (decide (v < 0)) v.natAbs e

/-- R52: a + b, rounded once. -/
def FFmt.add (t : FFmt) (md : Mode) (a b : FV) : Nat × Fl :=
  match a, b with
  | .nan _, _ => (t.cnan, nanFlag a ||| nanFlag b)
  | _, .nan _ => (t.cnan, nanFlag b)
  | .inf x, .inf y => if x == y then (t.infBits x, 0) else (t.cnan, flIV)
  | .inf x, .fin .. => (t.infBits x, 0)
  | .fin .., .inf y => (t.infBits y, 0)
  | .fin na ma ea, .fin nb mb eb => t.roundSum md na ma ea nb mb eb

/-- The exact product of two data; `none` for an invalid one (infinity times zero). -/
def FV.mul (a b : FV) : Option FV :=
  match a, b with
  | .nan s, _ => some (.nan s)
  | _, .nan s => some (.nan s)
  | .inf x, .inf y => some (.inf (x != y))
  | .inf x, .fin y m _ => if m = 0 then none else some (.inf (x != y))
  | .fin x m _, .inf y => if m = 0 then none else some (.inf (x != y))
  | .fin na ma ea, .fin nb mb eb => some (.fin (na != nb) (ma * mb) (ea + eb))

/-- A datum delivered in the format: rounded, with R37 for a NaN. -/
def FFmt.deliver (t : FFmt) (md : Mode) (a : FV) : Nat × Fl :=
  match a with
  | .nan _ => (t.cnan, nanFlag a)
  | .inf n => (t.infBits n, 0)
  | .fin n m e => t.round md n m e

def FFmt.mul (t : FFmt) (md : Mode) (a b : FV) : Nat × Fl :=
  if a.isNaN || b.isNaN then (t.cnan, nanFlag a ||| nanFlag b)
  else
    match a.mul b with
    | none => (t.cnan, flIV)
    | some p => t.deliver md p

/-- R52: a × b + c, rounded once. -/
def FFmt.fma (t : FFmt) (md : Mode) (a b c : FV) : Nat × Fl :=
  if a.isNaN || b.isNaN then (t.cnan, nanFlag a ||| nanFlag b ||| nanFlag c)
  else
    match a.mul b with
    | none => (t.cnan, flIV ||| nanFlag c)
    | some p => if c.isNaN then (t.cnan, nanFlag c) else t.add md p c

/-! ## Quotients and roots: floor with what is left over -/

/-- ±(n / d) × 2^e rounded once: enough bits of the quotient for any format. -/
def FFmt.roundQuot (t : FFmt) (md : Mode) (neg : Bool) (n d : Nat) (e : Int) : Nat × Fl :=
  let k := 200 + bitLen d
  let x := n * 2 ^ k
  t.round md neg (x / d) (e - k) (x % d != 0)

/-- The integer square root of `n` by digits: `fuel` bits from the top. -/
def sqrtBits : Nat → Nat → Nat → Nat
  | 0, _, r => r
  | k + 1, n, r =>
    let c := r + 2 ^ k
    sqrtBits k n (if c * c ≤ n then c else r)

def natSqrt (n : Nat) : Nat := sqrtBits (bitLen n / 2 + 1) n 0

end Sys2Proof.Machine
end

