-- ==== Sys2Proof/Machine/IntOps.lean ====
section
/-!
DEFINITION. Integer, bit-wise, shift, field, compare, address, move and selection instructions (spec/06_wave_arithmetic.md
R133 to R149).
-/

namespace Sys2Proof.Machine

/-! ## The shared shapes (R133) -/

def orAll (fs : List Fl) : Fl := fs.foldl (fun a b => a ||| b) 0

/-- A 32-bit result for each block position and active lane. Every result is computed before any is written (R11). -/
def Wave.vecEff (act : Mask) (n : VReg) (blk : Block) (f : Nat × Nat → Nat → Word × Fl) (w : Wave) : Wave :=
  let rs := blk.positions.flatMap fun pos => (lanesOf act).map fun l => (regAt n false pos, l, f pos l)
  (w.setLanes (rs.map fun r => (r.1, r.2.1, r.2.2.1))).orFlags (orAll (rs.map fun r => r.2.2.2))

/-- A 64-bit result for each position and lane, in a register pair (R75). -/
def Wave.pairEff (act : Mask) (n : VReg) (blk : Block) (f : Nat × Nat → Nat → DWord × Fl) (w : Wave) : Wave :=
  let rs := blk.positions.flatMap fun pos => (lanesOf act).map fun l => (regAt n true pos, l, f pos l)
  (w.setLanes (rs.flatMap fun r => pairWrites r.1 r.2.1 r.2.2.1)).orFlags (orAll (rs.map fun r => r.2.2.2))

/-- A result once, to a uniform register. -/
def Wave.uniEff (n : SReg) (x : DWord × Fl) (w : Wave) : Wave := (w.setS n.toNat x.1).orFlags x.2

/-- R10, R111: the bits of the active lanes of a predicate. -/
def Wave.predEff (act : Mask) (n : Nat) (f : Nat → Bool) (w : Wave) : Wave :=
  w.setP n ((w.preg n &&& ~~~act) ||| maskOf ((lanesOf act).filter f))

/-- An effect on the registers of the home wave. -/
def onWave (f : Env → Wave → Wave) (e : Env) (s : State) : State := s.updWave e.wave (f e)

/-- One-operand form: the result at width 32 in a vector lane and 64 in a uniform register. -/
def alu1 (i : Instr) (o : Alu1) (f : (n : Nat) → BitVec n → BitVec n × Fl) (s : State) :
    Host.Outcome State Fault Refusal :=
  issue i o.g noCause (onWave fun e w =>
    match o.d with
    | .v n => w.vecEff e.act n o.blk fun pos l => f 32 (o.a.word w pos l)
    | .s n => w.uniEff n (f 64 (o.a.uni w))) s

/-- Two operands. -/
def alu2 (i : Instr) (o : Alu2) (f : (n : Nat) → BitVec n → BitVec n → BitVec n × Fl) (s : State) :
    Host.Outcome State Fault Refusal :=
  issue i o.g noCause (onWave fun e w =>
    match o.d with
    | .v n => w.vecEff e.act n o.blk fun pos l => f 32 (o.a.word w pos l) (o.b.word immInt32 w pos l)
    | .s n => w.uniEff n (f 64 (o.a.uni w) (o.b.uni immInt64 w))) s

/-- Three operands. `f` also takes the old value of the destination. -/
def alu3 (i : Instr) (o : Alu3) (f : (n : Nat) → BitVec n → BitVec n → BitVec n → BitVec n → BitVec n × Fl) (s : State) :
    Host.Outcome State Fault Refusal :=
  issue i o.g noCause (onWave fun e w =>
    match o.d with
    | .v n => w.vecEff e.act n o.blk fun pos l =>
        f 32 (w.vreg (regAt n false pos) l) (o.a.word w pos l) (o.b.word immInt32 w pos l) (o.c.word w pos l)
    | .s n => w.uniEff n (f 64 (w.sreg n.toNat) (o.a.uni w) (o.b.uni immInt64 w) (o.c.uni w))) s

/-! ## The functions -/

/-- R136: how VAR reads an operand. -/
def satRd (k : Sat) {n : Nat} (x : BitVec n) : Int :=
  match k with
  | .us => x.toNat
  | _ => x.toInt

/-- R136: how VAR delivers the exact result. -/
def satOut (k : Sat) (n : Nat) (r : Int) : BitVec n × Fl :=
  match k with
  | .wrap => (wrapI n r, 0)
  | .ss => satS n r
  | .us => satU n r

def rdSigned (u : Bool) {n : Nat} (x : BitVec n) : Int := if u then x.toNat else x.toInt

/-- R137: bits [2w−1 : w] of the exact product. -/
def highProduct (u : Bool) (n : Nat) (x y : BitVec n) : BitVec n := wrapI n (rdSigned u x * rdSigned u y / 2 ^ n)

def minMax (u mx : Bool) (n : Nat) (x y : BitVec n) : BitVec n :=
  let lt := decide (rdSigned u x < rdSigned u y)
  if lt == mx then y else x

/-- R142: shifts. -/
def shlF (n : Nat) (a b : BitVec n) : BitVec n := if b.toNat < n then BitVec.ofNat n (a.toNat * 2 ^ b.toNat) else 0

def shrF (n : Nat) (a b : BitVec n) : BitVec n := if b.toNat < n then BitVec.ofNat n (a.toNat / 2 ^ b.toNat) else 0

def sarF (n : Nat) (a b : BitVec n) : BitVec n :=
  if b.toNat < n then wrapI n (a.toInt / 2 ^ b.toNat) else if a.toInt < 0 then wrapI n (-1) else 0

def rotlF (n : Nat) (a b : BitVec n) : BitVec n :=
  let k := b.toNat % n
  BitVec.ofNat n (a.toNat * 2 ^ k) ||| BitVec.ofNat n (a.toNat / 2 ^ (n - k))

/-- R143: bit counts. -/
def popcount (n : Nat) (a : BitVec n) : Nat := ((upto n).filter fun i => a.getLsbD i).length

def clzCount (n : Nat) (a : BitVec n) : Nat := ((upto n).find? fun i => a.getLsbD (n - 1 - i)).getD n

def ctzCount (n : Nat) (a : BitVec n) : Nat := ((upto n).find? fun i => a.getLsbD i).getD n

def brevF (n : Nat) (a : BitVec n) : BitVec n :=
  BitVec.ofNat n ((upto n).foldl (fun x i => if a.getLsbD i then x + 2 ^ (n - 1 - i) else x) 0)

/-- R144: the position and width that act; none when there is no field. -/
def fieldOf (n : Nat) (b c : BitVec n) : Option (Nat × Nat) :=
  if b.toNat ≥ n || c.toNat = 0 then none else some (b.toNat, min c.toNat (n - b.toNat))

def bfxF (sx : Bool) (n : Nat) (a b c : BitVec n) : BitVec n :=
  match fieldOf n b c with
  | none => 0
  | some (pos, len) =>
    let f := a.toNat / 2 ^ pos % 2 ^ len
    if sx && f / 2 ^ (len - 1) == 1 then wrapI n ((f : Int) - 2 ^ len) else BitVec.ofNat n f

/-- R145: the other bits of the destination keep their values. -/
def bfiF (n : Nat) (d a b c : BitVec n) : BitVec n :=
  match fieldOf n b c with
  | none => d
  | some (pos, len) =>
    let m := BitVec.ofNat n ((2 ^ len - 1) * 2 ^ pos)
    (d &&& ~~~m) ||| (BitVec.ofNat n (a.toNat * 2 ^ pos) &&& m)

/-- R146: the relations. -/
def icondHolds (c : ICond) {n : Nat} (x y : BitVec n) : Bool :=
  match c with
  | .eq => x == y
  | .ne => x != y
  | .lt => decide (x.toInt < y.toInt)
  | .le => decide (x.toInt ≤ y.toInt)
  | .ltu => decide (x.toNat < y.toNat)
  | .leu => decide (x.toNat ≤ y.toNat)

/-! ## The instructions -/

def execIadd (k : Sat) (o : Alu2) (s : State) : Host.Outcome State Fault Refusal :=
  alu2 (.iadd k o) o (fun n x y => satOut k n (satRd k x + satRd k y)) s

def execIsub (k : Sat) (o : Alu2) (s : State) : Host.Outcome State Fault Refusal :=
  alu2 (.isub k o) o (fun n x y => satOut k n (satRd k x - satRd k y)) s

def execImul (k : Sat) (o : Alu2) (s : State) : Host.Outcome State Fault Refusal :=
  alu2 (.imul k o) o (fun n x y => satOut k n (satRd k x * satRd k y)) s

def execImulh (u : Bool) (o : Alu2) (s : State) : Host.Outcome State Fault Refusal :=
  alu2 (.imulh u o) o (fun n x y => (highProduct u n x y, 0)) s

/-- R138: only the final sum is clamped. -/
def execImad (k : Sat) (o : Alu3) (s : State) : Host.Outcome State Fault Refusal :=
  alu3 (.imad k o) o (fun n _ x y z => satOut k n (satRd k x * satRd k y + satRd k z)) s

/-- R139: 32 × 32 + 64 into a vector pair, or 64 × 64 + 64 into a uniform pair. -/
def execImadw (u : Bool) (o : Alu3) (s : State) : Host.Outcome State Fault Refusal :=
  issue (.imadw u o) o.g noCause (onWave fun e w =>
    match o.d with
    | .v n => w.pairEff e.act n o.blk fun pos l =>
        (wrapI 64 (rdSigned u (o.a.word w pos l) * rdSigned u (o.b.word immInt32 w pos l) +
          rdSigned u (o.c.dword w pos l)), 0)
    | .s n =>
      let r := wrapI 128 (rdSigned u (o.a.uni w) * rdSigned u (o.b.uni immInt64 w) + rdSigned u (o.c.uni w))
      (w.setS n.toNat (r.setWidth 64)).setS (n.toNat + 1) ((r >>> 64).setWidth 64)) s

/-- R140; in a regrouped group each home wave takes the lowest of its own active lanes (R128). DESIGN CHOICE, log 132. -/
def execIaddc (o : AluP) (s : State) : Host.Outcome State Fault Refusal :=
  issue (.iaddc o) o.g noCause (onWave fun e w =>
    let pc := w.preg o.c.toNat
    match o.d with
    | .v n =>
      let sum := fun (l : Nat) => (o.a.word w (0, 0) l).toNat + (o.b.word immInt32 w (0, 0) l).toNat +
        (if pc.getLsbD l then 1 else 0)
      (w.vecEff e.act n .single fun _ l => (BitVec.ofNat 32 (sum l), 0)).predEff e.act o.c.toNat fun l =>
        decide (2 ^ 32 ≤ sum l)
    | .s n =>
      let sum := (o.a.uni w).toNat + (o.b.uni immInt64 w).toNat + (if pc.getLsbD (lowestLane e.act) then 1 else 0)
      (w.uniEff n (BitVec.ofNat 64 sum, 0)).predEff e.act o.c.toNat fun _ => decide (2 ^ 64 ≤ sum)) s

def execIneg (ss : Bool) (o : Alu1) (s : State) : Host.Outcome State Fault Refusal :=
  alu1 (.ineg ss o) o (fun n x => satOut (if ss then Sat.ss else Sat.wrap) n (-x.toInt)) s

def execIabs (ss : Bool) (o : Alu1) (s : State) : Host.Outcome State Fault Refusal :=
  alu1 (.iabs ss o) o (fun n x => satOut (if ss then Sat.ss else Sat.wrap) n x.toInt.natAbs) s

def execImin (u : Bool) (o : Alu2) (s : State) : Host.Outcome State Fault Refusal :=
  alu2 (.imin u o) o (fun n x y => (minMax u false n x y, 0)) s

def execImax (u : Bool) (o : Alu2) (s : State) : Host.Outcome State Fault Refusal :=
  alu2 (.imax u o) o (fun n x y => (minMax u true n x y, 0)) s

def execAndw (o : Alu2) (s : State) : Host.Outcome State Fault Refusal :=
  alu2 (.andw o) o (fun _ x y => (x &&& y, 0)) s

def execOrw (o : Alu2) (s : State) : Host.Outcome State Fault Refusal :=
  alu2 (.orw o) o (fun _ x y => (x ||| y, 0)) s

def execXorw (o : Alu2) (s : State) : Host.Outcome State Fault Refusal :=
  alu2 (.xorw o) o (fun _ x y => (x ^^^ y, 0)) s

def execAndn (o : Alu2) (s : State) : Host.Outcome State Fault Refusal :=
  alu2 (.andn o) o (fun _ x y => (x &&& ~~~y, 0)) s

def execNotw (o : Alu1) (s : State) : Host.Outcome State Fault Refusal :=
  alu1 (.notw o) o (fun _ x => (~~~x, 0)) s

def execShl (o : Alu2) (s : State) : Host.Outcome State Fault Refusal :=
  alu2 (.shl o) o (fun n x y => (shlF n x y, 0)) s

def execShr (o : Alu2) (s : State) : Host.Outcome State Fault Refusal :=
  alu2 (.shr o) o (fun n x y => (shrF n x y, 0)) s

def execSar (o : Alu2) (s : State) : Host.Outcome State Fault Refusal :=
  alu2 (.sar o) o (fun n x y => (sarF n x y, 0)) s

def execRotl (o : Alu2) (s : State) : Host.Outcome State Fault Refusal :=
  alu2 (.rotl o) o (fun n x y => (rotlF n x y, 0)) s

def execPopc (o : Alu1) (s : State) : Host.Outcome State Fault Refusal :=
  alu1 (.popc o) o (fun n x => (BitVec.ofNat n (popcount n x), 0)) s

def execClz (o : Alu1) (s : State) : Host.Outcome State Fault Refusal :=
  alu1 (.clz o) o (fun n x => (BitVec.ofNat n (clzCount n x), 0)) s

def execCtz (o : Alu1) (s : State) : Host.Outcome State Fault Refusal :=
  alu1 (.ctz o) o (fun n x => (BitVec.ofNat n (ctzCount n x), 0)) s

def execBrev (o : Alu1) (s : State) : Host.Outcome State Fault Refusal :=
  alu1 (.brev o) o (fun n x => (brevF n x, 0)) s

def execBfx (sx : Bool) (o : Alu3) (s : State) : Host.Outcome State Fault Refusal :=
  alu3 (.bfx sx o) o (fun n _ x y z => (bfxF sx n x y z, 0)) s

def execBfi (o : Alu3) (s : State) : Host.Outcome State Fault Refusal :=
  alu3 (.bfi o) o (fun n d x y z => (bfiF n d x y z, 0)) s

/-- R146: at 32 bits when A or B is a vector register; otherwise once at 64. -/
def execIcmp (c : ICond) (o : Cmp2) (s : State) : Host.Outcome State Fault Refusal :=
  issue (.icmp c o) o.g noCause (onWave fun e w =>
    let narrow := o.a.isV || (o.b.isReg && !o.b.isS)
    w.predEff e.act o.d.toNat fun l =>
      if narrow then icondHolds c (o.a.word w (0, 0) l) (o.b.word immInt32 w (0, 0) l)
      else icondHolds c (o.a.uni w) (o.b.uni immInt64 w)) s

def execLea (k : BitVec 3) (o : Alu2) (s : State) : Host.Outcome State Fault Refusal :=
  alu2 (.lea k o) o (fun n x y => (BitVec.ofNat n (x.toNat + y.toNat * 2 ^ k.toNat), 0)) s

def execMov (o : Alu1) (s : State) : Host.Outcome State Fault Refusal :=
  alu1 (.mov o) o (fun _ x => (x, 0)) s

/-- R148. -/
def execMovi (g : Guard) (d : Dst) (x : Const) (blk : Block) (s : State) : Host.Outcome State Fault Refusal :=
  issue (.movi g d x blk) g noCause (onWave fun e w =>
    match d with
    | .v n => w.vecEff e.act n blk fun _ _ => (match x with | .imm i => immInt32 i | .lit y => y.setWidth 32, 0)
    | .s n => w.uniEff n (match x with | .imm i => immInt64 i | .lit y => y, 0)) s

/-- R149; in a regrouped group each home wave takes the lowest of its own active lanes (R128). DESIGN CHOICE, log 133. -/
def execSel (o : AluP) (s : State) : Host.Outcome State Fault Refusal :=
  issue (.sel o) o.g noCause (onWave fun e w =>
    let pc := w.preg o.c.toNat
    match o.d with
    | .v n => w.vecEff e.act n o.blk fun pos l =>
        (if pc.getLsbD l then o.a.word w pos l else o.b.word immInt32 w pos l, 0)
    | .s n => w.uniEff n (if pc.getLsbD (lowestLane e.act) then o.a.uni w else o.b.uni immInt64 w, 0)) s

end Sys2Proof.Machine
end

