-- ==== Sys2Proof/Machine/Transcend.lean ====
section
/-!
DEFINITION. The transcendental functions (spec/06_wave_arithmetic.md R156, Table 6.2): the exact value is bracketed in fixed point
with `fpBits` fraction bits and rounded once to nearest. An FP32 argument's result lies further from every rounding
boundary than the error of that fixed point, except in the exact cases, which are taken apart.
-/

namespace Sys2Proof.Machine

/-- Fraction bits of the fixed-point evaluation. -/
def fpBits : Nat := 600

/-- 2 × Σ z^(2k+1) / (2k+1) for z = `num / den` below 1/2, that is ln((1 + z) / (1 − z)): `fuel` terms, `p` being z^(2k+1). -/
def lnSeries : Nat → Nat → Nat → Nat → Nat → Nat
  | 0, _, _, _, _ => 0
  | fuel + 1, p, n2, d2, k => 2 * p / (2 * k + 1) + lnSeries fuel (p * n2 / d2) n2 d2 (k + 1)

/-- ln(n / d) for 1 ≤ n / d < 2. -/
def lnRatio (n d : Nat) : Nat :=
  let a := n - d
  let b := n + d
  lnSeries 200 (a * 2 ^ fpBits / b) (a * a) (b * b) 0

def ln2 : Nat := lnRatio 2 1

/-- Σ y^k / k!, `t` being the term of index `k`. -/
def expSeries : Nat → Nat → Nat → Nat → Nat
  | 0, _, _, _ => 0
  | fuel + 1, t, y, k => t + expSeries fuel (t * y / 2 ^ fpBits / (k + 1)) y (k + 1)

/-- e^y for y in fixed point. -/
def expFix (y : Nat) : Nat := expSeries 260 (2 ^ fpBits) y 0

/-- Σ (−1)^k / ((2k+1) n^(2k+1)): arctan(1 / n). -/
def atanInv : Nat → Int → Int → Int → Int
  | 0, _, _, _ => 0
  | fuel + 1, p, n2, k => p / (2 * k + 1) - atanInv fuel (p / n2) n2 (k + 1)

/-- π / 2 by 16 arctan(1/5) − 4 arctan(1/239) halved. -/
def halfPi : Nat :=
  (8 * atanInv 140 (2 ^ fpBits / 5) 25 0 - 2 * atanInv 60 (2 ^ fpBits / 239) 57121 0).toNat

/-- The alternating series from the term `t` of index `k` of sine or cosine; `r2` is r². -/
def trigSeries : Nat → Int → Int → Int → Int
  | 0, _, _, _ => 0
  | fuel + 1, t, r2, k => t + trigSeries fuel (-(t * r2 / 2 ^ fpBits / ((k + 1) * (k + 2)))) r2 (k + 2)

def sinFix (r : Int) : Int := trigSeries 70 r (r * r / 2 ^ fpBits) 1

def cosFix (r : Int) : Int := trigSeries 70 (2 ^ fpBits) (r * r / 2 ^ fpBits) 0

/-- A fixed-point result rounded once; it is never exact. -/
def roundFix (md : Mode) (t : FFmt) (x : Int) (e : Int := 0) : Nat × Fl :=
  t.round ⟨0, md.fzo, md.fzi⟩ (decide (x < 0)) x.natAbs (e - fpBits) true

/-- A magnitude m × 2^e in fixed point; every finite FP32 value is exact there. -/
def toFix (m : Nat) (e : Int) : Nat := m * 2 ^ (e + fpBits).toNat

/-- FEXP2. -/
def exp2F (md : Mode) (t : FFmt) (x : Nat) : Nat × Fl :=
  match t.rd md.fzi x with
  | .nan s => (t.cnan, nanFlag (.nan s))
  | .inf n => if n then (t.zeroBits false, 0) else (t.infBits false, 0)
  | .fin n m e =>
    let v := toFix m e
    let one := 2 ^ fpBits
    if !n && v ≥ 128 * one then (t.infBits false, flOF ||| flNX)
    else if n && v ≥ 150 * one then (t.zeroBits false, flUF ||| flNX)
    else
      let i : Int := if n then -((v / one : Nat) : Int) else (v / one : Nat)
      let f := v % one
      if f = 0 then t.round ⟨0, md.fzo, md.fzi⟩ false 1 i
      else
        -- 2^−f = 2^(1−f) / 2
        let (i, f) := if n then (i - 1, one - f) else (i, f)
        roundFix md t (expFix (f * ln2 / one)) i

/-- FLOG2. -/
def log2F (md : Mode) (t : FFmt) (x : Nat) : Nat × Fl :=
  match t.rd md.fzi x with
  | .nan s => (t.cnan, nanFlag (.nan s))
  | .inf n => if n then (t.cnan, flIV) else (t.infBits false, 0)
  | .fin n m e =>
    if m = 0 then (t.infBits true, flDZ)
    else if n then (t.cnan, flIV)
    else
      let k := bitLen m - 1
      let i : Int := e + k
      if m = 2 ^ k then t.round ⟨0, md.fzo, md.fzi⟩ (decide (i < 0)) i.natAbs 0
      else roundFix md t (i * 2 ^ fpBits + (lnRatio m (2 ^ k) * 2 ^ fpBits / ln2 : Nat))

/-- The quadrant of a magnitude and what is left of it. -/
def quadrant (m : Nat) (e : Int) : Nat × Nat :=
  let v := toFix m e
  (v / halfPi % 4, v % halfPi)

/-- FSIN. -/
def sinF (md : Mode) (t : FFmt) (x : Nat) : Nat × Fl :=
  match t.rd md.fzi x with
  | .nan s => (t.cnan, nanFlag (.nan s))
  | .inf _ => (t.cnan, flIV)
  | .fin n m e =>
    if m = 0 then (t.zeroBits n, 0)
    else
      let (q, r) := quadrant m e
      let v := if q % 2 = 0 then sinFix r else cosFix r
      let v := if q ≥ 2 then -v else v
      roundFix md t (if n then -v else v)

/-- FCOS. -/
def cosF (md : Mode) (t : FFmt) (x : Nat) : Nat × Fl :=
  match t.rd md.fzi x with
  | .nan s => (t.cnan, nanFlag (.nan s))
  | .inf _ => (t.cnan, flIV)
  | .fin _ m e =>
    if m = 0 then t.round ⟨0, md.fzo, md.fzi⟩ false 1 0
    else
      let (q, r) := quadrant m e
      let v := if q % 2 = 0 then cosFix r else sinFix r
      roundFix md t (if q = 1 || q = 2 then -v else v)

/-- FTANH: (E − 1) / (E + 1) for E = e^(2|x|). -/
def tanhF (md : Mode) (t : FFmt) (x : Nat) : Nat × Fl :=
  match t.rd md.fzi x with
  | .nan s => (t.cnan, nanFlag (.nan s))
  | .inf n => t.round Mode.rne n 1 0
  | .fin n m e =>
    if m = 0 then (t.zeroBits n, 0)
    else
      let v := toFix m e
      if 4 * v ≥ 37 * 2 ^ fpBits then ((t.round Mode.rne n 1 0).1, flNX)
      else
        let E := expFix (2 * v)
        let r : Int := ((E - 2 ^ fpBits) * 2 ^ fpBits / (E + 2 ^ fpBits) : Nat)
        roundFix md t (if n then -r else r)

end Sys2Proof.Machine
end

