-- ==== Sys2Proof/Machine/FloatOps.lean ====
section
/-!
DEFINITION. Floating-point arithmetic (spec/06_wave_arithmetic.md R150 to R158).
-/

namespace Sys2Proof.Machine

/-! ## Elements of a type (R38, R150) -/

/-- Apply an element function to one operand: bits of the lane, of the pair, or of the uniform register. -/
def lift1 (t : FTy) (f : FFmt → Nat → Nat × Fl) (x : Nat) : Nat × Fl :=
  let two := fun (m : FFmt) =>
    let lo := f m (x % 2 ^ 16)
    let hi := f m (x / 2 ^ 16 % 2 ^ 16)
    (lo.1 + hi.1 * 2 ^ 16, lo.2 ||| hi.2)
  match t with
  | .f32 => f fp32 (x % 2 ^ 32)
  | .f64 => f fp64 x
  | .f16x2 => two fp16
  | .bf16x2 => two bf16

/-- Two operands. -/
def lift2 (t : FTy) (f : FFmt → Nat → Nat → Nat × Fl) (x y : Nat) : Nat × Fl :=
  let two := fun (m : FFmt) =>
    let lo := f m (x % 2 ^ 16) (y % 2 ^ 16)
    let hi := f m (x / 2 ^ 16 % 2 ^ 16) (y / 2 ^ 16 % 2 ^ 16)
    (lo.1 + hi.1 * 2 ^ 16, lo.2 ||| hi.2)
  match t with
  | .f32 => f fp32 (x % 2 ^ 32) (y % 2 ^ 32)
  | .f64 => f fp64 x y
  | .f16x2 => two fp16
  | .bf16x2 => two bf16

/-- Three operands. -/
def lift3 (t : FTy) (f : FFmt → Nat → Nat → Nat → Nat × Fl) (x y z : Nat) : Nat × Fl :=
  let two := fun (m : FFmt) =>
    let lo := f m (x % 2 ^ 16) (y % 2 ^ 16) (z % 2 ^ 16)
    let hi := f m (x / 2 ^ 16 % 2 ^ 16) (y / 2 ^ 16 % 2 ^ 16) (z / 2 ^ 16 % 2 ^ 16)
    (lo.1 + hi.1 * 2 ^ 16, lo.2 ||| hi.2)
  match t with
  | .f32 => f fp32 (x % 2 ^ 32) (y % 2 ^ 32) (z % 2 ^ 32)
  | .f64 => f fp64 x y z
  | .f16x2 => two fp16
  | .bf16x2 => two bf16

/-- R72: the immediate of a floating-point instruction. -/
def immFloat (t : FTy) (i : BitVec 16) : DWord :=
  match t with
  | .f32 => BitVec.ofNat 64 (i.toNat * 2 ^ 16)
  | .f64 => BitVec.ofNat 64 (i.toNat * 2 ^ 48)
  | .f16x2 | .bf16x2 => BitVec.ofNat 64 (i.toNat * 2 ^ 16 + i.toNat)

/-- The bits of a source at a position and lane. -/
def srcBits (t : FTy) (a : Src) (w : Wave) (pos : Nat × Nat) (l : Nat) : Nat :=
  if t.pair then (a.dword w pos l).toNat else (a.word w pos l).toNat

def srcBitsB (t : FTy) (b : SrcB) (w : Wave) (pos : Nat × Nat) (l : Nat) : Nat :=
  if t.pair then (b.dword (immFloat t) w pos l).toNat
  else (b.word (fun i => (immFloat t i).setWidth 32) w pos l).toNat

/-- Deliver results of a type to a destination: to lanes, to pairs, or once to a uniform register (R133). -/
def Wave.fltEff (e : Env) (t : FTy) (d : Dst) (blk : Block) (lane : Nat × Nat → Nat → Nat × Fl) (uni : Unit → Nat × Fl)
    (w : Wave) : Wave :=
  match d with
  | .v n =>
    if t.pair then w.pairEff e.act n blk fun pos l => ((BitVec.ofNat 64 (lane pos l).1), (lane pos l).2)
    else w.vecEff e.act n blk fun pos l => ((BitVec.ofNat 32 (lane pos l).1), (lane pos l).2)
  | .s n => w.uniEff n (BitVec.ofNat 64 (uni ()).1, (uni ()).2)

def flt1 (i : Instr) (t : FTy) (o : Alu1) (f : Mode → FFmt → Nat → Nat × Fl) (s : State) :
    Host.Outcome State Fault Refusal :=
  issue i o.g noCause (onWave fun e w =>
    let md := modeOf e.leaf.fmt
    w.fltEff e t o.d o.blk (fun pos l => lift1 t (f md) (srcBits t o.a w pos l))
      (fun _ => lift1 t (f md) (o.a.uni w).toNat)) s

def flt2 (i : Instr) (t : FTy) (o : Alu2) (f : Mode → FFmt → Nat → Nat → Nat × Fl) (s : State) :
    Host.Outcome State Fault Refusal :=
  issue i o.g noCause (onWave fun e w =>
    let md := modeOf e.leaf.fmt
    w.fltEff e t o.d o.blk (fun pos l => lift2 t (f md) (srcBits t o.a w pos l) (srcBitsB t o.b w pos l))
      (fun _ => lift2 t (f md) (o.a.uni w).toNat (o.b.uni (immFloat t) w).toNat)) s

def flt3 (i : Instr) (t : FTy) (o : Alu3) (f : Mode → FFmt → Nat → Nat → Nat → Nat × Fl) (s : State) :
    Host.Outcome State Fault Refusal :=
  issue i o.g noCause (onWave fun e w =>
    let md := modeOf e.leaf.fmt
    w.fltEff e t o.d o.blk
      (fun pos l => lift3 t (f md) (srcBits t o.a w pos l) (srcBitsB t o.b w pos l) (srcBits t o.c w pos l))
      (fun _ => lift3 t (f md) (o.a.uni w).toNat (o.b.uni (immFloat t) w).toNat (o.c.uni w).toNat)) s

/-! ## The functions -/

def addF (md : Mode) (t : FFmt) (x y : Nat) : Nat × Fl := t.add md (t.rd md.fzi x) (t.rd md.fzi y)

def subF (md : Mode) (t : FFmt) (x y : Nat) : Nat × Fl := t.add md (t.rd md.fzi x) (t.rd md.fzi y).neg

def mulF (md : Mode) (t : FFmt) (x y : Nat) : Nat × Fl := t.mul md (t.rd md.fzi x) (t.rd md.fzi y)

def fmaF (md : Mode) (t : FFmt) (x y z : Nat) : Nat × Fl :=
  t.fma md (t.rd md.fzi x) (t.rd md.fzi y) (t.rd md.fzi z)

/-- The order of two data that are no NaN; equal zeros compare equal. -/
def FV.lt (a b : FV) : Bool :=
  match a, b with
  | .inf x, .inf y => x && !y
  | .inf x, _ => x
  | _, .inf y => !y
  | .fin na ma ea, .fin nb mb eb =>
    let e := min ea eb
    decide (finInt na ma ea e < finInt nb mb eb e)
  | _, _ => false

def FV.negative : FV → Bool
  | .nan _ => false
  | .inf n => n
  | .fin n _ _ => n

/-- R152: `mx` for FMAX. No rounding occurs; FZO acts on a subnormal result. -/
def minMaxF (mx : Bool) (md : Mode) (t : FFmt) (x y : Nat) : Nat × Fl :=
  let a := t.rd md.fzi x
  let b := t.rd md.fzi y
  let fl := nanFlag a ||| nanFlag b
  let out := fun (v : FV) => let r := t.deliver ⟨0, md.fzo, md.fzi⟩ v; (r.1, r.2 ||| fl)
  match a.isNaN, b.isNaN with
  | true, true => (t.cnan, fl)
  | true, false => out b
  | false, true => out a
  | false, false =>
    let less := a.lt b || (!(b.lt a) && a.negative && !b.negative)
    out (if less == mx then b else a)

/-- R153. -/
def fcondHolds (c : FCond) (a b : FV) : Bool × Fl :=
  let un := a.isNaN || b.isNaN
  let quiet := nanFlag a ||| nanFlag b
  let eq := !un && !(a.lt b) && !(b.lt a)
  match c with
  | .eq => (eq, quiet)
  | .ne => (!eq, quiet)
  | .lt => (!un && a.lt b, flagIf un flIV)
  | .le => (!un && !(b.lt a), flagIf un flIV)
  | .un => (un, quiet)
  | .ord => (!un, quiet)

/-- The comparison of whole operands: the AND over the elements of a packed form. -/
def fcmpF (c : FCond) (md : Mode) (t : FFmt) (x y : Nat) : Nat × Fl :=
  let r := fcondHolds c (t.rd md.fzi x) (t.rd md.fzi y)
  (if r.1 then 1 else 0, r.2)

def allOnesIn (t : FTy) (r : Nat) : Bool :=
  match t with
  | .f32 | .f64 => r == 1
  | .f16x2 | .bf16x2 => r == 1 + 2 ^ 16

/-- R154: the class code. -/
def classF (md : Mode) (t : FFmt) (x : Nat) : Nat × Fl :=
  let k :=
    match t.rd md.fzi x with
    | .nan s => if s then 8 else 9
    | .inf n => if n then 0 else 7
    | .fin n m _ =>
      if m = 0 then (if n then 3 else 4)
      else if m < 2 ^ t.f then (if n then 2 else 5)
      else (if n then 1 else 6)
  (2 ^ k, 0)

/-- R155: 1/x. -/
def rcpF (md : Mode) (t : FFmt) (x : Nat) : Nat × Fl :=
  match t.rd md.fzi x with
  | .nan s => (t.cnan, nanFlag (.nan s))
  | .inf n => (t.zeroBits n, 0)
  | .fin n m e => if m = 0 then (t.infBits n, flDZ) else t.roundQuot md n 1 m (-e)

/-- R155: the square root. -/
def sqrtF (md : Mode) (t : FFmt) (x : Nat) : Nat × Fl :=
  match t.rd md.fzi x with
  | .nan s => (t.cnan, nanFlag (.nan s))
  | .inf n => if n then (t.cnan, flIV) else (t.infBits false, 0)
  | .fin n m e =>
    if m = 0 then (t.zeroBits n, 0)
    else if n then (t.cnan, flIV)
    else
      let (m, e) := if e % 2 = 0 then (m, e) else (2 * m, e - 1)
      let big := m * 2 ^ 400
      let r := natSqrt big
      t.round md false r (e / 2 - 200) (r * r != big)

/-- R155: 1/√x. -/
def rsqF (md : Mode) (t : FFmt) (x : Nat) : Nat × Fl :=
  match t.rd md.fzi x with
  | .nan s => (t.cnan, nanFlag (.nan s))
  | .inf n => if n then (t.cnan, flIV) else (t.zeroBits false, 0)
  | .fin n m e =>
    if m = 0 then (t.infBits n, flDZ)
    else if n then (t.cnan, flIV)
    else
      let (m, e) := if e % 2 = 0 then (m, e) else (2 * m, e - 1)
      let r := natSqrt (2 ^ 600 / m)
      t.round md false r (-(e / 2) - 300) (r * r * m != 2 ^ 600)

/-- R157: an integral value in the same format, never with NX. -/
def rndF (md : Mode) (t : FFmt) (x : Nat) : Nat × Fl :=
  match t.rd md.fzi x with
  | .nan s => (t.cnan, nanFlag (.nan s))
  | .inf n => (t.infBits n, 0)
  | .fin n m e =>
    let i := if e ≥ 0 then m * 2 ^ e.toNat else (roundShift md.rm n m (-e).toNat false).1
    ((t.round Mode.rne n i 0).1, 0)

/-- An exponent far beyond every format's range acts as any other such exponent. -/
def clampExp (n : Int) : Int := max (-20000) (min 20000 n)

/-- R158; a quiet NaN operand gives the canonical NaN, as R37 and R150 have it of every NaN result. DESIGN CHOICE, log 131. -/
def scaleF (n : Int) (md : Mode) (t : FFmt) (x : Nat) : Nat × Fl :=
  match t.rd md.fzi x with
  | .nan s => (t.cnan, nanFlag (.nan s))
  | .inf k => (t.infBits k, 0)
  | .fin k m e => t.round md k m (e + clampExp n)

/-- R158, R161, R164: the integer exponent B at a lane: I32 of a vector register, I64 of a uniform register. A literal of
a .F64 operation is taken whole (R72). DEDUCED, log 32. -/
def expLane (b : SrcB) (pair : Bool) (w : Wave) (pos : Nat × Nat) (l : Nat) : Int :=
  match b with
  | .reg (.v n bc) => (w.vreg (srcReg n bc false pos) l).toInt
  | .reg (.s n) => (w.sreg n.toNat).toInt
  | .imm i => i.toInt
  | .lit x => if pair then x.toInt else (x.setWidth 32 : Word).toInt

/-- The exponent of a uniform operation. DEDUCED, log 32. -/
def expUni (b : SrcB) (w : Wave) : Int := (b.uni immInt64 w).toInt

/-! ## The instructions -/

def execFadd (t : FTy) (o : Alu2) (s : State) : Host.Outcome State Fault Refusal := flt2 (.fadd t o) t o addF s

def execFsub (t : FTy) (o : Alu2) (s : State) : Host.Outcome State Fault Refusal := flt2 (.fsub t o) t o subF s

def execFmul (t : FTy) (o : Alu2) (s : State) : Host.Outcome State Fault Refusal := flt2 (.fmul t o) t o mulF s

def execFfma (t : FTy) (o : Alu3) (s : State) : Host.Outcome State Fault Refusal := flt3 (.ffma t o) t o fmaF s

def execFmin (t : FTy) (o : Alu2) (s : State) : Host.Outcome State Fault Refusal :=
  flt2 (.fmin t o) t o (minMaxF false) s

def execFmax (t : FTy) (o : Alu2) (s : State) : Host.Outcome State Fault Refusal :=
  flt2 (.fmax t o) t o (minMaxF true) s

/-- R153, with the widths of R146: at lane width when A or B is a vector register, otherwise once. -/
def execFcmp (t : FTy) (c : FCond) (o : Cmp2) (s : State) : Host.Outcome State Fault Refusal :=
  issue (.fcmp t c o) o.g noCause (onWave fun e w =>
    let md := modeOf e.leaf.fmt
    let narrow := o.a.isV || (o.b.isReg && !o.b.isS)
    let r := fun (l : Nat) =>
      if narrow then lift2 t (fcmpF c md) (srcBits t o.a w (0, 0) l) (srcBitsB t o.b w (0, 0) l)
      else lift2 t (fcmpF c md) (o.a.uni w).toNat (o.b.uni (immFloat t) w).toNat
    (w.predEff e.act o.d.toNat fun l => allOnesIn t (r l).1).orFlags (orAll ((lanesOf e.act).map fun l => (r l).2))) s

def execFclass (t : FTy) (o : Alu1) (s : State) : Host.Outcome State Fault Refusal := flt1 (.fclass t o) t o classF s

def execFrcp (t : FTy) (o : Alu1) (s : State) : Host.Outcome State Fault Refusal := flt1 (.frcp t o) t o rcpF s

def execFrsq (t : FTy) (o : Alu1) (s : State) : Host.Outcome State Fault Refusal := flt1 (.frsq t o) t o rsqF s

def execFsqrt (t : FTy) (o : Alu1) (s : State) : Host.Outcome State Fault Refusal := flt1 (.fsqrt t o) t o sqrtF s

def execFexp2 (o : Alu1) (s : State) : Host.Outcome State Fault Refusal := flt1 (.fexp2 o) .f32 o exp2F s

def execFlog2 (o : Alu1) (s : State) : Host.Outcome State Fault Refusal := flt1 (.flog2 o) .f32 o log2F s

def execFsin (o : Alu1) (s : State) : Host.Outcome State Fault Refusal := flt1 (.fsin o) .f32 o sinF s

def execFcos (o : Alu1) (s : State) : Host.Outcome State Fault Refusal := flt1 (.fcos o) .f32 o cosF s

def execFtanh (o : Alu1) (s : State) : Host.Outcome State Fault Refusal := flt1 (.ftanh o) .f32 o tanhF s

def execFrnd (t : FTy) (o : Alu1) (s : State) : Host.Outcome State Fault Refusal := flt1 (.frnd t o) t o rndF s

def execFscale (t : FTy) (o : Alu2) (s : State) : Host.Outcome State Fault Refusal :=
  issue (.fscale t o) o.g noCause (onWave fun e w =>
    let md := modeOf e.leaf.fmt
    w.fltEff e t o.d o.blk
      (fun pos l => lift1 t (scaleF (expLane o.b t.pair w pos l) md) (srcBits t o.a w pos l))
      (fun _ => lift1 t (scaleF (expUni o.b w) md) (o.a.uni w).toNat)) s

end Sys2Proof.Machine
end

