-- ==== Sys2Proof/Machine/Lane.lean ====
section
/-!
DEFINITION. Predicate instructions (spec/06_wave_arithmetic.md R165 to R167) and lane instructions (spec/07_wave_control.md R188
to R196, spec/02_number_formats.md R53).
-/

namespace Sys2Proof.Machine

/-- An instruction on the registers of its wave. -/
def perWave (i : Instr) (g : Guard) (f : Env → Wave → Wave) (s : State) : Host.Outcome State Fault Refusal :=
  issue i g noCause (onWave f) s

/-- R129, R188: a cross-lane operation, which a group may not issue. -/
def crossLane (i : Instr) (g : Guard) (f : Env → Wave → Wave) (s : State) : Host.Outcome State Fault Refusal :=
  issue i g groupCause (onWave f) s

/-! ## Predicates -/

def execPand (g : Guard) (d a b : PReg) (s : State) : Host.Outcome State Fault Refusal :=
  perWave (.pand g d a b) g (fun e w =>
    w.predEff e.act d.toNat fun l => (w.preg a.toNat).getLsbD l && (w.preg b.toNat).getLsbD l) s

def execPor (g : Guard) (d a b : PReg) (s : State) : Host.Outcome State Fault Refusal :=
  perWave (.por g d a b) g (fun e w =>
    w.predEff e.act d.toNat fun l => (w.preg a.toNat).getLsbD l || (w.preg b.toNat).getLsbD l) s

def execPxor (g : Guard) (d a b : PReg) (s : State) : Host.Outcome State Fault Refusal :=
  perWave (.pxor g d a b) g (fun e w =>
    w.predEff e.act d.toNat fun l => (w.preg a.toNat).getLsbD l != (w.preg b.toNat).getLsbD l) s

def execPnot (g : Guard) (d a : PReg) (s : State) : Host.Outcome State Fault Refusal :=
  perWave (.pnot g d a) g (fun e w => w.predEff e.act d.toNat fun l => !(w.preg a.toNat).getLsbD l) s

/-- R166: the predicate-to-uniform form is a cross-lane operation. -/
def execPmov (g : Guard) (k : PMovKind) (s : State) : Host.Outcome State Fault Refusal :=
  issue (.pmov g k) g (fun e s => match k with | .ps .. => groupCause e s | _ => []) (onWave fun e w =>
    match k with
    | .pp d a => w.predEff e.act d.toNat fun l => (w.preg a.toNat).getLsbD l
    | .sp d a => w.predEff e.act d.toNat fun l => (w.sreg a.toNat).getLsbD l
    | .ps d a => w.setS d.toNat ((w.preg a.toNat).setWidth 64)) s

def execPcnt (g : Guard) (d : SReg) (a : PReg) (s : State) : Host.Outcome State Fault Refusal :=
  crossLane (.pcnt g d a) g (fun e w =>
    w.setS d.toNat (BitVec.ofNat 64 (lanesOf (e.act &&& w.preg a.toNat)).length)) s

/-! ## Shuffles -/

/-- R190: the lane a shuffle names, when there is one. -/
def shflLane (k : ShflKind) (l n : Nat) : Option Nat :=
  match k with
  | .idx => some (n % 32)
  | .xor => some (l ^^^ (n % 32))
  | .up => if n ≤ l then some (l - n) else none
  | .dn => if l + n ≤ 31 then some (l + n) else none

/-- The source lane read, or the lane itself when the named one is inactive (R189). -/
def readLane (act : Mask) (l : Nat) : Option Nat → Nat
  | some j => if act.getLsbD j then j else l
  | none => l

def execShfl (k : ShflKind) (o : Alu2) (s : State) : Host.Outcome State Fault Refusal :=
  crossLane (.shfl k o) o.g (fun e w =>
    match o.d with
    | .v n => w.vecEff e.act n o.blk fun pos l =>
        (o.a.word w pos (readLane e.act l (shflLane k l (o.b.word immInt32 w pos l).toNat)), 0)
    | .s _ => w) s

/-- R191. -/
def execBcast (o : Alu2) (s : State) : Host.Outcome State Fault Refusal :=
  crossLane (.bcast o) o.g (fun e w =>
    match o.d with
    | .v n => w.vecEff e.act n o.blk fun pos l =>
        (o.a.word w pos (readLane e.act l (some ((o.b.word immInt32 w pos (lowestLane e.act)).toNat % 32))), 0)
    | .s _ => w) s

def execRfl (g : Guard) (d : SReg) (a : VReg) (bc : Bool) (s : State) : Host.Outcome State Fault Refusal :=
  crossLane (.rfl g d a bc) g (fun e w => w.setS d.toNat ((w.vreg a.toNat (lowestLane e.act)).setWidth 64)) s

/-- R193. -/
def execVote (g : Guard) (k : VoteKind) (a : PReg) (s : State) : Host.Outcome State Fault Refusal :=
  crossLane (.vote g k a) g (fun e w =>
    let q := e.act &&& w.preg a.toNat
    match k with
    | .any d => w.predEff e.act d.toNat fun _ => q != 0
    | .all d => w.predEff e.act d.toNat fun _ => q == e.act
    | .bal d => w.setS d.toNat (q.setWidth 64)) s

/-! ## Reductions and scans -/

/-- The combination of two values of an integer operation, exactly. -/
def redInt (op : RedOp) (x y : Int) : Int :=
  match op with
  | .iadd => x + y
  | .imin | .umin => min x y
  | _ => max x y

/-- One pairing or step of a floating-point operation (R52, R152). DEDUCED, log 30. -/
def redFloat (op : RedOp) (md : Mode) (x y : Nat) : Nat × Fl :=
  match op with
  | .fmin => minMaxF false md fp32 x y
  | .fmax => minMaxF true md fp32 x y
  | _ => addF md fp32 x y

def redUnsigned : RedOp → Bool
  | .umin | .umax => true
  | _ => false

def redIsFloat : RedOp → Bool
  | .fadd | .fmin | .fmax => true
  | _ => false

/-- One level of the tree of R53. -/
def redLevel (op : RedOp) (md : Mode) : List (Option Nat) → List (Option Nat) × Fl
  | some x :: some y :: r =>
    let z := redFloat op md x y
    let t := redLevel op md r
    (some z.1 :: t.1, z.2 ||| t.2)
  | some x :: none :: r => let t := redLevel op md r; (some x :: t.1, t.2)
  | none :: y :: r => let t := redLevel op md r; (y :: t.1, t.2)
  | r => (r, 0)

/-- The five levels. -/
def redTree (op : RedOp) (md : Mode) : Nat → List (Option Nat) → Option Nat × Fl
  | 0, l => ((l.head?).getD none, 0)
  | k + 1, l =>
    let a := redLevel op md l
    let b := redTree op md k a.1
    (b.1, a.2 ||| b.2)

/-- R53: a lane's value as an operand, and the value delivered as a result. DEDUCED, log 30. -/
def redOperand (md : Mode) (x : Nat) : Nat × Fl := fp32.deliver Mode.rne (fp32.rd md.fzi x)

def redResult (md : Mode) (x : Nat) : Nat × Fl := fp32.deliver ⟨0, md.fzo, false⟩ (fp32.dec x)

/-- R194. -/
def redValue (op : RedOp) (md : Mode) (act : Mask) (a : Nat → Word) : DWord × Fl :=
  if redIsFloat op then
    let ops := (lanesOf act).map fun l => redOperand md (a l).toNat
    let t := redTree op md 5 ((upto 32).map fun l => if act.getLsbD l then some (redOperand md (a l).toNat).1 else none)
    let r := redResult md (t.1.getD 0)
    (BitVec.ofNat 64 r.1, orAll (ops.map Prod.snd) ||| t.2 ||| r.2)
  else
    let vals := (lanesOf act).map fun l => rdSigned (redUnsigned op) (a l)
    match vals with
    | [] => (0, 0)
    | x :: r => (BitVec.ofInt 64 (r.foldl (redInt op) x), 0)

def execRedw (op : RedOp) (g : Guard) (d : SReg) (a : VReg) (bc : Bool) (s : State) : Host.Outcome State Fault Refusal :=
  crossLane (.redw op g d a bc) g (fun e w =>
    w.uniEff d (redValue op (modeOf e.leaf.fmt) e.act fun l => w.vreg a.toNat l)) s

/-- R195, R53: the values of an integer scan from the running value. -/
def scanInt (op : RedOp) (acc : Option Int) (a : Nat → Int) : List Nat → List (Nat × Word)
  | [] => []
  | l :: r =>
    let x := match acc with | some y => redInt op y (a l) | none => a l
    (l, BitVec.ofInt 32 x) :: scanInt op (some x) a r

/-- The values and flags of a floating-point scan. The running value is the first lane's own: log 22. -/
def scanFloat (op : RedOp) (md : Mode) (acc : Option Nat) (a : Nat → Nat) : List Nat → List (Nat × Word) × Fl
  | [] => ([], 0)
  | l :: r =>
    let v := redOperand md (a l)
    let x := match acc with | some y => redFloat op md y v.1 | none => (v.1, 0)
    let out := redResult md x.1
    let t := scanFloat op md (some x.1) a r
    ((l, BitVec.ofNat 32 out.1) :: t.1, v.2 ||| x.2 ||| out.2 ||| t.2)

/-- DEDUCED, log 22. -/
def execScanw (op : RedOp) (o : Alu1) (s : State) : Host.Outcome State Fault Refusal :=
  crossLane (.scanw op o) o.g (fun e w =>
    match o.d with
    | .s _ => w
    | .v n =>
      let at_ := fun (pos : Nat × Nat) =>
        if redIsFloat op then
          scanFloat op (modeOf e.leaf.fmt) none (fun l => (o.a.word w pos l).toNat) (lanesOf e.act)
        else (scanInt op none (fun l => rdSigned (redUnsigned op) (o.a.word w pos l)) (lanesOf e.act), 0)
      let rs := o.blk.positions.map fun pos => (regAt n false pos, at_ pos)
      (w.setLanes (rs.flatMap fun r => r.2.1.map fun x => (r.1, x.1, x.2))).orFlags (orAll (rs.map fun r => r.2.2))) s

/-- R196: no lower active lane holds an equal value. -/
def execMatchw (g : Guard) (d : PReg) (a : VReg) (bc : Bool) (s : State) : Host.Outcome State Fault Refusal :=
  crossLane (.matchw g d a bc) g (fun e w =>
    w.predEff e.act d.toNat fun l =>
      (lanesOf e.act).all fun k => !(decide (k < l)) || w.vreg a.toNat k != w.vreg a.toNat l) s

end Sys2Proof.Machine
end

