-- ==== Sys2Proof/Machine/Area.lean ====
section
/-!
DEFINITION. The save area's layout (spec/17_package.md R413, Tables 17.12 to 17.14): its sizes, its bytes by an address of the launch's
context, path-table entries (spec/05_wave_state.md Table 5.4), and the spill of a path table into it (R117).
-/

namespace Sys2Proof.Machine

/-! ## Sizes (R413) -/

def up256 (n : Nat) : Nat := (n + 255) / 256 * 256

/-- A team's part with room for `n` residuals. -/
def teamPart (r : LaunchRec) (n : Nat) : Nat := 64 + 4104 * r.hregs + 32 * n + r.spad + r.eff

def waveImage (r : LaunchRec) : Nat := 15344 + 64 * r.ug + 1024 * r.vg + 6144 * r.tiles + 8256 * r.accs

/-- A team with its wave images. -/
def teamSpan (r : LaunchRec) : Nat := up256 (teamPart r (62 * r.w)) + r.w * up256 (waveImage r)

def teamsOf (r : LaunchRec) : Nat := r.c * r.d * r.t

def dirSize (r : LaunchRec) : Nat := up256 (512 + 16 * teamsOf r)

def areaSize (r : LaunchRec) : Nat := dirSize r + teamsOf r * teamSpan r

/-- Table 17.12: the place of a team in the directory. -/
def teamIdx (r : LaunchRec) (ixd ixc ixt : Nat) : Nat := (ixd * r.c + ixc) * r.t + ixt

/-- The offset of a team's block. -/
def blockOff (r : LaunchRec) (k : Nat) : Nat := dirSize r + k * teamSpan r

/-- The offset of a wave's image from its team's block, when the block holds `n` residuals. -/
def imageOff (r : LaunchRec) (n ixw : Nat) : Nat := up256 (teamPart r n) + ixw * up256 (waveImage r)

/-! ## Bytes of the area -/

/-- Bytes written from an address of the launch's context upward, one piece of a line at a time; the first argument bounds
the pieces. A piece whose translation has gone since LAUNCH checked it is dropped. DEDUCED, log 67. -/
def State.areaPut (s : State) (ctx : Nat) : Nat → Nat → List Byte → State
  | 0, _, _ => s
  | k + 1, va, bs =>
    if bs.isEmpty then s
    else
      let n := 64 - va % 64
      let s := match s.recordPlace ctx .write va with
        | some p => s.homeWrite p (bs.take n)
        | none => s
      State.areaPut s ctx k (va + n) (bs.drop n)

def State.put (s : State) (ctx va : Nat) (bs : List Byte) : State := s.areaPut ctx (bs.length / 64 + 2) va bs

def State.areaByte (s : State) (ctx va : Nat) : Byte :=
  match s.recordPlace ctx .read va with
  | some p => s.placeByte p
  | none => 0

/-- R377: `len` bytes of the area are read; the first argument bounds the pieces. -/
def State.areaTouch (s : State) (ctx : Nat) : Nat → Nat → Nat → State
  | 0, _, _ => s
  | k + 1, va, len =>
    if len = 0 then s
    else
      let n := Nat.min len (64 - va % 64)
      let s := match s.recordPlace ctx .read va with
        | some p => s.touch p n
        | none => s
      State.areaTouch s ctx k (va + n) (len - n)

def State.areaBytes (s : State) (ctx va n : Nat) : List Byte := (upto n).map fun i => s.areaByte ctx (va + i)

def State.areaNat (s : State) (ctx va n : Nat) : Nat := natOfBytes (s.areaBytes ctx va n)

/-! ## Path-table entries (Table 5.4) -/

/-- An entry's fields. -/
structure PathEntry where
  mask : Nat
  fmt  : Nat
  kind : Nat
  arm  : Nat
  pos  : Nat
  join : Nat
  pc   : Nat
  deriving DecidableEq, Repr

/-- Its 24 bytes. -/
def PathEntry.bytes (e : PathEntry) : List Byte :=
  bytesLE 24 (e.pc + e.join * 2 ^ 64 + e.pos * 2 ^ 128 + e.arm * 2 ^ 143 + e.kind * 2 ^ 144 + e.fmt * 2 ^ 146 + e.mask * 2 ^ 160)

def PathEntry.ofNat (x : Nat) : PathEntry :=
  ⟨bitsN x 191 160, bitsN x 159 146, bitsN x 145 144, bitsN x 143 143, bitsN x 137 128, bitsN x 127 64, bitsN x 63 0⟩

def kindNo : LeafKind → Nat
  | .running => 0
  | .pending => 1
  | .yielded => 2

def leafEntry (arm join : Nat) (l : Leaf) : PathEntry :=
  ⟨l.mask.toNat, l.fmt.toNat, kindNo l.kind, arm, l.pos, join, l.pc.toNat⟩

def nodeEntry (arm : Nat) (n : Node) : PathEntry := ⟨n.mask.toNat, n.fmt.toNat, 3, arm, 0, n.join.toNat, 0⟩

/-- The entries of one live slot's tree that stand on the stack, in depth-first order: nodes and leaves that do not run.
The manual gives the entries and no order among them. DEDUCED, log 68. -/
def PTree.entries (arm join : Nat) : PTree → List PathEntry
  | .empty => []
  | .leaf l => if isRunning l then [] else [leafEntry arm join l]
  | .node n a b => nodeEntry arm n :: (a.entries arm n.join.toNat ++ b.entries arm n.join.toNat)

/-- The entry of the running leaf, with the JOIN of its parent. -/
def PTree.runEntry (arm join : Nat) : PTree → Option PathEntry
  | .empty => none
  | .leaf l => if isRunning l then some (leafEntry arm join l) else none
  | .node n a b => (a.runEntry arm n.join.toNat).orElse fun _ => b.runEntry arm n.join.toNat

def rootJoin (w : Wave) : Nat := (w.root.map fun n => n.join.toNat).getD 0

/-- DEDUCED, log 68. -/
def Wave.entries (w : Wave) : List PathEntry := w.slotA.entries 0 (rootJoin w) ++ w.slotB.entries 1 (rootJoin w)

/-! ## The spill (R117) -/

/-- The same entries, each with its age as the divergences give it: a node's before the leaf pushed with it, and both before
those of a divergence of either arm. -/
def PTree.aged (arm join d : Nat) : PTree → List (Nat × PathEntry)
  | .empty => []
  | .leaf l => if isRunning l then [] else [(2 * d - 1, leafEntry arm join l)]
  | .node n a b => (2 * d, nodeEntry arm n) :: (a.aged arm n.join.toNat (d + 1) ++ b.aged arm n.join.toNat (d + 1))

def insertAged (x : Nat × PathEntry) : List (Nat × PathEntry) → List (Nat × PathEntry)
  | [] => [x]
  | y :: r => if x.1 ≤ y.1 then x :: y :: r else y :: insertAged x r

/-- R117: the entries of a wave, the oldest first. Among entries of equal depth the manual says no order: slot A's, in leaf
order, stand first. DESIGN CHOICE, log 122. -/
def Wave.byAge (w : Wave) : List PathEntry :=
  ((w.slotA.aged 0 (rootJoin w) 0 ++ w.slotB.aged 1 (rootJoin w) 0).foldr insertAged []).map Prod.snd

/-- R117, R222: with a Stable of 0 granules, the oldest entries of a wave's path table, those beyond 30, stand in its part of the
save area, when its launch has one. DESIGN CHOICE, log 122. -/
def State.spill (s : State) (k : Nat) : State :=
  let w := s.wave k
  let m := s.team w.team
  let r := s.recdOf k
  let es := w.byAge
  if r.split.stbl != 0 || r.save = 0 || es.length ≤ 30 then s
  else
    let image := r.save + blockOff r (teamIdx r m.ixd m.ixc m.ixt) + imageOff r 0 w.ixw
    s.put r.ctx (image + (320 + 64 * r.ug + 1024 * r.vg + 6144 * r.tiles + 8256 * r.accs))
      ((es.take (es.length - 30)).flatMap PathEntry.bytes)

end Sys2Proof.Machine
end

