-- ==== Sys2Proof/Machine/Fetch.lean ====
section
/-!
DEFINITION. Fetching words and headers (spec/03_encoding.md R59 to R66, R82), entering a block (R61, 05 R125), and the program
that `State.withFetchWord` places.
-/

namespace Sys2Proof.Machine

/-- The place of a fetched word, or 0x10, 0x11. An address in a window has no translation: DEDUCED, log 20. -/
def State.fetchPlace (s : State) (w a : Nat) : Except Nat Place :=
  if inWindows a then .error 0x10
  else s.xlate (s.coreOf w) (s.ctxNo w) (s.privileged w) .fetch a (s.draw 0)

/-- R59: the little-endian word at a code address. -/
def State.fetch (s : State) (w : Nat) (a : DWord) : Except Nat DWord :=
  match s.fetchPlace w a.toNat with
  | .error c => .error c
  | .ok p => .ok (BitVec.ofNat 64 (s.placeRead p 8))

/-- Table 3.2, but for its last row, for a header word met by wave `w`. -/
def State.headerOk (s : State) (w : Nat) (h : DWord) : Bool :=
  let r := s.recdOf w
  (Header.ofWord h).ok r.vg r.ug

/-- R82: a transfer to `a` traps with 0x1A. A target that cannot be fetched transfers, and faults there. -/
def State.targetBad (s : State) (w : Nat) (a : DWord) : Bool :=
  a.toNat % 8 != 0 ||
    match s.fetch w a with
    | .error _ => false
    | .ok h => !(s.headerOk w h)

/-- R61: the header's fields take effect and the first instruction word follows. R125: REC counts the entry into a block
with RGP set by a wave that is not in a group, unless the launch has ZH-7 merge mode. -/
def State.enterBlock (s : State) (p : PathRef) (h : DWord) : State :=
  let s := s.updLeaf p fun l => { l with pc := l.pc + 8, pos := 1, hdr := h, entered := s.nextId }
  if (Header.ofWord h).rgp && (s.groupOf p).isNone && !(s.recdOf p.wave).merge then
    s.updWave p.wave fun w => { w with recCount := w.recCount + 1 }
  else s

/-- A cause of the word at a path's PC, raised in every home wave of the path. Its lanes are those active under the guard `g` of
an instruction word, in the waves that have one (R198), and the whole path's where no instruction word was read. -/
def State.wordCause (s : State) (p : PathRef) (l : Leaf) (code tval : Nat) (g : Guard) : State :=
  let all := ((s.homes p).filter fun h => l.mask &&& h.2 != 0).map fun h => (h.1, g.active (s.wave h.1) (l.mask &&& h.2))
  let on := all.filter fun h => h.2 != 0
  s.raiseOrHold p ((if on.isEmpty then all else on).map fun h => ⟨h.1, code, h.2, tval⟩)

/-- What stands at a path's PC inside its block: an instruction, or a cause under the guard of its word. -/
inductive Fetched where
  | instr (i : Instr)
  | cause (code tval : Nat) (g : Guard)
  deriving DecidableEq, Repr

/-- R78, R60, R64: fetch and decode the word at the leaf's PC, with its literal word. A word that is no instruction traps
with 0x18 before its literal is looked at. DEDUCED, log 33. DEDUCED, log 41. -/
def State.fetchInstr (s : State) (p : PathRef) (l : Leaf) : Fetched :=
  match s.fetch p.wave l.pc with
  | .error c => .cause c l.pc.toNat Guard.always
  | .ok w =>
    let g := (Fields.unpack w).guard
    match decode w (some 0) with
    | .error _ => .cause 0x18 w.toNat g
    | .ok i =>
      if (Fields.unpack w).hasLiteral then
        match s.decodeCause p l i with
        | some c => .cause c w.toNat g
        | none =>
          if l.pos ≥ (Header.ofWord l.hdr).length then .cause 0x1A l.header.toNat g
          else
            match s.fetch p.wave (l.pc + 8) with
            | .error c => .cause c (l.pc + 8).toNat g
            | .ok x =>
              match decode w (some x) with
              | .error _ => .cause 0x18 w.toNat g
              | .ok j => .instr j
      else .instr i

/-! ## The program that `withFetchWord` places -/

/-- Local physical address of the placed block. -/
def probeAddr : Nat := 0x1000

/-- A block header of LENGTH `n` with the greatest high-water marks. -/
def probeHeader (n : Nat) : Nat := 0xF8 * 2 ^ 56 + n * 2 ^ 46 + 255 * 2 ^ 38 + 63 * 2 ^ 32

/-- The launch whose wave runs the placed words: context 0 (the privileged context), every register class at its
greatest allocation, concurrent lanes, waves and teams, one wave. -/
def probeRecord : LaunchRec where
  merge := false
  phased := false
  ctx := 0
  prio := 0
  laneClass := 2
  waveClass := 2
  teamClass := 2
  entry := BitVec.ofNat 64 probeAddr
  w := 1
  c := 1
  d := 1
  t := 1
  g := 1
  vg := 32
  ug := 8
  tiles := 16
  accs := 16
  hregs := 8
  split := Split.default
  spad := 0x10000
  eff := 0x10000
  n := 0
  ns := 0
  ixg := 0
  scheds := []
  deps := []
  done := 0
  args := [0, 0, 0, 0]
  save := 0
  stream := 0

def probeLaunch : Launch :=
  { Launch.blank with recd := probeRecord, st := 2, dies := [0], clusters := [[0]], nextTeam := [(0, 1)] }

def probeTeam (l : Nat) : Team :=
  { Team.blank with
    launch := l, placed := true, spadLen := 0x10000, effLen := 0x10000
    dir := freshDir, trees := freshTrees 8 }

def probeWave (t : Nat) (l : Leaf) : Wave :=
  { Wave.blank t 0 0 with slot := some 0, cond := .resident, started := true, slotA := .leaf l }

/-- The block with the words `ws` in device memory, and a resident wave of a launch of context 0 standing at its first
instruction word, granted to issue next. DESIGN CHOICE, log 21. -/
def State.placeProgram (s : State) (ws : List DWord) : State :=
  let h : DWord := BitVec.ofNat 64 (probeHeader ws.length)
  let bytes := (h :: ws).flatMap bytesOfWord
  let n := s.nextId
  let e := s.launches.freeFrom 0
  let l : Leaf := ⟨BitVec.allOnes 32, 0, .running, BitVec.ofNat 64 (probeAddr + 8), 1, h, .idle, false, n + 1, none, none, false⟩
  let s := s.homeWrite (devPlace probeAddr) bytes
  { s with
    launches := s.launches.put e probeLaunch
    teams := s.teams.put n (probeTeam e)
    waves := s.waves.put n (probeWave n l)
    nextId := n + 1
    agenda := []
    held := none
    cur := none
    rot := []
    grant := some ⟨n, .a⟩ }

end Sys2Proof.Machine
end

