-- ==== Sys2Proof/Machine/Regroup.lean ====
section
/-!
DEFINITION. Divergence (spec/05_wave_state.md R118, R120), switches of the running leaf (R122 to R124) and native regrouping
(R125 to R127, R130).
-/

namespace Sys2Proof.Machine

/-! ## Divergence -/

/-- R118, R213: a converged wave's path becomes two, in slots A and B, under the root node; neither has issued since. -/
def Wave.diverge (w : Wave) (taken other : Mask) (fmt : BitVec 14) (target next join : DWord) (fair : Nat) : Wave :=
  { w with
    root := some ⟨taken ||| other, fmt, join, false⟩
    slotA := .leaf (Leaf.atHeader taken fmt .running target)
    slotB := .leaf (Leaf.atHeader other fmt .running next)
    lastSlot := none
    fairA := fair
    fairB := fair
    deferA := false
    deferB := false }

/-- R120: the running leaf becomes a node with the taken leaf, running, and the other leaf, pending. -/
def PTree.split (taken other : Mask) (target next join : DWord) (t : PTree) : PTree :=
  match t.runIdx with
  | none => t
  | some k => t.modify k fun l =>
      .node ⟨l.mask, l.fmt, join, false⟩ (.leaf (Leaf.atHeader taken l.fmt .running target))
        (.leaf (Leaf.atHeader other l.fmt .pending next))

/-- The path is the only path of a converged wave, and no group (R118). DEDUCED, log 23. -/
def State.onlyPath (s : State) (p : PathRef) : Bool :=
  (s.wave p.wave).converged && p.slot == .a && (s.groupOf p).isNone

/-- R117, R120: entries a serialised divergence needs. -/
def State.tableFull (s : State) (p : PathRef) : Bool :=
  !(s.onlyPath p) && decide ((s.wave p.wave).depth + 2 > 254)

/-- The divergence of a path that enters no window; entries beyond 30 are spilled (R117). DEDUCED, log 23. -/
def State.divergePath (s : State) (p : PathRef) (l : Leaf) (taken other : Mask) (target next : DWord) : State :=
  let fair := (s.ctxOf p.wave).fairness
  if s.onlyPath p then s.updWave p.wave fun w => w.diverge taken other l.fmt target next l.rcv fair
  else
    (s.updWave p.wave fun w =>
      let w := w.setTree p.slot ((w.tree p.slot).split taken other target next l.rcv)
      match p.slot with
      | .a => { w with fairA := fair, deferA := false }
      | .b => { w with fairB := fair, deferB := false }).spill p.wave

/-! ## Arrival windows -/

/-- A candidate of a window: its wave, its lanes, its wave's REC and its path's FMT. -/
structure GCand where
  wave : Nat
  mask : Mask
  recCount : BitVec 8
  fmt  : BitVec 14
  deriving DecidableEq, Repr

/-- A group as it grows. -/
structure GForm where
  mask : Mask
  recCount : BitVec 8
  fmt  : BitVec 14
  homes : List (Nat × Mask)
  deriving DecidableEq, Repr

/-- R127: the first group of the arm that the candidate may join, or a new one. -/
def placeCand (c : GCand) : List GForm → List GForm
  | [] => [⟨c.mask, c.recCount, c.fmt, [(c.wave, c.mask)]⟩]
  | g :: r =>
    if g.mask &&& c.mask == 0 && g.recCount == c.recCount && g.fmt == c.fmt then
      { g with mask := g.mask ||| c.mask, homes := g.homes ++ [(c.wave, c.mask)] } :: r
    else g :: placeCand c r

def formGroups (cs : List GCand) : List GForm := cs.foldl (fun gs c => if c.mask == 0 then gs else placeCand c gs) []

/-- The waves of which a candidate shares a group with another wave's. -/
def sharing (gs : List GForm) : List Nat :=
  gs.flatMap fun g => if g.homes.length ≥ 2 then g.homes.map Prod.fst else []

/-- Insert a wave's arrival in ascending wave index. -/
def insertArrival (ixw : Nat → Nat) (x : Nat × Mask × Mask) : List (Nat × Mask × Mask) → List (Nat × Mask × Mask)
  | [] => [x]
  | y :: r => if ixw x.1 < ixw y.1 then x :: y :: r else y :: insertArrival ixw x r

/-- A group takes its place in its lead wave's slot. -/
def State.installGroup (s : State) (close : Nat) (slot : Slot) (join pc : DWord) (g : GForm) : State :=
  match g.homes.head? with
  | none => s
  | some lead =>
    let fair := (s.ctxOf lead.1).fairness
    let s := s.updWave lead.1 fun w =>
      let w := w.setTree slot (.leaf (Leaf.atHeader g.mask g.fmt .running pc))
      match slot with
      | .a => { w with fairA := fair, deferA := false }
      | .b => { w with fairB := fair, deferB := false }
    { s with groups := s.groups ++ [⟨close, lead.1, slot, join, g.homes⟩] }

/-- R127: the window closes and its waves are grouped, or diverge by themselves. -/
def State.closeWindow (s : State) (r : RWindow) : State :=
  let s := { s with regroup := s.regroup.filter fun x => !(x.team == r.team && x.part == r.part && x.brd == r.brd) }
  let leafOf := fun (k : Nat) => ((s.wave k).slotA.running).getD (Leaf.atHeader 0 0 .running 0)
  let cand := fun (k : Nat) (m : Mask) => (⟨k, m, (s.wave k).recCount, (leafOf k).fmt⟩ : GCand)
  let taken := formGroups (r.arrived.map fun a => cand a.1 a.2.1)
  let other := formGroups (r.arrived.map fun a => cand a.1 a.2.2)
  let shared := sharing taken ++ sharing other
  let close := s.closes
  let s := { s with closes := s.closes + 1 }
  let s := r.arrived.foldl (fun s a =>
    let l := leafOf a.1
    let fair := (s.ctxOf a.1).fairness
    s.updWave a.1 fun w =>
      if shared.contains a.1 then
        { w with
          slotA := .empty, slotB := .empty, root := none, resv := [], lastSlot := none
          region := some ⟨r.join, a.2.1 ||| a.2.2, l.fmt, 0, close⟩ }
      else w.diverge a.2.1 a.2.2 l.fmt r.takenPc r.otherPc r.join fair) s
  let keep := fun (g : GForm) => g.homes.any fun h => shared.contains h.1
  let s := (taken.filter keep).foldl (fun s g => s.installGroup close .a r.join r.takenPc g) s
  let s := (other.filter keep).foldl (fun s g => s.installGroup close .b r.join r.otherPc g) s
  -- the BRD has completed: a single step is due (19 Table 19.1), before any path parks
  let step := (r.arrived.head?.map fun a => (s.ctxOf a.1).stepOn).getD false
  if step then
    (r.arrived.foldl (fun s a =>
      match s.leafAt ⟨a.1, .a⟩ with
      | some l => s.deliver ⟨a.1, .a⟩ 0x52 l.mask 0 false false
      | none => s) (s.dissolveTrees close)).settleWaves (r.arrived.map Prod.fst)
  else r.arrived.foldl (fun s a => (s.moved ⟨a.1, .a⟩ 0).moved ⟨a.1, .b⟩ 0) s

/-- R126: every wave of the team resident in the partition and not exited has arrived; a wave in the Paddock counts as resident.
DESIGN CHOICE, log 141. -/
def State.windowFull (s : State) (r : RWindow) : Bool :=
  s.waves.all fun (k, w) =>
    w.team != r.team || w.part != r.part || w.cond != .resident || r.arrived.any fun a => a.1 == k

def windowKey (team part : Nat) (brd : DWord) (r : RWindow) : Bool := r.team == team && r.part == part && r.brd == brd

/-- R126: RGWIN cycles have passed since the window opened. -/
def State.windowOver (s : State) (r : RWindow) : Bool :=
  let rgwin := ((r.arrived.head?).map fun a => (s.ctxOf a.1).rgwin).getD 0
  decide (r.opened + rgwin ≤ s.cycle)

/-- R126: a window of this key whose time is over has closed before the arrival. -/
def State.closeOver (s : State) (team part : Nat) (brd : DWord) : State :=
  match s.regroup.find? (windowKey team part brd) with
  | some r => if s.windowOver r then s.closeWindow r else s
  | none => s

/-- R126: a converged wave's splitting BRD of a regroupable block arrives at its window, or opens one. -/
def State.arriveWindow (s : State) (p : PathRef) (l : Leaf) (taken other : Mask) (target next : DWord) : State :=
  let w := s.wave p.wave
  let s := s.closeOver w.team w.part l.pc
  let mine : RWindow := ⟨w.team, s.coreOf p.wave, w.part, l.pc, l.rcv, s.cycle, [(p.wave, taken, other)], target, next⟩
  let s' := s.updLeaf p fun l => { l with wait := .window }
  let joined : RWindow :=
    match s.regroup.find? (windowKey w.team w.part l.pc) with
    | some r => { r with arrived := insertArrival (fun k => (s.wave k).ixw) (p.wave, taken, other) r.arrived }
    | none => mine
  let isOpen := (s.regroup.find? (windowKey w.team w.part l.pc)).isSome
  let four := (s.regroup.filter fun r => r.core == mine.core && r.part == w.part).length ≥ 4
  if (!isOpen && four) || (s.ctxOf p.wave).rgwin = 0 || s.windowFull joined then s'.closeWindow joined
  else
    { s' with regroup := (s'.regroup.filter fun r => !(windowKey w.team w.part l.pc r)) ++ [joined] }

/-- R130: every lane that the wave brought has parked or exited, and no group that it leads holds a lane. -/
def State.regionDone (s : State) (k : Nat) : Bool :=
  let w := s.wave k
  match w.region with
  | none => false
  | some r => r.mask &&& ~~~r.parked == 0 && w.slotA == .empty && w.slotB == .empty

/-- R130: the wave resumes as one path at the region's reconvergence header, or ends when all its lanes have exited. -/
def State.resumeRegion (s : State) (k : Nat) : State :=
  if s.regionDone k then
    let fair := (s.ctxOf k).fairness
    let s := s.updWave k fun w =>
      match w.region with
      | none => w
      | some r =>
        let w := { w with region := none, fairA := fair, deferA := false, deferB := false }
        if r.mask = 0 then w.checkEnd
        else { w with slotA := .leaf (Leaf.atHeader r.mask r.fmt .running r.join) }
    { s with groups := s.groups.filter fun g => !(g.lead == k) }
  else s

end Sys2Proof.Machine
end

