-- ==== Sys2Proof/Machine/Control.lean ====
section
/-!
DEFINITION. Control and wait instructions (spec/07_wave_control.md R169 to R187, spec/01_work_and_progress.md R25 to R29).
-/

namespace Sys2Proof.Machine

/-! ## Branches -/

/-- R81: the address of a target. -/
def targetAddr (t : Target) (l : Leaf) : DWord :=
  match t with
  | .imm i => l.pc + 8 * (i.signExtend 64)
  | .lit x => x

/-- R82, R490: the cause of a transfer to `a` in one home wave. -/
def targetCause (a : DWord) (e : Env) (s : State) : List Cause :=
  causeIf (s.targetBad e.wave a) (whole e 0x1A a.toNat)

/-- The active lanes over all home waves. -/
def allAct (envs : List Env) : Mask := envs.foldl (fun m e => m ||| e.act) 0

/-- R171. -/
def execBra (g : Guard) (t : Target) (s : State) : Host.Outcome State Fault Refusal :=
  issueWith (.bra g t) g false (fun e s => targetCause (targetAddr t e.leaf) e s) noWait
    (fun p envs s =>
      match envs.head? with
      | some e => s.jump p (targetAddr t e.leaf)
      | none => s) noCause s

/-- The path's lanes all satisfy the guard: what one home wave sees. The whole path's answer is the conjunction. -/
def State.guardAll (s : State) (p : PathRef) (l : Leaf) (g : Guard) : Bool :=
  (s.homes p).all fun h => g.active (s.wave h.1) (l.mask &&& h.2) == l.mask &&& h.2

def execBru (g : Guard) (t : Target) (s : State) : Host.Outcome State Fault Refusal :=
  let i := Instr.bru g t
  issueWith i g true
    (fun e s => if s.guardAll e.ref e.leaf g then targetCause (targetAddr t e.leaf) e s else []) noWait
    (fun p envs s =>
      match envs.head? with
      | some e => if s.guardAll p e.leaf g then s.jump p (targetAddr t e.leaf) else s.advance p i
      | none => s) noCause s

/-- R171, R173, R117, R66: the causes of a splitting or a whole BRD. A splitting one with a bad target and a bad RCV names the target in
TVAL, and an RCV header that cannot be fetched raises nothing at the branch. DESIGN CHOICE, log 142. -/
def brdCauses (g : Guard) (t : Target) (e : Env) (s : State) : List Cause :=
  let a := targetAddr t e.leaf
  let all := s.guardAll e.ref e.leaf g
  let c := ((s.homes e.ref).map fun h => g.active (s.wave h.1) (e.leaf.mask &&& h.2)).foldl (fun m x => m ||| x) 0
  let whole := fun (code tval : Nat) => (⟨e.wave, code, e.mine, tval⟩ : Cause)
  if all then causeIf (s.targetBad e.wave a) (whole 0x1A a.toNat)
  else if c == 0 then []
  else
    causeIf (s.tableFull e.ref) (whole 0x18 e.word) ++
      causeIf (s.targetBad e.wave a) (whole 0x1A a.toNat) ++
      (if (Header.ofWord e.leaf.hdr).rcv == 0 then [whole 0x1A e.leaf.header.toNat]
      else causeIf (s.targetBad e.wave e.leaf.rcv) (whole 0x1A e.leaf.rcv.toNat))

/-- R173: a splitting BRD of a block with RGP set, by a converged wave, enters the arrival window. The window that a collecting wave
forms by itself closes at once (R333), so that it diverges alone (R127). DEDUCED, log 106. -/
def State.entersWindow (s : State) (p : PathRef) (l : Leaf) : Bool :=
  (Header.ofWord l.hdr).rgp && s.onlyPath p && !(s.recdOf p.wave).merge && !(s.wave p.wave).collAct

def execBrd (g : Guard) (t : Target) (s : State) : Host.Outcome State Fault Refusal :=
  issueWith (.brd g t) g true (brdCauses g t) noWait
    (fun p envs s =>
      match envs.head? with
      | none => s
      | some e =>
        let l := e.leaf
        let c := allAct envs
        let a := targetAddr t l
        if c = l.mask then s.jump p a
        else if c = 0 then s.jump p l.nextHdr
        else if s.entersWindow p l then s.arriveWindow p l c (l.mask &&& ~~~c) a l.nextHdr
        else s.divergePath p l c (l.mask &&& ~~~c) a l.nextHdr) noCause s

/-- R128: the addresses that the home waves with an active lane supply differ. DEDUCED, log 108. -/
def State.targetsDiffer (s : State) (e : Env) (g : Guard) (a : SReg) : Bool :=
  (s.homes e.ref).any fun h =>
    g.active (s.wave h.1) (e.leaf.mask &&& h.2) != 0 && (s.wave h.1).sreg a.toNat != (s.wave e.wave).sreg a.toNat

/-- R174, R128: the causes of BRX and RET. -/
def indirectCauses (g : Guard) (a : SReg) (e : Env) (s : State) : List Cause :=
  targetCause ((s.wave e.wave).sreg a.toNat) e s ++ causeIf (s.targetsDiffer e g a) (whole e 0x21 e.word)

/-- The whole path goes to the address in a register. DEDUCED, log 108. -/
def indirectAct (a : SReg) (p : PathRef) (envs : List Env) (s : State) : State :=
  match envs.head? with
  | some e => s.jump p ((s.wave e.wave).sreg a.toNat)
  | none => s

def execBrx (g : Guard) (a : SReg) (s : State) : Host.Outcome State Fault Refusal :=
  issueWith (.brx g a) g false (indirectCauses g a) noWait (indirectAct a) noCause s

def execRet (g : Guard) (a : SReg) (s : State) : Host.Outcome State Fault Refusal :=
  issueWith (.ret g a) g false (indirectCauses g a) noWait (indirectAct a) noCause s

/-- R175: the link is written and the path transfers, in every home wave with an active lane. -/
def execCall (g : Guard) (d : SReg) (t : Target) (s : State) : Host.Outcome State Fault Refusal :=
  issueWith (.call g d t) g false (fun e s => targetCause (targetAddr t e.leaf) e s) noWait
    (fun p envs s =>
      let s := envs.foldl (fun s e => s.updWave e.wave fun w => w.setS d.toNat e.leaf.nextHdr) s
      match envs.head? with
      | some e => s.jump p (targetAddr t e.leaf)
      | none => s) noCause s

/-! ## Ending, yielding, doing nothing -/

/-- Lanes exit from a wave's own records: its region, its reservations, and its handler when it has no lane left (R176,
R207, R130). -/
def Wave.exitLanes (w : Wave) (m : Mask) : Wave :=
  let w := { w.dropResv m with
    region := w.region.map fun r => { r with mask := r.mask &&& ~~~m, parked := r.parked &&& ~~~m }
    root := w.root.map fun n => { n with mask := n.mask &&& ~~~m }
    trapMask := w.trapMask &&& ~~~m }
  if w.trapSlot.isSome && w.trapMask == 0 then
    { w.setHin false with trapSlot := none, savedHdr := 0, savedPos := 0, savedArr := none, nest := none, tpcWritten := false }
  else w

/-- R176. -/
def execExit (g : Guard) (s : State) : Host.Outcome State Fault Refusal :=
  let i := Instr.exit g
  issueWith i g false noCause noWait
    (fun p envs s =>
      let s := s.advance p i
      let s := envs.foldl (fun s e => s.updWave e.wave fun w => w.exitLanes e.act) s
      s.updWave p.wave fun w => w.setTree p.slot ((w.tree p.slot).exit (allAct envs))) noCause s

/-- R178. A single step that is due is taken on the path that has issued the YIELD (R197, R199). DEDUCED, log 40. -/
def execYield (g : Guard) (s : State) : Host.Outcome State Fault Refusal :=
  let i := Instr.yield g
  issueWith i g false noCause noWait
    (fun p _ s =>
      let due := s.stepDue p i
      let s := (s.advance p i).updWave p.wave fun w => { w with yieldedAt := some s.cycle }
      if due then s else s.switchLeaf p .yielded) noCause s

def execNop (g : Guard) (s : State) : Host.Outcome State Fault Refusal := issue (.nop g) g noCause (fun _ s => s) s

/-! ## Waiting -/

/-- R180: it completes at issue, or the path is held. -/
def execWaitc (g : Guard) (l sv c t : BitVec 6) (s : State) : Host.Outcome State Fault Refusal :=
  let i := Instr.waitc g l sv c t
  issueWith i g false noCause noWait
    (fun p envs s =>
      if envs.all fun e => (s.waitcHold e.wave l.toNat sv.toNat c.toNat t.toNat).isNone then s.advance p i
      else s.updLeaf p fun x => { x with wait := .counters (envs.map Env.wave) l.toNat sv.toNat c.toNat t.toNat }) noCause s

/-- R27, R28: the class check of a wait: the waiter's class and the awaited class. -/
def classCheck (waiter awaited : Nat) (e : Env) : List Cause :=
  causeIf (awaited == 0) (whole e 0x28 (waiter * 4 + awaited))

/-- R29: arm the starvation timer for the blocking operation whose PC is `op`; a timer already armed runs on. The wave has one
timer: when both its live slots block on parallel sets, it counts for the operation that armed it, and the other operation has
none. DEDUCED, log 39. DESIGN CHOICE, log 121. -/
def State.armStarve (s : State) (w : Nat) (op : DWord) : State :=
  let limit := Nat.max (s.ctxOf w).limit 4096
  s.updWave w fun x =>
    if x.starvArmed then x else { x with starvArmed := true, starvLeft := limit, starvExp := 0, starvOp := op.toNat }

/-- R122: a blocked path that is not alone in its slot gives way under parallel lanes. -/
def State.givesWay (s : State) (p : PathRef) : Bool :=
  s.laneClassOf p.wave == 1 && decide (((s.wave p.wave).tree p.slot).leaves.length ≥ 2)

/-- Table 1.3, R122: under parallel lanes a serialised path yields when its blocking operation does not complete at issue,
and re-issues it when it next runs. A barrier's arrival stands, so the re-issue joins it (R257). -/
def State.yieldIfParallel (s : State) (p : PathRef) : State :=
  if s.givesWay p then
    (s.updLeaf p fun l => { l with wait := match l.wait with | .word _ => .idle | x => x }).switchLeaf p .yielded
  else s

/-- The path is held on a blocking operation of the home waves `ws` (R29, R122). -/
def State.block (s : State) (p : PathRef) (ws : List Nat) (awaited : Nat) (x : Wait) : State :=
  let pc := ((s.leafAt p).map Leaf.pc).getD 0
  let s := s.updLeaf p fun l => { l with wait := x, blockedAt := l.blockedAt.orElse fun _ => some s.cycle }
  let s := if awaited = 1 then ws.foldl (fun s w => s.armStarve w pc) s else s
  s.yieldIfParallel p

/-! ### Arrival words as instructions name them (R249) -/

/-- R228, R249, Table 9.5: every code that the arrival word at `a` raises for wave `w`, lowest first, and its place when it raises
none (R199). -/
def State.arrivalAccess (s : State) (w : Nat) (want : Want) (a : Nat) : List Nat × Place :=
  let r := s.addrAccess w .gen want a (s.draw 0)
  let bad := a % 16 != 0 || a ≥ 2 ^ 56 || (r.1.isEmpty && r.2.tier == .host)
  (r.1 ++ (if bad && !(r.1.contains 0x34) then [0x34] else []), r.2)

/-- The place of the arrival word, or its lowest cause. -/
def State.arrivalPlace (s : State) (w : Nat) (want : Want) (a : Nat) : Except Nat Place :=
  match s.arrivalAccess w want a with
  | ([], p) => .ok p
  | (c :: _, _) => .error c

/-- The causes of an arrival word named by `a` (R249). -/
def State.wordCauses (s : State) (e : Env) (want : Want) (a : DWord) : List Cause :=
  (s.arrivalAccess e.wave want a.toNat).1.map fun c => whole e c a.toNat

/-- The generation an arrival word holds now. -/
def State.genAt (s : State) (p : Place) : Nat := arrGen s p

/-- R369, R377: a wave reads arrival words; one in error raises 0x01. -/
def State.genErrs (s : State) (ws : List (Nat × Place × Nat)) : State :=
  ws.foldl (fun s x => (s.raiseErrs x.1 (s.errAt x.1 (x.2.1.at_ 8)).toList).touch x.2.1 16) s

/-- R258: an older write of the wave to the word has not been performed. -/
def State.wordHeld (s : State) (w : Nat) (p : Place) : Bool :=
  s.ops.any fun o => o.2.wave == w && !o.2.done && !o.2.body.isLoad && o.2.body.places.any fun q => overlaps q (p, 16)

/-- R246: the acquire half. -/
def State.acquire (s : State) (w : Nat) : State := s.dropUnowned (s.coreOf w)

/-- R29, R246: the blocking operation that the path stands at completes for the home waves `ws`: the timer that it has armed is
disarmed, and each completes an acquire. -/
def State.passWaits (s : State) (p : PathRef) (ws : List Nat) : State :=
  let pc := ((s.leafAt p).map Leaf.pc).getD 0
  ws.foldl (fun s w => (s.updWave w fun x => x.disarmFor pc).acquire w) s

/-- R181. The class operand is 0 WEAK, 1 PAR, 2 CONC. -/
def execWaitw (g : Guard) (cls : BitVec 2) (a b : SReg) (s : State) : Host.Outcome State Fault Refusal :=
  let i := Instr.waitw g cls a b
  issueWith i g false
    (fun e s =>
      classCheck (s.waveClassOf e.wave) cls.toNat e ++ s.wordCauses e .read ((s.wave e.wave).sreg a.toNat))
    (fun e s =>
      match s.arrivalPlace e.wave .read ((s.wave e.wave).sreg a.toNat).toNat with
      | .ok q => if s.wordHeld e.wave q then some 9 else none
      | .error _ => none)
    (fun p envs s =>
      let ws := envs.filterMap fun e =>
        match s.arrivalPlace e.wave .read ((s.wave e.wave).sreg a.toNat).toNat with
        | .ok q => some (e.wave, q, ((s.wave e.wave).sreg b.toNat).toNat % 2 ^ 16)
        | .error _ => none
      let s := { s.genErrs ws with free := s.free + 1 }
      if ws.all fun x => s.genAt x.2.1 != x.2.2 then (s.passWaits p (ws.map Prod.fst)).advance p i
      else s.block p (envs.map Env.wave) cls.toNat (.word ws)) noCause s

/-- R183: an older instruction of the wave that can set FLAGS has not done so: an atomic FADD with a reply to come, here or remote,
a remote reduction (R470), a tile macro, a matrix entry, or a sum-tree instruction. -/
def State.flagsBusy (s : State) (w : Nat) : Bool :=
  let core := s.core (s.coreOf w)
  (s.ops.any fun o => o.2.wave == w && !o.2.done &&
      match o.2.body with
      | .atomic .fadd nd _ => !nd
      | .remote r => r.kind == .rred || (r.kind == .ratom && r.opcode / 4 == AtomOp.fadd.code.toNat)
      | _ => false) ||
    (s.wave w).mmt.isSome || core.mq.any (fun q => q.2.any fun m => m.wave == w) || core.treeQ.any fun c => c.wave == w

/-- R128: the wait of TFENCE and of the FLAGS forms, over every home wave with a lane active under the guard. DEDUCED, log 37. -/
def flagsWait (g : Guard) (e : Env) (s : State) : Option Nat :=
  if (s.homes e.ref).any fun h => g.active (s.wave h.1) (e.leaf.mask &&& h.2) != 0 && s.flagsBusy h.1 then some 15 else none

/-- R183: the enabled flags are examined when no older instruction can still set one. -/
def execTfence (g : Guard) (s : State) : Host.Outcome State Fault Refusal :=
  issueWith (.tfence g) g false
    (fun e s =>
      if (flagsWait g e s).isSome then []
      else
        let x := enabledFlags (s.wave e.wave).flags e.leaf.fmt
        causeIf (x != 0) (whole e 0x48 x.toNat)) (flagsWait g) (seqAct (.tfence g) fun _ s => s) noCause s

/-! ## Format and flags -/

/-- R185: the value of SETF. -/
def setfValue (v : SetV) (w : Wave) : DWord :=
  match v with
  | .reg a => w.sreg a.toNat
  | .imm i => i.setWidth 64
  | .lit x => x

def execSetf (g : Guard) (fl : Bool) (v : SetV) (s : State) : Host.Outcome State Fault Refusal :=
  let i := Instr.setf g fl v
  issueWith i g false noCause (fun e s => if fl then flagsWait g e s else none)
    (seqAct i fun e s =>
      let x := setfValue v (s.wave e.wave)
      if fl then s.updWave e.wave fun w => { w with flags := x.setWidth 6 }
      else s.updLeaf e.ref fun l => { l with fmt := fmtOf x }) noCause s

/-- R186. -/
def execGetf (g : Guard) (fl : Bool) (d : SReg) (s : State) : Host.Outcome State Fault Refusal :=
  let i := Instr.getf g fl d
  issueWith i g false noCause (fun e s => if fl then flagsWait g e s else none)
    (seqAct i (onWave fun e w =>
      w.setS d.toNat (if fl then w.flags.setWidth 64 else e.leaf.fmt.setWidth 64))) noCause s

/-! ## Software traps (R187, R207) -/

/-- TRAPI 65,535 of the wave's context handler. -/
def handlerReturn (n : BitVec 16) (s : State) (w : Nat) : Bool := n == 0xFFFF && (s.wave w).hin

def execTrapi (g : Guard) (n : BitVec 16) (s : State) : Host.Outcome State Fault Refusal :=
  let i := Instr.trapi g n
  issueWith i g false
    (fun e s =>
      let w := s.wave e.wave
      if handlerReturn n s e.wave && w.tpcWritten then targetCause w.tpc e s else []) noWait
    (fun p envs s =>
      match envs.head? with
      | none => s
      | some e =>
        if handlerReturn n s e.wave then
          if (s.wave e.wave).tpcWritten then s.returnTo p (s.wave e.wave).tpc else s.returnTrap p
        else s.advance p i)
    (fun e s => if handlerReturn n s e.wave then [] else [whole e 0x58 n.toNat]) s

end Sys2Proof.Machine
end

