-- ==== Sys2Proof/Machine/Memory.lean ====
section
/-!
DEFINITION. Loads, stores, atomics, reservations, fences, prefetch, cache maintenance, arrivals and pinned windows as they issue
(spec/09_core_memory.md R228 to R253, spec/16_die.md R375 to R378). An issued operation stands in `ops` until the events of
Perform.lean bind or perform it.
-/

namespace Sys2Proof.Machine

/-! ## Loads (R238) -/

/-- The window address of a record (R229). DESIGN CHOICE, log 24. -/
def recordWindow (sp : Bool) (a : DWord) : Nat := (windowAddr (if sp then .spad else .gen) a).toNat

/-- R331: what the wave's open collection supplies to a load at `a`. -/
def State.overlayOf (s : State) (w : Nat) (via : Via) (n : Nat) (a : DWord) : DWord × Word :=
  if (s.wave w).collecting then overlayFor recordWindow (s.collection w) (windowAddr via a).toNat n else (0, 0)

/-- The accesses of a load of `n` bytes into the block at `d`. -/
def State.loadAccs (s : State) (w : Nat) (via : Via) (n : Nat) (d : VReg) (wide : Bool) (rs : List Req) : List Acc :=
  rs.map fun r =>
    let o := s.overlayOf w via n r.addr
    ⟨r.lane, regAt d wide r.pos, (s.reqAccess w via .read n r).2, r.addr, o.1, o.2⟩

def ldReqs (o : LdArgs) (e : Env) (s : State) : List Req := e.reqs (s.wave e.wave) o.base o.off o.blk

/-- LD, LDS, LDV. -/
def loadOp (i : Instr) (via : Via) (o : LdArgs) (s : State) : Host.Outcome State Fault Refusal :=
  let n := sizeBytes o.size
  let wide := o.size == .d
  issueWith i o.g false (fun e s => s.reqCauses e.wave via .read n (ldReqs o e s)) noWait
    (seqAct i fun e s =>
      let rs := ldReqs o e s
      let accs := s.loadAccs e.wave via n o.d wide rs
      (s.pushMem e .load o.acq false (vregs o.blk wide o.d) (.load o.size o.sx false o.hint accs)).fillReqs e.wave via rs)
    (fun e s => s.watchCauses e via n false true (ldReqs o e s)) s

/-- DEDUCED, log 42. -/
def execLd (o : LdArgs) (s : State) : Host.Outcome State Fault Refusal := loadOp (.ld o) .gen o s

def execLds (o : LdArgs) (s : State) : Host.Outcome State Fault Refusal := loadOp (.lds o) .spad o s

def execLdv (o : LdArgs) (s : State) : Host.Outcome State Fault Refusal := loadOp (.ldv o) .vault o s

/-- LDU: one address, with b := sext(imm, 64). Its access stands for the lowest active lane. -/
def lduReq (o : LduArgs) (e : Env) (s : State) : Req :=
  ⟨lowestLane e.act, (0, 0), (s.wave e.wave).sreg o.base.toNat + o.off.signExtend 64⟩

def execLdu (o : LduArgs) (s : State) : Host.Outcome State Fault Refusal :=
  let i := Instr.ldu o
  let n := sizeBytes o.size
  issueWith i o.g false
    (fun e s =>
      let r := lduReq o e s
      (s.reqAccess e.wave .gen .read n r).1.map fun c => whole e c r.addr.toNat) noWait
    (seqAct i fun e s =>
      let r := lduReq o e s
      let v := s.overlayOf e.wave .gen n r.addr
      let acc : Acc := ⟨r.lane, o.d.toNat, (s.reqAccess e.wave .gen .read n r).2, r.addr, v.1, v.2⟩
      (s.pushMem e .load o.acq false [.s o.d.toNat] (.load o.size o.sx true o.hint [acc])).fillReqs e.wave .gen [r])
    (fun e s => (s.watchCauses e .gen n false true [lduReq o e s]).map fun c => { c with lanes := e.act }) s

/-! ## Stores (R239) -/

def stReqs (o : StArgs) (e : Env) (s : State) : List Req := e.reqs (s.wave e.wave) o.base o.off o.blk

/-- The datum of a store's request. -/
def stDatum (o : StArgs) (w : Wave) (r : Req) : DWord :=
  if o.size == .d then w.vpair (regAt o.data true r.pos) r.lane
  else (w.vreg (regAt o.data false r.pos) r.lane).setWidth 64

/-- An operation that has made its records: it counts in S and has completed (R330). -/
def State.pushRecorded (s : State) (e : Env) : State :=
  s.pushOp ⟨e.wave, e.mine, s.coreOf e.wave, .store, false, false, [], false, .store .b .none [], true⟩

/-- ST, STS, STV. -/
def storeOp (i : Instr) (via : Via) (o : StArgs) (s : State) : Host.Outcome State Fault Refusal :=
  let n := sizeBytes o.size
  issueWith i o.g false
    (fun e s =>
      let rs := stReqs o e s
      s.reqCauses e.wave via .write n rs ++ s.recordCauses e rs.length (lowestAddr rs)) noWait
    (seqAct i fun e s =>
      let rs := stReqs o e s
      let w := s.wave e.wave
      if w.collecting then
        (s.record e.wave (rs.map fun r => .store (via == .spad) r.addr n (stDatum o w r))).pushRecorded e
      else
        let accs := rs.map fun r =>
          (⟨r.lane, 0, (s.reqAccess e.wave via .write n r).2, r.addr, stDatum o w r, 0⟩ : Acc)
        (s.pushMem e .store false o.rel [] (.store o.size o.hint accs)).fillReqs e.wave via rs)
    (fun e s => s.watchCauses e via n true false (stReqs o e s)) s

def execSt (o : StArgs) (s : State) : Host.Outcome State Fault Refusal := storeOp (.st o) .gen o s

def execSts (o : StArgs) (s : State) : Host.Outcome State Fault Refusal := storeOp (.sts o) .spad o s

def execStv (o : StArgs) (s : State) : Host.Outcome State Fault Refusal := storeOp (.stv o) .vault o s

/-! ## Atomics (R240) -/

def ordAcq : Ord4 → Bool
  | .acq | .ar => true
  | _ => false

def ordRel : Ord4 → Bool
  | .rel | .ar => true
  | _ => false

/-- The requests of an instruction whose extents are 1 × 1. -/
def Env.reqs1 (e : Env) (w : Wave) (base : SReg) (off : VReg) : List Req := e.reqs w base off Block.single

/-- ATOM, ATOMS. The operand is OPC; for CAS the DST lane is read at issue. -/
def atomOp (i : Instr) (via : Via) (o : AtomArgs) (s : State) : Host.Outcome State Fault Refusal :=
  issueWith i o.g false
    (fun e s =>
      let rs := e.reqs1 (s.wave e.wave) o.base o.off
      s.reqCauses e.wave via .write 4 rs ++
        (if o.nd then s.recordCauses e rs.length (lowestAddr rs) else s.collectCause e)) noWait
    (seqAct i fun e s =>
      let w := s.wave e.wave
      let rs := e.reqs1 w o.base o.off
      if w.collecting then
        (s.record e.wave (rs.map fun r => .atomic (via == .spad) r.addr o.op (w.vreg o.c.toNat r.lane))).pushRecorded e
      else
        let accs := rs.map fun r =>
          (⟨r.lane, o.d.toNat, (s.reqAccess e.wave via .write 4 r).2, r.addr, (w.vreg o.c.toNat r.lane).setWidth 64,
            if o.op == .cas then w.vreg o.d.toNat r.lane else 0⟩ : Acc)
        (s.pushMem e (if o.nd then .store else .load) (ordAcq o.ord) (ordRel o.ord) (if o.nd then [] else [.v o.d.toNat])
          (.atomic o.op o.nd accs)).fillReqs e.wave via rs)
    (fun e s => s.watchCauses e via 4 true true (e.reqs1 (s.wave e.wave) o.base o.off)) s

def execAtom (o : AtomArgs) (s : State) : Host.Outcome State Fault Refusal := atomOp (.atom o) .gen o s

def execAtoms (o : AtomArgs) (s : State) : Host.Outcome State Fault Refusal := atomOp (.atoms o) .spad o s

/-! ## Reservations (R242, R243) -/

def execLdres (g : Guard) (d : VReg) (base : SReg) (off : VReg) (s : State) : Host.Outcome State Fault Refusal :=
  let i := Instr.ldres g d base off
  issueWith i g false
    (fun e s => s.reqCauses e.wave .gen .read 4 (e.reqs1 (s.wave e.wave) base off) ++ s.collectCause e) noWait
    (seqAct i fun e s =>
      let rs := e.reqs1 (s.wave e.wave) base off
      let accs := s.loadAccs e.wave .gen 4 d false rs
      -- R124: the lane's most recent LDRES is this one
      let s := s.updWave e.wave fun w => { w with ldres := (lanesOf e.act).foldl (fun t l => t.put l 0) w.ldres }
      (s.pushMem e .load false false [.v d.toNat] (.reserve accs)).fillReqs e.wave .gen rs)
    (fun e s => s.watchCauses e .gen 4 false true (e.reqs1 (s.wave e.wave) base off)) s

def execStcond (g : Guard) (d : PReg) (base : SReg) (off data : VReg) (s : State) : Host.Outcome State Fault Refusal :=
  let i := Instr.stcond g d base off data
  issueWith i g false
    (fun e s => s.reqCauses e.wave .gen .write 4 (e.reqs1 (s.wave e.wave) base off) ++ s.collectCause e) noWait
    (seqAct i fun e s =>
      let w := s.wave e.wave
      let rs := e.reqs1 w base off
      let accs := rs.map fun r =>
        (⟨r.lane, 0, (s.reqAccess e.wave .gen .write 4 r).2, r.addr, (w.vreg data.toNat r.lane).setWidth 64, 0⟩ : Acc)
      (s.pushMem e .load false false (if d = 0 then [] else [.p d.toNat]) (.cond d accs)).fillReqs e.wave .gen rs)
    (fun e s => s.watchCauses e .gen 4 true true (e.reqs1 (s.wave e.wave) base off)) s

/-! ## Fences and arrivals (R246, R253) -/

/-- The wave's loads issued so far have completed. -/
def State.loadsDone (s : State) (w : Nat) : Bool := s.ops.all fun (_, o) => o.wave != w || o.cls != .load || o.done

/-- FENCE.ACQ waits for older loads, the others for everything older; the acquire half follows. DEDUCED, log 37. -/
def execFence (g : Guard) (k : FenceKind) (s : State) : Host.Outcome State Fault Refusal :=
  let i := Instr.fence g k
  issueWith i g false noCause
    (fun e s =>
      let ok := match k with
        | .acq => s.loadsDone e.wave
        | _ => s.releaseOk e.wave
      if ok then none else some 15)
    (seqAct i fun e s => match k with | .rel => s | _ => s.acquire e.wave) noCause s

/-- A TLB keeps the translation of one address (R373). -/
def State.fillAddr (s : State) (w a : Nat) : State :=
  if inWindows a then s else s.tlbFill (s.coreOf w) (s.ctxNo w) a (s.draw 0)

def execArrv (g : Guard) (a b : SReg) (s : State) : Host.Outcome State Fault Refusal :=
  let i := Instr.arrv g a b
  issueWith i g false
    (fun e s =>
      let va := (s.wave e.wave).sreg a.toNat
      s.wordCauses e .write va ++ s.recordCauses e 1 va.toNat) noWait
    (seqAct i fun e s =>
      let w := s.wave e.wave
      let va := w.sreg a.toNat
      let n := (w.sreg b.toNat).toNat % 2 ^ 48
      if w.collecting then (s.record e.wave [.arrive va n]).pushRecorded e
      else
        match s.arrivalPlace e.wave .write va.toNat with
        | .ok p => (s.pushMem e .store false true [] (.arrive p n)).fillAddr e.wave va.toNat
        | .error _ => s) noCause s

/-! ## Prefetch and cache maintenance (R245, R248) -/

/-- PREF (R245). With hint .NA it does nothing, as a load with that hint allocates nothing (R231): DESIGN CHOICE, log 148. -/
def execPref (g : Guard) (h : Hint) (base : SReg) (off : VReg) (s : State) : Host.Outcome State Fault Refusal :=
  let i := Instr.pref g h base off
  issueWith i g false noCause noWait
    (seqAct i fun e s =>
      (e.reqs1 (s.wave e.wave) base off).foldl (fun s r =>
        let x := s.reqAccess e.wave .gen .read 1 r
        if x.1.isEmpty && x.2.tier == .dev && h != .na && !(s.poisoned x.2) then
          (s.fillLine (s.coreOf e.wave) s.free h x.2).reach (x.2.addr / 64) h true
        else s) s) noCause s

/-- The device-memory pieces of a virtual range, one for each 64 KiB page piece that is mapped (R248). -/
def State.mappedPieces (s : State) (w a len : Nat) : List (Nat × Nat) :=
  if len = 0 then []
  else
    let first := a / 65536
    let last := (a + len - 1) / 65536
    (upto (last - first + 1)).filterMap fun k =>
      let lo := Nat.max a ((first + k) * 65536)
      let hi := Nat.min (a + len) ((first + k + 1) * 65536)
      if inWindows lo then none
      else
        match s.xlate (s.coreOf w) (s.ctxNo w) true .read lo (s.draw 0) with
        | .ok p => if p.tier == .dev then some (p.addr, hi - lo) else none
        | .error _ => none

/-- A line overlaps one of the pieces. -/
def inPieces (ps : List (Nat × Nat)) (line : Nat) : Bool :=
  ps.any fun p => p.1 / 64 ≤ line && line ≤ (p.1 + p.2 - 1) / 64

/-- The lines that overlap a piece leave the core's L1. -/
def State.dropLines (s : State) (core : Nat) (ps : List (Nat × Nat)) : State :=
  s.updCore core fun c => c.keepL1 fun w _ => !(inPieces ps (w / 16))

/-- They leave the memory-side caches of all dies. -/
def State.flushLines (s : State) (ps : List (Nat × Nat)) : State :=
  { s with dies := s.dies.map fun _ (d : Die) => { d with msc := d.msc.keep fun l _ => !(inPieces ps l) } }

/-- The range of CINV and CFLSH. DEDUCED, log 46. -/
def State.maintRange (s : State) (w : Nat) (a b : SReg) : List (Nat × Nat) :=
  s.mappedPieces w ((s.wave w).sreg a.toNat).toNat (((s.wave w).sreg b.toNat).toNat % 2 ^ 32)

/-- DEDUCED, log 46. -/
def execCinv (g : Guard) (a b : SReg) (s : State) : Host.Outcome State Fault Refusal :=
  let i := Instr.cinv g a b
  issueWith i g false noCause noWait
    (seqAct i fun e s => s.dropLines (s.coreOf e.wave) (s.maintRange e.wave a b)) noCause s

/-- L1 is write-through, and what stands in a memory-side cache is the model's memory, so writing back changes nothing; the lines
leave both (R231, R248). -/
def execCflsh (g : Guard) (a b : SReg) (s : State) : Host.Outcome State Fault Refusal :=
  let i := Instr.cflsh g a b
  issueWith i g false noCause noWait
    (seqAct i fun e s =>
      let ps := s.maintRange e.wave a b
      (s.dropLines (s.coreOf e.wave) ps).flushLines ps) noCause s

/-! ## Pinned windows (R376, R378) -/

/-- The 64 KiB pieces of the range of a PIN that fail, ascending, each with its code and address (an address in a window has no
translation), and whether a host page is met. -/
def State.pinScan (s : State) (w a n : Nat) : List (Nat × Nat) × Bool :=
  let found := (rangePages a n).map fun p => (p.1, s.addrAccess w .gen .read p.1 (s.draw 0))
  (found.filterMap fun x => if inWindows x.1 then some (0x30, x.1) else (x.2.1.head?).map fun c => (c, x.1),
    found.any fun x => x.2.1.isEmpty && x.2.2.tier == .host)

/-- The page that holds `va`: its size as a power of two. Context 0 is mapped in 2 GiB pages: log 26. -/
def State.pageSize (s : State) (w va : Nat) : Nat :=
  if s.ctxNo w == 0 then 31
  else ((s.pageOf (s.coreOf w) (s.ctxNo w) va (s.draw 0)).map Prod.fst).getD 16

def pinHandle (tag die k : Nat) : DWord := BitVec.ofNat 64 (tag * 2 ^ 16 + die * 16 + k)

/-- The lowest free window entry of a die. -/
def Die.freeWindow (d : Die) : Option Nat := (upto 16).find? fun k => (d.win.look k).isNone

def Die.pinned (d : Die) : Nat := d.win.foldl (fun n x => n + x.2.len) 0

/-- The result of PIN of `[a, a + n)` in wave `w`, whose translation has passed. DESIGN CHOICE, log 26. -/
def State.pin (s : State) (w a n : Nat) (host : Bool) : State × DWord :=
  if host then (s, BitVec.ofNat 64 (2 ^ 63 + 4))
  else if a / 2 ^ s.pageSize w a != (a + n - 1) / 2 ^ s.pageSize w a then (s, BitVec.ofNat 64 (2 ^ 63 + 2))
  else
    let p := (s.addrAccess w .gen .read a (s.draw 0)).2
    let die := p.addr / 2 ^ 38
    let d := s.die die
    match d.freeWindow with
    | none => (s, BitVec.ofNat 64 (2 ^ 63 + 1))
    | some k =>
      if d.pinned + n > 2 ^ 27 then (s, BitVec.ofNat 64 (2 ^ 63 + 3))
      else
        let x : Pinned := ⟨s.ctxNo w, p.addr, n, 255, false⟩
        (s.setDie die { d.plainLines x with win := d.win.put k x },
          pinHandle (Sparse.rd d.winTag k).toNat die k)

def execPin (g : Guard) (d a b : SReg) (s : State) : Host.Outcome State Fault Refusal :=
  let i := Instr.pin g d a b
  let av := fun (e : Env) (s : State) => ((s.wave e.wave).sreg a.toNat).toNat
  let bv := fun (e : Env) (s : State) => ((s.wave e.wave).sreg b.toNat).toNat
  issueWith i g false
    (fun e s =>
      causeIf (av e s % 65536 != 0 || bv e s == 0 || bv e s % 65536 != 0) (whole e 0x32 (av e s)) ++
        (firstOfEach (s.pinScan e.wave (av e s) (bv e s)).1).map fun f => whole e f.1 f.2) noWait
    (seqAct i fun e s =>
      let r := s.pin e.wave (av e s) (bv e s) (s.pinScan e.wave (av e s) (bv e s)).2
      (r.1.fillAddr e.wave (av e s)).updWave e.wave fun w => w.setS d.toNat r.2) noCause s

/-- A window is released and its tag advances; its lines stay at normal priority. -/
def Die.unpin (d : Die) (k : Nat) : Die :=
  let d := (d.win.look k).elim d d.plainLines
  { d with win := d.win.del k, winTag := Sparse.wr d.winTag k (Sparse.rd d.winTag k + 1) }

/-- R378. -/
def State.unpin (s : State) (ctx h : Nat) : State :=
  let die := h / 16 % 4
  let k := h % 16
  let d := s.die die
  match d.win.look k with
  | none => s
  | some p => if p.ctx = ctx && pinHandle (Sparse.rd d.winTag k).toNat die k = BitVec.ofNat 64 h then s.setDie die (d.unpin k) else s

def execUnpin (g : Guard) (a : SReg) (s : State) : Host.Outcome State Fault Refusal :=
  let i := Instr.unpin g a
  issueWith i g false noCause noWait
    (seqAct i fun e s => s.unpin (s.ctxNo e.wave) ((s.wave e.wave).sreg a.toNat).toNat) noCause s

end Sys2Proof.Machine
end

