-- ==== Sys2Proof/Machine/Barrier.lean ====
section
/-!
DEFINITION. The team, die and package barriers (spec/09_core_memory.md R257, spec/16_die.md R380 to R382, spec/17_package.md R415)
and the phase selector.
-/

namespace Sys2Proof.Machine

/-! ## Who has arrived -/

def bitOf (m k : Nat) : Bool := m.testBit k

/-- The waves of a team that have exited (R257): those already ended, and those with no lane left. -/
def State.exitedMask (s : State) (t : Nat) : Nat :=
  s.waves.foldl (fun m (_, w) => if w.team = t && w.cond == .ended then m ||| 2 ^ w.ixw else m) (s.team t).exited

/-- Every wave of the team that has not exited is in the mask of arrivals. -/
def State.allIn (s : State) (t arr : Nat) : Bool :=
  let x := arr ||| s.exitedMask t
  (upto (s.launch (s.team t).launch).recd.w).all fun k => bitOf x k

/-- R382: a team arrives when every wave that has not exited has; an arrival that was restored stands. -/
def State.noteArrivals (s : State) (t : Nat) : State :=
  let x := s.team t
  let d := !x.bardIn && x.bardArr != 0 && s.allIn t x.bardArr
  let p := !x.barpIn && x.barpArr != 0 && s.allIn t x.barpArr
  let s := if d then s.updTeam t fun x => { x with bardIn := true } else s
  if p then
    (s.updTeam t fun x => { x with barpIn := true }).updLaunch x.launch fun l =>
      { l with times := setIdx l.times x.ixd (s.cycle - l.phaseAt) }
  else s

def State.noteLaunch (s : State) (l : Nat) : State := (s.launchTeams l).foldl State.noteArrivals s

/-! ## Leaving a barrier -/

/-- The leaves of wave `k` that wait as `x` says move past their instruction; its home waves complete an acquire and
their timers are disarmed (R29, R246). -/
def State.leaveBarrier (s : State) (x : Wait) (i : Instr) (k : Nat) : State :=
  let w := s.wave k
  let runs := fun (q : Slot) => ((w.tree q).running.map fun l => l.wait == x).getD false
  let pcs := fun (q : Slot) => ((w.tree q).leaves.filter fun l => l.wait == x).map Leaf.pc
  let at_ := fun (q : Slot) => ((w.tree q).runIdx).getD 0
  let go := fun (l : Leaf) => if l.wait == x then { l.advance 1 with wait := .idle } else l
  let s := s.updWave k fun w => { w with slotA := w.slotA.map go, slotB := w.slotB.map go }
  [Slot.a, Slot.b].foldl (fun s q =>
    let p : PathRef := ⟨k, q⟩
    let s := ((s.homes p).map Prod.fst).foldl (fun s h =>
      (pcs q).foldl (fun s pc => (s.updWave h fun w => w.disarmFor pc).acquire h) s) s
    if runs q && (s.wave k).trapSlot.isNone then s.finishIssue p (at_ q) i []
    else if (pcs q).isEmpty then s else s.moved p (at_ q)) s

/-! ## BAR -/

/-- R257: the team's barrier releases: the phase advances. -/
def State.barRelease (s : State) (t : Nat) : State :=
  let s := s.updTeam t fun x => { x with barArr := 0, barPhase := x.barPhase + 1 }
  (s.teamWaves t).foldl (fun s k => s.leaveBarrier .bar (.bar Guard.always) k) s

/-- The team's barrier is due. -/
def State.barDue (s : State) (t : Nat) : Bool := (s.team t).barArr != 0 && s.allIn t (s.team t).barArr

/-- The release of a barrier instruction comes before its arrival (R246). -/
def barrierWait (e : Env) (s : State) : Option Nat := if s.releaseOk e.wave then none else some 8

/-- A path at a barrier instruction in which it has not arrived arrives there for every home wave. -/
def State.arriveBarrier (s : State) (mark : Team → Nat → Team) (phase : Team → Nat) (p : PathRef) (envs : List Env) : State :=
  let t := (s.wave p.wave).team
  let s := envs.foldl (fun s e => s.updTeam t fun m => mark m (2 ^ (s.wave e.wave).ixw)) s
  s.updLeaf p fun l => { l with arrived := some (phase (s.team t)) }

/-- What a barrier instruction does after its checks: every home wave arrives, but for a re-issue, which joins the arrival
recorded at the first issue (R34). When the phase of that arrival is over, or this was the last arrival awaited, it completes
as an acquire, and the last arrival releases the other paths; otherwise the path waits. -/
def barrierAct (i : Instr) (mark : Team → Nat → Team) (phase : Team → Nat) (x : Wait) (awaited : Nat → State → Nat)
    (due : Nat → State → Bool) (release : Nat → State → State) (p : PathRef) (envs : List Env) (s : State) : State :=
  let t := (s.wave p.wave).team
  let before := (s.leafAt p).bind Leaf.arrived
  let pass := fun (s : State) => (s.passWaits p (envs.map Env.wave)).advance p i
  if before.isSome && before != some (phase (s.team t)) then pass s
  else
    let s := (if before.isSome then s else s.arriveBarrier mark phase p envs).noteArrivals t
    if due t s then release t (pass s)
    else s.block p (envs.map Env.wave) (awaited p.wave s) x

def execBar (g : Guard) (s : State) : Host.Outcome State Fault Refusal :=
  issueWith (.bar g) g false
    (fun e s => classCheck (s.waveClassOf e.wave) (s.waveClassOf e.wave) e) barrierWait
    (barrierAct (.bar g) (fun m b => { m with barArr := m.barArr ||| b }) Team.barPhase .bar (fun w s => s.waveClassOf w)
      (fun t s => s.barDue t) fun t s => s.barRelease t) noCause s

/-- BAR_RELEASE. -/
def execBarRelease (team : Nat) (s : State) : Host.Outcome State Fault Refusal :=
  .next (if s.barDue team then s.barRelease team else s)

/-! ## BARD -/

/-- How many teams of a die group have arrived, those that have ended included. -/
def State.arrivedTeams (s : State) (l : Nat) (ixd : Option Nat) (inn : Team → Bool) : Nat :=
  let here := fun (d : Nat) => ixd == none || ixd == some d
  (((s.launch l).ended.filter fun e => here e.1).length) +
    (s.teams.keep fun _ t => t.launch == l && here t.ixd && inn t).length

def State.bardDue (s : State) (l ixd : Nat) : Bool :=
  let r := (s.launch l).recd
  s.arrivedTeams l (some ixd) Team.bardIn == r.c * r.t && (s.launchTeams l).any fun t => (s.team t).ixd == ixd && (s.team t).bardIn

def State.bardRelease (s : State) (l ixd : Nat) : State :=
  let ts := (s.launchTeams l).filter fun t => (s.team t).ixd == ixd
  let s := ts.foldl (fun s t => s.updTeam t fun x => { x with bardArr := 0, bardIn := false, bardPhase := x.bardPhase + 1 }) s
  (ts.flatMap s.teamWaves).foldl (fun s k => s.leaveBarrier .bard (.bard Guard.always) k) s

/-- BARD_RELEASE. -/
def execBardRelease (launch ixd : Nat) (s : State) : Host.Outcome State Fault Refusal :=
  let s' := s.noteLaunch launch
  .next (if s'.bardDue launch ixd then s'.bardRelease launch ixd else s')

def execBard (g : Guard) (s : State) : Host.Outcome State Fault Refusal :=
  issueWith (.bard g) g false
    (fun e s => classCheck (s.teamClassOf e.wave) (s.teamClassOf e.wave) e) barrierWait
    (barrierAct (.bard g) (fun m b => { m with bardArr := m.bardArr ||| b }) Team.bardPhase .bard (fun w s => s.teamClassOf w)
      (fun t s => s.bardDue (s.team t).launch (s.team t).ixd)
      fun t s => s.bardRelease (s.team t).launch (s.team t).ixd) noCause s

/-! ## BARP and the phases (R380, R381) -/

/-- Weight of die group `d` in a schedule: its byte `d`. -/
def weightOf (sched d : Nat) : Nat := sched / 2 ^ (8 * d) % 256

/-- The item range of die group `d` under a schedule: the first item and the count. -/
def itemRange (n sched d : Nat) : Nat × Nat :=
  let sum := (upto 4).foldl (fun x k => x + weightOf sched k) 0
  let below := (upto d).foldl (fun x k => x + weightOf sched k) 0
  let lo := n * below / sum
  (lo, n * (below + weightOf sched d) / sum - lo)

/-- A non-negative rational as numerator and denominator. -/
def fracLt (x y : Nat × Nat) : Bool := decide (x.1 * y.2 < y.1 * x.2)

def fracMax (xs : List (Nat × Nat)) : Nat × Nat := xs.foldl (fun m x => if fracLt m x then x else m) (0, 1)

/-- R381: the cost of a schedule, from the phase times under the old one. -/
def phaseCost (old new : Nat) (times : List Nat) : Nat × Nat :=
  let t := fun (d : Nat) => if weightOf old d = 0 then 0 else nth 0 times d
  let worst := fracMax (((upto 4).filter fun e => decide (weightOf old e > 0)).map fun e => (t e, weightOf old e))
  fracMax ((upto 4).map fun d =>
    if weightOf new d = 0 then (0, 1)
    else if weightOf old d > 0 then (t d * weightOf new d, weightOf old d)
    else (worst.1 * weightOf new d, worst.2))

/-- The schedule of least cost, the lowest on a tie. -/
def phaseChoice (scheds : List Nat) (cur : Nat) (times : List Nat) : Nat :=
  let old := nth 0 scheds cur
  let costs := scheds.map fun n => phaseCost old n times
  (costs.zipIdx.foldl (fun (b : Option ((Nat × Nat) × Nat)) x =>
    match b with
    | none => some x
    | some y => if fracLt x.1 y.1 then some x else b) none).elim 0 Prod.snd

/-- R381: the end of a phase. -/
def Launch.nextPhase (l : Launch) (now : Nat) : Launch :=
  if l.recd.phased then
    { l with
      phase := (l.phase + 1) % 2 ^ 16
      sched := phaseChoice (l.recd.scheds.take l.recd.ns) l.sched l.times
      phaseAt := now
      times := [0, 0, 0, 0] }
  else l

def State.barpDue (s : State) (l : Nat) : Bool :=
  let r := (s.launch l).recd
  s.arrivedTeams l none Team.barpIn == r.c * r.d * r.t && (s.launchTeams l).any fun t => (s.team t).barpIn

def State.barpRelease (s : State) (l : Nat) : State :=
  let s := s.updLaunch l fun x => x.nextPhase s.cycle
  let ts := s.launchTeams l
  let s := ts.foldl (fun s t => s.updTeam t fun x => { x with barpArr := 0, barpIn := false, barpPhase := x.barpPhase + 1 }) s
  (ts.flatMap s.teamWaves).foldl (fun s k => s.leaveBarrier .barp (.barp Guard.always) k) s

/-- BARP_RELEASE. -/
def execBarpRelease (launch : Nat) (s : State) : Host.Outcome State Fault Refusal :=
  let s' := s.noteLaunch launch
  .next (if s'.barpDue launch then s'.barpRelease launch else s')

def execBarp (g : Guard) (s : State) : Host.Outcome State Fault Refusal :=
  issueWith (.barp g) g false
    (fun e s => classCheck (s.teamClassOf e.wave) (s.teamClassOf e.wave) e) barrierWait
    (barrierAct (.barp g) (fun m b => { m with barpArr := m.barpArr ||| b }) Team.barpPhase .barp (fun w s => s.teamClassOf w)
      (fun t s => s.barpDue (s.team t).launch) fun t s => s.barpRelease (s.team t).launch) noCause s

end Sys2Proof.Machine
end

