-- ==== Sys2Proof/Machine/Convert.lean ====
section
/-!
DEFINITION. Conversions (spec/06_wave_arithmetic.md R159 to R164, spec/02_number_formats.md R46, R48, R50).
-/

namespace Sys2Proof.Machine

/-! ## DP8 (R46, R48) -/

def dp8Term (neg : Bool) (code : Nat) : Int :=
  if code = 0 then 0 else if neg then -(2 ^ (code - 1) : Nat) else (2 ^ (code - 1) : Nat)

/-- R46: the value of a DP8 byte. -/
def dp8Value (b : Nat) : Int := dp8Term (b / 128 % 2 == 1) (b / 16 % 8) + dp8Term (b / 8 % 2 == 1) (b % 8)

/-- Two-term forms with the larger term of code `c1`, same sign before opposite signs: the byte of a positive value. -/
def dp8Two (v c1 : Nat) : Option Nat :=
  match (upto c1).find? fun c2 => c2 != 0 && 2 ^ (c1 - 1) + 2 ^ (c2 - 1) == v with
  | some c2 => some (c1 * 16 + c2)
  | none =>
    match (upto c1).find? fun c2 => c2 != 0 && 2 ^ (c1 - 1) == v + 2 ^ (c2 - 1) with
    | some c2 => some (c1 * 16 + 8 + c2)
    | none => none

/-- R48: the canonical byte of a magnitude up to 128; none when DP8 has no encoding of it. -/
def dp8Magnitude (v : Nat) : Option Nat :=
  if v = 0 then some 0
  else if v = 128 then some 0x77
  else
    match (upto 8).find? fun c => c != 0 && 2 ^ (c - 1) == v with
    | some c => some (c * 16)
    | none => (upto 8).findSome? (dp8Two v)

/-- The canonical byte of a representable value: both signs are flipped for a negative one. -/
def dp8Byte (neg : Bool) (v : Nat) : Nat :=
  let b := (dp8Magnitude v).getD 0
  if !neg || v = 0 then b
  else if b % 8 = 0 then b + 128
  else b + 128 + (if b / 8 % 2 = 1 then 0 else 8) - (if b / 8 % 2 = 1 then 8 else 0)

def dp8Magnitudes : List Nat := (upto 129).filter fun v => (dp8Magnitude v).isSome

/-- R48: the representable magnitude nearest to n / d, the smaller on a tie. -/
def dp8Nearest (n d : Nat) : Nat :=
  (leastBy (fun v => if n ≤ v * d then v * d - n else n - v * d) dp8Magnitudes).getD 0

/-! ## Source values -/

/-- R160: an integer source as an exact datum. -/
def intVal (x : Int) : FV := .fin (decide (x < 0)) x.natAbs 0

/-- R159, R160, Table 6.3: the datum of a source. `bits` holds the register pair, the whole uniform register or the lane;
`uni` says that it is a uniform register. -/
def ctyValue (c : CTy) (fzi uni : Bool) (bits : Nat) : FV :=
  match c with
  | .f32 => fp32.rd fzi (bits % 2 ^ 32)
  | .f64 => fp64.rd fzi bits
  | .f16 => fp16.rd fzi (bits % 2 ^ 16)
  | .bf16 => bf16.rd fzi (bits % 2 ^ 16)
  | .int => intVal (if uni then (BitVec.ofNat 64 bits).toInt else (BitVec.ofNat 32 bits).toInt)
  | .uint => intVal (if uni then bits % 2 ^ 64 else bits % 2 ^ 32 : Nat)
  | .int8 => intVal (BitVec.ofNat 8 bits).toInt
  | .dp8 => intVal (dp8Value (bits % 256))

/-! ## Destinations (Table 6.4) -/

/-- A float or integer datum to an integer range: the value and the flags. -/
def toRange (rm : Nat) (lo hi : Int) (a : FV) : Int × Fl :=
  match a with
  | .nan _ => (0, flIV)
  | .inf n => (if n then lo else hi, flIV ||| flSAT)
  | .fin n m e =>
    let (i, inexact) := if e ≥ 0 then (m * 2 ^ e.toNat, false) else roundShift rm n m (-e).toNat false
    let x : Int := if n then -(i : Int) else i
    (max lo (min hi x), flagIf (decide (x < lo) || decide (x > hi)) flSAT ||| flagIf inexact flNX)

/-- A datum to DP8. -/
def toDp8 (a : FV) : Nat × Fl :=
  match a with
  | .nan _ => (0, flIV)
  | .inf n => (if n then 0xFF else 0x77, flIV ||| flSAT)
  | .fin n m e =>
    let (p, d) := if e ≥ 0 then (m * 2 ^ e.toNat, 1) else (m, 2 ^ (-e).toNat)
    if p > 128 * d then (dp8Byte n 128, flSAT ||| flagIf (p % d != 0) flNX)
    else
      let v := dp8Nearest p d
      (dp8Byte n v, flagIf (v * d != p) flNX)

/-- Table 6.4, with the placement of Table 6.3 at the destination's width: `uni` for a uniform destination. -/
def ctyDeliver (c : CTy) (md : Mode) (uni : Bool) (a : FV) : Nat × Fl :=
  let w := if uni then 64 else 32
  let asInt := fun (lo hi : Int) =>
    let r := toRange md.rm lo hi a
    ((BitVec.ofInt w r.1).toNat, r.2)
  match c with
  | .f32 => fp32.deliver md a
  | .f64 => fp64.deliver md a
  | .f16 => fp16.deliver md a
  | .bf16 => bf16.deliver md a
  | .int => asInt (-(2 ^ (w - 1))) (2 ^ (w - 1) - 1)
  | .uint => asInt 0 (2 ^ w - 1)
  | .int8 => asInt (-128) 127
  | .dp8 => toDp8 a

/-- R161: the exact value times 2^n. -/
def FV.scale (a : FV) (n : Int) : FV :=
  match a with
  | .fin s m e => .fin s m (e + clampExp n)
  | x => x

/-! ## The instructions -/

/-- What a source of type `c` supplies: its bits and whether it is a uniform register. -/
def cvtBits (c : CTy) (a : Src) (w : Wave) (pos : Nat × Nat) (l : Nat) : Nat × Bool :=
  match a with
  | .s n => ((w.sreg n.toNat).toNat, true)
  | .v .. => (if c.pair then (a.dword w pos l).toNat else (a.word w pos l).toNat, false)

/-- The shared form of CVT and CVTS: `scl` gives the exponent at a lane and for a uniform destination. -/
def cvtForm (i : Instr) (dt st : CTy) (g : Guard) (d : Dst) (a : Src) (blk : Block)
    (scl : Wave → Option (Nat × Nat × Nat) → Int) (s : State) : Host.Outcome State Fault Refusal :=
  issue i g noCause (onWave fun e w =>
    let md := modeOf e.leaf.fmt
    let lane := fun (pos : Nat × Nat) (l : Nat) =>
      let b := cvtBits st a w pos l
      ctyDeliver dt md false ((ctyValue st md.fzi b.2 b.1).scale (scl w (some (pos.1, pos.2, l))))
    match d with
    | .v n =>
      if dt.pair then w.pairEff e.act n blk fun pos l => (BitVec.ofNat 64 (lane pos l).1, (lane pos l).2)
      else w.vecEff e.act n blk fun pos l => (BitVec.ofNat 32 (lane pos l).1, (lane pos l).2)
    | .s n =>
      let r := ctyDeliver dt md true ((ctyValue st md.fzi true (a.uni w).toNat).scale (scl w none))
      w.uniEff n (BitVec.ofNat 64 r.1, r.2)) s

def execCvt (dt st : CTy) (o : Alu1) (s : State) : Host.Outcome State Fault Refusal :=
  cvtForm (.cvt dt st o) dt st o.g o.d o.a o.blk (fun _ _ => 0) s

def execCvts (dt st : CTy) (o : Alu2) (s : State) : Host.Outcome State Fault Refusal :=
  cvtForm (.cvts dt st o) dt st o.g o.d o.a o.blk (fun w x =>
    match x with
    | some (r, c, l) => expLane o.b (dt.pair || st.pair) w (r, c) l
    | none => expUni o.b w) s

/-- R162: an element of an integer form from an I32 value. -/
def packElem (k : PTy) (x : Word) : Nat × Fl :=
  match k with
  | .int4x8 => let r := satS 4 x.toInt; (r.1.toNat, r.2)
  | .dp8x4 => toDp8 (intVal x.toInt)
  | _ => let r := satS 8 x.toInt; (r.1.toNat, r.2)

def ptyWidth : PTy → Nat
  | .f16x2 | .bf16x2 => 16
  | .int4x8 => 4
  | .int8x4 | .dp8x4 => 8

def ptyFmt : PTy → FFmt
  | .bf16x2 => bf16
  | _ => fp16

/-- R162: the 32-bit result from A, B and the old destination. -/
def packWord (k : PTy) (md : Mode) (a b d : Word) : Nat × Fl :=
  match k with
  | .f16x2 | .bf16x2 =>
    let lo := (ptyFmt k).deliver md (fp32.rd md.fzi a.toNat)
    let hi := (ptyFmt k).deliver md (fp32.rd md.fzi b.toNat)
    (hi.1 * 2 ^ 16 + lo.1, lo.2 ||| hi.2)
  | _ =>
    let ea := packElem k a
    let eb := packElem k b
    let e := ptyWidth k
    (eb.1 * 2 ^ (32 - e) + ea.1 * 2 ^ (32 - 2 * e) + d.toNat / 2 ^ (2 * e), ea.2 ||| eb.2)

def execPack (k : PTy) (g : Guard) (d : Dst) (a b : Src) (blk : Block) (s : State) : Host.Outcome State Fault Refusal :=
  issue (.pack k g d a b blk) g noCause (onWave fun e w =>
    let md := modeOf e.leaf.fmt
    match d with
    | .v n => w.vecEff e.act n blk fun pos l =>
        let r := packWord k md (a.word w pos l) (b.word w pos l) (w.vreg (regAt n false pos) l)
        (BitVec.ofNat 32 r.1, r.2)
    | .s n =>
      let r := packWord k md ((a.uni w).setWidth 32) ((b.uni w).setWidth 32) ((w.sreg n.toNat).setWidth 32)
      w.uniEff n (BitVec.ofNat 64 r.1, r.2)) s

/-- R163: element `i` of a 32-bit value, at width `w`. DEDUCED, log 31. -/
def unpackElem (k : PTy) (md : Mode) (w : Nat) (i : Nat) (x : Word) : Nat × Fl :=
  let f := x.toNat / 2 ^ (ptyWidth k * i) % 2 ^ ptyWidth k
  match k with
  | .f16x2 | .bf16x2 => fp32.deliver md ((ptyFmt k).rd md.fzi f)
  | .dp8x4 => ((BitVec.ofInt w (dp8Value f)).toNat, 0)
  | .int8x4 => ((BitVec.ofInt w (BitVec.ofNat 8 f).toInt).toNat, 0)
  | .int4x8 => ((BitVec.ofInt w (BitVec.ofNat 4 f).toInt).toNat, 0)

def execUnpack (k : PTy) (i : BitVec 3) (o : Alu1) (s : State) : Host.Outcome State Fault Refusal :=
  issue (.unpack k i o) o.g noCause (onWave fun e w =>
    let md := modeOf e.leaf.fmt
    match o.d with
    | .v n => w.vecEff e.act n o.blk fun pos l =>
        let r := unpackElem k md 32 i.toNat (o.a.word w pos l)
        (BitVec.ofNat 32 r.1, r.2)
    | .s n =>
      let r := unpackElem k md 64 i.toNat ((o.a.uni w).setWidth 32)
      w.uniEff n (BitVec.ofNat 64 r.1, r.2)) s

/-- Table 2.9: an FP32 value to mass, always to nearest even. -/
def massOf (m16 fzi : Bool) (n : Int) (x : Nat) : Nat × Fl :=
  let top := if m16 then 65535 else 2 ^ 32 - 1
  match fp32.rd fzi x with
  | .nan _ => (0, flIV)
  | .inf neg => if neg then (0, flIV) else (top, flOF ||| flSAT)
  | .fin neg m e =>
    if m = 0 then (0, 0)
    else if neg then (0, flIV)
    else
      let e := e + clampExp n
      let (i, inexact) := if e ≥ 0 then (m * 2 ^ e.toNat, false) else roundShift 0 false m (-e).toNat false
      if i ≤ top then (i, flagIf inexact flNX) else (top, flOF ||| flSAT ||| flagIf inexact flNX)

def execQmass (m16 : Bool) (o : Alu2) (s : State) : Host.Outcome State Fault Refusal :=
  issue (.qmass m16 o) o.g noCause (onWave fun e w =>
    let md := modeOf e.leaf.fmt
    match o.d with
    | .v n => w.vecEff e.act n o.blk fun pos l =>
        let r := massOf m16 md.fzi (expLane o.b false w pos l) (o.a.word w pos l).toNat
        (BitVec.ofNat 32 r.1, r.2)
    | .s n =>
      let r := massOf m16 md.fzi (expUni o.b w) ((o.a.uni w).setWidth 32 : Word).toNat
      w.uniEff n (BitVec.ofNat 64 r.1, r.2)) s

end Sys2Proof.Machine
end

