-- ==== Sys2Proof/Machine/MatMath.lean ====
section
/-!
DEFINITION. The arithmetic of the matrix engine: elements of A and B (spec/10_matrix_engine.md R265, R269, R270), sums of products
(spec/02_number_formats.md R54 to R56), scaled chains (R57, R58, R273, R274) and the writes of a quarter operation.
-/

namespace Sys2Proof.Machine

/-! ## Operand pairs (Table 11.2) -/

def kPer : Pair → Nat
  | .i8 | .i8d8 => 192
  | .i4 => 384
  | .bf16 | .f16 => 96

def pairInt : Pair → Bool
  | .i8 | .i8d8 | .i4 => true
  | .bf16 | .f16 => false

def pairFmt : Pair → FFmt
  | .f16 => fp16
  | _ => bf16

/-- The accumulator holds INT32 for the pair (R273). -/
def wantsInt (k : Pair) (sc : Bool) : Bool := pairInt k && !sc

/-! ## Elements -/

/-- Byte offsets of element `j` from its base. -/
def elemOffs (k : Pair) (j : Nat) : List Nat :=
  match k with
  | .i8 | .i8d8 => [j]
  | .i4 => [j / 2]
  | .bf16 | .f16 => [2 * j, 2 * j + 1]

/-- An operand datum: an integer, or a floating-point datum. -/
inductive MElem where
  | int (x : Int)
  | flt (x : FV)
  deriving DecidableEq, Repr

/-- The value of `bits` as an A element of the pair. -/
def elemOf (k : Pair) (bits : Nat) : MElem :=
  match k with
  | .i8 | .i8d8 => .int (BitVec.ofNat 8 bits).toInt
  | .i4 => .int (BitVec.ofNat 4 bits).toInt
  | .bf16 => .flt (bf16.dec (bits % 2 ^ 16))
  | .f16 => .flt (fp16.dec (bits % 2 ^ 16))

/-- The value of `bits` as a B element. -/
def elemOfB (k : Pair) (bits : Nat) : MElem :=
  match k with
  | .i8d8 => .int (dp8Value (bits % 256))
  | _ => elemOf k bits

/-- The bits of element `j` of a run of bytes (R45, R265). -/
def elemBits (k : Pair) (rd : Nat → Byte) (j : Nat) : Nat :=
  match k with
  | .i8 | .i8d8 => (rd j).toNat
  | .i4 => (rd (j / 2)).toNat / 2 ^ (4 * (j % 2)) % 16
  | .bf16 | .f16 => (rd (2 * j)).toNat + 256 * (rd (2 * j + 1)).toNat

def zeroElem (k : Pair) : MElem := elemOf k 0

/-! ## The unfolding unit (Table 10.2, R270) -/

structure Unf where
  base : Nat
  ch : Nat
  wid : Nat
  hgt : Nat
  pl : Nat
  pt : Nat
  dx : Nat
  dy : Nat
  sx : Nat
  sy : Nat
  kw : Nat
  kh : Nat
  mrows : Nat
  ow : Nat
  korg : Nat
  org : Nat
  pad : Nat
  spitch : Nat
  sbase : Nat
  deriving DecidableEq, Repr

def Unf.of (u : List DWord) : Unf :=
  let f := fun (i hi lo : Nat) => bitsN (nth (0 : DWord) u i).toNat hi lo
  { base := f 0 31 0, ch := f 1 55 32, wid := f 1 31 16, hgt := f 1 15 0
    pl := f 2 63 56, pt := f 2 55 48, dx := f 2 47 40, dy := f 2 39 32
    sx := f 2 31 24, sy := f 2 23 16, kw := f 2 15 8, kh := f 2 7 0
    mrows := f 3 47 16, ow := f 3 15 0, korg := f 4 47 32, org := f 4 31 0
    pad := f 5 31 0, spitch := f 6 55 32, sbase := f 6 31 0 }

/-- Bits of the descriptor registers that Table 10.2 names; the others are ignored. -/
def unfMask (i : Nat) : DWord :=
  nth 0 [0xFFFF_FFFF, 0x00FF_FFFF_FFFF_FFFF, 0xFFFF_FFFF_FFFF_FFFF, 0x0000_FFFF_FFFF_FFFF, 0x0000_FFFF_FFFF_FFFF,
    0xFFFF_FFFF, 0x00FF_FFFF_FFFF_FFFF, 0] i

def Wave.unfList (w : Wave) : List DWord := (upto 8).map fun i => Sparse.rd w.unfold i

/-- Where an A element comes from: zero, PAD, or an element counted from BASE. -/
inductive AElem where
  | zero | pad | mem (j : Nat)
  deriving DecidableEq, Repr

def Unf.kt (u : Unf) : Nat := u.kh * u.kw * u.ch

/-- R270: element `kk` of the row for accumulator row `m`. -/
def Unf.elem (u : Unf) (m kk : Nat) : AElem :=
  let p := u.org + m
  if p ≥ u.mrows || kk ≥ u.kt then .zero
  else
    let ow := Nat.max u.ow 1
    let t := kk / u.ch
    let y : Int := (p / ow * u.sy + t / u.kw * u.dy : Nat) - (u.pt : Int)
    let x : Int := (p % ow * u.sx + t % u.kw * u.dx : Nat) - (u.pl : Int)
    if 0 ≤ y && y < u.hgt && 0 ≤ x && x < u.wid then .mem ((y.toNat * u.wid + x.toNat) * u.ch + kk % u.ch) else .pad

/-- R279: element `kk` of the row with index `idx`. -/
def Unf.gather (u : Unf) (idx kk : Nat) : AElem :=
  if kk ≥ u.ch then .zero else if idx ≥ u.hgt then .pad else .mem (idx * u.ch + kk)

/-- The elements of an A row, in K order, from first position `x`. -/
def rowElems (k : Pair) (f : Nat → AElem) (x : Nat) : List AElem := (upto (kPer k)).map fun i => f (x + i)

/-- The scratchpad bytes an A row reads. -/
def rowOffs (k : Pair) (u : Unf) (es : List AElem) : List Nat :=
  es.flatMap fun e =>
    match e with
    | .mem j => (elemOffs k j).map fun o => u.base + o
    | _ => []

def AElem.value (k : Pair) (u : Unf) (rd : Nat → Byte) : AElem → MElem
  | .zero => zeroElem k
  | .pad => elemOf k u.pad
  | .mem j => elemOf k (elemBits k (fun o => rd (u.base + o)) j)

/-- R278: spans in a full A row, and the addresses of the scales of accumulator row `m`, span `s`. -/
def Unf.spans (u : Unf) : Nat := (u.kt + 127) / 128

def scaleBases (mxscl : DWord) : Nat × Nat := (bitsN mxscl.toNat 31 0, bitsN mxscl.toNat 63 32)

def Unf.scales (u : Unf) (mxscl : DWord) (m s : Nat) : Nat × Nat :=
  ((scaleBases mxscl).1 + ((u.org + m) * u.spans + s) * 4, (scaleBases mxscl).2 + s * 4)

/-- R295: the scales of a gathered row. -/
def Unf.gatherScales (u : Unf) (mxscl : DWord) (idx s : Nat) : Nat × Nat :=
  ((scaleBases mxscl).1 + (idx * ((u.ch + 127) / 128) + s) * 4, (scaleBases mxscl).2 + s * 4)

/-! ## Products and their sums (R54 to R56) -/

def MElem.toInt : MElem → Int
  | .int x => x
  | .flt _ => 0

def MElem.toFV : MElem → FV
  | .flt x => x
  | .int _ => .fin false 0 0

/-- The exact sum of products of two integer rows. -/
def dotInt : List MElem → List MElem → Int
  | a :: as, b :: bs => a.toInt * b.toInt + dotInt as bs
  | _, _ => 0

/-- An exact product and the flags it sets (R37, R56). -/
def prodFV (a b : FV) : FV × Fl :=
  if a.isNaN || b.isNaN then (.nan false, nanFlag a ||| nanFlag b)
  else
    match a.mul b with
    | none => (.nan false, flIV)
    | some p => (p, 0)

def isInf (n : Bool) : FV → Bool
  | .inf m => m == n
  | _ => false

def minExp : List FV → Int
  | [] => 0
  | [.fin _ _ e] => e
  | .fin _ _ e :: r => min e (minExp r)
  | _ :: r => minExp r

def sumAt (e0 : Int) : List FV → Int
  | [] => 0
  | .fin n m e :: r => finInt n m e e0 + sumAt e0 r
  | _ :: r => sumAt e0 r

def isNegZero : FV → Bool
  | .fin true 0 _ => true
  | _ => false

/-- R55, R56: the exact sum of some products, rounded once to FP32. The sum of none is +0. A NaN among the products makes the sum the
canonical NaN with no flag of its own, also beside infinities of opposite sign. DEDUCED, log 112. DESIGN CHOICE, log 143. -/
def groupSum (l : List (FV × Fl)) : Nat × Fl :=
  let vs := l.map Prod.fst
  let fl := l.foldl (fun f x => f ||| x.2) 0
  if vs.any FV.isNaN then (fp32.cnan, fl)
  else if vs.any (isInf false) && vs.any (isInf true) then (fp32.cnan, fl ||| flIV)
  else if vs.any (isInf false) then (fp32.infBits false, fl)
  else if vs.any (isInf true) then (fp32.infBits true, fl)
  else
    let e := minExp vs
    let v := sumAt e vs
    if v = 0 then (fp32.zeroBits (!vs.isEmpty && vs.all isNegZero), fl)
    else
      let r := fp32.round Mode.rne (decide (v < 0)) v.natAbs e
      (r.1, fl ||| r.2)

/-- Table 0.7 and R42: `rne(a + b, FP32)` on encodings. -/
def addF32 (a b : Nat) : Nat × Fl := fp32.add Mode.rne (fp32.dec a) (fp32.dec b)

def mulF32 (a b : Nat) : Nat × Fl := fp32.mul Mode.rne (fp32.dec a) (fp32.dec b)

/-- R55: groups of 16 positions added to an FP32 element in ascending K order; `none` marks a position without a product.
The first argument bounds the number of groups. -/
def addGroups : Nat → List (Option (FV × Fl)) → Nat → Nat × Fl
  | 0, _, acc => (acc, 0)
  | n + 1, l, acc =>
    if l.isEmpty then (acc, 0)
    else
      let g := groupSum ((l.take 16).filterMap id)
      let r := addF32 acc g.1
      let t := addGroups n (l.drop 16) r.1
      (t.1, g.2 ||| r.2 ||| t.2)

def products : List MElem → List MElem → List (Option (FV × Fl))
  | a :: as, b :: bs => some (prodFV a.toFV b.toFV) :: products as bs
  | _, _ => []

/-- One accumulator element without scaling. -/
def accPlain (k : Pair) (acc : Word) (a b : List MElem) : Word × Fl :=
  if pairInt k then satS 32 (acc.toInt + dotInt a b)
  else
    let r := addGroups 24 (products a b) acc.toNat
    (BitVec.ofNat 32 r.1, r.2)

/-- R280: the positions of `b` where the constant matrix holds 1 are its contributions. -/
def ones (f : Nat → Bool) (b : List MElem) : List (Option MElem) :=
  b.zipIdx.map fun (x, i) => if f i then some x else none

/-- A contribution of 1 × b. -/
def onceFV (b : FV) : FV × Fl := if b.isNaN then (.nan false, nanFlag b) else (b, 0)

def accOnes (k : Pair) (acc : Word) (f : Nat → Bool) (b : List MElem) : Word × Fl :=
  let l := ones f b
  if pairInt k then satS 32 (acc.toInt + (l.filterMap id).foldl (fun n x => n + x.toInt) 0)
  else
    let r := addGroups 24 (l.map fun x => x.map fun y => onceFV y.toFV) acc.toNat
    (BitVec.ofNat 32 r.1, r.2)

/-! ## Scaled chains (R57, R274) -/

/-- R57: one fold of an exact partial. `part` fits FP32 exactly. -/
def foldPart (acc : Nat) (part : Int) (sa sw : Nat) : Nat × Fl :=
  let s := mulF32 sa sw
  let p := fp32.round Mode.rne (decide (part < 0)) part.natAbs 0
  let x := mulF32 p.1 s.1
  let r := addF32 acc x.1
  (r.1, s.2 ||| x.2 ||| r.2)

/-- A piece of an instruction's K range within one span: its length, and the span index to fold with when it ends there. -/
structure Piece where
  len : Nat
  fold : Option Nat
  deriving DecidableEq, Repr

/-- The pieces of `n` positions that start at position `pos` of span `idx`. The first argument bounds their number. -/
def pieces : Nat → Nat → Nat → Nat → List Piece
  | 0, _, _, _ => []
  | f + 1, pos, idx, n =>
    if n = 0 then []
    else if pos + n < 128 then [⟨n, none⟩]
    else ⟨128 - pos, some idx⟩ :: pieces f 0 ((idx + 1) % 2 ^ 16) (n - (128 - pos))

/-- One element of a scaled operation: the pieces in order. `scl` gives the scales of a span. -/
def accScaled (scl : Nat → Nat × Nat) : List Piece → Nat → Int → List MElem → List MElem → Nat × Int × Fl
  | [], acc, part, _, _ => (acc, part, 0)
  | p :: r, acc, part, a, b =>
    let part := part + dotInt (a.take p.len) (b.take p.len)
    match p.fold with
    | none =>
      let t := accScaled scl r acc part (a.drop p.len) (b.drop p.len)
      (t.1, t.2.1, t.2.2)
    | some k =>
      let f := foldPart acc part (scl k).1 (scl k).2
      let t := accScaled scl r f.1 0 (a.drop p.len) (b.drop p.len)
      (t.1, t.2.1, f.2 ||| t.2.2)

/-! ## Tags (Table 10.3) -/

/-- DESIGN CHOICE, log 2. -/
def AccTag.blank : AccTag := ⟨false, false, false, false, false, [0, 0, 0, 0], [0, 0, 0, 0]⟩

/-- DESIGN CHOICE, log 2. -/
def Wave.accTag (w : Wave) (a : Nat) : AccTag := w.acc.lookD a AccTag.blank

def Wave.setTag (w : Wave) (a : Nat) (t : AccTag) : Wave := { w with acc := w.acc.put a t }

/-- R274: the tag as MZA leaves it. -/
def AccTag.zeroed (t : AccTag) (int : Bool) : AccTag :=
  { t with valid := true, dirty := true, int := int, scl := false, spanPos := [0, 0, 0, 0], spanIdx := [0, 0, 0, 0] }

/-- The chain positions from which a .SC operation starts (R274). -/
def AccTag.chain (t : AccTag) : AccTag :=
  if t.scl then t else { t with scl := true, spanPos := [0, 0, 0, 0], spanIdx := [0, 0, 0, 0] }

/-- The tag after a quarter operation of quarter `q` over `n` positions. -/
def AccTag.after (t : AccTag) (sc : Bool) (q n : Nat) : AccTag :=
  if sc then
    let t := t.chain
    let pos := nth 0 t.spanPos q + n
    { t with dirty := true, spanPos := setIdx t.spanPos q (pos % 128)
             spanIdx := setIdx t.spanIdx q ((nth 0 t.spanIdx q + pos / 128) % 2 ^ 16) }
  else { t with dirty := true, scl := false }

/-- R274: the quarters whose open span a fold of the whole accumulator folds. -/
def AccTag.openQuarters (t : AccTag) : List Nat := if t.scl then (upto 4).filter fun q => nth 0 t.spanPos q != 0 else []

/-- What an entry of the queue does to the tag of accumulator `a`. -/
def MBody.retag (b : MBody) (a : Nat) (t : AccTag) : AccTag :=
  match b with
  | .mza int n => if n = a then t.zeroed int else t
  | .mmq k sc n _ q _ => if n = a then t.after sc q (kPer k) else t
  | .mtrn k n _ q _ => if n = a then t.after false q (kPer k) else t
  | .mprm k n _ q _ => if n = a then t.after false q (kPer k) else t
  | .mred k n _ q => if n = a then t.after false q (kPer k) else t
  | .mldt .. | .msta .. | .mmg .. | .mcvt .. => t

/-! ## Accumulators and tiles of a wave -/

def accKey (a m n : Nat) : Nat := a * 1024 + 32 * m + n

/-- R281: the register reads as zero until it has been written in full. -/
def Wave.isFaded (w : Wave) (r : Reg) : Bool := w.faded.any fun f => f.1 == r

def Wave.accWord (w : Wave) (a m n : Nat) : Word := if w.isFaded (.a a) then 0 else Sparse.rd w.a (accKey a m n)

def Wave.partWord (w : Wave) (a m n : Nat) : Word := if w.isFaded (.a a) then 0 else Sparse.rd w.partial_ (accKey a m n)

/-- R281: some parts of a tile or accumulator have been written. Quarters written one after another make it written in full.
DESIGN CHOICE, log 144. -/
def Wave.wrote (w : Wave) (r : Reg) (parts : List Nat) : Wave :=
  { w with
    upset := w.upset.filter fun u => !(u.1 == r && parts.contains u.2)
    faded := w.faded.filterMap fun f =>
      if f.1 == r then
        let left := f.2.filter fun p => !(parts.contains p)
        if left.isEmpty then none else some (r, left)
      else some f }

/-- The elements (m, n) of some rows, in row-major order. -/
def accCells (rows : List Nat) : List (Nat × Nat) := rows.flatMap fun m => (upto 32).map fun n => (m, n)

/-- Elements of accumulator `a` rewritten: `f` gives the element, its partial, and the flags. -/
def Wave.mapAcc (w : Wave) (a : Nat) (rows : List Nat) (f : Nat → Nat → Word × Word × Fl) : Wave × Fl :=
  (accCells rows).foldl (fun x c =>
    let r := f c.1 c.2
    ({ x.1 with
        a := Sparse.wr x.1.a (accKey a c.1 c.2) r.1
        partial_ := Sparse.wr x.1.partial_ (accKey a c.1 c.2) r.2.1 }, x.2 ||| r.2.2)) (w, 0)

def dropAcc (a : Nat) (t : Sparse 32) : Sparse 32 := Sparse.keepKeys (fun k => k / 1024 != a) t

/-- MZA (R291). -/
def Wave.zeroAcc (w : Wave) (a : Nat) (int : Bool) : Wave :=
  ({ w with a := dropAcc a w.a, partial_ := dropAcc a w.partial_ }.setTag a ((w.accTag a).zeroed int)).wrote (.a a) [0, 1, 2, 3]

/-- Rows of quarter `q`. -/
def quarterRows (q : Nat) : List Nat := (upto 8).map fun i => 8 * q + i

/-- R274: what a quarter operation without .SC first discards. -/
def Wave.discard (w : Wave) (a : Nat) : Wave :=
  if (w.accTag a).scl then { w with partial_ := dropAcc a w.partial_ } else w

/-- A quarter operation of MMQ: `rows` the eight A rows, `cols` the 32 columns of B, `scl` the scales of a row and
span. -/
def Wave.quarterMul (w : Wave) (k : Pair) (sc : Bool) (a q : Nat) (rows : List (List MElem)) (cols : List (List MElem))
    (scl : Nat → Nat → Nat × Nat) : Wave × Fl :=
  let t := w.accTag a
  let row := fun (m : Nat) => nth [] rows (m - 8 * q)
  let col := fun (n : Nat) => nth [] cols n
  let r :=
    if sc then
      let t := t.chain
      let ps := pieces 8 (nth 0 t.spanPos q) (nth 0 t.spanIdx q) (kPer k)
      w.mapAcc a (quarterRows q) fun m n =>
        let x := accScaled (scl m) ps (w.accWord a m n).toNat (w.partWord a m n).toInt (row m) (col n)
        (BitVec.ofNat 32 x.1, BitVec.ofInt 32 x.2.1, x.2.2)
    else
      (w.discard a).mapAcc a (quarterRows q) fun m n =>
        let x := accPlain k (w.accWord a m n) (row m) (col n)
        (x.1, 0, x.2)
  (r.1.setTag a (t.after sc q (kPer k)), r.2)

/-- A quarter operation of MTRN, MPRM or MRED: `f m k` says where A holds 1. -/
def Wave.quarterOnes (w : Wave) (k : Pair) (a q : Nat) (f : Nat → Nat → Bool) (cols : List (List MElem)) : Wave × Fl :=
  let t := w.accTag a
  let r := (w.discard a).mapAcc a (quarterRows q) fun m n =>
    let x := accOnes k (w.accWord a m n) (f m) (nth [] cols n)
    (x.1, 0, x.2)
  (r.1.setTag a (t.after false q (kPer k)), r.2)

/-- R58, R274: the open spans of an accumulator are folded; positions and indexes stay. -/
def Wave.foldOpen (w : Wave) (a : Nat) (scl : Nat → Nat → Nat × Nat) : Wave × Fl :=
  let t := w.accTag a
  t.openQuarters.foldl (fun x q =>
    let r := x.1.mapAcc a (quarterRows q) fun m n =>
      let s := scl m (nth 0 t.spanIdx q)
      let y := foldPart (x.1.accWord a m n).toNat (x.1.partWord a m n).toInt s.1 s.2
      (BitVec.ofNat 32 y.1, 0, y.2)
    (r.1.setTag a { t with dirty := true }, x.2 ||| r.2)) (w, 0)

def tileKey (t j : Nat) : Nat := t * 6144 + j

def Wave.tileByte (w : Wave) (t j : Nat) : Byte := if w.isFaded (.t t) then 0 else Sparse.rd w.t (tileKey t j)

def Wave.setTileByte (w : Wave) (t j : Nat) (x : Byte) : Wave := { w with t := Sparse.wr w.t (tileKey t j) x }

def TileStat.blank : TileStat := ⟨false, false, false⟩

def Wave.tileStat (w : Wave) (t : Nat) : TileStat := w.tstat.lookD t TileStat.blank

/-- The 32 columns of B in a 6,144-byte image (R265). -/
def imageCols (k : Pair) (rd : Nat → Byte) : List (List MElem) :=
  (upto 32).map fun n => (upto (kPer k)).map fun j => elemOfB k (elemBits k (fun o => rd (192 * n + o)) j)

/-- R295: a result row element of MMG from +0: the pieces of the spans it meets. -/
def gatherElem (k : Pair) (sc : Bool) (x : Nat) (scl : Nat → Nat × Nat) (a b : List MElem) : Word × Fl :=
  if sc then
    let r := accScaled scl (pieces 8 (x % 128) (x / 128) (kPer k)) 0 0 a b
    -- a span that goes on into the next MMG is folded here with its partial so far
    if (x + kPer k) % 128 = 0 then (BitVec.ofNat 32 r.1, r.2.2)
    else
      let s := scl ((x + kPer k) / 128)
      let f := foldPart r.1 r.2.1 s.1 s.2
      (BitVec.ofNat 32 f.1, r.2.2 ||| f.2)
  else accPlain k 0 a b

/-- R298: conv of an accumulator element. -/
def mcvtElem (k : McvtTy) (int : Bool) (x : Word) : Nat × Fl :=
  let v := if int then intVal x.toInt else fp32.dec x.toNat
  match k with
  | .int8 => let r := toRange 0 (-128) 127 v; ((BitVec.ofInt 8 r.1).toNat, r.2)
  | .int4 => let r := toRange 0 (-8) 7 v; ((BitVec.ofInt 4 r.1).toNat, r.2)
  | .dp8 => toDp8 v
  | .bf16 => bf16.deliver Mode.rne v
  | .fp16 => fp16.deliver Mode.rne v

/-- R298: the converted block written into column `n` of a tile at K-element `kk`. -/
def Wave.putElem (w : Wave) (k : McvtTy) (t n kk v : Nat) : Wave :=
  match k with
  | .int8 | .dp8 => w.setTileByte t (192 * n + kk) (BitVec.ofNat 8 v)
  | .int4 =>
    let o := 192 * n + kk / 2
    let old := (w.tileByte t o).toNat
    w.setTileByte t o (BitVec.ofNat 8 (if kk % 2 = 0 then old / 16 * 16 + v else v * 16 + old % 16))
  | .bf16 | .fp16 =>
    let o := 192 * n + 2 * kk
    (w.setTileByte t o (BitVec.ofNat 8 v)).setTileByte t (o + 1) (BitVec.ofNat 8 (v / 256))

end Sys2Proof.Machine
end

