-- ==== Sys2Proof/Machine/Perform.lean ====
section
/-!
DEFINITION. The events that bind and perform outstanding memory operations: LOAD_RETURN, OWNERSHIP_ACK, OWNERSHIP_REVOKE,
WRITE_PERFORMED and HBM_REQUEST_SERVE (spec/09_core_memory.md R230 to R250, spec/15_cluster.md R343 to R349, spec/16_die.md R363 to
R369, spec/17_package.md R387, R389). An event whose condition does not hold changes nothing.
-/

namespace Sys2Proof.Machine

/-! ## What a read gives -/

/-- The error that a load of `n` bytes at a place meets: one of the bytes that come from their home. -/
def State.readErr (s : State) (r : Reader) (n : Nat) (p : Place) : Option ReadErr :=
  if (upto n).any fun i => s.readsHome r (p.at_ i) then s.errAt r.wave p else none

/-- The value of an `n`-byte load at a place: zero where the read meets an error. -/
def State.loadValue (s : State) (r : Reader) (n : Nat) (p : Place) : Nat :=
  if (s.readErr r n p).isSome then 0 else s.loadRead r p n

/-- R331: the bytes an open collection supplies replace those of memory. -/
def overlayBytes (mem : Nat) (newer : DWord) (mask : Word) : Nat → Nat
  | 0 => 0
  | n + 1 =>
    let b := if mask.getLsbD n then newer.toNat / 2 ^ (8 * n) % 256 else mem / 2 ^ (8 * n) % 256
    overlayBytes mem newer mask n + b * 2 ^ (8 * n)

/-- R238: the extension of an `n`-byte datum to 64 bits. -/
def extendTo64 (n : Nat) (sx : Bool) (x : Nat) : DWord :=
  if sx && x ≥ 2 ^ (8 * n - 1) then BitVec.ofNat 64 (x + (2 ^ 64 - 2 ^ (8 * n))) else BitVec.ofNat 64 x

/-- The reader that operation `n` is. -/
def State.reader (s : State) (n : Nat) (o : Op) : Reader := ⟨o.wave, n, o.core, s.free⟩

/-- What a load's access delivers. -/
def State.accValue (s : State) (r : Reader) (n : Nat) (sx : Bool) (a : Acc) : DWord :=
  extendTo64 n sx (overlayBytes (s.loadValue r n a.place) a.data a.cmp n)

/-- R231, R344, R377: what a load of `n` bytes leaves in L1, in the memory-side cache and in the pinned windows. A word that it has read at
its home does not stand in L1 with an older value. -/
def State.afterLoad (s : State) (r : Reader) (hint : Hint) (n : Nat) (accs : List Acc) : State :=
  let home := accs.flatMap fun a => ((upto n).map a.place.at_).filter fun p => p.tier == .dev && s.readsHome r p
  let s := (devLines (accs.map Acc.place)).foldl (fun s l =>
    match accs.find? fun a => a.place.tier == .dev && a.place.addr / 64 == l with
    | none => s
    | some a =>
      let s := s.reach l hint true
      if s.poison.contains l then s
      else if hint == .na then s
      else s.fillLine r.core r.draw hint a.place) s
  (if hint == .na then home else home.filter Place.tso).foldl (fun s p => s.dropWord r.core p) s

/-- The end of an operation that has bound or performed all: an acquire invalidates now (R246). -/
def State.finishOp (s : State) (n : Nat) (o : Op) : State :=
  let s := if o.acq then s.dropUnowned o.core else s
  { ((s.hbmDrop n).opDone n) with free := s.free + 1 }

/-! ## Atomics (Table 9.6) -/

def atomicNew (op : AtomOp) (old c d : Word) : Word × Fl :=
  match op with
  | .add => (old + c, 0)
  | .and => (old &&& c, 0)
  | .or => (old ||| c, 0)
  | .xor => (old ^^^ c, 0)
  | .min => (if old.slt c then old else c, 0)
  | .max => (if old.slt c then c else old, 0)
  | .umin => (if old.toNat < c.toNat then old else c, 0)
  | .umax => (if old.toNat < c.toNat then c else old, 0)
  | .swap => (c, 0)
  | .cas => (if old = c then d else old, 0)
  | .fadd => let r := fp32.add Mode.rne (fp32.dec old.toNat) (fp32.dec c.toNat); (BitVec.ofNat 32 r.1, r.2)

/-- R240: one step at the word's home: the value read, and the flags. -/
def State.atomicStep (s : State) (p : Place) (op : AtomOp) (c d : Word) : State × Word × Fl :=
  let old := BitVec.ofNat 32 (s.soundRead p 4)
  let r := atomicNew op old c d
  (s.homeWrite p (bytesLE 4 r.1.toNat), old, r.2)

/-- The step of an operation's lane: an error raises 0x01, and the core's L1 keeps no older value (R344). -/
def State.laneStep (s : State) (o : Op) (op : AtomOp) (a : Acc) : State × Word × Fl :=
  let r := (s.raiseErrs o.wave (s.errAt o.wave a.place).toList).atomicStep a.place op (a.data.setWidth 32) a.cmp
  (r.1.dropWord o.core a.place, r.2)

/-! ## Reservations (R242 to R244) -/

/-- Where reservations are kept together: a home slice, or the core of a scratchpad. -/
def State.resvBank (s : State) (p : Place) : Nat × Nat :=
  match p.tier with
  | .spad t => (1, (s.team t).core)
  | _ => let h := homeOf (p.addr / 4); (0, h.1 * 8 + h.2)

/-- Every reservation of a bank: wave, lane and age. -/
def State.resvIn (s : State) (b : Nat × Nat) : List (Nat × Nat × Nat) :=
  s.waves.flatMap fun (k, w) => (w.resv.filter fun r => s.resvBank r.2.place == b).map fun r => (k, r.1, r.2.made)

/-- R244: a further reservation clears the oldest one of a full bank. -/
def State.reserve (s : State) (w lane made : Nat) (a : DWord) (p : Place) : State :=
  let full := s.resvIn (s.resvBank p)
  let s :=
    if full.length < 4096 then s
    else
      match leastBy (fun x => x.2.2) full with
      | some x => s.updWave x.1 fun w => { w with resv := w.resv.del x.2.1 }
      | none => s
  s.updWave w fun w => { w with resv := w.resv.put lane ⟨a, p, made, 0⟩ }

def State.reserveAll (s : State) (w : Nat) (accs : List Acc) : State :=
  accs.foldl (fun s a =>
    let s := s.updWave w fun w => { w with resv := w.resv.del a.lane }
    match a.place.tier with
    | .dev | .spad _ => s.reserve w a.lane s.free a.virt a.place
    | _ => s) s

/-- R243: the step of one lane of a STCOND, and whether it stored. DEDUCED, log 45. -/
def State.condStep (s : State) (o : Op) (a : Acc) : State × Bool :=
  let ok := (((s.wave o.wave).resv.look a.lane).map fun x => x.virt == a.virt).getD false
  let s :=
    if ok then (s.homeWrite a.place (bytesLE 4 (a.data.setWidth 32 : Word).toNat)).dropWord o.core a.place
    else s.touch a.place 4
  (s.updWave o.wave fun w => { w with resv := w.resv.del a.lane }, ok)

/-! ## LOAD_RETURN -/

/-- The operation goes on with what is left of it, or has performed all. -/
def State.goOn (s : State) (n : Nat) (o : Op) (body : OpBody) (last : Bool) : State :=
  let o' := { o with body := body }
  let s := s.updOp n fun _ => o'
  if last then s.finishOp n o' else { s with free := s.free + 1 }

/-- A load binds. -/
def State.bindLoad (s : State) (n : Nat) (o : Op) (sz : Size) (sx uni : Bool) (hint : Hint) (accs : List Acc) : State :=
  let r := s.reader n o
  let len := sizeBytes sz
  let vals := accs.map fun a => (a, s.accValue r len sx a)
  let s' := s.raiseErrs o.wave (accs.filterMap fun a => s.readErr r len a.place)
  let s' := s'.updWave o.wave fun w =>
    if uni then vals.foldl (fun w v => w.setS v.1.reg v.2) w
    else w.setLanes (vals.flatMap fun v =>
      if len = 8 then pairWrites v.1.reg v.1.lane v.2 else [(v.1.reg, v.1.lane, v.2.setWidth 32)])
  (s'.afterLoad r hint len accs).finishOp n o

/-- The operation binds (loads), or performs the step of its lowest lane left and writes the lane's result (atomics, STCOND):
steps of others may fall between those of two lanes (R240). -/
def State.bind (s : State) (n : Nat) (o : Op) : State :=
  match o.body with
  | .load sz sx uni hint accs => s.bindLoad n o sz sx uni hint accs
  | .reserve accs =>
    let r := s.reader n o
    let vals := accs.map fun a => (a.reg, a.lane, (s.accValue r 4 false a).setWidth 32)
    let s' := s.raiseErrs o.wave (accs.filterMap fun a => s.readErr r 4 a.place)
    let s' := s'.updWave o.wave fun w => w.setLanes vals
    ((s'.afterLoad r .none 4 accs).reserveAll o.wave accs).finishOp n o
  | .atomic op nd (a :: rest) =>
    let r := s.laneStep o op a
    (r.1.updWave o.wave fun w => (w.setLanes [(a.reg, a.lane, r.2.1)]).orFlags r.2.2).goOn n o (.atomic op nd rest) rest.isEmpty
  | .cond pd (a :: rest) =>
    let r := s.condStep o a
    (r.1.updWave o.wave fun w =>
      w.setP pd.toNat ((w.preg pd.toNat &&& ~~~(laneBit a.lane)) ||| if r.2 then laneBit a.lane else 0)).goOn n o (.cond pd rest)
        rest.isEmpty
  | _ => s

/-- What a LOAD_RETURN of the operation accesses: all places of a load, one lane's of the others; `none` when it binds no such
operation. -/
def OpBody.returns : OpBody → Option (List (Place × Nat))
  | .load sz _ _ _ accs => some (accs.map fun a => (a.place, sizeBytes sz))
  | .reserve accs => some (accs.map fun a => (a.place, 4))
  | .cond _ (a :: _) => some [(a.place, 4)]
  | .atomic _ false (a :: _) => some [(a.place, 4)]
  | _ => none

/-- LOAD_RETURN. -/
def execLoadReturn (op : Nat) (s : State) : Host.Outcome State Fault Refusal :=
  match s.ops.look op with
  | none => .next s
  | some o =>
    match o.body.returns with
    | some ps => if !o.done && s.mayPerform op o ps then .next (s.bind op o) else .next s
    | none => .next s

/-! ## Stores -/

def isDevAcc (a : Acc) : Bool := a.place.tier == .dev

/-- R389: the accesses of a store in one class (device memory or not) that its TSO accesses of the other class, earlier in
row-major order, let go. -/
def tsoReady (dev : Bool) : Bool → List Acc → List Acc
  | _, [] => []
  | held, a :: r =>
    if isDevAcc a == dev then (if held && a.place.tso then tsoReady dev held r else a :: tsoReady dev held r)
    else tsoReady dev (held || a.place.tso) r

/-- The lines of which some accesses of `n` bytes write every byte. -/
def wholeLines (n : Nat) (accs : List Acc) : List Nat :=
  let dev := accs.filter isDevAcc
  (devLines (dev.map Acc.place)).filter fun l => (upto 64).all fun i =>
    dev.any fun a => decide (a.place.addr ≤ l * 64 + i) && decide (l * 64 + i < a.place.addr + n)

/-- Some accesses of a store reach their homes; the rest stay outstanding. A line that they write whole is no longer poisoned
(Table 16.1). -/
def State.storeAccs (s : State) (n : Nat) (o : Op) (sz : Size) (hint : Hint) (go accs : List Acc) : State :=
  let s := go.foldl (fun s a => s.store o.core hint a.place (bytesLE (sizeBytes sz) a.data.toNat)) s
  let whole := wholeLines (sizeBytes sz) go
  let s := { s with poison := s.poison.filter fun l => !(whole.contains l) }
  let rest := accs.filter fun a => !(go.contains a)
  s.goOn n o (.store sz hint rest) rest.isEmpty

/-! ## The records of an EAPP (R338, R342) -/

/-- An earlier record holds back a later one of the same EAPP: on common bytes, in the scratchpad, at a vault, between TSO pages;
and an arrival, which is a release, follows all. -/
def partHolds (p q : Place × Effect) : Bool :=
  let a := (p.1, p.2.bytes)
  let b := (q.1, q.2.bytes)
  match q.2 with
  | .arrive .. => true
  | _ => overlaps a b || tierOrdered a b || (p.1.tso && q.1.tso) ||
      (p.1.tier == .vault && q.1.tier == .vault && match p.2 with | .store .. => false | _ => true)

/-- The records for which `f` holds and that none before them holds back, by position. -/
def freeParts (f : Place × Effect → Bool) (parts : List (Place × Effect)) : List Nat :=
  (upto parts.length).filter fun i =>
    match parts[i]? with
    | some q => f q && (parts.take i).all fun p => !(partHolds p q)
    | none => false

/-- The record at position `i` is performed: the words that a store, an atomic step or an arrival reaches. -/
def State.performPart (s : State) (n : Nat) (o : Op) (h k : Nat) (parts : List (Place × Effect)) (more : Bool) (i : Nat) : State :=
  match parts[i]? with
  | none => s
  | some (p, r) =>
    let s := match r with
      | .store _ _ m v => s.store o.core .none p (bytesLE m v.toNat)
      | .atomic _ _ aop v => (s.laneStep o aop ⟨0, 0, p, 0, v.setWidth 64, 0⟩).1
      | .arrive _ m => s.arriveBy o.wave p m
    let rest := parts.eraseIdx i
    s.goOn n o (.apply h k rest more) (rest.isEmpty && !more)

/-- One of the records that may be performed now, freely chosen. DESIGN CHOICE, log 134. -/
def State.choosePart (s : State) (n : Nat) (o : Op) (parts : List (Place × Effect)) (f : Place × Effect → Bool) : Option Nat :=
  let ok := freeParts (fun q => f q && s.mayPerform n { o with rel := match q.2 with | .arrive .. => true | _ => false }
    [(q.1, q.2.bytes)]) parts
  if ok.isEmpty then none else some (nth 0 ok (Config.pick (s.draw 0) % ok.length))

/-- Words a store of `n` bytes at a device place writes. -/
def wordsOf (p : Place) (n : Nat) : List Nat :=
  (upto ((p.addr + n - 1) / 4 - p.addr / 4 + 1)).map fun i => p.addr / 4 + i

/-- The words of device memory that an operation's stores are to write. -/
def OpBody.storeWords (b : OpBody) : List Nat :=
  b.stores.flatMap fun x => if x.1.tier == .dev then wordsOf x.1 x.2.1 else []

/-- R345: every word is owned by no core, or by this one. -/
def State.ownable (s : State) (core : Nat) (ws : List Nat) : Bool :=
  ws.all fun w => match ownerOf s.owners w with | none => true | some c => c == core

/-- A record that a core stores to device memory. -/
def isDevStore (q : Place × Effect) : Bool :=
  q.1.tier == .dev && match q.2 with | .store .. => true | _ => false

/-- OWNERSHIP_ACK: the home slices acknowledge the words of a store. -/
def execOwnershipAck (op : Nat) (s : State) : Host.Outcome State Fault Refusal :=
  match s.ops.look op with
  | none => .next s
  | some o =>
    if o.done then .next s
    else
      match o.body with
      | .store sz hint accs =>
        let go := tsoReady true false accs
        let n := sizeBytes sz
        if !go.isEmpty && s.ownable o.core (go.flatMap fun a => wordsOf a.place n) &&
            s.mayPerform op o (go.map fun a => (a.place, n)) then
          .next (s.storeAccs op o sz hint go accs)
        else .next s
      | .apply h k parts more =>
        match s.choosePart op o parts fun q => isDevStore q && s.ownable o.core (wordsOf q.1 q.2.bytes) with
        | some i => .next (s.performPart op o h k parts more i)
        | none => .next s
      | _ => .next s

/-- OWNERSHIP_REVOKE: the home slice revokes the owner of a word for a store of another core. -/
def execOwnershipRevoke (word : Nat) (s : State) : Host.Outcome State Fault Refusal :=
  match ownerOf s.owners word with
  | none => .next s
  | some c =>
    let wanted := s.ops.any fun (_, o) => !o.done && o.core != c && o.body.storeWords.contains word
    .next (if wanted then s.revoke word else s)

/-- WRITE_PERFORMED: a store outside device memory, a lane of an atomic with .ND or an arrival is performed. -/
def execWritePerformed (op : Nat) (s : State) : Host.Outcome State Fault Refusal :=
  match s.ops.look op with
  | none => .next s
  | some o =>
    if o.done then .next s
    else
      match o.body with
      | .store sz hint accs =>
        let go := tsoReady false false accs
        if !go.isEmpty && s.mayPerform op o (go.map fun a => (a.place, sizeBytes sz)) then
          .next (s.storeAccs op o sz hint go accs)
        else .next s
      | .atomic aop true (a :: rest) =>
        if s.mayPerform op o [(a.place, 4)] then
          .next ((s.laneStep o aop a).1.goOn op o (.atomic aop true rest) rest.isEmpty)
        else .next s
      | .arrive p n =>
        if s.mayPerform op o [(p, 16)] then .next ((s.arriveBy o.wave p n).finishOp op o) else .next s
      | .apply h k parts more =>
        match s.choosePart op o parts fun q => !(isDevStore q) with
        | some i => .next (s.performPart op o h k parts more i)
        | none => .next s
      | _ => .next s

/-! ## HBM_REQUEST_SERVE -/

/-- R364: the tag the scheduler serves next: the one it has begun, else one that passes by hitting the open row, else the
oldest. No request passes one that has waited 4,096 cycles. -/
def serveTag (now : Nat) (serving pass : Option Nat) (q : List HbmReq) : Option Nat :=
  let has := fun (t : Nat) => q.any fun r => r.op == t
  match q with
  | [] => none
  | h :: _ =>
    match serving with
    | some t => if has t then some t else next h has
    | none => next h has
where
  next (h : HbmReq) (has : Nat → Bool) : Option Nat :=
    match pass with
    | some t => if has t && decide (now < h.since + 4096) then some t else some h.op
    | none => some h.op

/-- HBM_REQUEST_SERVE. `err` is what the line code finds on the read. -/
def execHbmRequestServe (die chan : Nat) (pass : Option Nat) (err : LineErr) (s : State) :
    Host.Outcome State Fault Refusal :=
  let d := s.die die
  let q := d.chq.lookD chan []
  match serveTag s.cycle (d.serving.look chan) pass q with
  | none => .next s
  | some t =>
    match q.find? fun r => r.op == t with
    | none => .next s
    | some r =>
      let rest := q.erase r
      let s := s.setDie die { d with
        chq := if rest.isEmpty then d.chq.del chan else d.chq.put chan rest
        serving := d.serving.put chan t }
      .next (s.readLine r.line err)

end Sys2Proof.Machine
end

