-- ==== Sys2Proof/Machine/Matrix.lean ====
section
/-!
DEFINITION. Matrix instructions as they issue, and the events of the partition's matrix queue (spec/10_matrix_engine.md R261 to R281,
spec/11_matrix_instructions.md R282 to R300). An instruction enters its entries with what it read at issue; an entry's event
computes at MATRIX_ENTRY_START and completes at MATRIX_WRITE_COMPLETE.
-/

namespace Sys2Proof.Machine

/-! ## The queue -/

def State.mqAt (s : State) (core part : Nat) : List MEntry := (s.core core).mqOf part

def State.setMq (s : State) (core part : Nat) (q : List MEntry) : State :=
  s.updCore core fun c => { c with mq := if q.isEmpty then c.mq.del part else c.mq.put part q }

/-- The queue that the wave's instructions enter. -/
def State.mqOfWave (s : State) (w : Nat) : List MEntry := s.mqAt (s.coreOf w) (s.wave w).part

/-- R264: the tag of accumulator `a` after every queued entry of the wave that has not started: what an instruction
that issues now meets. DEDUCED, log 57. -/
def State.tagAhead (s : State) (w a : Nat) : AccTag :=
  ((s.mqOfWave w).filter fun m => m.wave == w && !m.started).foldl (fun t m => m.body.retag a t) ((s.wave w).accTag a)

def Wave.flyAcc (w : Wave) (a : Nat) (b : Bool) : Wave := w.setTag a { w.accTag a with inflight := b }

def Wave.flyTile (w : Wave) (t : Nat) (b : Bool) : Wave :=
  { w with tstat := w.tstat.put t { w.tileStat t with inflight := b } }

/-- The accumulator and the tile that an entry writes. MSTA and MCVT write aA where they fold an open span (R274, R290). -/
def MBody.accWritten : MBody → Option Nat
  | .mza _ a => some a
  | .mmq _ _ a _ _ _ => some a
  | .mtrn _ a _ _ _ => some a
  | .mprm _ a _ _ _ => some a
  | .mred _ a _ _ => some a
  | .msta _ a _ f | .mcvt _ _ a _ f => if f then some a else none
  | .mldt .. | .mmg .. => none

def MBody.tileWritten : MBody → Option Nat
  | .mldt t _ => some t
  | .mcvt _ t _ _ _ => some t
  | _ => none

/-- The parts of the accumulator, or of the tile, that an entry writes in full. -/
def MBody.partsWritten : MBody → List (Reg × List Nat)
  | .mldt t _ => [(.t t, [0])]
  | .mza _ a => [(.a a, [0, 1, 2, 3])]
  | .mmq _ _ a _ q _ => [(.a a, [q])]
  | .mtrn _ a _ q _ => [(.a a, [q])]
  | .mprm _ a _ q _ => [(.a a, [q])]
  | .mred _ a _ q => [(.a a, [q])]
  | .msta .. | .mcvt .. | .mmg .. => []

/-- Table 10.1: the datapath cycles of a quarter operation. -/
def quarterCycles : Pair → Nat
  | .i8 | .i4 => 24
  | .i8d8 => 12
  | .bf16 | .f16 => 48

def MBody.cycles : MBody → Nat
  | .mldt .. => 24
  | .msta .. | .mcvt .. => 16
  | .mza .. => 1
  | .mmq k .. | .mmg k .. | .mtrn k .. | .mprm k .. | .mred k .. => quarterCycles k

/-- R275: the registers that an entry writes are in flight. -/
def Wave.fly (w : Wave) (b : MBody) : Wave :=
  let w := match b.accWritten with | some a => w.flyAcc a true | none => w
  match b.tileWritten with | some t => w.flyTile t true | none => w

/-- The entries of one instruction enter the queue; the last of them completes its operations. -/
def State.enterQueue (s : State) (e : Env) (u : List DWord) (mx : DWord) (tOp sOp : Option Nat) (bs : List MBody) : State :=
  let part := (s.wave e.wave).part
  let core := s.coreOf e.wave
  let n := bs.length
  let es := bs.zipIdx.map fun (b, i) => (⟨e.wave, s.nextId, b, u, mx, tOp, sOp, i + 1 == n, [], false, 0, 0, [], []⟩ : MEntry)
  (s.updWave e.wave fun w => bs.foldl Wave.fly w).setMq core part (s.mqAt core part ++ es)

/-- An operation of a matrix instruction counts in `cls` (R277, R286). -/
def State.pushMatrix (s : State) (e : Env) (cls : OpClass) : State :=
  s.pushOp ⟨e.wave, e.mine, s.coreOf e.wave, cls, false, false, [], false, .matrix e.word, false⟩

/-! ## Issue checks -/

/-- R266: the issuing path has a partial quarter, whether or not it has a full one too (R284). DEDUCED, log 145. -/
def partialCause (e : Env) (g : Guard) (s : State) : List Cause :=
  causeIf (partialQuarters (s.pathActive e g)) (whole e 0x20 e.word)

/-- R284: the other causes of a quarter instruction arise only when at least one quarter is full. -/
def ifFull (e : Env) (g : Guard) (s : State) (cs : List Cause) : List Cause :=
  if (fullQuarters (s.pathActive e g)).isEmpty then [] else cs

/-- R273: 0x60 for a tile or an accumulator. -/
def tileCause (e : Env) (t : Nat) (s : State) : List Cause :=
  causeIf (!((s.wave e.wave).tileStat t).valid) (whole e 0x60 t)

def accCause (e : Env) (a : Nat) (int : Bool) (s : State) : List Cause :=
  let t := s.tagAhead e.wave a
  causeIf (!t.valid || t.int != int) (whole e 0x60 (16 + a))

def accAnyCause (e : Env) (a : Nat) (s : State) : List Cause :=
  causeIf (!(s.tagAhead e.wave a).valid) (whole e 0x60 (16 + a))

def leastNat (l : List Nat) : Nat := (leastBy id l).getD 0

/-- A scratchpad cause with its lowest failing offset as a window address (R271). DEDUCED, log 54. -/
def spadCause (e : Env) (code : Nat) (offs : List Nat) : List Cause :=
  causeIf (!offs.isEmpty) (whole e code (spadBase + leastNat offs))

/-- The scratchpad causes of an instruction, from all its failing offsets with their codes: TVAL is the lowest of a code. -/
def spadCauses (e : Env) (fs : List (Nat × Nat)) : List Cause :=
  [0x32, 0x33].flatMap fun c => spadCause e c ((fs.filter fun f => f.1 == c).map Prod.snd)

def State.spadLimit (s : State) (w : Nat) : Nat := (s.team (s.wave w).team).spadLen

/-- R271: the bytes at or above TEAMSP.SPAD. -/
def boundFails (e : Env) (s : State) (offs : List Nat) : List (Nat × Nat) :=
  let n := s.spadLimit e.wave
  (offs.filter fun o => n ≤ o).map fun o => (0x33, o)

/-- A whole range of scratchpad bytes. DEDUCED, log 54. -/
def rangeBounds (e : Env) (s : State) (o n : Nat) : List (Nat × Nat) :=
  let lim := s.spadLimit e.wave
  if o + n > lim then [(0x33, Nat.max o lim)] else []

/-- The offset of a range must be a multiple of `m`. -/
def alignFails (m o : Nat) : List (Nat × Nat) := if o % m != 0 then [(0x32, o)] else []

/-- R278: the scale bases must be multiples of 4 when scales are read, and every scale byte in bounds. -/
def scaleFails (e : Env) (s : State) (mx : DWord) (addrs : List (Nat × Nat)) : List (Nat × Nat) :=
  if addrs.isEmpty then []
  else
    let b := scaleBases mx
    alignFails 4 b.1 ++ alignFails 4 b.2 ++
      boundFails e s (addrs.flatMap fun x => [x.1, x.2].flatMap fun o => (upto 4).map fun i => o + i)

/-- The spans that a scaled operation of `n` positions from a chain position folds. -/
def foldsFrom (pos idx n : Nat) : List Nat := (pieces 8 pos idx n).filterMap Piece.fold

/-- The A rows of a quarter. -/
def unfRows (k : Pair) (u : Unf) (q koff : Nat) : List (List AElem) :=
  (quarterRows q).map fun m => rowElems k (u.elem m) (16 * koff)

/-- R271 for the bytes that some rows read. DEDUCED, log 111. -/
def rowFails (e : Env) (s : State) (k : Pair) (u : Unf) (rows : List (List AElem)) : List (Nat × Nat) :=
  let offs := rows.flatMap (rowOffs k u)
  (if !(pairInt k) && u.base % 2 == 1 then [(0x32, if offs.isEmpty then u.base else leastNat offs)] else []) ++
    boundFails e s offs

/-- The K origin of quarter `q` in MXKOFF. -/
def koffOf (x : DWord) (q : Nat) : Nat := bitsN x.toNat (16 * q + 15) (16 * q)

/-- R270, R272: the origins of some quarters advance by K ÷ 16. -/
def advanceKoff (x : DWord) (qs : List Nat) (k : Pair) : DWord :=
  BitVec.ofNat 64 ((upto 4).foldl (fun n q =>
    n + (if qs.contains q then (koffOf x q + kPer k / 16) % 2 ^ 16 else koffOf x q) * 2 ^ (16 * q)) 0)

/-! ## MUNF, MSCL -/

/-- R287. -/
def Wave.setUnfold (w : Wave) (ds : List DWord) : Wave :=
  let m := ds.zipIdx.map fun (d, i) => d &&& unfMask i
  let korg := (Unf.of m).korg
  { w with
    unfold := m.zipIdx.foldl (fun t (d, i) => Sparse.wr t i d) w.unfold
    mxkoff := BitVec.ofNat 64 (korg * (1 + 2 ^ 16 + 2 ^ 32 + 2 ^ 48)) }

def execMunf (g : Guard) (a : SReg) (s : State) : Host.Outcome State Fault Refusal :=
  let i := Instr.munf g a
  issue i g groupCause (fun e s =>
    s.updWave e.wave fun w => w.setUnfold ((upto 8).map fun j => w.sreg (a.toNat + j))) s

/-- R288. -/
def execMscl (g : Guard) (a b : SReg) (s : State) : Host.Outcome State Fault Refusal :=
  let i := Instr.mscl g a b
  issue i g groupCause (fun e s =>
    s.updWave e.wave fun w => { w with mxscl := (w.sreg b.toNat).setWidth 32 ++ ((w.sreg a.toNat).setWidth 32 : Word) }) s

/-! ## Whole-register instructions -/

/-- R289. -/
def execMldt (g : Guard) (d : TReg) (a : SReg) (s : State) : Host.Outcome State Fault Refusal :=
  let i := Instr.mldt g d a
  issue i g
    (fun e s =>
      let o := ((s.wave e.wave).sreg a.toNat).toNat
      groupCause e s ++ spadCauses e (alignFails 16 o ++ rangeBounds e s o 6144))
    (fun e s =>
      let n := s.nextId
      let o := ((s.wave e.wave).sreg a.toNat).toNat
      (s.pushMatrix e .tile).enterQueue e [] 0 (some n) none [.mldt d.toNat o]) s

/-- The scales that a fold of accumulator `a` reads (R290, R298). -/
def State.foldScales (s : State) (w a : Nat) : List (Nat × Nat) :=
  let x := s.wave w
  let t := s.tagAhead w a
  t.openQuarters.flatMap fun q => (quarterRows q).map fun m => (Unf.of x.unfList).scales x.mxscl m (nth 0 t.spanIdx q)

/-- The accumulator has an open span when the instruction's entry comes to it. -/
def State.opensSpan (s : State) (w a : Nat) : Bool := !(s.tagAhead w a).openQuarters.isEmpty

/-- R290. -/
def execMsta (g : Guard) (bf : Bool) (a : AReg) (b : SReg) (s : State) : Host.Outcome State Fault Refusal :=
  let i := Instr.msta g bf a b
  issue i g
    (fun e s =>
      let x := s.wave e.wave
      let o := (x.sreg b.toNat).toNat
      groupCause e s ++ spadCauses e (alignFails 16 o ++ rangeBounds e s o (1024 * if bf then 2 else 4) ++
        scaleFails e s x.mxscl (s.foldScales e.wave a.toNat)) ++ s.collectCause e ++ accAnyCause e a.toNat s)
    (fun e s =>
      let n := s.nextId
      let x := s.wave e.wave
      (s.pushMatrix e .store).enterQueue e x.unfList x.mxscl none (some n) [.msta bf a.toNat (x.sreg b.toNat).toNat (s.opensSpan e.wave a.toNat)]) s

/-- R291. -/
def execMza (g : Guard) (int : Bool) (d : AReg) (s : State) : Host.Outcome State Fault Refusal :=
  issue (.mza g int d) g groupCause (fun e s => s.enterQueue e [] 0 none none [.mza int d.toNat]) s

/-- R298. -/
def execMcvt (g : Guard) (k : McvtTy) (d : TReg) (a : AReg) (j : BitVec 4) (s : State) : Host.Outcome State Fault Refusal :=
  let i := Instr.mcvt g k d a j
  issue i g
    (fun e s =>
      let x := s.wave e.wave
      groupCause e s ++ spadCauses e (scaleFails e s x.mxscl (s.foldScales e.wave a.toNat)) ++ accAnyCause e a.toNat s)
    (fun e s =>
      let x := s.wave e.wave
      s.enterQueue e x.unfList x.mxscl none none [.mcvt k d.toNat a.toNat j.toNat (s.opensSpan e.wave a.toNat)]) s

/-! ## Quarter instructions -/

/-- The scale addresses that an MMQ reads in quarter `q` (R278). DEDUCED, log 57. -/
def State.mmqScales (s : State) (w : Nat) (k : Pair) (a q : Nat) : List (Nat × Nat) :=
  let x := s.wave w
  let t := (s.tagAhead w a).chain
  let u := Unf.of x.unfList
  (foldsFrom (nth 0 t.spanPos q) (nth 0 t.spanIdx q) (kPer k)).flatMap fun f =>
    (quarterRows q).map fun m => u.scales x.mxscl m f

/-- R292: the checks of MMQ and MMW over the quarters `qs`. When tile and accumulator are both invalid, TVAL names the tile.
DESIGN CHOICE, log 146. -/
def mmqCauses (e : Env) (k : Pair) (sc : Bool) (d : AReg) (b : TReg) (qs : List Nat) (s : State) : List Cause :=
  let x := s.wave e.wave
  let u := Unf.of x.unfList
  tileCause e b.toNat s ++ accCause e d.toNat (wantsInt k sc) s ++
    spadCauses e (rowFails e s k u (qs.flatMap fun q => unfRows k u q (koffOf x.mxkoff q)) ++
      if sc then scaleFails e s x.mxscl (qs.flatMap fun q => s.mmqScales e.wave k d.toNat q) else [])

/-- R292: one entry for each quarter, T once, the origins advance. -/
def mmqEnter (e : Env) (k : Pair) (sc : Bool) (d : AReg) (b : TReg) (qs : List Nat) (s : State) : State :=
  let n := s.nextId
  let x := s.wave e.wave
  ((s.pushMatrix e .tile).enterQueue e x.unfList x.mxscl (some n) none
      (qs.map fun q => .mmq k sc d.toNat b.toNat q (koffOf x.mxkoff q))).updWave e.wave fun w =>
    { w with mxkoff := advanceKoff w.mxkoff qs k }

def execMmq (g : Guard) (k : Pair) (sc : Bool) (d : AReg) (b : TReg) (s : State) : Host.Outcome State Fault Refusal :=
  issue (.mmq g k sc d b) g
    (fun e s => partialCause e g s ++ ifFull e g s (groupCause e s ++ mmqCauses e k sc d b (fullQuarters e.act) s))
    (fun e s => mmqEnter e k sc d b (fullQuarters e.act) s) s

/-- R294. -/
def execMmw (g : Guard) (k : Pair) (sc : Bool) (d : AReg) (b : TReg) (s : State) : Host.Outcome State Fault Refusal :=
  issue (.mmw g k sc d b) g
    (fun e s =>
      causeIf (s.pathActive e g != BitVec.allOnes 32) (whole e 0x20 e.word) ++ groupCause e s ++
        mmqCauses e k sc d b [0, 1, 2, 3] s)
    (fun e s => mmqEnter e k sc d b [0, 1, 2, 3] s) s

/-! ### MMG (R295, R296) -/

def gatherRows (k : Pair) (u : Unf) (w : Wave) (a : VReg) (q koff : Nat) : List (List AElem) :=
  (quarterRows q).map fun m => rowElems k (u.gather (w.vreg a.toNat m).toNat) (16 * koff)

/-- The wave's own scratchpad accesses older than number `before`, copy chunks excepted, have been performed: those of loads, stores
and atomics, of the tree unit, and the writes of matrix instructions other than the operations `own` (R277, R230). -/
def State.spadSettled (s : State) (w before : Nat) (own : List Nat) : Bool :=
  s.ops.all fun (n, o) => o.wave != w || o.done || decide (before ≤ n) || own.contains n ||
    match o.body with
    | .tree _ => false
    | .matrix _ => o.cls != .store
    | _ => !(o.body.places.any fun p => isSpad p.1.tier)

/-- The bytes of a team's scratchpad; a word in error reads as zero (R226). -/
def State.spadRd (s : State) (t o : Nat) : Byte :=
  let p : Place := ⟨.spad t, o, 0, false⟩
  if s.upsetAt p then 0 else s.placeByte p

def State.spadWord (s : State) (t o : Nat) : Nat := natOfBytes ((upto 4).map fun i => s.spadRd t (o + i))

/-- The index-list entry of result row `m` (R296). -/
def State.mmgEntry (s : State) (w : Nat) (d : SReg) (m : Nat) : Nat :=
  s.spadWord (s.wave w).team (((s.wave w).sreg d.toNat).toNat + 4 * m)

def targetOffs (u : Unf) (entry : Nat) : List Nat :=
  if entry = 2 ^ 32 - 1 then [] else (upto 32).map fun n => u.sbase + 4 * (entry * u.spitch + n)

/-- The scale addresses of the gathered rows of quarter `q`. -/
def mmgScales (w : Wave) (k : Pair) (u : Unf) (a : VReg) (q : Nat) : List (Nat × Nat) :=
  let x := 16 * koffOf w.mxkoff q
  (upto ((x + kPer k - 1) / 128 - x / 128 + 1)).flatMap fun i =>
    (quarterRows q).map fun m => u.gatherScales w.mxscl (w.vreg a.toNat m).toNat (x / 128 + i)

/-- The checks of R296 over the full quarters. -/
def mmgCauses (e : Env) (k : Pair) (sc : Bool) (d : SReg) (a : VReg) (b : TReg) (s : State) : List Cause :=
  let w := s.wave e.wave
  let u := Unf.of w.unfList
  let qs := fullQuarters e.act
  let ms := qs.flatMap quarterRows
  let base := (w.sreg d.toNat).toNat
  let lim := s.spadLimit e.wave
  let list := ms.flatMap fun m => (upto 4).map fun i => base + 4 * m + i
  let tgt := (ms.filter fun m => base + 4 * m + 4 ≤ lim).flatMap fun m => targetOffs u (s.mmgEntry e.wave d m)
  tileCause e b.toNat s ++
    spadCauses e (alignFails 4 base ++ alignFails 4 u.sbase ++
      boundFails e s (list ++ tgt.flatMap fun o => (upto 4).map fun i => o + i) ++
      rowFails e s k u (qs.flatMap fun q => gatherRows k u w a q (koffOf w.mxkoff q)) ++
      if sc then scaleFails e s w.mxscl (qs.flatMap fun q => mmgScales w k u a q) else [])

def execMmg (g : Guard) (k : Pair) (sc : Bool) (d : SReg) (a : VReg) (b : TReg) (s : State) : Host.Outcome State Fault Refusal :=
  let i := Instr.mmg g k sc d a b
  let ready := fun (e : Env) (s : State) => s.spadSettled e.wave s.nextId []
  issueWith i g false
    (fun e s =>
      -- the index list is read at its place in the scratchpad's order, and all causes are weighed together
      if ready e s then partialCause e g s ++ ifFull e g s (groupCause e s ++ s.collectCause e ++ mmgCauses e k sc d a b s) else [])
    (fun e s => if ready e s then none else some 15)
    (seqAct i fun e s =>
      let n := s.nextId
      let w := s.wave e.wave
      let qs := fullQuarters e.act
      (((s.pushMatrix e .tile).pushMatrix e .store).enterQueue e w.unfList w.mxscl (some n) (some (n + 1))
          (qs.map fun q => .mmg k sc b.toNat q (koffOf w.mxkoff q)
            ((quarterRows q).map fun m => (w.vreg a.toNat m).toNat)
            ((quarterRows q).map fun m => s.mmgEntry e.wave d m))).updWave e.wave fun w =>
        { w with mxkoff := advanceKoff w.mxkoff qs k }) noCause s

/-! ### MTRN, MPRM, MRED (R297) -/

/-- The shared form: `mk` makes the entry of a quarter. -/
def constOp (i : Instr) (g : Guard) (k : Pair) (d : AReg) (b : TReg) (mk : Wave → Nat → MBody) (s : State) :
    Host.Outcome State Fault Refusal :=
  issue i g
    (fun e s => partialCause e g s ++ ifFull e g s (groupCause e s ++ tileCause e b.toNat s ++ accCause e d.toNat (wantsInt k false) s))
    (fun e s => s.enterQueue e [] 0 none none ((fullQuarters e.act).map (mk (s.wave e.wave)))) s

def execMtrn (g : Guard) (k : Pair) (d : AReg) (b : TReg) (j : BitVec 3) (s : State) : Host.Outcome State Fault Refusal :=
  constOp (.mtrn g k d b j) g k d b (fun _ q => .mtrn k d.toNat b.toNat q j.toNat) s

def execMprm (g : Guard) (k : Pair) (d : AReg) (a : VReg) (b : TReg) (s : State) : Host.Outcome State Fault Refusal :=
  constOp (.mprm g k d a b) g k d b
    (fun w q => .mprm k d.toNat b.toNat q ((quarterRows q).map fun m => (w.vreg a.toNat m).toNat)) s

def execMred (g : Guard) (k : Pair) (d : AReg) (b : TReg) (s : State) : Host.Outcome State Fault Refusal :=
  constOp (.mred g k d b) g k d b (fun _ q => .mred k d.toNat b.toNat q) s

/-! ## MATRIX_ENTRY_START (R285) -/

/-- The scratchpad bytes an entry reads (R277, R278). -/
def MEntry.reads (m : MEntry) (w : Wave) : List Nat :=
  let u := Unf.of m.unfold
  let words := fun (l : List (Nat × Nat)) => l.flatMap fun x => [x.1, x.2].flatMap fun o => (upto 4).map fun i => o + i
  let folds := fun (a : Nat) =>
    let t := w.accTag a
    t.openQuarters.flatMap fun q => (quarterRows q).map fun r => u.scales m.mxscl r (nth 0 t.spanIdx q)
  match m.body with
  | .mldt _ o => (upto 6144).map fun i => o + i
  | .msta _ a _ _ => words (folds a)
  | .mcvt _ _ a _ _ => words (folds a)
  | .mmq k sc a _ q koff =>
    let t := (w.accTag a).chain
    (unfRows k u q koff).flatMap (rowOffs k u) ++
      (if sc then words ((foldsFrom (nth 0 t.spanPos q) (nth 0 t.spanIdx q) (kPer k)).flatMap fun f =>
        (quarterRows q).map fun r => u.scales m.mxscl r f) else [])
  | .mmg k sc _ _ koff idx _ =>
    let x := 16 * koff
    (idx.flatMap fun i => rowOffs k u (rowElems k (u.gather i) x)) ++
      (if sc then words ((upto ((x + kPer k - 1) / 128 - x / 128 + 1)).flatMap fun j =>
        idx.map fun i => u.gatherScales m.mxscl i (x / 128 + j)) else [])
  | .mza .. | .mtrn .. | .mprm .. | .mred .. => []

/-- R306: every older scratchpad access of the wave has been performed, the reads of matrix instructions, of conversions, of copies and of
remote operations included, and the writes of replies. -/
def State.spadQuiet (s : State) (w before : Nat) (own : List Nat) : Bool :=
  s.spadSettled w before own &&
    (s.ops.all fun (n, o) => o.wave != w || o.done || decide (before ≤ n) || own.contains n ||
      match o.body with
      | .matrix _ => false
      | .copy word runs =>
        !(runs.any fun r => isSpad r.src.tier || isSpad r.dst.tier) && (word.map fun x => isSpad x.2.tier) != some true
      | .remote r => !(r.loc.any fun x => isSpad x.1.tier) && (r.word.map fun p => isSpad p.tier) != some true
      | _ => true) &&
    (s.core (s.coreOf w)).mq.all fun q => q.2.all fun m =>
      m.wave != w || m.started || decide (before ≤ m.born) || (m.reads (s.wave w)).isEmpty

/-- What the entry makes: its wave's registers after it, its flags, and the scratchpad writes and additions to come. -/
structure MDone where
  wave : Wave
  flags : Fl
  writes : List Host.Cell
  adds : List (Nat × Word)
  deriving DecidableEq, Repr

/-- MSTA after its fold: the stored bytes. -/
def mstaWrites (w : Wave) (bf : Bool) (a o : Nat) : List Host.Cell × Fl :=
  let int := (w.accTag a).int
  (accCells (upto 32)).foldl (fun x c =>
    let v := w.accWord a c.1 c.2
    if bf then
      let r := bf16.deliver Mode.rne (if int then intVal v.toInt else fp32.dec v.toNat)
      let p := o + 2 * (32 * c.1 + c.2)
      (x.1 ++ ((bytesLE 2 r.1).zipIdx.map fun (b, i) => (p + i, b)), x.2 ||| r.2)
    else
      let p := o + 4 * (32 * c.1 + c.2)
      (x.1 ++ ((bytesLE 4 v.toNat).zipIdx.map fun (b, i) => (p + i, b)), x.2)) ([], 0)

/-- The computation of an entry over a scratchpad reader (R267, R289 to R298). -/
def MEntry.compute (m : MEntry) (rd : Nat → Byte) (w : Wave) : MDone :=
  let u := Unf.of m.unfold
  let word := fun (o : Nat) => natOfBytes ((upto 4).map fun i => rd (o + i))
  let scl := fun (r f : Nat) => let x := u.scales m.mxscl r f; (word x.1, word x.2)
  let cols := fun (k : Pair) (t : Nat) => imageCols k fun j => w.tileByte t j
  match m.body with
  | .mldt t o =>
    let w := (upto 6144).foldl (fun w j => w.setTileByte t j (rd (o + j))) w
    ⟨{ w with tstat := w.tstat.put t ⟨true, true, true⟩ }, 0, [], []⟩
  | .mza int a => ⟨w.zeroAcc a int, 0, [], []⟩
  | .msta bf a o _ =>
    let r := w.foldOpen a scl
    let x := mstaWrites r.1 bf a o
    ⟨r.1, r.2 ||| x.2, x.1, []⟩
  | .mmq k sc a t q koff =>
    let rows := (unfRows k u q koff).map fun r => r.map fun x => x.value k u rd
    let r := w.quarterMul k sc a q rows (cols k t) scl
    ⟨r.1, r.2, [], []⟩
  | .mmg k sc t _ koff idx entries =>
    let cs := cols k t
    let sums := (idx.zip entries).flatMap fun (i, en) =>
      let row := (rowElems k (u.gather i) (16 * koff)).map fun x => x.value k u rd
      let sg := fun (f : Nat) => let x := u.gatherScales m.mxscl i f; (word x.1, word x.2)
      (targetOffs u en).zipIdx.map fun (o, n) => (o, gatherElem k sc (16 * koff) sg row (nth [] cs n))
    ⟨w, sums.foldl (fun f x => f ||| x.2.2) 0, [], sums.map fun x => (x.1, x.2.1)⟩
  | .mtrn k a t q j =>
    let r := w.quarterOnes k a q (fun r x => x == r + 32 * j) (cols k t)
    ⟨r.1, r.2, [], []⟩
  | .mprm k a t q idx =>
    let r := w.quarterOnes k a q (fun r x => x == nth (2 ^ 32) idx (r - 8 * q)) (cols k t)
    ⟨r.1, r.2, [], []⟩
  | .mred k a t q =>
    let r := w.quarterOnes k a q (fun _ _ => true) (cols k t)
    ⟨r.1, r.2, [], []⟩
  | .mcvt k t a j _ =>
    let r := w.foldOpen a scl
    let w := if (r.1.tileStat t).valid then r.1
      else { r.1 with t := Sparse.keepKeys (fun x => x / 6144 != t) r.1.t }.wrote (.t t) [0]
    let int := (w.accTag a).int
    let x := (accCells (upto 32)).foldl (fun (x : Wave × Fl) c =>
      let v := mcvtElem k int (w.accWord a c.1 c.2)
      (x.1.putElem k t c.2 (32 * j + c.1) v.1, x.2 ||| v.2)) (w, r.2)
    ⟨{ x.1 with tstat := x.1.tstat.put t ⟨true, true, true⟩ }, x.2, [], []⟩

/-- The first entry of the queue that has not started. -/
def nextEntry (q : List MEntry) : Option (Nat × MEntry) :=
  match firstIdx (fun (m : MEntry) => !m.started) q 0 with
  | none => none
  | some i => (q.drop i).head?.map fun m => (i, m)

def State.opDone? (s : State) (n : Option Nat) : State :=
  match n with
  | some k => s.opDone k
  | none => s

def coreKey (c : CoreId) : Nat := c.die * 64 + c.core

/-- R262, R285: the datapath is free: no started entry's cycles go on. -/
def datapathFree (now : Nat) (q : List MEntry) : Bool := q.all fun m => !m.started || decide (m.ends ≤ now)

/-- The scratchpad bytes that an entry has still to read. -/
def MEntry.toRead (m : MEntry) (w : Wave) : List Nat :=
  (m.reads w).foldl (fun l o => if (m.got.any fun g => g.1 == o) || l.contains o then l else l ++ [o]) []

/-- Some bytes are read, one after another at their own place in the scratchpad's order (R299); a word in error raises 0x01. -/
def State.entryReads (s : State) (m : MEntry) (offs : List Nat) : State × MEntry :=
  let t := (s.wave m.wave).team
  let bad := if (s.team t).spadUpset.isEmpty then [] else offs.filter fun o => s.upsetAt ⟨.spad t, o, 0, false⟩
  (s.raiseErrs m.wave (bad.map fun o => (2, s.coreUnit m.wave, o)), { m with got := m.got ++ offs.map fun o => (o, s.spadRd t o) })

/-- The byte of an entry's reads. -/
def MEntry.byte (m : MEntry) (o : Nat) : Byte := ((m.got.find? fun g => g.1 == o).map Prod.snd).getD 0

/-- R281: the tiles and accumulators that an entry reads when it computes. -/
def MBody.readsReg : MBody → Reg → Bool
  | .msta _ a _ _, r => r == .a a
  | .mcvt _ t a _ _, r => r == .a a || r == .t t
  | .mmq _ _ a t _ _, r => r == .a a || r == .t t
  | .mmg _ _ t _ _ _ _, r => r == .t t
  | .mtrn _ a t _ _, r => r == .a a || r == .t t
  | .mprm _ a t _ _, r => r == .a a || r == .t t
  | .mred _ a t _, r => r == .a a || r == .t t
  | .mldt .., _ | .mza .., _ => false

/-- The entry has read all: a register that it reads and that holds an uncorrectable error is found (R281), it computes, and completes its instruction's T count when it is the last. -/
def State.entryComputes (s : State) (k part i : Nat) (q : List MEntry) (m : MEntry) : State :=
  let s := s.checkRegs m.wave m.body.readsReg
  let r := m.compute m.byte (s.wave m.wave)
  let s := s.updWave m.wave fun _ => m.body.partsWritten.foldl (fun w x => w.wrote x.1 x.2) r.wave
  let s := s.setMq k part (setIdx q i { m with
    started := true, ends := s.cycle + m.body.cycles, flags := r.flags, writes := r.writes, adds := r.adds })
  if m.last then s.opDone? m.tOp else s

/-- MATRIX_ENTRY_START: the next entry reads as many of its bytes as the free value says, and computes when it has them all.
DESIGN CHOICE, log 134. -/
def execMatrixEntryStart (core : CoreId) (part : Nat) (s : State) : Host.Outcome State Fault Refusal :=
  let k := coreKey core
  let q := s.mqAt k part
  match nextEntry q with
  | none => .next s
  | some (i, m) =>
    if !(datapathFree s.cycle q) || !(s.spadSettled m.wave m.born (m.tOp.toList ++ m.sOp.toList)) then .next s
    else
      let todo := m.toRead (s.wave m.wave)
      let n := 1 + Config.pick (s.draw 0) % Nat.max 1 todo.length
      let r := s.entryReads m (todo.take n)
      if todo.length ≤ n then .next (r.1.entryComputes k part i q r.2)
      else .next { r.1.setMq k part (setIdx q i r.2) with free := s.free + 1 }

/-! ## MATRIX_WRITE_COMPLETE (R264) -/

/-- The in-flight bits of a wave as the entries left in its queue make them. -/
def Wave.landed (left : List MEntry) (b : MBody) (w : Wave) : Wave :=
  let w := match b.accWritten with
    | some a => if left.any fun m => m.body.accWritten == some a then w else w.flyAcc a false
    | none => w
  match b.tileWritten with
  | some t => if left.any fun m => m.body.tileWritten == some t then w else w.flyTile t false
  | none => w

/-- R296: one element addition at the scratchpad; a word in error reads as zero and raises 0x01 (R226). -/
def State.scatterAdd (s : State) (w t : Nat) (int : Bool) (o : Nat) (x : Word) : State × Fl :=
  let s := s.raiseErrs w (s.errAt w ⟨.spad t, o, 0, false⟩).toList
  let old := BitVec.ofNat 32 (s.spadWord t o)
  let r := if int then satS 32 (old.toInt + x.toInt)
    else let y := addF32 old.toNat x.toNat; (BitVec.ofNat 32 y.1, y.2)
  (s.homeWrite ⟨.spad t, o, 0, false⟩ (bytesLE 4 r.1.toNat), r.2)

/-- The entry's additions sum into INT32 elements. -/
def MBody.addsInt : MBody → Bool
  | .mmg k sc .. => wantsInt k sc
  | _ => false

/-- R296, R277: the additions of an instruction follow the reads of all its quarters. -/
def readsLeft (m : MEntry) (rest : List MEntry) : Bool := rest.any fun x => !x.started && x.sOp == m.sOp && m.sOp.isSome

/-- MATRIX_WRITE_COMPLETE: an addition of the oldest entry is made, one at a time, since other accesses may fall between them (R279);
then the entry's writes complete, its flags reach FLAGS, and its S count completes. The bytes of an MSTA fall at one place of the
scratchpad's order. DESIGN CHOICE, log 147. -/
def execMatrixWriteComplete (core : CoreId) (part : Nat) (s : State) : Host.Outcome State Fault Refusal :=
  let k := coreKey core
  match s.mqAt k part with
  | [] => .next s
  | m :: rest =>
    if !m.started || decide (s.cycle < m.ends + 8) then .next s
    else
      let t := (s.wave m.wave).team
      match m.adds with
      | c :: more =>
        if readsLeft m rest then .next s
        else
          let r := s.scatterAdd m.wave t m.body.addsInt c.1 c.2
          .next (r.1.setMq k part ({ m with adds := more, flags := m.flags ||| r.2 } :: rest))
      | [] =>
        let s := s.setMq k part rest
        let s := m.writes.foldl (fun s c => s.writeByte ⟨.spad t, c.1, 0, false⟩ c.2) s
        let s := s.updWave m.wave fun w => (w.landed (rest.filter fun x => x.wave == m.wave) m.body).orFlags m.flags
        .next (if m.last then s.opDone? m.sOp else s)

end Sys2Proof.Machine
end

