-- ==== Sys2Proof/Machine/Waits.lean ====
section
/-!
DEFINITION. The events that end waits and deliver boundary causes (spec/07_wave_control.md R180, R181, R200), and those of regrouping,
merging and fairness (spec/05_wave_state.md R123 to R132).
-/

namespace Sys2Proof.Machine

/-! ## Boundary causes (R200) -/

/-- The pending cause of least code, and those that stay pending. -/
def takeBoundary (b : List (Nat × Nat)) : Option ((Nat × Nat) × List (Nat × Nat)) :=
  (leastBy Prod.fst b).map fun c => (c, b.erase c)

/-- R200, R203, R420: the lowest pending code is delivered in every home wave that holds it; a group dissolves first. A
wave with a path in a handler delivers only there (R202). -/
def State.deliverBoundary (s : State) (p : PathRef) (l : Leaf) : State :=
  let hs := s.homes p
  let due := hs.filterMap fun h =>
    (takeBoundary (s.wave h.1).boundary).map fun c => (h.1, l.mask &&& h.2, c.1.1, c.1.2)
  let code := (due.map fun d => d.2.2.1).foldl Nat.min 0xFFFF
  let mine := due.filter fun d => d.2.2.1 == code
  let s := mine.foldl (fun s d => s.updWave d.1 fun w => { w with boundary := w.boundary.erase (code, d.2.2.2) }) s
  s.raise p (mine.map fun d => ⟨d.1, code, d.2.1, d.2.2.2⟩) false

/-- R200, R202: a boundary cause is pending for a wave of the path, and the path may take it. -/
def State.boundaryDue (s : State) (p : PathRef) (l : Leaf) : Bool :=
  let w := s.wave p.wave
  l.wait == .idle && !l.stopped && !(s.frozen p.wave) && (s.eappOpen p.wave l.mask).isNone && ((s.homes p).any fun h => !(s.wave h.1).boundary.isEmpty) &&
    (w.trapSlot.isNone || l.mask &&& w.trapMask != 0)

/-- BOUNDARY_CAUSE_DELIVERY. A tile macro of the wave is asked to stop first (R358). -/
def execBoundaryCauseDelivery (p : PathRef) (s : State) : Host.Outcome State Fault Refusal :=
  match s.leafAt p with
  | none => .next s
  | some l =>
    if s.boundaryDue p l then
      match (s.wave p.wave).mmt with
      | some m => if m.stop then .next (s.hold 13) else .next (s.updWave p.wave fun w => { w with mmt := some { m with stop := true } })
      | none => .next (s.deliverBoundary p l)
    else .next s

/-! ## Waits -/

/-- WAITC_COMPLETE: the counters of every home wave that had an active lane meet the thresholds (R128). -/
def execWaitcComplete (p : PathRef) (s : State) : Host.Outcome State Fault Refusal :=
  match s.leafAt p with
  | none => .next s
  | some l =>
    match l.wait with
    | .counters ws a b c t =>
      if ws.all fun h => (s.waitcHold h a b c t).isNone then
        let k := s.place p
        .next ((s.waitOver p).finishIssue p k (.waitc Guard.always (BitVec.ofNat 6 a) (BitVec.ofNat 6 b) (BitVec.ofNat 6 c)
          (BitVec.ofNat 6 t)) [])
      else .next s
    | _ => .next s

/-- WAITW_COMPLETE: every awaited word has moved from the generation captured for it; an acquire in each home wave. -/
def execWaitwComplete (p : PathRef) (s : State) : Host.Outcome State Fault Refusal :=
  match s.leafAt p with
  | none => .next s
  | some l =>
    match l.wait with
    | .word ws =>
      if ws.all fun x => s.genAt x.2.1 != x.2.2 then
        let k := s.place p
        .next ((((s.genErrs ws).passWaits p (ws.map Prod.fst)).waitOver p).finishIssue p k (.waitw Guard.always 0 0 0) [])
      else .next s
    | _ => .next s

/-! ## Regrouping and merging -/

/-- REGROUP_WINDOW_CLOSE: on full arrival, or RGWIN cycles after it opened (R126, R127). -/
def execRegroupWindowClose (team part : Nat) (brd : Nat) (s : State) : Host.Outcome State Fault Refusal :=
  match s.regroup.find? (windowKey team part (BitVec.ofNat 64 brd)) with
  | none => .next s
  | some r =>
    if s.windowFull r || s.windowOver r then .next (s.closeWindow r) else .next s

/-- REGION_RESUME. -/
def execRegionResume (wave : Nat) (s : State) : Host.Outcome State Fault Refusal := .next (s.resumeRegion wave)

/-- R132: the conditions on one of the two waves. -/
def State.mergeable (s : State) (k : Nat) : Bool :=
  let w := s.wave k
  w.cond == .resident && w.converged && !w.collAct && w.mmt.isNone &&
    (w.tstat.all fun t => !t.2.valid) && (w.acc.all fun a => !a.2.valid) &&
    (s.ops.all fun o => o.2.wave != k) &&
    match w.slotA.running with
    | some l => l.pos == 0 && l.wait == .idle && !l.stopped
    | none => false

/-- R132: the active lanes of a partition's resident waves, and how many those waves are; a wave in the Paddock counts as resident.
DESIGN CHOICE, log 141. -/
def State.meanLanes (s : State) (core part : Nat) : Nat × Nat :=
  s.waves.foldl (fun (a : Nat × Nat) (k, w) =>
    if w.cond == .resident && w.part == part && s.coreOf k == core then
      (a.1 + (lanesOf (w.slotA.lanes ||| w.slotB.lanes)).length, a.2 + 1)
    else a) (0, 0)

/-- R132: where each moved lane goes: the active lanes of the other wave, ascending, to the free lanes, ascending. -/
def mergeMap (kept moved : Mask) : List (Nat × Nat) := (lanesOf moved).zip (lanesOf (~~~kept))

/-- The registers and predicates of a moved lane, copied. -/
def Wave.takeLane (x y : Wave) (vg : Nat) (m : Nat × Nat) : Wave :=
  let x := (upto (8 * vg)).foldl (fun x n => x.setV n m.2 (y.vreg n m.1)) x
  (upto 16).foldl (fun x n =>
    let q := if (y.preg n).getLsbD m.1 then x.preg n ||| laneBit m.2 else x.preg n &&& ~~~(laneBit m.2)
    x.setP n q) x

/-- R132: the two waves are merged. -/
def State.merges (s : State) (lo hi : Nat) : Bool :=
  let x := s.wave lo
  let y := s.wave hi
  let r := s.recdOf lo
  let mean := s.meanLanes (s.coreOf lo) x.part
  match x.slotA.running, y.slotA.running with
  | some a, some b =>
    r.merge && x.team == y.team && x.part == y.part && decide (x.ixw < y.ixw) && s.mergeable lo && s.mergeable hi &&
      decide (mean.1 < (s.ctxOf lo).mthr * mean.2) && a.pc == b.pc && a.fmt == b.fmt && x.recCount == y.recCount &&
      ((upto (8 * r.ug)).all fun n => x.sreg n == y.sreg n) &&
      decide ((lanesOf a.mask).length + (lanesOf b.mask).length ≤ 32)
  | _, _ => false

/-- R132: no two waves of the same partition with lower indexes are to merge. Between pairs of the same indexes in two teams the
manual says no order: DESIGN CHOICE, log 126. -/
def State.mergesFirst (s : State) (lo hi : Nat) : Bool :=
  let at_ := fun (a b : Nat) => (s.wave a).ixw * 2 ^ 16 + (s.wave b).ixw
  s.waves.keys.all fun a => s.coreOf a != s.coreOf lo || (s.wave a).part != (s.wave lo).part ||
    s.waves.keys.all fun b => !(decide (at_ a b < at_ lo hi) && s.merges a b)

/-- WAVE_MERGE: the lower-indexed wave survives and takes the other's lanes; the other ends as if every lane had exited. -/
def execWaveMerge (lo hi : Nat) (s : State) : Host.Outcome State Fault Refusal :=
  let x := s.wave lo
  let y := s.wave hi
  let r := s.recdOf lo
  match x.slotA.running, y.slotA.running with
  | some a, some b =>
    if s.merges lo hi && s.mergesFirst lo hi then
      let ms := mergeMap a.mask b.mask
      let s := s.updWave lo fun x =>
        let x := ms.foldl (fun x m => x.takeLane y r.vg m) x
        let new := maskOf (ms.map Prod.snd)
        { x with
          slotA := x.slotA.updRunning fun l => { l with mask := l.mask ||| new }
          trapMask := if x.trapSlot.isSome then x.trapMask ||| new else x.trapMask
          resv := [], ldres := [] }
      .next (s.updWave hi fun y =>
        ({ y with slotA := .empty, resv := [] }).checkEnd)
    else .next s
  | _, _ => .next s

/-! ## Fairness (R123, R124) -/

/-- A lane of the running leaf holds a reservation, in whichever home wave the lane is. -/
def State.leafReserved (s : State) (p : PathRef) : Bool :=
  let m := runMask ((s.wave p.wave).tree p.slot)
  (s.homes p).any fun h => (s.wave h.1).resv.any fun r => (m &&& h.2).getLsbD r.1

/-- Instructions the leaf has issued since its most recent LDRES, 64 at most. -/
def State.sinceLdres (s : State) (p : PathRef) : Nat :=
  let m := runMask ((s.wave p.wave).tree p.slot)
  ((s.homes p).flatMap fun h => ((s.wave h.1).ldres.filter fun r => (m &&& h.2).getLsbD r.1).map Prod.snd).foldl Nat.min 64

/-- R124: a switch of the running leaf is put off. -/
def State.defers (s : State) (p : PathRef) : Bool := s.leafReserved p && decide (s.sinceLdres p < 64)

def Wave.fair (w : Wave) : Slot → Nat
  | .a => w.fairA
  | .b => w.fairB

def Wave.deferred (w : Wave) : Slot → Bool
  | .a => w.deferA
  | .b => w.deferB

def Wave.setDefer (w : Wave) (q : Slot) (b : Bool) : Wave :=
  match q with
  | .a => { w with deferA := b }
  | .b => { w with deferB := b }

/-- The path rotates when its slot has another leaf. -/
def State.rotates (s : State) (p : PathRef) : Bool :=
  s.laneClassOf p.wave == 2 && decide (((s.wave p.wave).tree p.slot).leaves.length ≥ 2)

/-- FAIRNESS_TIMER_EXPIRY: the running leaf becomes pending, or the switch is deferred by its reservations. -/
def execFairnessTimerExpiry (p : PathRef) (s : State) : Host.Outcome State Fault Refusal :=
  let w := s.wave p.wave
  if w.fair p.slot == 0 && s.rotates p && !(w.deferred p.slot) then
    if s.defers p then .next (s.updWave p.wave fun w => w.setDefer p.slot true)
    else .next (s.switchLeaf p .pending)
  else .next s

/-- FAIRNESS_DEFERRED_SWITCH: 64 instructions since the most recent LDRES, or no reservation left. -/
def execFairnessDeferredSwitch (p : PathRef) (s : State) : Host.Outcome State Fault Refusal :=
  let w := s.wave p.wave
  if w.deferred p.slot && s.rotates p && !(s.defers p) then
    .next (s.switchLeaf p .pending)
  else .next s

end Sys2Proof.Machine
end

