-- ==== Sys2Proof/Machine/Choose.lean ====
section
/-!
DEFINITION. Issue selection (spec/08_core.md R212, R213): the candidates of a partition and their order, when a path is ready, and
when it waits for a long miss (R214).
-/

namespace Sys2Proof.Machine

/-! ## Candidates -/

structure Cand where
  ref  : PathRef
  prio : Nat
  age  : Nat
  num  : Nat
  late : Bool
  deriving DecidableEq, Repr

def Wave.paddock (w : Wave) : Slot → Bool
  | .a => w.paddockA
  | .b => w.paddockB

/-- The live slots of a wave that hold a path. -/
def Wave.liveSlots (w : Wave) : List Slot := [Slot.a, Slot.b].filter fun q => (w.tree q).running.isSome

/-- R214, R131: the wave is in the Paddock as a whole when every one of its live slots is, a member of groups when every group
that holds lanes of it is. -/
def State.inPaddock (s : State) (w : Wave) (k : Nat) : Bool :=
  match w.region with
  | none => !w.liveSlots.isEmpty && w.liveSlots.all w.paddock
  | some r =>
    let gs := s.groups.filter fun g => g.close == r.close && (g.homes.any fun h => h.1 == k) &&
      (((s.wave g.lead).tree g.slot).running).isSome
    !gs.isEmpty && gs.all fun g => (s.wave g.lead).paddock g.slot

/-- R213: the slot that issued last stands second; when neither has issued since the divergence, slot A first. -/
def lateSlot (w : Wave) : Slot → Bool
  | .a => w.lastSlot == some .a
  | .b => w.lastSlot != some .a

/-- R212: the wave issued YIELD in the previous cycle. -/
def yielded (s : State) (w : Wave) : Bool :=
  match w.yieldedAt with
  | some c => c + 1 == s.cycle
  | none => false

/-- The live slots of the resident waves of a partition that may be offered. Ostler waves rank above priority 7 (R213). -/
def State.candidates (s : State) (core part : Nat) : List Cand :=
  s.waves.flatMap fun (k, w) =>
    if w.cond == .resident && w.part == part && !w.moving && s.coreOf k == core && !(yielded s w) then
      (w.liveSlots.filter fun q => !(w.paddock q)).map fun q =>
        ⟨⟨k, q⟩, if s.isOstler (s.launchNo k) then 8 else (s.recdOf k).prio, w.age, w.slot.getD 0, lateSlot w q⟩
    else []

/-- R213: whether `x` is chosen before `y`; `rot` says that the cycle is a rotation cycle. The rule breaks no tie of the greatest
age in such a cycle: the model takes the lowest slot number, then the slot that did not issue last. DESIGN CHOICE, log 126. -/
def Cand.before (rot : Bool) (x y : Cand) : Bool :=
  if !rot && x.prio != y.prio then decide (y.prio < x.prio)
  else if x.age != y.age then decide (y.age < x.age)
  else if x.num != y.num then decide (x.num < y.num)
  else !x.late && y.late

def insertCand (rot : Bool) (x : Cand) : List Cand → List Cand
  | [] => [x]
  | y :: r => if Cand.before rot x y then x :: y :: r else y :: insertCand rot x r

def sortCands (rot : Bool) : List Cand → List Cand
  | [] => []
  | x :: r => insertCand rot x (sortCands rot r)

def rotationCycleNow (s : State) : Bool := s.cycle % 64 == 63

/-- R435: in `level` of every eight cycles no partition issues. DESIGN CHOICE, log 36. -/
def throttled (s : State) : Bool := decide (s.cycle % 8 < s.level)

/-! ## The next instruction -/

/-- The leaf as it stands at its next instruction word: inside its block, or past the header that it is to enter (R61). -/
def State.entered (s : State) (p : PathRef) (l : Leaf) : Option Leaf :=
  if l.pos != 0 then some l
  else
    match s.fetch p.wave l.pc with
    | .error _ => none
    | .ok h => if s.headerOk p.wave h then some { l with pc := l.pc + 8, pos := 1, hdr := h } else none

/-- The next instruction of a path, where a fetch finds one. -/
def State.upNext (s : State) (p : PathRef) (l : Leaf) : Option Instr :=
  (s.entered p l).bind fun l =>
    match s.fetchInstr p l with
    | .cause .. => none
    | .instr i => some i

/-- R171: a branch that every lane of the path takes part in, whose guard is its condition. -/
def guardsItself : Instr → Bool
  | .bru .. | .brd .. => true
  | _ => false

/-- The home waves in which an instruction of the path is performed, with the path's lanes there and those active (R77, R128). -/
def State.performs (s : State) (p : PathRef) (l : Leaf) (i : Instr) : List (Nat × Mask × Mask) :=
  let g := (Fields.unpack (BitVec.ofNat 64 (instrWord i))).guard
  let all := (s.envs p l g 0).map fun e => (e.wave, e.mine, e.act)
  if guardsItself i then all else all.filter fun e => e.2.2 != 0

/-- R214: the long misses of a wave whose replies are to come. DEDUCED, log 35. -/
def State.longOps (s : State) (w : Nat) : List Op :=
  s.ops.filterMap fun (_, o) => if o.wave == w && o.long && !o.done then some o else none

/-- R119, R214: the destinations of long misses that the scoreboard of the slot holds for the path with lanes `m`. -/
def State.longRegs (s : State) (w : Nat) (m : Mask) : List Reg :=
  let all := (s.wave w).slotLanes m
  (s.longOps w).flatMap fun o => dueRegs m all o.path o.dests

/-- R214: the slot's next instruction is held on a destination of a long miss, or its WAITC's L threshold awaits one, of
whichever path of the wave (R116). DEDUCED, log 35. -/
def State.awaitsLong (s : State) (p : PathRef) : Bool :=
  match s.leafAt p with
  | none => false
  | some l =>
    match l.wait with
    | .counters ws lt _ _ _ => ws.any fun h => !(thresholdMet (s.counter h .load) lt) && !(s.longOps h).isEmpty
    | .idle =>
      match s.upNext p l with
      | none => false
      | some i =>
        let u := useOf i
        (s.performs p l i).any fun e => let long := s.longRegs e.1 e.2.1
          (u.rd ++ u.wr).any long.contains
    | _ => false

/-- ROTATION_CYCLE: in a cycle whose count has bits [5:0] equal to 63 the ready candidate of greatest age is chosen,
whatever its priority; it issues in the step that follows, and the partition issues nothing else in the cycle (R212). -/
def execRotationCycle (core : CoreId) (part : Nat) (s : State) : Host.Outcome State Fault Refusal :=
  let n := coreKey core * 4 + part
  if rotationCycleNow s && !(throttled s) && s.turn ≤ n && !(s.spent.contains n) then
    .next { s with rot := s.rot ++ [n], spent := n :: s.spent }
  else .next s

/-- PADDOCK_LEAVE: the sectors that the slot's next instruction waits for have returned. -/
def execPaddockLeave (p : PathRef) (s : State) : Host.Outcome State Fault Refusal :=
  if (s.wave p.wave).paddock p.slot && !(s.awaitsLong p) then
    .next (s.updWave p.wave fun w =>
      match p.slot with
      | .a => { w with paddockA := false }
      | .b => { w with paddockB := false })
  else .next s

end Sys2Proof.Machine
end

