-- ==== Sys2Proof/Machine/Copy.lean ====
section
/-!
DEFINITION. Copies and their chunks (spec/09_core_memory.md R254 to R256, spec/16_die.md Table 16.1).
-/

namespace Sys2Proof.Machine

/-! ## Ranges -/

/-- The first failing address of the piece `[x, y)` of a range, with its code (R254, Table 9.5). A piece lies within 64 KiB. -/
def State.pieceFail (s : State) (w : Nat) (via : Via) (want : Want) (x y : Nat) : Option (Nat × Nat) :=
  let spad := (s.team (s.wave w).team).spadLen
  let bound := fun (base : Nat) => if y > base + spad then some (0x33, Nat.max x (base + spad)) else none
  match via with
  | .spad => bound 0
  | _ =>
    if x < 2 ^ 56 && inSpadWindow x then bound spadBase
    else
      match (s.addrAccess w .gen want x (s.draw 0)).1 with
      | [] => none
      | c :: _ => some (c, x)

/-- Every failure of `[a, a + len)`, page by page in ascending order, with its code and address. DEDUCED, log 50. -/
def State.rangeFails (s : State) (w : Nat) (via : Via) (want : Want) (a len : Nat) : List (Nat × Nat) :=
  (rangePages a len).filterMap fun p => s.pieceFail w via want p.1 p.2

/-- The causes of one range of a copy: the first failing address of each code (R13). DEDUCED, log 50. -/
def State.rangeCauses (s : State) (e : Env) (lanes : Mask) (via : Via) (want : Want) (a len : Nat) : List Cause :=
  (firstOfEach (s.rangeFails e.wave via want a len)).map fun f => ⟨e.wave, f.1, lanes, f.2⟩

def State.placeAt (s : State) (w : Nat) (via : Via) (want : Want) (a : Nat) : Place :=
  (s.addrAccess w via want a (s.draw 0)).2

/-! ## Chunks (R255) -/

/-- One part of a copy: destination, source, length. -/
structure Seg where
  dst : Nat
  src : Nat
  len : Nat
  deriving DecidableEq, Repr

/-- The runs of `[src, src + len)` within one chunk: two where the source crosses a page piece. -/
def State.chunkRuns (s : State) (w : Nat) (via : Via) (seg chunk dst src len : Nat) : List Run :=
  let n := Nat.min len (65536 - src % 65536)
  let run := fun (d x m : Nat) =>
    (⟨seg, chunk, s.placeAt w .gen .read x, s.placeAt w via .write d, x, (windowAddr via (BitVec.ofNat 64 d)).toNat, m⟩ : Run)
  run dst src n :: if n < len then [run (dst + n) (src + n) (len - n)] else []

/-- The chunks of a part, numbered from `chunk`; the first argument bounds their number. -/
def State.segRuns (s : State) (w : Nat) (via : Via) (seg : Nat) : Nat → Nat → Seg → List Run
  | 0, _, _ => []
  | k + 1, chunk, g =>
    if g.len = 0 then []
    else
      let n := Nat.min g.len (256 - g.dst % 256)
      s.chunkRuns w via seg chunk g.dst g.src n ++
        State.segRuns s w via seg k (chunk + 1) ⟨g.dst + n, g.src + n, g.len - n⟩

def chunksOf (g : Seg) : Nat := if g.len = 0 then 0 else (g.dst % 256 + g.len + 255) / 256

/-- The runs of all parts, chunks numbered through. -/
def State.copyRuns (s : State) (w : Nat) (via : Via) : Nat → Nat → List Seg → List Run
  | _, _, [] => []
  | seg, chunk, g :: r =>
    s.segRuns w via seg (chunksOf g) chunk g ++ State.copyRuns s w via (seg + 1) (chunk + chunksOf g) r

/-- The arrival word of a copy: sD = 0 names none. -/
def State.copyWord (s : State) (w : Nat) (a : DWord) : Option (Nat × Place) :=
  if a = 0 then none
  else
    match s.arrivalPlace w .write a.toNat with
    | .ok p => some (a.toNat, p)
    | .error _ => none

/-- The copy enters the engine; one without bytes completes at issue (R254). -/
def State.startCopy (s : State) (e : Env) (via : Via) (word : DWord) (segs : List Seg) : State :=
  let runs := s.copyRuns e.wave via 0 0 segs
  if runs.isEmpty then s
  else s.pushOp ⟨e.wave, e.mine, s.coreOf e.wave, .copy, false, false, [], false, .copy (s.copyWord e.wave word) runs, false⟩

/-- The causes that depend on the arrival word. -/
def State.copyWordCauses (s : State) (e : Env) (a : DWord) : List Cause :=
  if a = 0 then [] else s.wordCauses e .write a

/-! ## CPY, CPYS, CPYG -/

/-- The part that CPY and CPYS name. -/
def cpySeg (o : U4) (w : Wave) : Seg :=
  ⟨(w.sreg o.a.toNat).toNat, (w.sreg o.b.toNat).toNat, (w.sreg o.c.toNat).toNat % 2 ^ 32⟩

/-- CPY, CPYS: `via` says what the destination is. -/
def copyOp (i : Instr) (via : Via) (o : U4) (s : State) : Host.Outcome State Fault Refusal :=
  issueWith i o.g false
    (fun e s =>
      let w := s.wave e.wave
      let g := cpySeg o w
      groupCause e s ++ s.copyWordCauses e (w.sreg o.d.toNat) ++ s.rangeCauses e e.act .gen .read g.src g.len ++
        s.rangeCauses e e.act via .write g.dst g.len ++ s.collectCause e) noWait
    (seqAct i fun e s =>
      let w := s.wave e.wave
      s.startCopy e via (w.sreg o.d.toNat) [cpySeg o w]) noCause s

def execCpy (o : U4) (s : State) : Host.Outcome State Fault Refusal := copyOp (.cpy o) .gen o s

def execCpys (o : U4) (s : State) : Host.Outcome State Fault Refusal := copyOp (.cpys o) .spad o s

/-- R256: lane l copies m bytes from its own source to sA + l × m. -/
def cpygSegs (a : SReg) (b : VReg) (c : SReg) (w : Wave) : List Seg :=
  let m := (w.sreg c.toNat).toNat % 2 ^ 16
  (upto 32).map fun l => ⟨((w.sreg a.toNat) + BitVec.ofNat 64 (l * m)).toNat, (w.vpair b.toNat l).toNat, m⟩

def execCpyg (g : Guard) (d a : SReg) (b : VReg) (c : SReg) (s : State) : Host.Outcome State Fault Refusal :=
  let i := Instr.cpyg g d a b c
  issueWith i g false
    (fun e s =>
      let w := s.wave e.wave
      if s.pathActive e g != BitVec.allOnes 32 then [whole e 0x20 e.word]
      else
        groupCause e s ++ s.copyWordCauses e (w.sreg d.toNat) ++
          ((cpygSegs a b c w).zipIdx.flatMap fun (x, l) =>
            s.rangeCauses e (laneBit l) .gen .read x.src x.len ++ s.rangeCauses e (laneBit l) .gen .write x.dst x.len) ++
          s.collectCause e) noWait
    (seqAct i fun e s =>
      let w := s.wave e.wave
      s.startCopy e .gen (w.sreg d.toNat) (cpygSegs a b c w)) noCause s

/-! ## COPY_CHUNK -/

/-- R258: an older store or atomic of the wave to bytes that the chunk reads or writes has not been performed. -/
def State.copyHeld (s : State) (n : Nat) (o : Op) (rs : List Run) : Bool :=
  s.ops.any fun (k, x) => decide (k < n) && x.wave == o.wave && !x.done && !x.body.isLoad &&
    x.body.places.any fun p => rs.any fun r => overlaps p (r.src, r.len) || overlaps p (r.dst, r.len)

/-- A source line of the run is poisoned. -/
def State.runPoisoned (s : State) (r : Run) : Bool :=
  r.src.tier == .dev && (linesAt r.src.addr r.len).any s.poison.contains

/-- The bytes a run reads: zeros for words in error and poisoned lines (Table 16.1). -/
def State.runBytes (s : State) (r : Run) : List Byte :=
  (upto r.len).map fun i =>
    let p := r.src.at_ i
    if s.upsetAt p then 0
    else if s.poisoned p then (if r.dst.tier == .host then Config.openByte s.free i else 0)
    else s.placeByte p

/-- The errors of a run that raise 0x01 in the issuing wave. -/
def State.runErrs (s : State) (o : Op) (r : Run) : List ReadErr :=
  (if s.runPoisoned r && r.dst.tier != .dev then [(4, s.lineUnit (r.src.addr / 64), r.src.addr / 64 * 64)] else []) ++
    (upto r.len).filterMap fun i =>
      let p := r.src.at_ i
      match p.tier with
      | .dev => none
      | _ => s.errAt o.wave p

/-- The lines of device memory that bytes of poisoned lines reach. -/
def State.poisonedBy (s : State) (r : Run) : List Nat :=
  if r.dst.tier == .dev then
    (upto r.len).foldl (fun l i =>
      let d := (r.dst.addr + i) / 64
      if s.poisoned (r.src.at_ i) && !(l.contains d) then d :: l else l) []
  else []

/-- What a chunk writes: its runs with the bytes each reads and the lines that it poisons. -/
abbrev ChunkData := List (Run × List Byte × List Nat)

def State.chunkRead (s : State) (rs : List Run) : ChunkData := rs.map fun r => (r, s.runBytes r, s.poisonedBy r)

/-- The runs of one chunk, which stand side by side at their destination, are written as one: a line that they fill together loses its
poison, and a poisoned source line poisons the lines it reaches in device memory. DESIGN CHOICE, log 27. -/
def State.writeChunk (s : State) (d : ChunkData) : State :=
  let s := d.foldl (fun s x => (s.touch x.1.src x.1.len).homeWrite x.1.dst x.2.1) s
  let s := match d with
    | x :: _ => s.unpoison x.1.dst ((d.map fun (y : Run × List Byte × List Nat) => y.1.len).foldl Nat.add 0)
    | [] => s
  { s with poison := (d.flatMap fun (y : Run × List Byte × List Nat) => y.2.2).foldl (fun l x => if l.contains x then l else x :: l) s.poison }

/-- COPY_CHUNK: the chunk reads its source bytes, writes its destination bytes and makes its arrival. -/
def execCopyChunk (op chunk : Nat) (s : State) : Host.Outcome State Fault Refusal :=
  match s.ops.look op with
  | none => .next s
  | some o =>
    match o.body with
    | .copy word runs =>
      let go := runs.filter fun r => r.chunk == chunk
      if o.done || go.isEmpty || s.copyHeld op o go then .next s
      else
        let data := s.chunkRead go
        let s := (s.raiseErrs o.wave (go.flatMap fun r => s.runErrs o r)).writeChunk data
        let n := go.foldl (fun n r => n + r.len) 0
        let s := match word with
          | some w => s.arriveBy o.wave w.2 n
          | none => s
        let rest := runs.filter fun r => r.chunk != chunk
        let s := s.updOp op fun o => { o with body := .copy word rest }
        .next (if rest.isEmpty && (s.wave o.wave).residuals.all (fun x => x.1 != op) then s.finishOp op o
          else { s with free := s.free + 1 })
    | _ => .next s

end Sys2Proof.Machine
end

