-- ==== Sys2Proof/Machine/Place.lean ====
section
/-!
DEFINITION. Cores and placement: pool splits, draining and repartition (spec/08_core.md R222 to R227), the placement of teams and waves
(R209, R210, spec/16_die.md R379), reservations (spec/01_work_and_progress.md R21, R22), wave slots (R219), and the end of
waves, teams and launches (spec/07_wave_control.md R177, spec/17_package.md R401).
-/

namespace Sys2Proof.Machine

/-! ## Cores by number -/

def coreNo (c : CoreId) : Nat := c.die * 64 + c.core

/-- R384: no physical core holds the logical number: its own is retired, and the spare is retired or held by the number
whose core was retired first. -/
def coreVacant (us : List Retired) (die lcore : Nat) : Bool :=
  let cl := lcore / 8
  let gone := us.filterMap fun u => match u with | .core d c n => if d == die && c == cl then some n else none | _ => none
  gone.contains (lcore % 8) &&
    (gone.contains 8 || (gone.find? fun n => n != 8) != some (lcore % 8))

def State.vacant (s : State) (key : Nat) : Bool := coreVacant s.tables (key / 64) (key % 64)

/-- The state of a core; a vacant number holds none that can be used. -/
def State.coreSt (s : State) (key : Nat) : CoreState := if s.vacant key then .fenced else (s.core key).st

/-- The teams that hold room on a core. -/
def State.coreTeams (s : State) (key : Nat) : Table Team := s.teams.keep fun _ t => t.placed && t.core == key

/-- R209: scratchpad and effect-area bytes, and sum-tree registers, held on a core. -/
def State.spadUsed (s : State) (key : Nat) : Nat :=
  (s.coreTeams key).foldl (fun n t => n + t.2.spadLen + t.2.effLen) 0

def State.treesUsed (s : State) (key : Nat) : Nat := (s.coreTeams key).foldl (fun n t => n + t.2.trees.length) 0

/-- The waves that hold a slot of a partition. -/
def State.slotWaves (s : State) (key part : Nat) : Table Wave :=
  s.waves.keep fun k w => w.slot.isSome && w.part == part && s.coreOf k == key

/-- R209: admitted waves of a core. -/
def State.admitted (s : State) (key : Nat) : Nat := (upto 4).foldl (fun n p => n + (s.slotWaves key p).length) 0

/-- The lowest free slot of a partition. -/
def State.freeSlot (s : State) (key part : Nat) : Option Nat :=
  (upto 16).find? fun n => !((s.slotWaves key part).any fun w => w.2.slot == some n)

/-- R210: b, the partition with the fewest admitted waves. -/
def State.basePart (s : State) (key : Nat) : Nat := (leastBy (fun p => (s.slotWaves key p).length) (upto 4)).getD 0

/-- Waves 0 to W − 1 of a team with base partition `b` that fall to partition `p` (R210). -/
def wavesAt (w b p : Nat) : Nat := ((upto w).filter fun k => (b + k) % 4 == p).length

/-! ## Register granules (Table 5.1) -/

/-- Vector and uniform granules, tiles and accumulators. -/
structure Granules where
  v : Nat
  u : Nat
  t : Nat
  a : Nat
  deriving DecidableEq, Repr

def Granules.plus (x y : Granules) : Granules := ⟨x.v + y.v, x.u + y.u, x.t + y.t, x.a + y.a⟩

def Granules.times (k : Nat) (x : Granules) : Granules := ⟨k * x.v, k * x.u, k * x.t, k * x.a⟩

/-- What one wave of a launch needs. -/
def granulesOf (r : LaunchRec) : Granules := ⟨r.vg, r.ug, r.tiles, r.accs⟩

/-- The partition's files hold that much. -/
def Granules.fit (x : Granules) : Bool := x.v ≤ 128 && x.u ≤ 128 && x.t ≤ 32 && x.a ≤ 32

/-- R21: a wave of a placed team of concurrent teams, whose registers are reserved as long as it has not ended. -/
def State.reserves (s : State) (k : Nat) (w : Wave) : Bool :=
  s.teamClassOf k == 2 && (s.team w.team).placed && w.cond != .ended && w.cond != .out

/-- The wave holds its registers: it is resident, or its image is still moving out; or it has never been in and its launch has
them reserved (R21). DEDUCED, log 63. -/
def State.holdsRegs (s : State) (k : Nat) (w : Wave) : Bool :=
  w.cond == .resident || (w.cond == .stable && w.moving) || ((w.cond == .new || w.cond == .waiting) && s.reserves k w) ||
    (w.cond == .ended && w.slot.isSome)

/-- Granules of a partition's waves that satisfy `f`. -/
def State.regsOf (s : State) (key part : Nat) (f : Nat → Wave → Bool) : Granules :=
  s.waves.foldl (fun g (k, w) =>
    if w.part == part && s.coreOf k == key && f k w then g.plus (granulesOf (s.recdOf k)) else g) ⟨0, 0, 0, 0⟩

/-- What the partition's waves hold. -/
def State.regsUsed (s : State) (key part : Nat) : Granules := s.regsOf key part s.holdsRegs

/-- What they hold and what is reserved (R21), a wave in the Stable keeping its reservation. -/
def State.regsReserved (s : State) (key part : Nat) : Granules :=
  s.regsOf key part fun k w => s.holdsRegs k w || s.reserves k w

/-- What the waves with a slot need. -/
def State.slotRegs (s : State) (key part : Nat) : Granules := s.regsOf key part fun _ w => w.slot.isSome

/-! ## Classes of a launch -/

/-- R32: launches of context 0 are concurrent at every level. -/
def waveClass (r : LaunchRec) : Nat := if r.ctx = 0 then 2 else r.waveClass

def teamClass (r : LaunchRec) : Nat := if r.ctx = 0 then 2 else r.teamClass

/-! ## Whether a core can take a team (R209) -/

/-- Bytes of the scratchpad part of a split (R222). -/
def Split.spadBytes (p : Split) : Nat := p.spad * 131072

def Split.stblBytes (p : Split) : Nat := p.stbl * 131072

/-- R209, R210, R223, R227: the core can take a team of the launch now. For concurrent teams the registers of all its waves
are wanted too (R21); and with a Stable of 0 granules those of all waves that take slots at placement (R222). `bytes` is the team's scratchpad and effect area together. DEDUCED, log 60. -/
def State.canHost (s : State) (r : LaunchRec) (bytes startAt key : Nat) : Bool :=
  let c := s.core key
  let b := s.basePart key
  s.coreSt key == .active && c.split == r.split && c.since ≤ startAt &&
    decide (s.spadUsed key + bytes ≤ r.split.spadBytes) && decide (s.treesUsed key + r.hregs ≤ 8) &&
    (upto 4).all fun p =>
      (waveClass r != 2 || decide ((s.slotWaves key p).length + wavesAt r.w b p ≤ 16)) &&
        (teamClass r != 2 || ((s.regsReserved key p).plus ((granulesOf r).times (wavesAt r.w b p))).fit) &&
        (waveClass r != 2 || r.split.stbl != 0 || ((s.slotRegs key p).plus ((granulesOf r).times (wavesAt r.w b p))).fit)

/-- The cores of a cluster, ascending. -/
def clusterCores (die cluster : Nat) : List Nat := (upto 8).map fun n => die * 64 + cluster * 8 + n

/-- R209: the core that takes the team: the fewest admitted waves, the lowest number on a tie. -/
def State.hostCore (s : State) (r : LaunchRec) (bytes startAt die cluster : Nat) : Option Nat :=
  leastBy s.admitted ((clusterCores die cluster).filter (s.canHost r bytes startAt))

/-! ## Dies and clusters of a launch (R379) -/

/-- Active cores of a split among some. -/
def State.activeOf (s : State) (split : Split) (ks : List Nat) : Nat :=
  (ks.filter fun k => s.coreSt k == .active && (s.core k).split == split).length

/-- Insert by a count, greatest first and the lower number first on a tie. -/
def insertByCount (f : Nat → Nat) (x : Nat) : List Nat → List Nat
  | [] => [x]
  | y :: r => if f x > f y || (f x = f y && x < y) then x :: y :: r else y :: insertByCount f x r

def sortByCount (f : Nat → Nat) (l : List Nat) : List Nat := l.foldr (insertByCount f) []

def State.sortDies (s : State) (split : Split) : List Nat :=
  sortByCount (fun d => s.activeOf split ((upto 64).map fun n => d * 64 + n)) (upto 4)

def State.sortClusters (s : State) (split : Split) (die : Nat) : List Nat :=
  sortByCount (fun c => s.activeOf split (clusterCores die c)) (upto 8)

/-- The launch as it starts: its die groups and cluster groups have their places. -/
def State.mapLaunch (s : State) (x : Launch) : Launch :=
  let ds := (s.sortDies x.recd.split).take x.recd.d
  { x with dies := ds, clusters := ds.map fun d => (s.sortClusters x.recd.split d).take x.recd.c }

/-- Die and cluster of cluster group `c` of die group `d`. -/
def Launch.placeOf (x : Launch) (d c : Nat) : Nat × Nat := (nth 0 x.dies d, nth 0 (nth [] x.clusters d) c)

/-! ## Room held for a waiting launch (R22) -/

/-- R400: `y` stands ahead of `x` among queued launches. -/
def queuedAhead (yn xn : Nat) (y x : Launch) : Bool :=
  y.st == 1 && (decide (x.queue < y.queue) ||
    y.queue == x.queue && (decide (y.enq < x.enq) || y.enq == x.enq && decide (yn < xn)))

/-- The launch is the head of its priority queue. -/
def State.isHead (s : State) (l : Nat) : Bool :=
  let x := s.launch l
  x.st == 1 && s.launches.all fun (n, y) => y.queue != x.queue || !(queuedAhead n l y x)

/-- R22: a launch with concurrent teams, first in its priority queue, waits for cores of the split: nothing of its priority
or lower is given them, but that promoted units go ahead of what is queued at their own priority (R30). DEDUCED, log 63. -/
def State.heldBack (s : State) (l prio : Nat) (promoted : Bool) (split : Split) : Bool :=
  s.launches.any fun (n, y) =>
    n != l && teamClass y.recd == 2 && y.recd.split == split && s.isHead n &&
      (decide (prio < y.queue) || (prio == y.queue && !promoted))

/-- R22: room that frees is held for a launch with concurrent teams that waits at the head of its queue: a wave of that priority or
lower that has never been in takes no slot and no granules, as long as another wave of its team is in or in the Stable, and can
run on. A promoted wave (R30) and one whose registers are reserved go ahead. DEDUCED, log 63. -/
def State.heldFrom (s : State) (k : Nat) (w : Wave) : Bool :=
  let r := s.recdOf k
  (w.cond == .new || w.cond == .waiting) && !w.promoted && s.waveClassOf k != 2 && s.teamClassOf k != 2 &&
    s.heldBack (s.launchNo k) r.prio false r.split &&
    s.waves.any fun (j, x) => j != k && x.team == w.team && (x.cond == .resident || x.cond == .stable)

/-! ## Slots (R210, R219) -/

/-- Whether a wave waits for a slot, and its rank among those that do: promoted waves, waves whose image is in the Stable,
new waves. -/
def Wave.slotRank (w : Wave) : Option Nat :=
  if w.slot.isSome then none
  else
    match w.cond with
    | .waiting => some (if w.promoted then 0 else 2)
    | .stable => some 1
    | _ => none

/-- The wave that takes the partition's next free slot: by rank, then by the placement of its team, then by IXW. -/
def State.nextForSlot (s : State) (key part : Nat) : Option Nat :=
  let cs := s.waves.filterMap fun (k, w) =>
    if w.part == part && s.coreOf k == key && (s.team w.team).placed && !(s.heldFrom k w) then w.slotRank.map fun r => (k, r) else none
  (leastBy (fun (x : Nat × Nat) =>
    let w := s.wave x.1
    (x.2 * 2 ^ 64 + (s.team w.team).placedAt) * 2 ^ 20 + w.ixw) cs).map Prod.fst

/-- A wave takes a slot: one that has never been resident is new, and ready to come in (R211, R217). -/
def State.takeSlot (s : State) (k n : Nat) : State :=
  s.updWave k fun w =>
    match w.cond with
    | .waiting => { w with slot := some n, cond := .new, readyAt := some s.cycle }
    | _ => { w with slot := some n }

/-- R222: with a Stable of 0 granules a wave is admitted only while the registers of all admitted waves fit at once. -/
def State.admits (s : State) (key part k : Nat) : Bool :=
  (s.core key).split.stbl != 0 || ((s.slotRegs key part).plus (granulesOf (s.recdOf k))).fit

/-- PROMOTED_SLOT_FREE and its like: free slots of a partition are taken. The first argument bounds their number. -/
def State.assignSlots (s : State) (key part : Nat) : Nat → State
  | 0 => s
  | k + 1 =>
    match s.freeSlot key part, s.nextForSlot key part with
    | some n, some w => if s.admits key part w then State.assignSlots (s.takeSlot w n) key part k else s
    | _, _ => s

def State.assignCore (s : State) (key : Nat) : State := (upto 4).foldl (fun s p => s.assignSlots key p 16) s

/-- R210: the waves of a team just placed take slots: all of them at once where the wave class is concurrent, which the choice of the
core has left room for; then what other slots are free go to those that wait. -/
def State.seatTeam (s : State) (t key : Nat) : State :=
  let ws := if s.waveClassOf ((s.teamWaves t).headD 0) == 2 then s.teamWaves t else []
  let s := ws.foldl (fun (s : State) k =>
    match s.freeSlot key (s.wave k).part with
    | some n => s.takeSlot k n
    | none => s) s
  s.assignCore key

/-! ## Placing a team (R209, R210, R404) -/

/-- R404, R18: a wave at its first instruction: ARG0 to ARG3 in s0 to s3, everything else zero, one path at ENTRY. -/
def freshWave (team ixw part : Nat) (r : LaunchRec) (fair : Nat) : Wave :=
  let w := Wave.blank team ixw part
  let w := (r.args.zipIdx).foldl (fun w (x, i) => w.setS i x) w
  { w with slotA := .leaf (Leaf.atHeader (BitVec.allOnes 32) 0 .running r.entry), fairA := fair, fairB := fair }

/-- The waves numbered from `n`, one for each of the indices; those of a promoted team are promoted (R30). -/
def putWaves (team b n : Nat) (r : LaunchRec) (fair : Nat) (promoted : Bool) (t : Table Wave) : List Nat → Table Wave
  | [] => t
  | k :: rest =>
    putWaves team b n r fair promoted (t.put (n + k) { freshWave team k ((b + k) % 4) r fair with promoted := promoted }) rest

/-- A team that has not started takes its place on a core. -/
def State.placeFresh (s : State) (l d c ixt key : Nat) : State :=
  let r := (s.launch l).recd
  let b := s.basePart key
  let n := s.nextId
  let t : Team := { Team.blank with
    launch := l, ixt := ixt, ixc := c, ixd := d, placed := true, die := key / 64, lcore := key % 64, base := b
    spadLen := r.spad, effLen := r.eff, dir := freshDir, trees := freshTrees r.hregs
    startCyc := s.calCycle, placedAt := n }
  let s := { s with
    teams := s.teams.put n t
    waves := putWaves n b (n + 1) r (s.context r.ctx).fairness (s.launch l).promoted s.waves (upto r.w)
    nextId := n + 1 + r.w }
  let s := s.updLaunch l fun x => { x with nextTeam := x.nextTeam.put (d * 8 + c) (ixt + 1) }
  s.seatTeam n key

/-- A team that had left takes a place again (R24, R412); its state is restored before its waves issue. Waves that had not
started are promoted with their launch (R30). -/
def State.placeBack (s : State) (t key : Nat) : State :=
  let b := s.basePart key
  let n := s.nextId
  let s := { s with nextId := n + 1 }
  let s := s.updTeam t fun x =>
    { x with placed := true, returning := false, die := key / 64, lcore := key % 64, base := b, placedAt := n, startCyc := s.calCycle }
  let s : State := { s with waves := s.waves.map fun _ (w : Wave) =>
      if w.team == t && w.cond == .out then
        { w with
          cond := .waiting, part := (b + w.ixw) % 4, slot := none
          promoted := w.promoted || (!w.started && (s.launch (s.team t).launch).promoted) }
      else w }
  s.seatTeam t key

/-! ## Which teams are to be placed -/

/-- Cluster groups of a launch as (IXD, IXC). -/
def groupsOf (r : LaunchRec) : List (Nat × Nat) := (upto r.d).flatMap fun d => (upto r.c).map fun c => (d, c)

/-- The next team of a cluster group that has not been placed. -/
def Launch.nextIxt (x : Launch) (d c : Nat) : Nat := x.nextTeam.lookD (d * 8 + c) 0

/-- Teams not yet placed. -/
def Launch.unplaced (x : Launch) : Nat :=
  (groupsOf x.recd).foldl (fun n g => n + (x.recd.t - x.nextIxt g.1 g.2)) 0

/-- The first team that can be placed: one that returns, then the first new one of a cluster group, in index order. The
answer is the team that returns or the group, and the core. -/
inductive Placing where
  | back (team key : Nat)
  | fresh (d c ixt key : Nat)
  deriving DecidableEq, Repr

/-- A wave of the team has issued. -/
def State.began (s : State) (t : Nat) : Bool := (s.teamWaves t).any fun k => (s.wave k).started

/-- DEDUCED, log 71. -/
def State.backTeams (s : State) (l : Nat) : List Nat :=
  let ts := (s.teams.keep fun _ t => t.launch == l && t.out && t.returning && !t.placed).keys
  ts.filter s.began ++ ts.filter fun t => !(s.began t)

/-- R30: teams of a launch that have not started and hold no place: those never placed, and those that left before they had
started. -/
def State.unplacedTeams (s : State) (l : Nat) : Nat :=
  (s.launch l).unplaced + ((s.backTeams l).filter fun t => !(s.began t)).length

def State.placingBack (s : State) (x : Launch) (ts : List Nat) : Option Placing :=
  ts.findSome? fun t =>
    let m := s.team t
    let p := x.placeOf m.ixd m.ixc
    (s.hostCore x.recd (m.spadLen + m.effLen) x.startAt p.1 p.2).map fun k => .back t k

def State.placingFresh (s : State) (x : Launch) : Option Placing :=
  (groupsOf x.recd).findSome? fun g =>
    if x.nextIxt g.1 g.2 ≥ x.recd.t then none
    else
      let p := x.placeOf g.1 g.2
      (s.hostCore x.recd (x.recd.spad + x.recd.eff) x.startAt p.1 p.2).map fun k => .fresh g.1 g.2 (x.nextIxt g.1 g.2) k

/-- R24: a team that had started is placed ahead of teams that had not. -/
def State.placing (s : State) (l : Nat) (x : Launch) : Option Placing :=
  let back := s.backTeams l
  if back.isEmpty then s.placingFresh x
  else (s.placingBack x back).orElse fun _ => s.placingFresh x

def State.doPlace (s : State) (l : Nat) : Placing → State
  | .back t k => s.placeBack t k
  | .fresh d c i k => s.placeFresh l d c i k

/-- All teams of a launch placed at once, the first argument bounding their number; `none` when one finds no room (R21, R24). -/
def State.placeAll (s : State) (l : Nat) : Nat → Option State
  | 0 => some s
  | n + 1 =>
    let x := s.launch l
    if (s.backTeams l).isEmpty && x.unplaced = 0 then some s
    else
      match s.placing l x with
      | none => none
      | some p => State.placeAll (s.doPlace l p) l n

/-! ## What the package could hold with nothing else resident (R22) -/

/-- Teams of the launch that one empty core holds: `n` counts those placed, with their waves per partition, of which at most 16 are
admitted and count for the base partition (R210); the first argument bounds the search. -/
def coreCap (r : LaunchRec) : Nat → Nat → List Nat → Nat
  | 0, n, _ => n
  | k + 1, n, loads =>
    let b := (leastBy (fun p => Nat.min 16 (nth 0 loads p)) (upto 4)).getD 0
    let next := (upto 4).map fun p => nth 0 loads p + wavesAt r.w b p
    let ok := decide ((n + 1) * (r.spad + r.eff) ≤ r.split.spadBytes) && decide ((n + 1) * r.hregs ≤ 8) &&
      next.all fun m => ((granulesOf r).times m).fit && (waveClass r != 2 || decide (m ≤ 16))
    if ok then coreCap r k (n + 1) next else n

/-- Occupied logical numbers of a cluster. -/
def liveCores (us : List Retired) (die cluster : Nat) : Nat :=
  ((clusterCores die cluster).filter fun k => !(coreVacant us (k / 64) (k % 64))).length

/-- R22: the reservation of a concurrent launch is not beyond the package in its current configuration. -/
def State.couldHold (s : State) (r : LaunchRec) : Bool :=
  let us := s.tables
  let cap := coreCap r 512 0 [0, 0, 0, 0]
  let dies := (sortByCount (fun d => (upto 8).foldl (fun n c => n + liveCores us d c) 0) (upto 4)).take r.d
  dies.all fun d =>
    ((sortByCount (fun c => liveCores us d c) (upto 8)).take r.c).all fun c => decide (r.t ≤ cap * liveCores us d c)

/-! ## The end of waves, teams and launches (R177, R401, R428) -/

/-- Three bytes for each stall counter, in code order. -/
def stallBank (w : Wave) : List Byte := (upto 16).flatMap fun k => bytesLE 3 (nth 0 w.stallc k)

/-- Table 19.7: a team's block record; `why` is offset 32. Its counters restart at zero. -/
def State.blockRecord (s : State) (t why : Nat) : State :=
  let x := s.team t
  let r := (s.launch x.launch).recd
  let c := s.context r.ctx
  let bank := fun (k : Nat) =>
    match s.waves.find? fun w => w.2.team == t && w.2.ixw == k with
    | some w => stallBank w.2
    | none => List.replicate 48 0
  let s' :=
    if bitsN c.mbuf.toNat 55 12 = 0 then s
    else
      let bs := bytesLE 8 (s.launchId x.launch) ++ bytesLE 8 (x.ixt + x.ixc * 2 ^ 16 + x.ixd * 2 ^ 19 + r.ixg * 2 ^ 32) ++
        bytesLE 8 x.startCyc ++ bytesLE 8 s.calCycle ++ [BitVec.ofNat 8 why, BitVec.ofNat 8 r.w] ++ List.replicate 30 0 ++
        (upto 16).flatMap bank
      let s := s.bufWrite x.core r.ctx c.mbuf 832 c.blkCount bs
      s.updCtx r.ctx fun c => { c with blkCount := (c.blkCount + 1) % 2 ^ 32 }
  { s' with waves := s'.waves.map fun _ w => if w.team == t then { w with stallc := List.replicate 16 0 } else w }

/-- R401: what a launch does when its last team has gone: it completes with 0x05, or its earlier status stands; then the
arrival on DONE. -/
def State.checkLaunch (s : State) (l : Nat) : State :=
  let x := s.launch l
  if !(s.launchTeams l).isEmpty then s
  else if x.st ≥ 5 then s.arriveDone l
  else if x.ended.length = x.recd.c * x.recd.d * x.recd.t then
    (s.updLaunch l fun x => { x with st := 5, doneAt := some s.cycle }).arriveDone l
  else s

/-- R177: TEAM_END: the team's last wave has ended; its room on the core is released. -/
def State.endTeam (s : State) (t : Nat) : State :=
  let s := s.blockRecord t 0
  let x := s.team t
  let s := { s with
    teams := s.teams.del t
    waves := s.waves.keep fun _ w => w.team != t
    groups := s.groups.filter fun g => (s.wave g.lead).team != t
    regroup := s.regroup.filter fun r => r.team != t }
  let s := s.updLaunch x.launch fun y => { y with ended := y.ended ++ [(x.ixd, x.ixc, x.ixt)] }
  (s.assignCore x.core).checkLaunch x.launch

/-- A queue of the wave's core still holds something of it. -/
def State.queued (s : State) (w : Nat) : Bool :=
  let c := s.core (s.coreOf w)
  (c.treeQ.any fun q => q.wave == w) || c.mq.any fun q => q.2.any fun m => m.wave == w

/-- R177: nothing of the wave is outstanding. -/
def State.waveIdle (s : State) (w : Nat) : Bool := (s.ops.all fun o => o.2.wave != w || o.2.done) && !(s.queued w)

/-- The wave has ended and its end has been carried out. -/
def State.waveGone (s : State) (w : Nat) : Bool := (s.team (s.wave w).team).exited.testBit (s.wave w).ixw

/-- WAVE_END: every outstanding operation has completed; the registers and the slot are released. -/
def execWaveEnd (wave : Nat) (s : State) : Host.Outcome State Fault Refusal :=
  let w := s.wave wave
  if w.cond == .ended && s.waveIdle wave && !(s.waveGone wave) && (s.teams.look w.team).isSome then
    let t := w.team
    let key := s.coreOf wave
    let s := s.dropCollection wave
    let s := { s with ops := s.ops.keep fun _ o => o.wave != wave }
    let s := s.updWave wave fun w =>
      { w with slot := none, v := [], s := [], p := [], t := [], a := [], partial_ := [], tstat := [], acc := [], resv := [] }
    let s := s.updTeam t fun m => { m with exited := m.exited ||| 2 ^ w.ixw }
    let s := s.noteArrivals t
    let all := (upto (s.launch (s.team t).launch).recd.w).all fun k => (s.team t).exited.testBit k
    .next (if all then s.endTeam t else s.assignSlots key w.part 16)
  else .next s

/-! ## Draining and repartition (R223, R224) -/

/-- R224: too few Active cores of the cluster hold the launch's split. -/
def State.wantsCores (s : State) (r : LaunchRec) (die cluster : Nat) : Bool :=
  let have_ := s.activeOf r.split (clusterCores die cluster)
  if teamClass r == 2 then decide (have_ * coreCap r 512 0 [0, 0, 0, 0] < r.t) else have_ == 0

/-- CORE_DRAIN_SELECT: the Active core of another split with the fewest admitted waves; one at a time in a cluster. -/
def execCoreDrainSelect (launch die cluster : Nat) (s : State) : Host.Outcome State Fault Refusal :=
  let x := s.mapLaunch (s.launch launch)
  let cs := clusterCores die cluster
  let needed := (x.dies.zip x.clusters).any fun p => p.1 == die && p.2.contains cluster
  let busy := cs.any fun k => s.coreSt k == .draining || s.coreSt k == .repartitioning
  if s.isHead launch && needed && !busy && s.wantsCores x.recd die cluster then
    match leastBy s.admitted (cs.filter fun k => s.coreSt k == .active && (s.core k).split != x.recd.split) with
    | some k => .next (s.updCore k fun c => { c with st := .draining, nextSplit := some x.recd.split })
    | none => .next s
  else .next s

/-- R223: no team remains on the core and its Stable holds no image. -/
def State.coreEmpty (s : State) (key : Nat) : Bool :=
  (s.coreTeams key).isEmpty && s.waves.all fun (k, w) => w.cond != .stable || s.coreOf k != key

/-- CORE_DRAIN_END: L1 is invalidated, and the pool is divided again over 2,048 cycles. -/
def execCoreDrainEnd (core : CoreId) (s : State) : Host.Outcome State Fault Refusal :=
  let k := coreNo core
  if s.coreSt k == .draining && s.coreEmpty k then
    .next (s.updCore k fun c => { c with st := .repartitioning, dueAt := s.cycle + 2048, l1 := [] })
  else .next s

/-- REPARTITION_DONE: the new split is in force. -/
def execRepartitionDone (core : CoreId) (s : State) : Host.Outcome State Fault Refusal :=
  let k := coreNo core
  let c := s.core k
  if s.coreSt k == .repartitioning && decide (c.dueAt ≤ s.cycle) then
    .next (s.setCore k { c with st := .active, split := c.nextSplit.getD c.split, nextSplit := none })
  else .next s

/-! ## CORE_FENCE (R226, R227) -/

def fenceCode : FenceCause → Nat
  | .selection => 0
  | .scoreboard => 1
  | .counter => 2
  | .stalled _ => 3

/-- What stands in the queues of a fenced core is lost, and its operations are over. -/
def State.dropQueues (s : State) (key : Nat) : State :=
  let c := s.core key
  let ids := (c.treeQ.filterMap TreeCmd.op) ++ (c.mq.flatMap fun q => q.2.flatMap fun m => m.tOp.toList ++ m.sOp.toList)
  { s with ops := retire (s.ops.map fun n o => if ids.contains n then { o with done := true, dests := [] } else o) }

/-- CORE_FENCE: the core issues nothing more; the launches of its teams complete with 0x21; the core is retired, and the
spare of its cluster, when one is left, takes its number for later launches. DEDUCED, log 60. -/
def execCoreFence (core : CoreId) (cause : FenceCause) (s : State) : Host.Outcome State Fault Refusal :=
  let k := coreNo core
  let phys := s.physCore core.die core.core
  let found := match cause with
    | .stalled p => decide (nth 0 (s.core k).idle p ≥ 2 ^ 24)
    | _ => true
  if core.die < 4 && core.core < 64 && s.coreSt k != .fenced && found then
    let ls := (s.coreTeams k).foldl (fun l t => if l.contains t.2.launch then l else l ++ [t.2.launch]) []
    let s := s.mclog 3 0 0 (unitOf core.die phys) 0 (Config.logField 3 (fenceCode cause) 0).toNat
    let s := s.dropQueues k
    let s := ls.foldl (fun s l => s.finishLaunch l 0x21) s
    let s := s.retireUnit (.core core.die (core.core / 8) (phys % 9))
    .next (s.setCore k { Core.fresh with st := if s.vacant k then .fenced else .active, since := s.cycle + 1 })
  else .next s

/-! ## TEAM_PLACE -/

/-- R22, R30: a running launch that can place a team comes first: one of higher priority, or one whose teams are promoted, at the
priority of other work. -/
def State.outranked (s : State) (l prio : Nat) (promoted : Bool) : Bool :=
  s.launches.any fun (n, y) =>
    n != l && y.st == 2 && (decide (prio < y.recd.prio) || (y.recd.prio == prio && y.promoted && !promoted)) &&
      (s.placing n y).isSome

/-- TEAM_PLACE: the running launch's next team that finds room. -/
def execTeamPlace (launch : Nat) (s : State) : Host.Outcome State Fault Refusal :=
  let x := s.launch launch
  if x.st == 2 && !(s.heldBack launch x.recd.prio x.promoted x.recd.split) && !(s.outranked launch x.recd.prio x.promoted) then
    match s.placing launch x with
    | some p =>
      let s := s.doPlace launch p
      .next (s.updLaunch launch fun y => { y with promoted := y.promoted && decide (0 < s.unplacedTeams launch) })
    | none => .next s
  else .next s

end Sys2Proof.Machine
end

