-- ==== Sys2Proof/Machine/Stable.lean ====
section
/-!
DEFINITION. The Stable: coming into residence, swaps and displacement (spec/08_core.md R216 to R221, spec/01_work_and_progress.md R23),
and the starvation timer (R29 to R33).
-/

namespace Sys2Proof.Machine

/-! ## Images (R216) -/

/-- R216: the size of a wave's image. -/
def imageSize (r : LaunchRec) : Nat := 256 + 1024 * r.vg + 64 * r.ug + 6144 * r.tiles + 4096 * r.accs

/-- R117: bytes of a wave's path-table spill: the entries beyond 30. -/
def Wave.spillBytes (w : Wave) : Nat := 24 * (w.depth - 30)

/-- Bytes of a core's Stable in use: images, those on their way in or out included, and the path-table spill of its waves (R117).
DESIGN CHOICE, log 122. -/
def State.stableUsed (s : State) (key : Nat) : Nat :=
  s.waves.foldl (fun n (k, w) =>
    if s.coreOf k != key then n
    else if w.cond == .stable || (w.cond == .resident && w.moving) then n + imageSize (s.recdOf k) + w.spillBytes
    else if w.cond == .resident && (s.core key).split.stbl != 0 then n + w.spillBytes
    else n) 0

/-- An image of a partition is in transit. -/
def State.transit (s : State) (key part : Nat) : Bool :=
  s.waves.any fun (k, w) => w.moving && w.part == part && s.coreOf k == key

/-- R299: an entry of the wave stands in its partition's matrix queue, or its writes are still to complete. -/
def State.inMq (s : State) (k : Nat) : Bool := (s.core (s.coreOf k)).mq.any fun q => q.2.any fun m => m.wave == k

/-- R220, R113, R299, R393: the resident wave may be swapped out. -/
def State.swappable (s : State) (k : Nat) (w : Wave) : Bool :=
  w.cond == .resident && !w.moving && w.region.isNone && !(s.groups.any fun g => g.lead == k) &&
    ((w.slotA.leaves ++ w.slotB.leaves).all fun l => l.wait != .window) &&
    (w.resv.all fun r => 64 ≤ r.2.since) && !(s.transit (s.coreOf k) w.part) &&
    (w.tstat.all fun t => !t.2.inflight) && (w.acc.all fun a => !a.2.inflight) && !(s.inMq k) && w.mmt.isNone &&
    !(s.isOstler (s.launchNo k))

/-- R221, R124, R276: the wave leaves residence; its image moves to the Stable, and no register is dirty any more. -/
def State.swapOut (s : State) (k : Nat) : State :=
  s.updWave k fun w => { w.cleanDirty with cond := .stable, moving := true, stableAt := s.cycle, readyAt := none, resv := [] }

/-- R218: the threshold of a context; `none` disables swap-out. -/
def Context.threshold (c : Context) : Option Nat := if c.thr = 0xFFFFF then none else some (Nat.max c.thr 256)

/-- R218: the stalled waves of a partition that may be swapped out, the first victim first. -/
def insertVictim (x : Nat × Wave) : List (Nat × Wave) → List (Nat × Wave)
  | [] => [x]
  | y :: r =>
    if y.2.stall < x.2.stall || (x.2.stall = y.2.stall && x.2.slot.getD 0 < y.2.slot.getD 0) then x :: y :: r
    else y :: insertVictim x r

def State.victims (s : State) (key part : Nat) : List (Nat × Wave) :=
  (s.waves.filter fun (k, w) =>
    w.part == part && s.coreOf k == key && s.swappable k w &&
      match (s.ctxOf k).threshold with
      | some t => t ≤ w.stall
      | none => false).foldr insertVictim []

/-- The partition's files hold the wave's registers besides `used`. -/
def fits (used need : Granules) : Bool := (used.plus need).fit

def Granules.minus (x y : Granules) : Granules := ⟨x.v - y.v, x.u - y.u, x.t - y.t, x.a - y.a⟩

/-- R218: the victims, taken one after another, make the wave fit, and the Stable has room (`room` bytes) for their images. -/
def State.enough (s : State) (need : Granules) : Granules → Nat → List (Nat × Wave) → Bool
  | used, _, [] => fits used need
  | used, room, (k, _) :: r =>
    fits used need ||
      (imageSize (s.recdOf k) ≤ room &&
        State.enough s need (used.minus (granulesOf (s.recdOf k))) (room - imageSize (s.recdOf k)) r)

def State.stableRoom (s : State) (key : Nat) : Nat := (s.core key).split.stblBytes - s.stableUsed key

/-! ## WAVE_COME_IN (R217, R218) -/

/-- R217: the non-resident waves of a partition that are ready, with their place in the order: promoted, swapped by the cycle
at which they became ready, new by team placement and IXW. DEDUCED, log 61. Of swapped waves that became ready in the same cycle the lower IXW
comes first, then the one placed first: DESIGN CHOICE, log 149. -/
def State.readyRank (s : State) (w : Wave) : Option Nat :=
  if w.slot.isNone then none
  else
    let at_ := fun (r n : Nat) => (r * 2 ^ 64 + n) * 2 ^ 20 + w.ixw
    match w.cond with
    | .new => some (if w.promoted then at_ 0 (s.team w.team).placedAt else at_ 2 (s.team w.team).placedAt)
    | .stable => if w.moving then none else w.readyAt.map fun c => at_ 1 c
    | _ => none

def insertRank (x : Nat × Nat) : List (Nat × Nat) → List (Nat × Nat)
  | [] => [x]
  | y :: r => if x.2 ≤ y.2 then x :: y :: r else y :: insertRank x r

/-- DEDUCED, log 61. -/
def State.incoming (s : State) (key part : Nat) : List Nat :=
  ((s.waves.filterMap fun (k, w) =>
    if w.part == part && s.coreOf k == key && !(s.heldFrom k w) then (s.readyRank w).map fun n => (k, n) else none).foldr insertRank []).map Prod.fst

/-- R117: the header words of the blocks that the paths of a wave are in are read again. -/
def State.rereadHeaders (s : State) (k : Nat) : State :=
  let again := fun (l : Leaf) =>
    if l.pos = 0 then l
    else
      match s.fetch k l.header with
      | .ok h => { l with hdr := h }
      | .error _ => l
  s.updWave k fun w => { w with slotA := w.slotA.map again, slotB := w.slotB.map again }

/-- The wave comes into residence. A swapped wave's image moves in first (R221), and errors of its registers are found (R226): it is
resident from the cycle in which it starts to, and is offered to selection when the image is in. DESIGN CHOICE, log 123. -/
def State.comeIn (s : State) (k : Nat) : State :=
  let back := (s.wave k).cond == .stable
  let s := if back then (s.rereadHeaders k).checkRegs k fun _ => true else s
  s.updWave k fun w =>
    { w.cleanDirty with cond := .resident, moving := back, residentAt := s.cycle, readyAt := none, promoted := false }

/-- The first of the ready waves that can come in does, or the first victim makes room for it. A swapped wave of weakly
parallel waves causes no swap-out and is passed over while there is no room. Any other ready wave that does not fit, and for
which no victim makes room, holds back the ready waves after it. DESIGN CHOICE, log 125. -/
def State.letIn (s : State) (key part : Nat) : List Nat → State
  | [] => s
  | k :: r =>
    let need := granulesOf (s.recdOf k)
    let used := s.regsUsed key part
    let held := s.holdsRegs k (s.wave k)
    if held || fits used need then s.comeIn k
    else if (s.wave k).cond == .stable && s.waveClassOf k == 0 then State.letIn s key part r
    else
      match s.victims key part with
      | [] => s
      | (v, x) :: vs => if s.enough need used (s.stableRoom key) ((v, x) :: vs) then s.swapOut v else s

/-- WAVE_COME_IN. -/
def execWaveComeIn (core : CoreId) (part : Nat) (s : State) : Host.Outcome State Fault Refusal :=
  let k := coreNo core
  .next (s.letIn k part (s.incoming k part))

/-- STABLE_IMAGE_MOVED: 256 bytes in each cycle. -/
def execStableImageMoved (wave : Nat) (s : State) : Host.Outcome State Fault Refusal :=
  let w := s.wave wave
  let began := if w.cond == .stable then w.stableAt else w.residentAt
  if w.moving && decide (began + (imageSize (s.recdOf wave) + 255) / 256 ≤ s.cycle) then
    .next (s.updWave wave fun w => { w with moving := false })
  else .next s

/-! ## STABLE_DISPLACE (R23) -/

/-- A wave of concurrent waves that has been ready for longer than its context's threshold and finds no room. -/
def State.overdue (s : State) (key part : Nat) : Option Nat :=
  (s.incoming key part).find? fun k =>
    let w := s.wave k
    s.waveClassOf k == 2 && !(s.holdsRegs k w) && !(fits (s.regsUsed key part) (granulesOf (s.recdOf k))) &&
      match w.readyAt with
      | some c => decide (c + Nat.max (s.ctxOf k).thr 256 < s.cycle)
      | none => false

/-- R23: the wave displaced in favour of `k`. Of waves of other launches with equal greatest stall time, the rule names none: the
model takes the one listed first. DESIGN CHOICE, log 124. -/
def State.displaced (s : State) (key part k : Nat) : Option Nat :=
  let ws := s.waves.filter fun (j, w) => w.part == part && s.coreOf j == key && s.swappable j w
  let mine := ws.filter fun x => s.launchNo x.1 == s.launchNo k
  let oldest := fun (l : List (Nat × Wave)) => leastBy (fun (x : Nat × Wave) => x.2.residentAt * 16 + x.2.slot.getD 0) l
  let others := ws.filter fun x => s.launchNo x.1 != s.launchNo k
  let plain := others.filter fun x => s.waveClassOf x.1 != 2
  ((oldest mine).orElse fun _ =>
    (greatestBy (fun (x : Nat × Wave) => x.2.stall) plain).orElse fun _ => oldest others).map Prod.fst

/-- STABLE_DISPLACE. -/
def execStableDisplace (core : CoreId) (part : Nat) (s : State) : Host.Outcome State Fault Refusal :=
  let key := coreNo core
  match s.overdue key part with
  | none => .next s
  | some k =>
    match s.displaced key part k with
    | none => .next s
    | some v => .next (if imageSize (s.recdOf v) ≤ s.stableRoom key then s.swapOut v else s)

/-! ## The starvation timer (R30, R31) -/

/-- R29, R33, R34, R408, R421: timers hold while the launch is pre-empted, or while a team of it that a debugger has stopped or
swapped out does not run again. -/
def State.launchHeld (s : State) (l : Nat) : Bool :=
  let x := s.launch l
  x.st == 3 || x.st == 4 || (s.launchTeams l).any fun t =>
    (s.team t).out && (s.team t).swapped && !(s.team t).starvedOut || (s.teamWaves t).any fun w =>
      ((s.wave w).slotA.leaves ++ (s.wave w).slotB.leaves).any Leaf.stopped

/-- A wave that has not issued its first instruction. -/
def notStarted (w : Wave) : Bool := !w.started && (w.cond == .waiting || w.cond == .new)

/-- R219: a partition all of whose slots are held frees one for a promoted wave: the wave longest in the Stable gives up
its slot, else the first victim of R218 is swapped out and gives up its own, unless the Stable has no room for its image. -/
def State.freeOneSlot (s : State) (key part : Nat) : State :=
  let give := fun (s : State) (k : Nat) => s.updWave k fun w => { w with slot := none }
  match leastBy (fun (x : Nat × Wave) => x.2.stableAt) ((s.slotWaves key part).filter fun x => x.2.cond == .stable) with
  | some x => give s x.1
  | none =>
    match (s.victims key part).head? with
    | some x => if imageSize (s.recdOf x.1) ≤ s.stableRoom key then give (s.swapOut x.1) x.1 else s
    | none => s

/-- Partitions of the package, as core and partition, in which a promoted wave waits for a slot. -/
def State.promotedAt (s : State) (l : Nat) : List (Nat × Nat) :=
  (s.launchWaves l).foldl (fun ps k =>
    let w := s.wave k
    let p := (s.coreOf k, w.part)
    if w.promoted && w.slot.isNone && w.cond == .waiting && !(ps.contains p) then ps ++ [p] else ps) []

/-- R30: every unit of the launch that has not started is promoted: its waves, and, through the launch, the teams that hold no
place; and promoted waves take slots (R219). DEDUCED, log 62. -/
def State.promote (s : State) (l : Nat) : State :=
  let s := { s with waves := s.waves.map fun _ (w : Wave) =>
      if (s.team w.team).launch == l && notStarted w then { w with promoted := true } else w }
  let s := s.updLaunch l fun x => { x with promoted := decide (0 < s.unplacedTeams l) }
  (s.promotedAt l).foldl (fun s p =>
    let s := if (s.freeSlot p.1 p.2).isNone then s.freeOneSlot p.1 p.2 else s
    s.assignSlots p.1 p.2 16) s

/-- The number of units that R30 promotes. -/
def State.unstarted (s : State) (l : Nat) : Nat :=
  s.unplacedTeams l + ((s.launchWaves l).filter fun k => notStarted (s.wave k)).length

/-- R31: since when the team's longest blocked wave has been blocked: the least cycle in which a path of it, a yielded one too, blocked
on the operation that it still stands at. DEDUCED, log 64. -/
def State.blockedSince (s : State) (t : Nat) : Nat :=
  ((s.teamWaves t).flatMap fun k =>
    let w := s.wave k
    (w.slotA.leaves ++ w.slotB.leaves).filterMap Leaf.blockedAt).foldl Nat.min s.cycle

/-- R31: the team to swap out for a promoted team that no core of its cluster can hold; of several such clusters, the team blocked
longest on any. DEDUCED, log 64. -/
def State.starvedTeam (s : State) (l : Nat) : Option Nat :=
  let x := s.launch l
  if x.recd.save = 0 || (s.launchTeams l).any fun t => (s.team t).starvedOut then none
  else
    let noCore := fun (bytes : Nat) (g : Nat × Nat) =>
      let p := x.placeOf g.1 g.2
      (s.hostCore x.recd bytes x.startAt p.1 p.2).isNone
    let stuck := (groupsOf x.recd).filter fun g =>
      (x.nextIxt g.1 g.2 < x.recd.t && noCore (x.recd.spad + x.recd.eff) g) ||
        ((s.backTeams l).filter fun t => !(s.began t)).any fun t =>
          (s.team t).ixd == g.1 && (s.team t).ixc == g.2 && noCore ((s.team t).spadLen + (s.team t).effLen) g
    leastBy s.blockedSince ((s.launchTeams l).filter fun t =>
      let m := s.team t
      m.placed && !m.out && stuck.contains (m.ixd, m.ixc) && (s.teamWaves t).any fun k => (s.wave k).started)

/-- The path index (Table 19.5) and EMASK of the path that the timer counts for. -/
def Wave.starvedPath (w : Wave) : Nat × Mask :=
  let a := w.slotA.indexed 0 0
  let b := w.slotB.indexed 1 a.2
  (((a.1 ++ b.1).find? fun x => x.1.pc.toNat == w.starvOp).map fun x => (x.2, x.1.mask)).getD (0, 0)

/-- STARVATION_EXPIRY. DEDUCED, log 62. -/
def execStarvationExpiry (wave : Nat) (s : State) : Host.Outcome State Fault Refusal :=
  let w := s.wave wave
  let l := s.launchNo wave
  if w.starvArmed && w.starvLeft == 0 && !(s.launchHeld l) then
    let n := s.unstarted l
    let again := decide (1 ≤ w.starvExp) && (s.launch l).promoted
    let s := s.promote l
    let s := s.eventRecord wave 3 w.starvedPath.1 w.starvedPath.2 n (BitVec.ofNat 64 w.starvOp)
    let s := s.updWave wave fun w =>
      { w with starvLeft := Nat.max (s.ctxOf wave).limit 4096, starvExp := w.starvExp + 1 }
    match (if again then s.starvedTeam l else none) with
    | some t => .next (s.updTeam t fun x => { x with starvedOut := true, swapReq := true })
    | none => .next s
  else .next s

/-- STARVATION_TEAM_RETURN: the promoted teams have been placed, so the team may take a placement again (R24). -/
def execStarvationTeamReturn (team : Nat) (s : State) : Host.Outcome State Fault Refusal :=
  let t := s.team team
  if t.starvedOut && t.out && !t.placed && !t.returning && s.unplacedTeams t.launch == 0 then
    .next (s.updTeam team fun x => { x with returning := true })
  else .next s

end Sys2Proof.Machine
end

