-- ==== Sys2Proof/Machine/SumTree.lean ====
section
/-!
DEFINITION. Sum-tree registers, the instructions that query and change them, and the tree unit (spec/12_sum_tree.md R301 to R320).
An instruction enters the core's queue at issue with what it read; TREE_UNIT_EXECUTE executes the oldest one whole.
-/

namespace Sys2Proof.Machine

/-! ## A sum-tree register (R301) -/

def Tree.leaf (t : Tree) (j : Nat) : Nat := (Sparse.rd t.leaves j).toNat

/-- MAXL and the largest leaf value of a format. -/
def maxLeaves (m16 : Bool) : Nat := if m16 then 2048 else 1024

def maxLeaf (m16 : Bool) : Nat := if m16 then 65535 else 2 ^ 32 - 1

def leafBytes (m16 : Bool) : Nat := if m16 then 2 else 4

/-- prefix(i): the exact sum of the leaves below `i`. -/
def prefixOf (i : Nat) : Sparse 32 → Nat
  | [] => 0
  | (k, x) :: r => if k < i then x.toNat + prefixOf i r else 0

def Tree.pre (t : Tree) (i : Nat) : Nat := prefixOf i t.leaves

def Tree.total (t : Tree) : Nat := t.pre t.len

def Tree.setLeaf (t : Tree) (j x : Nat) : Tree := { t with leaves := Sparse.wr t.leaves j (BitVec.ofNat 32 x) }

/-- The leaves at `n` and beyond hold zero. -/
def Tree.cutAt (t : Tree) (n : Nat) : Tree := { t with leaves := Sparse.keepKeys (fun k => k < n) t.leaves }

/-- A whole new register. -/
def Tree.ofLeaves (m16 : Bool) (len : Nat) (ls : List Nat) : Tree :=
  ls.zipIdx.foldl (fun t (x, j) => if j < len then t.setLeaf j x else t) ⟨m16, len, []⟩

/-- R313: walk the leaves with the mass before them: the first `i` with prefix(i + 1) > m. -/
def findFrom (m : Nat) : Nat → Sparse 32 → Option Nat
  | _, [] => none
  | acc, (k, x) :: r => if acc + x.toNat > m then some k else findFrom m (acc + x.toNat) r

def Tree.find (t : Tree) (m : Nat) : Nat := (findFrom m 0 t.leaves).getD t.len

/-- R314: the smallest `i` with prefix(i + 1) ≥ m, for 0 < m ≤ total. -/
def cutFrom (m : Nat) : Nat → Sparse 32 → Option Nat
  | _, [] => none
  | acc, (k, x) :: r => if acc + x.toNat ≥ m then some k else cutFrom m (acc + x.toNat) r

def Tree.cutIdx (t : Tree) (m : Nat) : Nat := if m = 0 then 0 else (cutFrom m 0 t.leaves).getD 0

/-- R314: the result and the register after. -/
def Tree.cut (t : Tree) (m : Nat) : Nat × Tree :=
  if t.len = 0 || m > t.total then (t.len, t) else (t.cutIdx m, t.cutAt (t.cutIdx m + 1))

/-- R311: HSET. `lanes` holds (lane, leaf, value), lanes ascending, so that the highest one writes last. -/
def Tree.set (t : Tree) (lanes : List (Nat × Nat × Nat)) : Tree × Fl :=
  let live := lanes.filter fun x => x.2.1 < t.len
  let last := live.filter fun x => !(live.any fun y => y.2.1 == x.2.1 && decide (x.1 < y.1))
  let lim := maxLeaf t.m16
  (last.foldl (fun t x => t.setLeaf x.2.1 (Nat.min x.2.2 lim)) t, flagIf (last.any fun x => decide (lim < x.2.2)) flSAT)

/-- R311: HADD. Deltas are 32-bit two's complement; those of one leaf are combined before the clamp. -/
def Tree.add (t : Tree) (lanes : List (Nat × Nat × Nat)) : Tree × Fl :=
  let live := lanes.filter fun x => x.2.1 < t.len
  let leaves := live.foldl (fun l x => if l.contains x.2.1 then l else l ++ [x.2.1]) []
  leaves.foldl (fun y j =>
    let v : Int := t.leaf j + (live.filter fun x => x.2.1 == j).foldl (fun n x => n + (BitVec.ofNat 32 x.2.2).toInt) 0
    let hi : Int := maxLeaf t.m16
    (y.1.setLeaf j (max 0 (min v hi)).toNat, y.2 ||| flagIf (decide (v < 0) || decide (v > hi)) flSAT)) (t, 0)

/-- R315: HLEN set. -/
def Tree.setLen (t : Tree) (n : Nat) : Tree × Fl :=
  let m := Nat.min n (maxLeaves t.m16)
  ({ t.cutAt m with len := m }, flagIf (decide (maxLeaves t.m16 < n)) flSAT)

/-- The leaves' image (R310, R316). -/
def Tree.image (t : Tree) : List Byte := (upto t.len).flatMap fun j => bytesLE (leafBytes t.m16) (t.leaf j)

/-- Leaves from their image. -/
def leavesOf (m16 : Bool) (n : Nat) (bs : List Byte) : List Nat :=
  (upto n).map fun j => natOfBytes ((bs.drop (j * leafBytes m16)).take (leafBytes m16))

/-! ## Issue -/

/-- The instruction enters the queue of the wave's core. -/
def State.enterTree (s : State) (e : Env) (h : Nat) (op : Option Nat) (b : TreeDo) : State :=
  let team := (s.wave e.wave).team
  s.updCore (s.coreOf e.wave) fun c => { c with treeQ := c.treeQ ++ [⟨e.wave, s.nextId, e.mine, team, h, op, b⟩] }

/-- The form of an instruction that only enters the queue. -/
def treeOp (i : Instr) (g : Guard) (h : HReg) (b : Env → Wave → TreeDo) (s : State) : Host.Outcome State Fault Refusal :=
  issue i g groupCause (fun e s => s.enterTree e h.toNat none (b e (s.wave e.wave))) s

/-- (lane, vA, vB) of the active lanes. -/
def lanePairs (e : Env) (w : Wave) (a b : VReg) : List (Nat × Nat × Nat) :=
  (lanesOf e.act).map fun l => (l, (w.vreg a.toNat l).toNat, (w.vreg b.toNat l).toNat)

def laneVals (e : Env) (w : Wave) (b : VReg) : List (Nat × Nat) :=
  (lanesOf e.act).map fun l => (l, (w.vreg b.toNat l).toNat)

/-- R310: L, and whether it was clamped. -/
def hbldLen (m16 : Bool) (x : DWord) : Nat := Nat.min x.toNat (maxLeaves m16)

/-- The registers that the vector form reads. -/
def hbldRegs (m16 : Bool) (n : Nat) : Nat := (n * leafBytes m16 + 127) / 128

/-- The row-major image of `r` registers from vN. -/
def Wave.vImage (w : Wave) (n r : Nat) : List Byte :=
  (upto r).flatMap fun k => (upto 32).flatMap fun l => bytesLE 4 (w.vreg (n + k) l).toNat

/-- R331: the byte of the scratchpad at `o` that the records of a collection supply. -/
def recordAt (rs : List Effect) (o : Nat) : Option Byte :=
  match recordByte recordWindow (spadBase + o) rs with
  | some (some b) => some b
  | _ => none

/-- R319, R331: the records that an HBLD.SP finds, those made by the instructions of its wave before it. -/
def TreeCmd.records (c : TreeCmd) : List Effect :=
  match c.body with
  | .buildSp _ _ _ (some rs) => rs
  | _ => []

/-- R310: the execution-time causes of HBLD. -/
def hbldCauses (m16 : Bool) (a : HSrc) (b : SReg) (e : Env) (s : State) : List Cause :=
  let w := s.wave e.wave
  let n := hbldLen m16 (w.sreg b.toNat)
  match a with
  | .vec v =>
    let r := hbldRegs m16 n
    let top := Nat.min 255 (Header.ofWord e.leaf.hdr).vhw
    causeIf (r != 0 && decide (v.toNat + r - 1 > top)) (whole e 0x18 e.word) ++ groupCause e s
  | .sp x =>
    let o := (w.sreg x.toNat).toNat % 2 ^ 32
    groupCause e s ++ spadCauses e (alignFails (leafBytes m16) o ++ rangeBounds e s o (n * leafBytes m16))

/-- R310. The clamp of L sets SAT when the unit executes the instruction (R305); `len` keeps the register's value. -/
def execHbld (g : Guard) (m16 : Bool) (d : HReg) (a : HSrc) (b : SReg) (s : State) : Host.Outcome State Fault Refusal :=
  let i := Instr.hbld g m16 d a b
  issueWith i g false (hbldCauses m16 a b)
    (fun e s =>
      -- R11, R310: the vector form takes the values that the registers hold at issue
      match a with
      | .vec v =>
        let w := s.wave e.wave
        let busy := s.busyRegs e.wave e.mine
        if (upto (hbldRegs m16 (hbldLen m16 (w.sreg b.toNat)))).any fun k => busy.contains (.v (v.toNat + k)) then some 1
        else none
      | .sp _ => none)
    (seqAct i fun e s =>
      let w := s.wave e.wave
      let len := (w.sreg b.toNat).toNat
      let n := hbldLen m16 (w.sreg b.toNat)
      match a with
      | .vec v => s.enterTree e d.toNat none (.build m16 len (leavesOf m16 n (w.vImage v.toNat (hbldRegs m16 n))))
      | .sp x =>
        let o := (w.sreg x.toNat).toNat % 2 ^ 32
        let k := s.nextId
        let c := if w.collecting then some (s.collection e.wave) else none
        (s.pushOp ⟨e.wave, e.mine, s.coreOf e.wave, .load, false, false, [], false, .tree e.word, false⟩).enterTree e d.toNat
          (some k) (.buildSp m16 len o c)) noCause s

/-- R311. -/
def execHset (g : Guard) (d : HReg) (a b : VReg) (s : State) : Host.Outcome State Fault Refusal :=
  treeOp (.hset g d a b) g d (fun e w => .set (lanePairs e w a b)) s

def execHadd (g : Guard) (d : HReg) (a b : VReg) (s : State) : Host.Outcome State Fault Refusal :=
  treeOp (.hadd g d a b) g d (fun e w => .add (lanePairs e w a b)) s

/-- R312. -/
def execHpfx (g : Guard) (a : HReg) (q : HQry) (s : State) : Host.Outcome State Fault Refusal :=
  treeOp (.hpfx g a q) g a (fun e w =>
    match q with
    | .vec d b => .pfxV d.toNat (laneVals e w b)
    | .uni d b => .pfxS d.toNat (w.sreg b.toNat).toNat) s

/-- R313. -/
def execHfind (g : Guard) (a : HReg) (q : HQry) (s : State) : Host.Outcome State Fault Refusal :=
  treeOp (.hfind g a q) g a (fun e w =>
    match q with
    | .vec d b => .findV d.toNat (laneVals e w b)
    | .uni d b => .findS d.toNat (w.sreg b.toNat).toNat) s

/-- R314. -/
def execHcut (g : Guard) (d : SReg) (a : HReg) (b : SReg) (s : State) : Host.Outcome State Fault Refusal :=
  treeOp (.hcut g d a b) g a (fun _ w => .cut d.toNat (w.sreg b.toNat).toNat) s

/-- R315. -/
def execHtot (g : Guard) (d : SReg) (a : HReg) (s : State) : Host.Outcome State Fault Refusal :=
  treeOp (.htot g d a) g a (fun _ _ => .tot d.toNat) s

def execHlenRead (g : Guard) (d : SReg) (a : HReg) (s : State) : Host.Outcome State Fault Refusal :=
  treeOp (.hlenRead g d a) g a (fun _ _ => .lenRead d.toNat) s

def execHlenSet (g : Guard) (d : HReg) (a : SReg) (s : State) : Host.Outcome State Fault Refusal :=
  treeOp (.hlenSet g d a) g d (fun _ w => .lenSet (w.sreg a.toNat).toNat) s

/-- R316. -/
def execHstl (g : Guard) (a : HReg) (b : SReg) (s : State) : Host.Outcome State Fault Refusal :=
  let i := Instr.hstl g a b
  let off := fun (e : Env) (s : State) => ((s.wave e.wave).sreg b.toNat).toNat % 2 ^ 32
  issue i g
    (fun e s =>
      let o := off e s
      groupCause e s ++ spadCauses e (alignFails 4 o ++ rangeBounds e s o 4096) ++
        s.recordCauses e 512 (spadBase + o))
    (fun e s =>
      let k := s.nextId
      let w := s.wave e.wave
      let o := off e s
      (s.pushOp ⟨e.wave, e.mine, s.coreOf e.wave, .store, false, false, [], false, .tree e.word, false⟩).enterTree e a.toNat
        (some k) (.stl o (if w.collecting then some w.collEntry else none))) s

/-! ## TREE_UNIT_EXECUTE -/

def State.treeOf (s : State) (t h : Nat) : Tree := (s.team t).trees.lookD h ⟨false, 0, []⟩

def State.setTree (s : State) (t h : Nat) (x : Tree) : State :=
  s.updTeam t fun m => { m with trees := m.trees.upd h fun _ => x }

/-- R330: the records of an HSTL: 8-byte ones, then a 4-byte and a 2-byte one. The first argument bounds their number. -/
def imageRecords : Nat → Nat → List Byte → List Effect
  | 0, _, _ => []
  | k + 1, o, bs =>
    if bs.isEmpty then []
    else
      let n := if bs.length ≥ 8 then 8 else if bs.length ≥ 4 then 4 else 2
      .store true (BitVec.ofNat 64 o) n (BitVec.ofNat 64 (natOfBytes (bs.take n))) :: imageRecords k (o + n) (bs.drop n)

/-- R306: the scratchpad reads and writes stand behind the wave's older scratchpad accesses. -/
def State.treeReady (s : State) (c : TreeCmd) : Bool :=
  match c.op with
  | some n => s.spadQuiet c.wave n []
  | none => true

/-- What a query or a change of the register gives: the register after, the wave's registers after, the flags. -/
def TreeCmd.apply (c : TreeCmd) (rs : List Effect) (rd : Nat → Byte) (t : Tree) (w : Wave) : Tree × Wave × Fl :=
  match c.body with
  | .build m16 len ls =>
    (Tree.ofLeaves m16 (Nat.min len (maxLeaves m16)) ls, w, flagIf (decide (maxLeaves m16 < len)) flSAT)
  | .buildSp m16 len o _ =>
    let n := Nat.min len (maxLeaves m16)
    let bs := (upto (n * leafBytes m16)).map fun j => (recordAt rs (o + j)).getD (rd (o + j))
    (Tree.ofLeaves m16 n (leavesOf m16 n bs), w, flagIf (decide (maxLeaves m16 < len)) flSAT)
  | .set lanes => let r := t.set lanes; (r.1, w, r.2)
  | .add lanes => let r := t.add lanes; (r.1, w, r.2)
  | .pfxV d lanes =>
    let vs := lanes.map fun x => (x.1, t.pre (Nat.min x.2 t.len))
    (t, w.setLanes (vs.map fun x => (d, x.1, (satU 32 x.2).1)), vs.foldl (fun f x => f ||| (satU 32 x.2).2) 0)
  | .pfxS d i => (t, w.setS d (BitVec.ofNat 64 (t.pre (Nat.min i t.len))), 0)
  | .findV d lanes => (t, w.setLanes (lanes.map fun x => (d, x.1, BitVec.ofNat 32 (t.find x.2))), 0)
  | .findS d m => (t, w.setS d (BitVec.ofNat 64 (t.find m)), 0)
  | .cut d m => let r := t.cut m; (r.2, w.setS d (BitVec.ofNat 64 r.1), 0)
  | .tot d => (t, w.setS d (BitVec.ofNat 64 t.total), 0)
  | .lenRead d => (t, w.setS d (BitVec.ofNat 64 t.len), 0)
  | .lenSet n => let r := t.setLen n; (r.1, w, r.2)
  | .stl .. => (t, w, 0)

/-- R319, R330: the records of an HSTL, when its wave still collects where it did at issue: those of the whole image, which of 4,094
bytes are 513. DEDUCED, log 53. -/
def State.stlRecords (s : State) (c : TreeCmd) (t : Tree) : List Effect :=
  match c.body with
  | .stl o (some k) => if (s.wave c.wave).collAct && (s.wave c.wave).collEntry == k then imageRecords 513 o t.image else []
  | _ => []

/-- HSTL's writes, or its records while its wave collects (R316, R319). -/
def State.storeTree (s : State) (c : TreeCmd) (t : Tree) : State :=
  match c.body with
  | .stl o none => s.homeWrite ⟨.spad c.team, o, 0, false⟩ t.image
  | .stl _ (some _) => s.record c.wave (s.stlRecords c t)
  | _ => s

/-- A queued HBLD.SP of the wave finds the records that an older instruction has made by now. -/
def TreeCmd.finds (w : Nat) (rs : List Effect) (c : TreeCmd) : TreeCmd :=
  match c.body with
  | .buildSp m16 len o (some old) => if c.wave = w then { c with body := .buildSp m16 len o (some (old ++ rs)) } else c
  | _ => c

/-- The scratchpad bytes that HBLD reads and that are in error. -/
def State.treeErrs (s : State) (c : TreeCmd) : List ReadErr :=
  match c.body with
  | .buildSp m16 len o _ =>
    if (s.team c.team).spadUpset.isEmpty then []
    else (upto (Nat.min len (maxLeaves m16) * leafBytes m16)).filterMap fun j =>
      if (recordAt c.records (o + j)).isNone && s.upsetAt ⟨.spad c.team, o + j, 0, false⟩ then some (2, s.coreUnit c.wave, o + j) else none
  | _ => []

/-- R320: the leaves of a 64-bit leaf word found uncorrectable become zero. -/
def Tree.badWord (t : Tree) (word : Nat) : Tree :=
  { t with leaves := Sparse.keepKeys (fun k => k / (8 / leafBytes t.m16) != word) t.leaves }

/-- R320: the error is logged and raises 0x01 in the wave whose instruction executes. -/
def State.treeError (s : State) (c : TreeCmd) (bad : Option Nat) : State :=
  match bad with
  | none => s
  | some word =>
    let t := s.treeOf c.team c.h
    let n := 8 / leafBytes t.m16
    (s.setTree c.team c.h (t.badWord word)).machineCheck c.wave 8 (s.coreUnit c.wave) c.h
      (Config.logField 8 (word * n) (word * n + n - 1)).toNat

/-- TREE_UNIT_EXECUTE: the oldest instruction of the core's queue is executed whole. `bad` is a leaf word that its reads
find uncorrectable. -/
def execTreeUnitExecute (core : CoreId) (bad : Option Nat) (s : State) : Host.Outcome State Fault Refusal :=
  let k := coreKey core
  match (s.core k).treeQ with
  | [] => .next s
  | c :: rest =>
    if !(s.treeReady c) then .next s
    else
      let errs := s.treeErrs c
      let s := s.treeError c bad
      let r := c.apply c.records (fun o => s.spadRd c.team o) (s.treeOf c.team c.h) (s.wave c.wave)
      let s := (s.setTree c.team c.h r.1).updWave c.wave fun _ => r.2.1.orFlags r.2.2
      let rest := rest.map (TreeCmd.finds c.wave (s.stlRecords c r.1))
      let s := s.storeTree c r.1
      let s := s.raiseErrs c.wave errs
      let s := s.updCore k fun x => { x with treeQ := rest }
      .next (s.opDone? c.op)

end Sys2Proof.Machine
end

