-- ==== Sys2Proof/Machine/Save.lean ====
section
/-!
DEFINITION. The save area (spec/17_package.md R413, Tables 17.12 to 17.16): its size, what the device writes there for a team, and
what it reads back when the team returns. A debugger may change a team's block in between (R421).
-/

namespace Sys2Proof.Machine

/-! ## Path-table entries read back (Table 5.4) -/

/-- A leaf as an entry names it; the header word and the rest stay as they were. -/
def PathEntry.leaf (e : PathEntry) (l : Leaf) : Leaf :=
  { l with
    mask := BitVec.ofNat 32 e.mask, fmt := BitVec.ofNat 14 e.fmt, pos := e.pos, pc := BitVec.ofNat 64 e.pc
    kind := if e.kind = 0 then .running else if e.kind = 1 then .pending else .yielded }

def PathEntry.node (e : PathEntry) : Node := ⟨BitVec.ofNat 32 e.mask, BitVec.ofNat 14 e.fmt, BitVec.ofNat 64 e.join, false⟩

/-- A tree with the fields of the entries read back into its own shape, `run` being the live slot's. -/
def PTree.refill (run : PathEntry) : PTree → List PathEntry → PTree × List PathEntry
  | .empty, es => (.empty, es)
  | .leaf l, es =>
    if isRunning l then (.leaf (run.leaf l), es)
    else
      match es with
      | [] => (.leaf l, [])
      | e :: r => (.leaf (e.leaf l), r)
  | .node n a b, es =>
    let (n', es) := match es with
      | [] => (n, [])
      | e :: r => (e.node, r)
    let x := PTree.refill run a es
    let y := PTree.refill run b x.2
    (.node n' x.1 y.1, y.2)

/-- The tree is a node that holds the lanes. -/
def PTree.covers (m : Mask) : PTree → Bool
  | .node n _ _ => m &&& ~~~n.mask == 0
  | _ => false

/-- The tree `e` takes its place under the deepest node that holds its lanes, as the first child that is free. -/
def PTree.nest (e : PTree) (m : Mask) : PTree → PTree
  | .empty => e
  | .leaf l => .leaf l
  | .node n a b =>
    if a.covers m then .node n (PTree.nest e m a) b
    else if b.covers m then .node n a (PTree.nest e m b)
    else
      match a, b with
      | .empty, b => .node n e b
      | a, .empty => .node n a e
      | a, b => .node n a b

/-- An entry as a tree of its own. -/
def PathEntry.tree (e : PathEntry) : PTree :=
  if e.kind = 3 then .node e.node .empty .empty else .leaf (e.leaf (Leaf.atHeader 0 0 .pending 0))

/-- R421: the tree of one live slot as the image has it: its own shape where the image names as many nodes and leaves in the same
places, and otherwise the one that the entries' lanes nest into, the live slot's last. DEDUCED, log 66. -/
def PTree.reload (t : PTree) (arm : Nat) (run : PathEntry) (es : List PathEntry) : PTree :=
  let isNode := fun (e : PathEntry) => e.kind == 3
  if (t.entries arm 0).map isNode == es.map isNode && t.running.isSome == (run.mask != 0) then (t.refill run es).1
  else
    let t := es.foldl (fun t e => PTree.nest e.tree (BitVec.ofNat 32 e.mask) t) .empty
    if run.mask = 0 then t else PTree.nest run.tree (BitVec.ofNat 32 run.mask) t

/-! ## Words of a wave (Tables 5.3, 1.7, 10.7, 14.3) -/

/-- Table 5.3. -/
def State.wstat (s : State) (w : Nat) : Nat :=
  let x := s.wave w
  x.recCount.toNat * 2 ^ 32 + x.depth * 2 ^ 24 + s.counter w .load * 2 ^ 18 + s.counter w .store * 2 ^ 12 +
    s.counter w .copy * 2 ^ 6 + s.counter w .tile

/-- Table 1.7. -/
def Wave.starvc (w : Wave) : Nat := if w.starvArmed then 2 ^ 32 + w.starvLeft % 2 ^ 32 else 0

/-- Table 14.3. -/
def State.ecoll (s : State) (w : Nat) : Nat :=
  let x := s.wave w
  (if x.collAct then 2 ^ 63 + x.collReg * 2 ^ 48 + (s.collection w).length % 2 ^ 20 * 2 ^ 20 else 0) + x.apos % 2 ^ 20

/-- Table 10.7. -/
def Wave.mxval (w : Wave) : Nat :=
  let bits := fun (f : Nat → Bool) => (upto 16).foldl (fun n k => if f k then n + 2 ^ k else n) 0
  bits (fun n => (w.accTag n).scl) * 2 ^ 48 + bits (fun n => (w.accTag n).int) * 2 ^ 32 +
    bits (fun n => (w.accTag n).valid) * 2 ^ 16 + bits fun n => (w.tileStat n).valid

/-! ## A wave's image (Table 17.14) -/

/-- Table 17.16. -/
def chainRecord (t : AccTag) : List Byte :=
  [if t.int then 1 else 0, if t.scl then 1 else 0] ++ (upto 4).map (fun q => BitVec.ofNat 8 (nth 0 t.spanPos q % 128)) ++ [0, 0] ++
    (upto 4).flatMap (fun q => bytesLE 2 (nth 0 t.spanIdx q)) ++ List.replicate 48 0

def slotKindNo : SlotKind → Nat
  | .register => 1
  | .scratchpad => 2
  | .arrival => 3

/-- A reply slot's 144 bytes. DEDUCED, log 65. -/
def ReplySlot.bytes (x : ReplySlot) : List Byte :=
  bytesLE 4 (slotKindNo x.kind + if x.failed then 4 else 0) ++ bytesLE 4 x.lanes ++ bytesLE 8 x.dest ++
    (upto 128).map fun i => nth 0 x.data i

/-- The parts of the image, each with its offset. A tile that is not valid is not written. -/
def State.imageParts (s : State) (w : Nat) : List (Nat × List Byte) :=
  let x := s.wave w
  let r := s.recdOf w
  let d := fun (n : Nat) => bytesLE 8 n
  let run := fun (t : PTree) (arm : Nat) => ((t.runEntry arm (rootJoin x)).map PathEntry.bytes).getD (List.replicate 24 0)
  let es := x.entries
  let v0 := 320 + 64 * r.ug
  let t0 := v0 + 1024 * r.vg
  let a0 := t0 + 6144 * r.tiles
  let p0 := a0 + 8256 * r.accs
  [(0, d (s.wstat w) ++ d x.tcause.toNat ++ d x.tpc.toNat ++ d x.tval.toNat ++ d x.starvc ++ d (s.ecoll w) ++
      d x.mxkoff.toNat ++ d x.mxscl.toNat ++ d x.flags.toNat ++ bytesLE 4 x.fairA ++ bytesLE 4 x.fairB ++
      bytesLE 4 x.stall ++ bytesLE 4 x.age ++ d x.savedHdr.toNat ++ d x.savedPos ++
      ((x.root.map fun n => (nodeEntry 0 n).bytes).getD (List.replicate 24 0)) ++ run x.slotA 0 ++ run x.slotB 1 ++
      (upto 8).flatMap (fun i => d (Sparse.rd x.unfold i).toNat) ++
      d (Nat.min es.length 30 + (es.length - 30) * 2 ^ 8) ++ d x.mxval),
    (256, (upto 16).flatMap fun n => bytesLE 4 (x.preg n).toNat),
    (320, (upto (8 * r.ug)).flatMap fun n => d (x.sreg n).toNat),
    (v0, (upto (8 * r.vg)).flatMap fun n => (upto 32).flatMap fun l => bytesLE 4 (x.vreg n l).toNat)] ++
  ((upto r.tiles).filter fun n => (x.tileStat n).valid).map (fun n => (t0 + 6144 * n, (upto 6144).map fun j => x.tileByte n j)) ++
  (upto r.accs).map (fun n => (a0 + 8256 * n,
    (upto 1024).flatMap (fun k => bytesLE 4 (x.accWord n (k / 32) (k % 32)).toNat) ++
      (upto 1024).flatMap (fun k => bytesLE 4 (x.partWord n (k / 32) (k % 32)).toNat) ++ chainRecord (x.accTag n))) ++
  [(p0, (es.flatMap PathEntry.bytes) ++ List.replicate ((254 - es.length) * 24) 0),
    (p0 + 6096, (upto 62).flatMap fun k =>
      match (x.slots.drop k).head? with
      | some y => y.bytes
      | none => List.replicate 144 0)]

/-- A table entry for each number for which the function gives one. -/
def tableOf {α : Type} (n : Nat) (f : Nat → Option α) : Table α :=
  (upto n).filterMap fun k => (f k).map fun x => (k, x)

/-- A `Sparse` of `n` values. -/
def sparseOf (w n : Nat) (f : Nat → Nat) : Sparse w :=
  (upto n).filterMap fun k => let x := BitVec.ofNat w (f k); if x = 0 then none else some (k, x)

/-- A reply slot read back; an empty one is none. -/
def readSlot (get : Nat → Nat → Nat) (o : Nat) : Option ReplySlot :=
  let k := get o 4
  if k % 4 = 0 then none
  else some
    { kind := if k % 4 = 1 then .register else if k % 4 = 2 then .scratchpad else .arrival
      failed := k / 4 % 2 == 1
      lanes := get (o + 4) 4
      dest := get (o + 8) 8
      data := (upto 128).map fun i => BitVec.ofNat 8 (get (o + 16 + i) 1) }

/-- A wave with what its image at `base` holds. `get a n` reads n bytes at an offset. -/
def Wave.reload (x : Wave) (r : LaunchRec) (get : Nat → Nat → Nat) : Wave :=
  let d := fun (o : Nat) => BitVec.ofNat 64 (get o 8)
  let entry := fun (o : Nat) => PathEntry.ofNat (get o 24)
  let v0 := 320 + 64 * r.ug
  let t0 := v0 + 1024 * r.vg
  let a0 := t0 + 6144 * r.tiles
  let p0 := a0 + 8256 * r.accs
  let es := (upto (get 240 1 + get 241 1)).map fun k => entry (p0 + 24 * k)
  let reload := fun (t : PTree) (arm at_ : Nat) =>
    t.reload arm (entry at_) (es.filter fun e => e.arm == arm)
  let mx := get 248 8
  { x with
    recCount := BitVec.ofNat 8 (get 4 1)
    tcause := d 8 &&& 0xFFFFFFFF000F00FF
    tpc := d 16
    tval := d 24
    starvArmed := get 36 1 % 2 == 1
    starvLeft := get 32 4
    collAct := get 47 1 / 128 == 1
    collReg := get 46 1 % 64
    apos := get 40 8 % 2 ^ 20
    mxkoff := d 48
    mxscl := d 56
    flags := BitVec.ofNat 6 (get 64 1)
    fairA := get 72 4
    fairB := get 76 4
    stall := get 80 4
    age := get 84 4
    savedHdr := d 88
    savedPos := get 96 8
    root :=
      let e := entry 104
      if e.mask = 0 then none else some e.node
    slotA := reload x.slotA 0 128
    slotB := reload x.slotB 1 152
    unfold := sparseOf 64 8 fun i => get (176 + 8 * i) 8
    p := sparseOf 32 16 fun n => if n = 0 then 0 else get (256 + 4 * n) 4
    s := sparseOf 64 (8 * r.ug) fun n => get (320 + 8 * n) 8
    v := sparseOf 32 (256 * r.vg) fun k => get (v0 + 4 * k) 4
    t := sparseOf 8 (6144 * r.tiles) fun k => if bitN mx (k / 6144) then get (t0 + k) 1 else 0
    tstat := tableOf r.tiles fun n => if bitN mx n then some ⟨true, false, false⟩ else none
    a := sparseOf 32 (1024 * r.accs) fun k => get (a0 + 8256 * (k / 1024) + 4 * (k % 1024)) 4
    partial_ := sparseOf 32 (1024 * r.accs) fun k => get (a0 + 8256 * (k / 1024) + 4096 + 4 * (k % 1024)) 4
    acc := tableOf r.accs fun n =>
      let o := a0 + 8256 * n + 8192
      some
        { valid := bitN mx (16 + n), dirty := false, inflight := false
          int := get o 1 % 2 == 1, scl := get (o + 1) 1 % 2 == 1
          spanPos := (upto 4).map fun q => get (o + 2 + q) 1 % 128
          spanIdx := (upto 4).map fun q => get (o + 8 + 2 * q) 2 }
    slots := (upto 62).filterMap fun k => readSlot get (p0 + 6096 + 144 * k) }

/-! ## A team's block (Table 17.13) -/

/-- A residual's 32 bytes. -/
def ResidualCmd.bytes (x : ResidualCmd) : List Byte :=
  bytesLE 8 x.dst ++ bytesLE 8 x.src ++ bytesLE 4 x.len ++ bytesLE 2 x.ixw ++ bytesLE 2 0 ++ bytesLE 8 x.word

/-- The trailing runs of one part that lie end to end: its tail (R410). `acc` is the tail so far, the last run first. -/
def tailRuns : List Run → List Run
  | [] => []
  | r :: rest =>
    match tailRuns rest with
    | [] => [r]
    | t :: ts =>
      if ts.length = rest.length - 1 && r.srcVa + r.len = t.srcVa && r.dstVa + r.len = t.dstVa then r :: t :: ts else t :: ts

/-- The parts of a copy's runs, in ascending order. -/
def copySegs (runs : List Run) : List Nat := (upto 32).filter fun k => runs.any fun r => r.seg == k

/-- The residuals of one copy and the runs they stand for. -/
def residualsOf (ixw : Nat) (word : Option (Nat × Place)) (runs : List Run) : List (ResidualCmd × List Run) :=
  (copySegs runs).filterMap fun k =>
    let t := tailRuns (runs.filter fun r => r.seg == k)
    match t with
    | [] => none
    | r :: _ => some (⟨r.dstVa, r.srcVa, t.foldl (fun n x => n + x.len) 0, ixw, (word.map Prod.fst).getD 0⟩, t)

/-- Table 12.4. -/
def treeImage (t : Tree) : List Byte :=
  bytesLE 8 ((if t.m16 then 1 else 0) + t.len * 2 ^ 16) ++ t.image ++ List.replicate (4096 - t.image.length) 0

def readTree (get : Nat → Nat → Nat) (o : Nat) : Tree :=
  let h := get o 8
  let m16 := bitN h 0
  let n := Nat.min (bitsN h 27 16) (maxLeaves m16)
  Tree.ofLeaves m16 n ((upto n).map fun j => get (o + 8 + leafBytes m16 * j) (leafBytes m16))

/-- Table 17.13, the first 64 bytes. -/
def teamHead (t : Team) (n : Nat) : List Byte :=
  bytesLE 8 (t.ixt + t.ixc * 2 ^ 16 + t.ixd * 2 ^ 19 + t.exited % 2 ^ 16 * 2 ^ 32 + t.barArr % 2 ^ 16 * 2 ^ 48) ++
    bytesLE 8 (n + (if t.bardIn then 2 ^ 32 else 0) + if t.barpIn then 2 ^ 33 else 0) ++ List.replicate 48 0

/-- R421, R411: the team's block is written. `rs` are its residuals. The effect area's bytes have no layout: log 16. -/
def State.writeBlock (s : State) (t : Nat) (rs : List ResidualCmd) : State :=
  let m := s.team t
  let r := (s.launch m.launch).recd
  let base := r.save + blockOff r (teamIdx r m.ixd m.ixc m.ixt)
  let bs := teamHead m rs.length ++ (upto r.hregs).flatMap (fun k => treeImage (m.trees.lookD k ⟨false, 0, []⟩)) ++
    rs.flatMap ResidualCmd.bytes ++ m.spad.readBytes 0 m.spadLen ++ areaOf m.dir m.effLen
  let s := s.put r.ctx base bs
  (s.teamWaves t).foldl (fun s k =>
    let w := s.wave k
    if w.cond == .ended then s
    else (s.imageParts k).foldl (fun s p => s.put r.ctx (base + imageOff r rs.length w.ixw + p.1) p.2) s) s

/-- Table 17.12: the record, the launch's state and the team directory. -/
def State.writeHead (s : State) (l : Nat) : State :=
  let x := s.launch l
  let r := x.recd
  let barp := s.arrivedTeams l none Team.barpIn
  let st := bytesLE 8 4 ++ bytesLE 8 (x.phase * 2 ^ 48 + x.sched * 2 ^ 40) ++ (upto 4).flatMap (fun d => bytesLE 8 (nth 0 x.times d)) ++
    bytesLE 8 barp ++ List.replicate 200 0
  let flags := fun (d c t : Nat) =>
    let ended := x.ended.contains (d, c, t)
    let started := (s.launchTeams l).any fun n =>
      let m := s.team n
      m.ixd == d && m.ixc == c && m.ixt == t && (s.teamWaves n).any fun k => (s.wave k).started
    (if started || ended then 1 else 0) + if ended then 2 else 0
  let dir := (groupsOf r).flatMap fun g => (upto r.t).flatMap fun t =>
    bytesLE 8 (blockOff r (teamIdx r g.1 g.2 t)) ++ bytesLE 8 (flags g.1 g.2 t)
  s.put r.ctx r.save (x.image ++ st ++ dir)

end Sys2Proof.Machine
end

