-- ==== Sys2Proof/Machine/Launches.lean ====
section
/-!
DEFINITION. Launches (spec/17_package.md R397 to R403, R406): the launch record and its checks, LAUNCH and LSTAT, dependences,
the queues, the start of a launch, the release of its entry, and replies of the fault log.
-/

namespace Sys2Proof.Machine

/-! ## The launch record (Table 17.6) -/

/-- A field of a record: `n` bytes at `o`. -/
def recField (b : List Byte) (o n : Nat) : Nat := natOfBytes ((b.drop o).take n)

def parseRecord (b : List Byte) : LaunchRec where
  merge := bitN (recField b 2 2) 0
  phased := bitN (recField b 2 2) 1
  ctx := recField b 4 2
  prio := recField b 6 1
  laneClass := bitsN (recField b 7 1) 1 0
  waveClass := bitsN (recField b 7 1) 3 2
  teamClass := bitsN (recField b 7 1) 5 4
  entry := BitVec.ofNat 64 (recField b 8 8)
  w := recField b 16 1
  c := recField b 17 1
  d := recField b 18 1
  t := recField b 20 2
  g := recField b 22 2
  vg := recField b 24 1
  ug := recField b 25 1
  tiles := recField b 26 1
  accs := recField b 27 1
  hregs := recField b 28 1
  split := ⟨bitsN (recField b 30 2) 11 8, bitsN (recField b 30 2) 7 4, bitsN (recField b 30 2) 3 0⟩
  spad := recField b 32 4
  eff := recField b 36 4
  n := recField b 40 4
  ns := recField b 44 1
  ixg := recField b 46 2
  scheds := (upto 4).map fun i => recField b (48 + 4 * i) 4
  deps := (upto 4).map fun i => (recField b (64 + 16 * i) 8, recField b (72 + 16 * i) 2)
  done := recField b 128 8
  args := (upto 4).map fun i => BitVec.ofNat 64 (recField b (136 + 8 * i) 8)
  save := recField b 168 8
  stream := recField b 176 8

/-- R397: VERSION, and the bits and bytes that are reserved. -/
def recordForm (b : List Byte) : Bool :=
  recField b 0 2 == 0x0100 && recField b 2 2 / 4 == 0 && recField b 7 1 / 64 == 0 && recField b 30 2 / 4096 == 0 &&
    recField b 19 1 == 0 && recField b 29 1 == 0 && recField b 45 1 == 0 && recField b 184 72 == 0 &&
    (upto 4).all fun i => recField b (74 + 16 * i) 6 == 0

/-! ## The checks (R398) -/

/-- R399: a dependence or DONE address: 16-byte aligned, in device memory through the launch's context or in the vault window.
DEDUCED, log 74. -/
def State.launchWord (s : State) (ctx : Nat) (want : Want) (a : Nat) : Option Place :=
  if a % 16 != 0 then none else s.recordPlace ctx want a

/-- 0x13, the first group. -/
def State.recordOk (s : State) (b : List Byte) (r : LaunchRec) : Bool :=
  recordForm b && (s.ctx r.ctx).isSome && r.prio ≤ 7 && r.entry.toNat % 8 == 0 && (s.streamAt r.stream).isSome &&
    ([r.entry.toNat, r.done, r.save, r.stream] ++ r.deps.map Prod.fst).all (fun a => decide (a < 2 ^ 56)) &&
    (r.deps.all fun d => d.1 == 0 || (s.launchWord r.ctx .read d.1).isSome) &&
    (r.done == 0 || (s.launchWord r.ctx .write r.done).isSome)

/-- R19: no class code is 11. -/
def classOk (r : LaunchRec) : Bool := r.laneClass != 3 && r.waveClass != 3 && r.teamClass != 3

def inRange (lo x hi : Nat) : Bool := decide (lo ≤ x) && decide (x ≤ hi)

/-- Table 8.4. -/
def splitOk (p : Split) : Bool :=
  inRange 2 p.spad 14 && inRange 1 p.l1 8 && p.stbl ≤ 4 && p.spad + p.l1 + p.stbl == 16

/-- The weights of one schedule. -/
def schedWeights (r : LaunchRec) (k : Nat) : List Nat := (upto 4).map (weightOf (nth 0 r.scheds k))

/-- R380: weights of absent die groups are 0, and not all are. -/
def schedOk (r : LaunchRec) (k : Nat) : Bool :=
  let w := schedWeights r k
  w.any (fun x => x != 0) && (w.drop r.d).all fun x => x == 0

/-- 0x10. A package that has no domain configured counts as a domain of one. DEDUCED, log 72. -/
def State.shapeOk (s : State) (r : LaunchRec) : Bool :=
  inRange 1 r.w 16 && inRange 1 r.c 8 && inRange 1 r.d 4 && inRange 1 r.t 65535 && inRange 1 r.g (Nat.max 1 s.cal.n) &&
    inRange 1 r.vg 32 && inRange 1 r.ug 8 && r.tiles ≤ 16 && r.accs ≤ 16 && r.hregs ≤ 8 && splitOk r.split &&
    r.spad % 256 == 0 && r.eff % 256 == 0 && decide (r.spad + r.eff ≤ r.split.spadBytes) && decide (r.ixg < r.g) &&
    if r.phased then inRange 1 r.ns 4 && (upto r.ns).all (schedOk r) else r.ns == 0

/-- Every 64 KiB piece of a range lies in device memory that the context maps writable, in CONF pages for a confidential
context (R396, R431). The first argument bounds the pieces. -/
def State.pagesOk (s : State) (ctx : Nat) (conf : Bool) : Nat → Nat → Nat → Bool
  | 0, _, len => len == 0
  | k + 1, a, len =>
    if len = 0 then true
    else
      let n := Nat.min len (65536 - a % 65536)
      match s.recordPlace ctx .write a with
      | some p => p.tier == .dev && (!conf || p.key != 0) && State.pagesOk s ctx conf k (a + n) (len - n)
      | none => false

/-- R431: a record buffer of a confidential context lies in CONF pages. DEDUCED, log 73. -/
def State.bufferOk (s : State) (ctx : Nat) (buf : DWord) (slotBytes : Nat) : Bool :=
  let base := bitsN buf.toNat 55 12 * 4096
  let len := slotBytes * 2 ^ bitsN buf.toNat 59 56
  base == 0 || s.pagesOk ctx true (len / 65536 + 2) base len

/-- 0x13, the last group: the save area, and for a confidential context its record buffers. DEDUCED, log 73. -/
def State.saveOk (s : State) (r : LaunchRec) : Bool :=
  let c := s.context r.ctx
  (r.save == 0 || (r.save % 4096 == 0 && s.pagesOk r.ctx c.conf (areaSize r / 65536 + 2) r.save (areaSize r))) &&
    (!c.conf || (s.bufferOk r.ctx c.trbuf 32 && s.bufferOk r.ctx c.mbuf 832))

/-- R398, R434: the status with which the launch is refused; 0 when it is accepted. A package out of service completes every launch
with 0x21. -/
def State.refusal (s : State) (b : List Byte) (r : LaunchRec) : Nat :=
  if s.oos then 0x21
  else if !(s.recordOk b r) then 0x13
  else if !(classOk r) then 0x11
  else if !(s.shapeOk r) then 0x10
  else if !(s.saveOk r) then 0x13
  else if teamClass r == 2 && !(s.couldHold r) then 0x12
  else 0

/-! ## LAUNCH (R402) -/

def noFreeEntry : DWord := BitVec.ofNat 64 (2 ^ 63 + 1)

/-- The record's 256 bytes become a launch in the lowest free entry; the answer is what LAUNCH writes to sD.
DESIGN CHOICE, log 4. -/
def State.makeLaunch (s : State) (b : List Byte) : State × DWord :=
  let e := s.launches.freeFrom 0
  if e ≥ 4096 then (s, noFreeEntry)
  else
    let r := parseRecord b
    let x : Launch := { Launch.blank with recd := r, image := b, queue := r.prio }
    let s := { s with launches := s.launches.put e x }
    let st := s.refusal b r
    (if st = 0 then s else s.finishLaunch e st, BitVec.ofNat 64 (s.launchId e))

/-- The causes of LAUNCH at the record address `a`. -/
def launchCauses (a : DWord) (e : Env) (s : State) : List Cause :=
  let v := a.toNat
  (if inWindows v then [whole e 0x30 v]
  else
    match s.xlate (s.coreOf e.wave) (s.ctxNo e.wave) true .read v (s.draw 0) with
    | .error c => [whole e c v]
    | .ok p => causeIf (p.tier == .host) (whole e 0x31 v)) ++
  causeIf (v % 256 != 0) (whole e 0x32 v) ++ causeIf (s.wave e.wave).collAct (whole e 0x39 e.word)

def execLaunch (g : Guard) (d a : SReg) (s : State) : Host.Outcome State Fault Refusal :=
  let i := Instr.launch g d a
  issueWith i g false (fun e s => launchCauses ((s.wave e.wave).sreg a.toNat) e s)
    (fun e s => if s.releaseOk e.wave then none else some 15)
    (seqAct i fun e s =>
      let v := ((s.wave e.wave).sreg a.toNat).toNat
      match s.xlate (s.coreOf e.wave) (s.ctxNo e.wave) true .read v (s.draw 0) with
      | .error _ => s
      | .ok p =>
        let r := s.makeLaunch (s.placeBytes p 256)
        ((r.1.touch p 256).fillAddr e.wave v).updWave e.wave fun w => w.setS d.toNat r.2) noCause s

/-! ## LSTAT (R403) -/

/-- The launch that an identifier names. -/
def State.launchNamed (s : State) (id : Nat) : Option Nat :=
  let e := id % 4096
  if (s.launches.look e).isSome && s.launchId e == id then some e else none

/-- What LSTAT writes. -/
def Launch.lstat (x : Launch) : DWord :=
  BitVec.ofNat 64 (x.st + (if x.st = 1 then x.queue else x.recd.prio) % 8 * 2 ^ 8 + x.phase % 2 ^ 16 * 2 ^ 16)

/-- A completed launch has been read. -/
def State.lstat (s : State) (id : Nat) : State × DWord :=
  match s.launchNamed id with
  | none => (s, BitVec.ofNat 64 (2 ^ 63))
  | some l => (s.updLaunch l fun x => { x with readIt := x.readIt || decide (5 ≤ x.st) }, (s.launch l).lstat)

def execLstat (g : Guard) (d a : SReg) (s : State) : Host.Outcome State Fault Refusal :=
  issue (.lstat g d a) g noCause (fun e s =>
    let r := s.lstat ((s.wave e.wave).sreg a.toNat).toNat
    r.1.updWave e.wave fun w => w.setS d.toNat r.2) s

/-! ## Dependences and queues (R399, R400) -/

/-- R399: the generation at the word is at or past `g`. A word whose page has gone is not satisfied. DEDUCED, log 74. -/
def State.depMet (s : State) (ctx : Nat) (d : Nat × Nat) : Bool :=
  d.1 == 0 ||
    match s.launchWord ctx .read d.1 with
    | some p => decide ((arrGen s p + 65536 - d.2) % 65536 < 32768)
    | none => false

/-- LAUNCH_DEPENDENCE_MET. -/
def execLaunchDependenceMet (launch : Nat) (s : State) : Host.Outcome State Fault Refusal :=
  match s.launches.look launch with
  | none => .next s
  | some x =>
    if x.st == 0 && x.recd.deps.all (s.depMet x.recd.ctx) then
      .next (s.updLaunch launch fun x => { x with st := 1, queue := x.recd.prio, enq := s.cycle })
    else .next s

/-- QUEUE_AGE_PROMOTION: 2^24 cycles in each queue; the entry cycle is kept. DEDUCED, log 76. -/
def execQueueAgePromotion (launch : Nat) (s : State) : Host.Outcome State Fault Refusal :=
  let x := s.launch launch
  if x.st == 1 && x.queue < 7 && decide (x.enq + 2 ^ 24 * (x.queue - x.recd.prio + 1) ≤ s.cycle) then
    .next (s.updLaunch launch fun x => { x with queue := x.queue + 1 })
  else .next s

/-! ## LAUNCH_START (R21, R24, R379, R381, R400) -/

/-- The state with the launch running: its die and cluster groups have their places, and its phase time goes on. -/
def State.begun (s : State) (l : Nat) : State :=
  s.updLaunch l fun x =>
    { s.mapLaunch x with
      st := 2, startAt := s.cycle
      phaseAt := if x.nextTeam.isEmpty then s.cycle else x.phaseAt + (s.cycle - x.preAt) }

/-- The launch started: with concurrent teams all of them are placed; else the first that can be. `none` when it cannot be, or
while a running launch comes first (R22, R30).
DEDUCED, log 75. -/
def State.started (s : State) (l : Nat) : Option State :=
  let x := s.launch l
  if x.st != 1 || s.heldBack l x.queue x.promoted x.recd.split || s.outranked l x.queue x.promoted then none
  else
    let s := s.begun l
    if teamClass x.recd == 2 then s.placeAll l (x.unplaced + (s.backTeams l).length)
    else (s.placing l (s.launch l)).map fun p => s.doPlace l p

/-- No launch that stands ahead of it can start. -/
def State.firstToStart (s : State) (l : Nat) : Bool :=
  let x := s.launch l
  s.launches.all fun (n, y) => n == l || !(queuedAhead n l y x) || (s.started n).isNone

/-- LAUNCH_START. DEDUCED, log 75. -/
def execLaunchStart (launch : Nat) (s : State) : Host.Outcome State Fault Refusal :=
  match s.started launch with
  | some s' => if s.firstToStart launch then .next s' else .next s
  | none => .next s

/-- LAUNCH_ENTRY_RELEASE: a completed launch has been read by LSTAT, or 2^30 cycles have passed; the tag advances. An entry
stands while a team of the launch does. DEDUCED, log 77. -/
def execLaunchEntryRelease (launch : Nat) (s : State) : Host.Outcome State Fault Refusal :=
  match s.launches.look launch with
  | none => .next s
  | some x =>
    let old := match x.doneAt with
      | some c => decide (c + 2 ^ 30 ≤ s.cycle)
      | none => false
    if 5 ≤ x.st && (x.readIt || old) && (s.launchTeams launch).isEmpty then
      .next { s with
        launches := s.launches.del launch
        launchTags := Sparse.wr s.launchTags launch (Sparse.rd s.launchTags launch + 1) }
    else .next s

/-! ## FAULT_REPLY (R406) -/

/-- TLBI of an address: its entries leave every TLB. -/
def State.dropPage (s : State) (f : TlbEntry → Bool) : State :=
  { s with
    cores := s.cores.map fun _ (c : Core) => { c with tlb := c.tlb.filter fun e => !(f e) }
    dies := s.dies.map fun _ (d : Die) =>
      { d with tlb := d.tlb.filter fun e => !(f e), walkc := d.walkc.filter fun e => !(f e) } }

/-- A TLB entry whose page holds the address. -/
def TlbEntry.holds (va : Nat) (e : TlbEntry) : Bool := va / 2 ^ e.size == e.page

/-- The paths, as references with their wait, that are on a live slot or below it. -/
def State.waitingPaths (s : State) : List (PathRef × Leaf) :=
  s.waves.flatMap fun (k, w) =>
    (w.slotA.leaves.map fun l => ((⟨k, .a⟩ : PathRef), l)) ++ w.slotB.leaves.map fun l => ((⟨k, .b⟩ : PathRef), l)

/-- The leaf with the same lanes goes on. -/
def State.setWait (s : State) (p : PathRef) (l : Leaf) (x : Wait) : State :=
  s.updWave p.wave fun w => w.setTree p.slot ((w.tree p.slot).map fun y => if y.mask == l.mask then { y with wait := x } else y)

/-- A path whose fault is answered may run again: a running leaf of its slot that itself waits for an answer gives way (R122). -/
def State.rejoinSlot (s : State) (p : PathRef) : State :=
  if ((s.leafAt p).map fun l => l.wait.faulted).getD false then s.switchLeaf p .pending else s

/-- A retry: the instruction of every path that waits on the entry replays. -/
def State.retryPaths (s : State) (base entry : Nat) : State :=
  s.waitingPaths.foldl (fun s x =>
    if x.2.wait == .fault base entry then
      let s := (s.setWait x.1 x.2 .idle).rejoinSlot x.1
      -- R205: the handler in which the fault arose resumes
      if (s.wave x.1.wave).handles x.2 && !x.2.stopped then s.updWave x.1.wave Wave.dropNest else s
    else s) s

/-- Paths that wait for room in the stream's fault log take an entry each while there is room. -/
def State.takeEntries (s : State) (st : Stream) : State :=
  s.waitingPaths.foldl (fun s x =>
    match x.2.wait with
    | .noEntry b code tval =>
      if b == st.base && st.hasLog && !(s.flogFull st) then
        let r := s.flogWrite st x.1.wave code tval 0
        r.1.setWait x.1 x.2 (.fault st.base r.2)
      else s
    | _ => s) s

/-- FAULT_REPLY: the entry's REPLY is 1, retry, or 2, kill. -/
def execFaultReply (stream entry : Nat) (s : State) : Host.Outcome State Fault Refusal :=
  match (s.streams.drop stream).head? with
  | none => .next s
  | some st =>
    let at_ := st.flog + 32 * entry
    let reply := s.placeRead (devPlace (at_ + 24)) 8
    let waits := s.waitingPaths.filter fun x => x.2.wait == .fault st.base entry
    if st.hasLog && decide (entry < st.flogn) then
      let s' :=
        if waits.isEmpty then s
        else if reply = 1 then
          (s.dropPage (TlbEntry.holds (s.placeRead (devPlace at_) 8))).retryPaths st.base entry
        else if reply = 2 then waits.foldl (fun s x => s.finishLaunch (s.launchNo x.1.wave) 0x23) s
        else s
      .next (s'.takeEntries st)
    else .next s

end Sys2Proof.Machine
end

