-- ==== Sys2Proof/Machine/Yard.lean ====
section
/-!
DEFINITION. Remote operations at their origin (spec/21_fabric_transfers.md R459 to R479): the instructions RPUT, RGET, RRED, RATOM,
RARRV, RFENCE and VQST, entry into the Yard, completion, refusal and loss.
-/

namespace Sys2Proof.Machine

/-! ## Local ranges -/

/-- The places of `[a, a + len)` in wave `w`, a 64 KiB piece at a time. -/
def State.localPieces (s : State) (w : Nat) (want : Want) (a len : Nat) : List (Place × Nat) :=
  (rangePages a len).map fun p => (s.placeAt w .gen want p.1, p.2 - p.1)

/-- `n` bytes of a range from its offset `off`. -/
def subPieces : List (Place × Nat) → Nat → Nat → List (Place × Nat)
  | [], _, _ => []
  | (p, m) :: r, off, n =>
    if n = 0 then []
    else if off ≥ m then subPieces r (off - m) n
    else
      let k := Nat.min n (m - off)
      (p.at_ off, k) :: subPieces r 0 (n - k)

/-- Bytes written to a range. -/
def State.writePieces (s : State) : List (Place × Nat) → List Byte → State
  | [], _ => s
  | (p, n) :: r, bs => State.writePieces (s.homeWrite p (bs.take n)) r (bs.drop n)

/-- The bytes of a range: zero where a word is in error or a line poisoned. DEDUCED, log 90. -/
def State.readPieces (s : State) (ps : List (Place × Nat)) : List Byte :=
  ps.flatMap fun x => (upto x.2).map fun i =>
    let p := x.1.at_ i
    if s.badAt p then 0 else s.placeByte p

/-- The errors that reading a range meets. DEDUCED, log 90. -/
def State.pieceErrs (s : State) (o : Op) (ps : List (Place × Nat)) : List ReadErr :=
  ps.flatMap fun x => (upto x.2).filterMap fun i => s.errAt o.wave (x.1.at_ i)

/-- What reads `ps` for operation `n` of a wave, or the instruction that is to be that operation, may do so: no older store of the wave
to those bytes is still to be performed (Table 9.9). -/
def State.sourceReady (s : State) (n w : Nat) (ps : List (Place × Nat)) : Bool :=
  s.ops.all fun (k, x) => n ≤ k || x.wave != w || x.done || x.body.isLoad ||
    x.body.places.all fun p => ps.all fun q => !(overlaps p q)

/-! ## The end of an operation (R467, R477, R478) -/

/-- The reply of the operation comes back into a register, the scratchpad or an arrival word there (R411). -/
def Remote.usesSlot (r : Remote) : Option SlotKind :=
  match r.kind with
  | .ratom => if r.nd then none else some .register
  | .rgetReq =>
    if r.loc.any fun x => isSpad x.1.tier then some .scratchpad
    else if r.word.any fun p => isSpad p.tier then some .arrival
    else none
  | _ => none

def State.updRemote (s : State) (n : Nat) (f : Remote → Remote) : State :=
  s.updOp n fun o =>
    match o.body with
    | .remote r => { o with body := .remote (f r) }
    | _ => o

/-- Its lanes' reply data, or nothing. -/
def slotOf (r : Remote) (k : SlotKind) (failed : Bool) (tval : Nat) (data : List Byte) : ReplySlot :=
  { kind := k, failed := failed
    lanes := match k with
      | .register => (maskOf (r.lanes.map LaneRec.lane)).toNat
      | _ => r.length
    dest := if failed then tval else r.dstReg, data := data }

/-- While the wave's launch leaves its core the completion stands in a reply slot; else `s` completes. -/
def State.endRemote (s : State) (n : Nat) (o : Op) (r : Remote) (failed : Bool) (tval : Nat) (data : List Byte)
    (andThen : State → State) : State :=
  match r.usesSlot with
  | some k =>
    if s.frozen o.wave then
      (s.updWave o.wave fun w => { w with slots := w.slots ++ [slotOf r k failed tval data] }).updRemote n
        fun r => { r with slotted := true }
    else (andThen s).finishOp n o
  | none => (andThen s).finishOp n o

/-- R477, R478: trap `code` is pending in the wave at its next boundary; when the wave has ended its launch completes.
DEDUCED, log 81. DEDUCED, log 116. -/
def State.remoteTrap (s : State) (w code tval : Nat) : State :=
  if (s.wave w).cond == .ended then s.finishLaunch (s.launchNo w) 0x23
  else s.updWave w fun x => { x with boundary := x.boundary ++ [(code, tval)] }

/-- A copy of the operation is over without an effect; the operation completes with its last. `trap` raises `code` for it; a
reply slot that fails raises its own trap when it is applied (R411). -/
def State.copyFailed (s : State) (n copy code tval : Nat) (trap : Bool := true) : State :=
  match s.ops.look n with
  | none => s
  | some o =>
    match o.body with
    | .remote r =>
      if o.done || r.slotted || !(r.copies.any fun c => c.1 == copy) then s
      else
        let rest := r.copies.filter fun c => c.1 != copy
        let r' := { r with copies := rest }
        let s := s.updRemote n fun _ => r'
        let raised := fun (s : State) => if trap then s.remoteTrap o.wave code tval else s
        if !rest.isEmpty then raised s
        else if r.usesSlot.isSome && s.frozen o.wave then s.endRemote n o r' true (if code = 0x40 then tval else 0) [] id
        else (raised s).finishOp n o
    | _ => s

/-- A copy has been acknowledged, with the flags its steps raised (R470, R473). -/
def State.copyAcked (s : State) (n copy : Nat) (flags : Fl) : State :=
  match s.ops.look n with
  | none => s
  | some o =>
    match o.body with
    | .remote r =>
      if o.done || !(r.copies.any fun c => c.1 == copy) then s
      else
        let rest := r.copies.filter fun c => c.1 != copy
        let s := s.updRemote n fun r => { r with copies := rest }
        let s := s.updWave o.wave fun w => w.orFlags flags
        if rest.isEmpty then s.finishOp n o else s
    | _ => s

/-! ## Entry into the Yard (R461, R463, R465) -/

/-- R471: an operation has at most 64 copies; a tag names the operation and the copy. -/
def tagOf (n copy : Nat) : Nat := n * 64 + copy

/-- What an operation sends for one copy: its remote address and its arrival word at the target. -/
structure Dest where
  addr : DWord
  word : Nat
  deriving DecidableEq, Repr

def RHeader.blank : RHeader where
  kind := .ack
  route := 0
  relayed := false
  nd := false
  cont := false
  origin := 0
  target := 0
  context := 0
  tag := 0
  addr := 0
  word := 0
  length := 0
  opcode := 0
  first := 0
  flags := 0
  lanes := []
  tags := []

def State.headerOf (s : State) (w n copy : Nat) (r : Remote) (d : Dest) : RHeader :=
  { RHeader.blank with
    kind := r.kind, nd := r.nd, origin := s.cal.index, target := remoteTarget d.addr, context := s.ctxNo w
    tag := tagOf n copy, addr := remoteAddr d.addr, word := d.word, length := r.length, opcode := r.opcode, lanes := r.lanes }

/-- The code of a route (Table 21.3). -/
def routeCode : Route → BitVec 2
  | .a => 0
  | .d => 1
  | .v => 2

/-- One copy enters its queue, or is refused at the origin. DESIGN CHOICE, log 84. -/
def State.enterCopy (s : State) (w n copy : Nat) (rt : Route) (r : Remote) (d : Dest) : State :=
  let h := { s.headerOf w n copy r d with route := routeCode rt }
  let it : YardItem := ⟨some (n, copy), h, [], 0, false, s.cycle, none⟩
  match s.routeOf rt h.target (s.draw copy) with
  | .loop => s.updPeer s.cal.index fun p => { p with direct := p.direct ++ [it] }
  | .direct q => s.updPeer q fun p => { p with direct := p.direct ++ [it] }
  | .via k => s.updPeer k fun p => { p with direct := p.direct ++ [{ it with header := { h with relayed := true } }] }
  | .refused => s.copyFailed n copy 0x41 d.addr.toNat

/-- R461: every copy finds room in the queue that it is to enter, those before it counted. -/
def State.copiesFit (s : State) (w n : Nat) (rt : Route) (r : Remote) : List (Dest × Nat) → Bool
  | [] => true
  | (d, k) :: rest =>
    !(s.yardFull (s.routeOf rt (remoteTarget d.addr) (s.draw k))) && State.copiesFit (s.enterCopy w n k rt r d) w n rt r rest

/-- The operation counts, and its copies enter their queues in order. -/
def State.enterYard (s : State) (e : Env) (cls : OpClass) (acq : Bool) (dests : List Reg) (rt : Route) (r : Remote)
    (ds : List Dest) : State :=
  let n := s.nextId
  let r := { r with
    copies := (ds.zipIdx).map fun (d, k) => (k, d.addr.toNat), targets := ds.map fun d => remoteTarget d.addr }
  let s := s.pushOp ⟨e.wave, e.mine, s.coreOf e.wave, cls, acq, false, dests, decide (dests ≠ []), .remote r, false⟩
  (ds.zipIdx).foldl (fun s x => s.enterCopy e.wave n x.2 rt r x.1) s

def Remote.blank : Remote := ⟨.rput, 0, false, [], [], [], none, 0, [], 0, 0, 0, false, []⟩

/-! ## RPUT and RRED (R469, R470) -/

/-- R330 and R129 for every remote operation. -/
def fabricCause (e : Env) (s : State) : List Cause := groupCause e s ++ s.collectCause e

/-- R469: a remote arrival word that is not a multiple of 16. -/
def remoteWordCause (e : Env) (a : DWord) : List Cause := causeIf (a.toNat % 16 != 0) (whole e 0x34 a.toNat)

/-- R469: RRED works on whole words. DEDUCED, log 86. -/
def rredCause (e : Env) (o : U4) (w : Wave) : List Cause :=
  let src := (w.sreg o.b.toNat).toNat
  let dst := (w.sreg o.a.toNat).toNat
  if (w.sreg o.c.toNat).toNat % 4 != 0 || src % 4 != 0 then [whole e 0x32 src]
  else causeIf (dst % 4 != 0) (whole e 0x32 dst)

/-- bits(sC, 31, 0). -/
def lengthOf (o : U4) (w : Wave) : Nat := (w.sreg o.c.toNat).toNat % 2 ^ 32

/-- The local source of a put or a reduction. -/
def State.sourceOf (s : State) (w : Nat) (o : U4) : List (Place × Nat) :=
  let x := s.wave w
  let a := (x.sreg o.b.toNat).toNat
  let n := lengthOf o x
  s.localPieces w .read a n

/-- RPUT and RRED: `kind` and the reduction. -/
def putOp (i : Instr) (rt : Route) (o : U4) (kind : RKind) (code : Nat) (s : State) : Host.Outcome State Fault Refusal :=
  issueWith i o.g false
    (fun e s =>
      let w := s.wave e.wave
      fabricCause e s ++ s.rangeCauses e e.act .gen .read (w.sreg o.b.toNat).toNat (lengthOf o w) ++
        (if kind == .rred then rredCause e o w else []) ++ remoteWordCause e (w.sreg o.d.toNat)) noWait
    (seqAct i fun e s =>
      let w := s.wave e.wave
      let n := lengthOf o w
      if n = 0 then s
      else
        s.enterYard e .copy false [] rt
          { Remote.blank with kind := kind, opcode := code, loc := s.sourceOf e.wave o, length := n }
          [⟨w.sreg o.a.toNat, remoteAddr (w.sreg o.d.toNat)⟩]) noCause s

def execRput (rt : Route) (o : U4) (s : State) : Host.Outcome State Fault Refusal := putOp (.rput rt o) rt o .rput 0 s

/-- DEDUCED, log 86. -/
def rredCode : RredOp → Nat
  | .add => 0
  | .max => 1
  | .msv => 2
  | .iadd => 3

def execRred (op : RredOp) (rt : Route) (o : U4) (s : State) : Host.Outcome State Fault Refusal :=
  putOp (.rred op rt o) rt o .rred (rredCode op) s

/-! ## RPUT.M (R471) -/

/-- The causes of the set record `[a, a + n)`. A record lies in device memory or the scratchpad.
DEDUCED, log 85. -/
def State.setFail (s : State) (e : Env) (a n : Nat) : List Cause :=
  match s.rangeCauses e e.act .gen .read a n with
  | c :: r => c :: r
  | [] =>
    causeIf ((s.localPieces e.wave .read a n).any fun p => p.1.tier == .vault || p.1.tier == .host) (whole e 0x34 a)

def State.setBytes (s : State) (w a n : Nat) : Nat := natOfBytes (s.readPieces (s.localPieces w .read a n))

/-- The count of the record, and its entries. -/
def State.setCount (s : State) (w a : Nat) : Nat := s.setBytes w a 8

def State.setEntry (s : State) (w a k : Nat) : Dest :=
  ⟨BitVec.ofNat 64 (s.setBytes w (a + 8 + 16 * k) 8), s.setBytes w (a + 16 + 16 * k) 8 % 2 ^ 53⟩

/-- The bytes of the record that can be read: its count, and its entries when the count is good. -/
def State.setPieces (s : State) (w a : Nat) : List (Place × Nat) :=
  let n := s.setCount w a
  s.localPieces w .read a (if 1 ≤ n && n ≤ 64 then 8 + 16 * n else 8)

/-- An older store of the wave to the record is still to be performed (R230, Table 9.9). -/
def State.setHeld (s : State) (e : Env) (a : Nat) : Bool :=
  let n := s.setCount e.wave a
  a % 8 == 0 && (s.setFail e a 8).isEmpty && (!(s.sourceReady s.nextId e.wave (s.localPieces e.wave .read a 8)) ||
    (1 ≤ n && n ≤ 64 && (s.setFail e a (8 + 16 * n)).isEmpty && !(s.sourceReady s.nextId e.wave (s.setPieces e.wave a))))

def countOk (n : Nat) : Bool := decide (1 ≤ n) && decide (n ≤ 64)

/-- DEDUCED, log 85. -/
def State.setCauses (s : State) (e : Env) (a : Nat) : List Cause :=
  causeIf (a % 8 != 0) (whole e 0x32 a) ++
    match s.setFail e a 8 with
    | [] => if countOk (s.setCount e.wave a) then s.setFail e a (8 + 16 * s.setCount e.wave a) else []
    | cs => cs

/-- R469: an entry's arrival word that is not a multiple of 16. -/
def State.setWordCauses (s : State) (e : Env) (a : Nat) : List Cause :=
  if (s.setFail e a 8).isEmpty && countOk (s.setCount e.wave a) then
    match (upto (s.setCount e.wave a)).find? fun k => (s.setEntry e.wave a k).word % 16 != 0 with
    | some k => [whole e 0x34 (s.setEntry e.wave a k).word]
    | none => []
  else []

/-- The entries, when the record is good. -/
def State.setDests (s : State) (w a : Nat) : List Dest :=
  if countOk (s.setCount w a) then (upto (s.setCount w a)).map fun k => s.setEntry w a k else []

/-- The operation of RPUT.M. -/
def State.putM (s : State) (w : Nat) (o : U4) : Remote :=
  { Remote.blank with loc := s.sourceOf w o, length := lengthOf o (s.wave w) }

def execRputM (rt : Route) (o : U4) (s : State) : Host.Outcome State Fault Refusal :=
  let i := Instr.rputM rt o
  issueWith i o.g false
    (fun e s =>
      let w := s.wave e.wave
      let a := (w.sreg o.a.toNat).toNat
      if s.setHeld e a then []
      else
        fabricCause e s ++ s.setCauses e a ++ s.rangeCauses e e.act .gen .read (w.sreg o.b.toNat).toNat (lengthOf o w) ++
          s.setWordCauses e a ++ causeIf (w.sreg o.d.toNat != 0) (whole e 0x34 (w.sreg o.d.toNat).toNat))
    (fun e s =>
      let a := ((s.wave e.wave).sreg o.a.toNat).toNat
      let ds := s.setDests e.wave a
      if s.setHeld e a then some 15
      else if s.copiesFit e.wave s.nextId rt (s.putM e.wave o) ds.zipIdx then none else some 14)
    (seqAct i fun e s =>
      let w := s.wave e.wave
      let a := w.sreg o.a.toNat
      let n := lengthOf o w
      let ds := s.setDests e.wave a.toNat
      let r := s.putM e.wave o
      let s := s.touchPieces (s.setPieces e.wave a.toNat)
      if ds.isEmpty then
        -- R477: a bad set count refuses the whole instruction, with TVAL sA
        let k := s.nextId
        (s.enterYard e .copy false [] rt r []).updRemote k (fun r => { r with copies := [(0, a.toNat)], targets := [remoteTarget a] })
          |>.copyFailed k 0 0x41 a.toNat
      else if n = 0 then s
      else s.enterYard e .copy false [] rt r ds) noCause s

/-! ## RGET (R470) -/

def execRget (rt : Route) (o : U4) (s : State) : Host.Outcome State Fault Refusal :=
  let i := Instr.rget rt o
  issueWith i o.g false
    (fun e s =>
      let w := s.wave e.wave
      fabricCause e s ++ s.copyWordCauses e (w.sreg o.d.toNat) ++
        s.rangeCauses e e.act .gen .write (w.sreg o.b.toNat).toNat (lengthOf o w)) noWait
    (seqAct i fun e s =>
      let w := s.wave e.wave
      let n := lengthOf o w
      let b := (w.sreg o.b.toNat).toNat
      if n = 0 then s
      else
        s.enterYard e .copy false [] rt
          { Remote.blank with
            kind := .rgetReq, loc := s.localPieces e.wave .write b n
            word := (s.copyWord e.wave (w.sreg o.d.toNat)).map Prod.snd, length := n }
          [⟨w.sreg o.a.toNat, 0⟩]) noCause s

/-! ## RATOM (R473) -/

/-- The remote word of a lane: wrap(bits(sA, 52, 0) + sext(b[l], 32), 53), and its whole remote address. -/
def laneWord (o : AtomArgs) (w : Wave) (l : Nat) : Nat :=
  (remoteAddr (w.sreg o.base.toNat + (w.vreg o.off.toNat l).signExtend 64))

def laneRemote (o : AtomArgs) (w : Wave) (l : Nat) : Nat := remoteTarget (w.sreg o.base.toNat) * 2 ^ 53 + laneWord o w l

def ordCode : Ord4 → Nat
  | .none => 0
  | .acq => 1
  | .rel => 2
  | .ar => 3

def execRatom (rt : Route) (o : AtomArgs) (s : State) : Host.Outcome State Fault Refusal :=
  let i := Instr.ratom rt o
  issueWith i o.g false
    (fun e s =>
      let w := s.wave e.wave
      fabricCause e s ++ ((lanesOf e.act).filter fun l => laneWord o w l % 4 != 0).map fun l =>
        ⟨e.wave, 0x32, laneBit l, laneRemote o w l⟩)
    (fun e s => if ordRel o.ord && !(s.releaseOk e.wave) then some 15 else none)
    (seqAct i fun e s =>
      let w := s.wave e.wave
      let recs := (lanesOf e.act).map fun l =>
        (⟨l, laneWord o w l, w.vreg o.c.toNat l, if o.op == .cas then w.vreg o.d.toNat l else 0⟩ : LaneRec)
      s.enterYard e (if o.nd then .store else .load) (ordAcq o.ord) (if o.nd then [] else [.v o.d.toNat]) rt
        { Remote.blank with
          kind := .ratom, opcode := (AtomOp.code o.op).toNat * 4 + ordCode o.ord, nd := o.nd, dstReg := o.d.toNat, lanes := recs
          length := recs.length }
        [⟨w.sreg o.base.toNat, 0⟩]) noCause s

/-! ## RARRV (R474) -/

def execRarrv (rt : Route) (g : Guard) (a b : SReg) (s : State) : Host.Outcome State Fault Refusal :=
  let i := Instr.rarrv rt g a b
  issueWith i g false
    (fun e s => fabricCause e s ++ remoteWordCause e ((s.wave e.wave).sreg a.toNat)) noWait
    (seqAct i fun e s =>
      let w := s.wave e.wave
      s.enterYard e .store false [] rt
        { Remote.blank with kind := .rarrv, length := (w.sreg b.toNat).toNat % 2 ^ 48 }
        [⟨w.sreg a.toNat, 0⟩]) noCause s

/-! ## RFENCE and VQST (R476) -/

/-- bits(sA, 10, 0). -/
def packageOf (w : Wave) (a : SReg) : Nat := (w.sreg a.toNat).toNat % 2048

/-- A remote operation of the wave to package `q` still counts in its counter. -/
def State.remoteCounted (s : State) (w q : Nat) : Bool :=
  s.ops.any fun (_, o) => o.wave == w &&
    match o.body with
    | .remote r => r.targets.contains q
    | _ => false

def execRfence (g : Guard) (a : SReg) (s : State) : Host.Outcome State Fault Refusal :=
  let i := Instr.rfence g a
  issueWith i g false fabricCause
    (fun e s =>
      let q := packageOf (s.wave e.wave) a
      if q < s.cal.n && s.remoteCounted e.wave q then some 14 else none)
    (seqAct i fun _ s => s) noCause s

/-- The state of the pair's own port, and of the peer's as its last meeting showed it. -/
def portState (p : Port) : Nat := if !p.live then 3 else if p.fenced then 2 else if p.w8 then 1 else 0

def peerState (p : Peer) : Nat := if p.peerSilent then 2 else if p.peerLanes != 0 && bits16 p.peerLanes ≤ 8 then 1 else 0

/-- Table 21.5. -/
def State.vqst (s : State) (q : Nat) : DWord :=
  if q ≥ s.cal.n || q = s.cal.index then BitVec.ofNat 64 (3 * 2 ^ 46)
  else
    let p := s.peer q
    let st := Nat.max (portState (s.port (s.cal.pairPort q))) (peerState p)
    BitVec.ofNat 64 (s.cal.pairSlot q % 2048 * 2 ^ 48 + st * 2 ^ 46 + Nat.min p.direct.length 16383 * 2 ^ 32 +
      Nat.min p.directBytes (2 ^ 32 - 1))

def execVqst (g : Guard) (d a : SReg) (s : State) : Host.Outcome State Fault Refusal :=
  issue (.vqst g d a) g fabricCause (fun e s =>
    s.updWave e.wave fun w => w.setS d.toNat (s.vqst (packageOf (s.wave e.wave) a))) s

end Sys2Proof.Machine
end

