-- ==== Sys2Proof/Machine/Remote.lean ====
section
/-!
DEFINITION. Remote operations at their target, at an intermediate and on their way back (spec/21_fabric_transfers.md R459 to R479).
Payloads that the links have handed over stand in `arrived` until the events below take them.
-/

namespace Sys2Proof.Machine

/-! ## Payloads handed over -/

/-- The payload is taken. -/
def State.takeArrived (s : State) (x : Nat × Payload) : State := { s with arrived := s.arrived.erase x }

def isRequest : RKind → Bool
  | .rput | .rgetReq | .ratom | .rred | .rarrv => true
  | .rgetData | .ratomReply | .ack | .refusal => false

/-- R463: the lane records beyond the 17 of the header travel in a data flit. -/
def moreLanes (h : RHeader) : Bool := h.kind == .ratom && decide (17 < h.lanes.length)

/-- The neighbour that has handed over the header `h`, with all its lane records (R449). Requests of one neighbour are taken in order.
DEDUCED, log 115. -/
def State.headerFrom (s : State) (h : RHeader) : Option Nat :=
  let isHead := fun (x : Nat × Payload) => match x.2 with | .header k => isRequest k.kind | _ => false
  (s.arrived.find? fun x => x.2 == .header h && (!moreLanes h || s.arrived.contains (x.1, .lanes h)) &&
    (!(isRequest h.kind) || (s.arrived.find? fun y => isHead y && y.1 == x.1) == some x)).map Prod.fst

/-- The header is taken, with its lane records. -/
def State.takeHeader (s : State) (q : Nat) (h : RHeader) : State :=
  let s := s.takeArrived (q, .header h)
  if moreLanes h then s.takeArrived (q, .lanes h) else s

def State.inboundOf (s : State) (origin tag : Nat) : Option Inbound :=
  s.inbound.find? fun x => x.header.origin == origin && x.header.tag == tag

def State.updInbound (s : State) (origin tag : Nat) (f : Inbound → Inbound) : State :=
  { s with inbound := s.inbound.map fun x => if x.header.origin == origin && x.header.tag == tag then f x else x }

def State.dropInbound (s : State) (origin tag : Nat) : State :=
  { s with inbound := s.inbound.filter fun x => !(x.header.origin == origin && x.header.tag == tag) }

/-- The chunks of an operation that wait to be performed, as offset and length. -/
def State.chunksDue (s : State) (origin tag : Nat) : List (Nat × Nat) :=
  s.arrived.filterMap fun x =>
    match x.2 with
    | .chunk o t f bs => if o == origin && t == tag then some (f, bs.length) else none
    | _ => none

/-! ## Replies (R461, R466, R467) -/

def State.reply (s : State) (q : Nat) (h : RHeader) (data : List Byte) : State :=
  s.updPeer q fun p => { p with reply := p.reply ++ [⟨none, h, data, 0, false, s.cycle, none⟩] }

def State.answer (s : State) (k : RKind) (h : RHeader) : RHeader :=
  { RHeader.blank with kind := k, origin := s.cal.index, target := h.origin, context := h.context, tag := h.tag, addr := h.addr }

/-- An acknowledgement joins the last one of the queue that has not been sent, when both raise the same flags and it names
fewer than 26 operations. DEDUCED, log 114. -/
def State.ack (s : State) (h : RHeader) (flags : Fl) : State :=
  let a := { s.answer .ack h with flags := flags, tags := [h.tag] }
  s.updPeer h.origin fun p =>
    match p.reply.getLast? with
    | some x =>
      if x.header.kind == .ack && !x.opened && x.header.flags == flags && x.header.tags.length < 26 then
        { p with reply := p.reply.dropLast ++ [{ x with header := { x.header with tags := x.header.tags ++ [h.tag] } }] }
      else { p with reply := p.reply ++ [⟨none, a, [], 0, false, s.cycle, none⟩] }
    | none => { p with reply := [⟨none, a, [], 0, false, s.cycle, none⟩] }

def State.refuse (s : State) (h : RHeader) : State := s.reply h.origin (s.answer .refusal h) []

/-! ## Ranges at the target (R459) -/

/-- The place of an address under the context of the origin's number; `none` where it has none, or lies in a confidential page of
another context. -/
def State.remotePlace (s : State) (ctx : Nat) (want : Want) (a draw : Nat) : Option Place :=
  match s.xlate 0 ctx (ctx == 0) want a draw with
  | .error _ => none
  | .ok p => if p.tier == .dev && s.confElse ctx p.addr then none else some p

/-- The places of a range under the context of the origin's number; `none` when a page of it refuses. The first argument bounds
the pieces. -/
def State.remotePieces (s : State) (ctx : Nat) (want : Want) : Nat → Nat → Nat → Option (List (Place × Nat))
  | 0, _, _ => some []
  | k + 1, a, len =>
    if len = 0 then some []
    else
      let n := Nat.min len (65536 - a % 65536)
      match s.remotePlace ctx want a (s.draw 0) with
      | none => none
      | some p => (State.remotePieces s ctx want k (a + n) (len - n)).map fun r => (p, n) :: r

def State.remoteRange (s : State) (ctx : Nat) (want : Want) (a len : Nat) : Option (List (Place × Nat)) :=
  s.remotePieces ctx want ((a % 65536 + len) / 65536 + 1) a len

/-- R249, R474: an arrival word at the target lies in device memory. -/
def State.remoteWord (s : State) (ctx a : Nat) : Option Place :=
  if a % 16 != 0 then none
  else
    (s.remotePlace ctx .write a (s.draw 0)).filter fun p => p.tier == .dev

/-- The lane words of a RATOM. -/
def State.lanePlaces (s : State) (h : RHeader) : Option (List (LaneRec × Place)) :=
  h.lanes.foldr (fun l r =>
    match s.remotePlace h.context .write l.addr (s.draw l.lane), r with
    | some p, some t => some ((l, p) :: t)
    | _, _ => none) (some [])

/-- R459, R469, R472 to R474: what the target accepts the operation with; `none` when it refuses it. What has been translated here
stays so for the whole operation. -/
def State.accepted (s : State) (h : RHeader) : Option Accepted :=
  if (s.ctx h.context).isNone then none
  else
    match h.kind with
    | .rput | .rred =>
      if h.kind == .rred && h.opcode == 2 && (decide (h.length < 8) || decide (4096 < h.length)) then none
      else if h.word == 0 then (s.remoteRange h.context .write h.addr h.length).map fun ps => ⟨ps, none, []⟩
      else
        match s.remoteRange h.context .write h.addr h.length, s.remoteWord h.context h.word with
        | some ps, some w => some ⟨ps, some w, []⟩
        | _, _ => none
    | .rgetReq => (s.remoteRange h.context .read h.addr h.length).map fun ps => ⟨ps, none, []⟩
    | .ratom => (s.lanePlaces h).map fun ls => ⟨[], none, ls⟩
    | .rarrv => (s.remoteWord h.context h.addr).map fun w => ⟨[], some w, []⟩
    | .rgetData | .ratomReply | .ack | .refusal => none

/-- R466: the end of the piece of an RGET that a request names. -/
def pieceEnd (h : RHeader) : Nat := Nat.min h.length (h.first + 65536)

/-- REMOTE_HEADER_ARRIVAL: the whole range and the arrival word are translated, or the operation is refused. A continuation
belongs to an operation in progress; a further request of an RGET is served as the first is. DEDUCED, log 115. -/
def execRemoteHeaderArrival (h : RHeader) (s : State) : Host.Outcome State Fault Refusal :=
  match s.headerFrom h with
  | none => .next s
  | some q =>
    if !(isRequest h.kind) || h.target != s.cal.index then .next s
    else
      let s := s.takeHeader q h
      if h.cont && h.kind != .rgetReq then .next s
      else
        match s.accepted h with
        | some a => .next { s with
            inbound := s.inbound ++ [⟨h, if h.kind == .rgetReq then h.first else 0, [], 0, none, [], a⟩], free := s.free + 1 }
        | none => .next (s.refuse h)

/-! ## Order within one direct queue (R475) -/

/-- The operations that stand before one in its direct queue and are not over. Relayed operations are ordered with none. -/
def State.before (s : State) (x : Inbound) : List Inbound :=
  if x.header.relayed then []
  else
    (s.inbound.takeWhile fun y => !(y.header.origin == x.header.origin && y.header.tag == x.header.tag)).filter
      fun y => y.header.origin == x.header.origin && !y.header.relayed

/-- What of an operation has been received and not performed: places with lengths. -/
def State.unperformed (s : State) (y : Inbound) : List (Place × Nat) :=
  let h := y.header
  match h.kind with
  | .rput | .rred => ((s.chunksDue h.origin h.tag).flatMap fun c => subPieces y.acc.range c.1 c.2) ++
      (if y.owed.isEmpty then [] else y.acc.word.toList.map fun p => (p, 16))
  | .rgetReq => subPieces y.acc.range y.got (pieceEnd h - y.got)
  | .ratom => (y.acc.lanes.drop y.got).map fun x => (x.2, 4)
  | .rarrv => y.acc.word.toList.map fun p => (p, 16)
  | _ => []

/-- An access of the operation comes after those of earlier ones to the same bytes. -/
def State.clearFor (s : State) (x : Inbound) (ps : List (Place × Nat)) : Bool :=
  (s.before x).all fun y => (s.unperformed y).all fun a => ps.all fun b => !(overlaps a b)

/-- An arrival comes after everything of every earlier operation. -/
def State.arrivalClear (s : State) (x : Inbound) : Bool := (s.before x).all fun y => (s.unperformed y).isEmpty

/-- The operation is over when all its bytes are. -/
def State.settleInbound (s : State) (origin tag : Nat) : State :=
  match s.inboundOf origin tag with
  | none => s
  | some x => if x.got ≥ x.header.length && x.owed.isEmpty then (s.dropInbound origin tag).ack x.header x.flags else s

/-! ## The order in which reductions arrive (R470, R472) -/

/-- The chunks of an operation, in order of their offsets, as one record; `none` when some are missing. -/
def gather (cs : List (Nat × List Byte)) : Nat → Nat → Nat → Option (List Byte)
  | 0, off, len => if off = len then some [] else none
  | k + 1, off, len =>
    if off ≥ len then some []
    else
      match cs.find? fun c => c.1 == off && !c.2.isEmpty with
      | some c => (gather cs k (off + c.2.length) len).map fun r => c.2 ++ r
      | none => none

/-- The chunks of an operation among some arrivals, as offset and bytes. -/
def chunksIn (xs : List (Nat × Payload)) (origin tag : Nat) : List (Nat × List Byte) :=
  xs.filterMap fun x =>
    match x.2 with
    | .chunk o t f bs => if o == origin && t == tag then some (f, bs) else none
    | _ => none

/-- A header of a reduction that has not been taken yet. -/
def State.headerWaits (s : State) (origin tag : Nat) : Bool :=
  s.arrived.any fun y =>
    match y.2 with
    | .header k => k.origin == origin && k.tag == tag && k.target == s.cal.index && k.kind == .rred
    | _ => false

/-- No chunk of another reduction that has arrived before, among `xs`, nor a whole MSV record, is still to be combined with one of the
words at `ps`. -/
def State.arrivesFirst (s : State) (h : RHeader) (xs : List (Nat × Payload)) (ps : List (Place × Nat)) : Bool :=
  xs.all fun z =>
    match z.2 with
    | .chunk o t f bs =>
      (o == h.origin && t == h.tag) ||
        match s.inboundOf o t with
        | none => !(s.headerWaits o t)
        | some w =>
          let whole := (gather (chunksIn xs o t) 17 0 w.header.length).isSome
          let rs := if w.header.opcode != 2 then subPieces w.acc.range f bs.length else if whole then w.acc.range else []
          w.header.kind != .rred || rs.all fun a => ps.all fun b => !(overlaps a b)
    | _ => true

/-! ## REMOTE_CHUNK_PERFORM (R470) -/

/-- R470: one 4-byte step of a reduction. -/
def rredStep (code : Nat) (old new : Nat) : Nat × Fl :=
  if code = 0 then addF Mode.rne fp32 old new
  else if code = 1 then minMaxF true Mode.rne fp32 old new
  else ((old + new) % 2 ^ 32, 0)

/-- Consecutive words of a chunk. -/
def rredBytes (code : Nat) : Nat → List Byte → List Byte → List Byte × Fl
  | 0, _, _ => ([], 0)
  | k + 1, old, new =>
    if new.isEmpty then ([], 0)
    else
      let r := rredStep code (natOfBytes (old.take 4)) (natOfBytes (new.take 4))
      let t := rredBytes code k (old.drop 4) (new.drop 4)
      (bytesLE 4 r.1 ++ t.1, r.2 ||| t.2)

/-- The chunk's writes, and the flags of its steps. -/
def State.chunkWrite (s : State) (h : RHeader) (ps : List (Place × Nat)) (bs : List Byte) : State × Fl :=
  match h.kind with
  | .rred =>
    let r := rredBytes h.opcode (bs.length / 4 + 1) (s.readPieces ps) bs
    (s.writePieces ps r.1, r.2)
  | _ => (s.writePieces ps bs, 0)

/-- The length of a chunk is added to the arrival word, and counts as performed. -/
def State.chunkArrive (s : State) (h : RHeader) (n : Nat) : State :=
  let s := match (s.inboundOf h.origin h.tag).bind fun x => x.acc.word with
    | some p => s.arriveAlone p n
    | none => s
  (s.updInbound h.origin h.tag fun x => { x with got := x.got + n }).settleInbound h.origin h.tag

/-- R470: how many words of a chunk of `len` bytes, of which `k` are done, are combined in one go: a step each, so that other
accesses may fall between them. An RPUT's chunk is written whole. DESIGN CHOICE, log 134. -/
def State.wordsNow (s : State) (h : RHeader) (len k : Nat) : Nat :=
  let left := (len + 3) / 4 - k
  if h.kind == .rred then 1 + Config.pick (s.draw 0) % Nat.max 1 left else left

/-- REMOTE_CHUNK_PERFORM: a chunk is written, and its arrival follows once R475 lets it. A chunk of an operation that was
refused is dropped. -/
def execRemoteChunkPerform (origin tag first : Nat) (bytes : List Byte) (s : State) : Host.Outcome State Fault Refusal :=
  let isIt := fun (x : Nat × Payload) => x.2 == .chunk origin tag first bytes
  match s.inboundOf origin tag with
  | none =>
    match s.arrived.find? isIt with
    | some x =>
      let waits := s.arrived.any fun y =>
        match y.2 with
        | .header h => h.origin == origin && h.tag == tag
        | _ => false
      let relayed := s.peers.any fun p => p.2.relay.any fun y => y.header.origin == origin && y.header.tag == tag
      .next (if waits || relayed || origin = s.cal.index then s else s.takeArrived x)
    | none => .next s
  | some x =>
    let h := x.header
    match x.owed.find? fun c => c.1 == first with
    | some c =>
      if s.arrivalClear x then
        .next ((s.updInbound origin tag fun x => { x with owed := x.owed.erase c }).chunkArrive h c.2)
      else .next s
    | none =>
      match s.arrived.find? isIt with
      | none => .next s
      | some y =>
        let msv := h.kind == .rred && h.opcode == 2
        let ps := subPieces x.acc.range first bytes.length
        let k := (x.part.map Prod.snd).getD 0
        let n := s.wordsNow h bytes.length k
        if msv || !(s.clearFor x ps) || (h.kind == .rred && !(s.arrivesFirst h (s.arrived.takeWhile fun z => z != y) ps)) ||
            (x.part.any fun c => c.1 != first) then .next s
        else
          let r := s.chunkWrite h (subPieces ps (4 * k) (4 * n)) ((bytes.drop (4 * k)).take (4 * n))
          let last := decide (bytes.length ≤ 4 * (k + n))
          let s' := { (if last then r.1.takeArrived y else r.1).updInbound origin tag fun x =>
            { x with flags := x.flags ||| r.2, part := if last then none else some (first, k + n) } with free := s.free + 1 }
          if !last then .next s'
          else if h.word = 0 || s.arrivalClear x then .next (s'.chunkArrive h bytes.length)
          else .next (s'.updInbound origin tag fun x => { x with owed := x.owed ++ [(first, bytes.length)] })

/-! ## REMOTE_MSV_COMBINE (R472) -/

/-- 2^v for a finite FP32 datum or a difference of two, rounded once to nearest even; `n`, `m`, `e` are its sign, magnitude and
exponent. -/
def pow2Of (n : Bool) (m : Nat) (e : Int) : Nat × Fl :=
  let v := toFix m e
  let one := 2 ^ fpBits
  if n && v ≥ 160 * one then (0, flUF ||| flNX)
  else if !n && v ≥ 128 * one then (fp32.infBits false, flOF ||| flNX)
  else
    let i : Int := if n then -((v / one : Nat) : Int) else (v / one : Nat)
    let f := v % one
    if f = 0 then fp32.round Mode.rne false 1 i
    else
      let (i, f) := if n then (i - 1, one - f) else (i, f)
      roundFix Mode.rne fp32 (expFix (f * ln2 / one)) i

/-- 2^(a − b) with a ≤ b; 0 for a = −infinity. -/
def scaleTo (a b : FV) : Nat × Fl :=
  match a, b with
  | .fin na ma ea, .fin nb mb eb =>
    let e := min ea eb
    let d := finInt na ma ea e - finInt nb mb eb e
    pow2Of (decide (d < 0)) d.natAbs e
  | _, _ => (0, 0)

/-- R472: rne(x × fo + y × fn), of which one factor is 1 or 0: exact products, one rounding. R52, which says that the MSV combination
rounds as its own rule states, goes on to say that its scaled product is rounded before the addition. DESIGN CHOICE, log 38. -/
def scaledSum (x fo y fn : Nat) : Nat × Fl :=
  let d := fp32.dec
  let (p, f, q) := if d fn == d 0x3F800000 then (d x, d fo, d y) else (d y, d fn, d x)
  fp32.fma Mode.rne p f q

def isNegInf (v : FV) : Bool :=
  match v with
  | .inf n => n
  | _ => false

/-- A NaN or plus infinity as maximum. -/
def spoils (v : FV) : Bool :=
  match v with
  | .nan _ => true
  | .inf n => !n
  | .fin .. => false

/-- The words s and v of the two records. -/
def msvWords (fo fn : Nat) : List (Nat × Nat) → List Nat × Fl
  | [] => ([], 0)
  | (x, y) :: r =>
    let a := scaledSum x fo y fn
    let t := msvWords fo fn r
    (a.1 :: t.1, a.2 ||| t.2)

/-- R472: the destination record combined with the arriving one; both start with m. DEDUCED, log 89. -/
def msvCombine (old new : List Nat) : List Nat × Fl :=
  let mo := fp32.dec (nth 0 old 0)
  let mn := fp32.dec (nth 0 new 0)
  if spoils mo || spoils mn then (old.map fun _ => fp32.cnan, flIV)
  else if isNegInf mo && isNegInf mn then (old, 0)
  else
    let mx := minMaxF true Mode.rne fp32 (nth 0 old 0) (nth 0 new 0)
    let m := fp32.dec mx.1
    let fo := scaleTo mo m
    let fn := scaleTo mn m
    let r := msvWords fo.1 fn.1 ((old.drop 1).zip (new.drop 1))
    (mx.1 :: r.1, mx.2 ||| fo.2 ||| fn.2 ||| r.2)

/-- R472: the operations are combined whole, in the order in which their last chunks arrived. -/
def State.beforeLast (s : State) (origin tag : Nat) : List (Nat × Payload) :=
  (s.arrived.reverse.dropWhile fun z =>
    match z.2 with
    | .chunk o t _ _ => !(o == origin && t == tag)
    | _ => true).drop 1

def wordsOfBytes : Nat → List Byte → List Nat
  | 0, _ => []
  | k + 1, b => natOfBytes (b.take 4) :: wordsOfBytes k (b.drop 4)

def State.dropChunks (s : State) (origin tag : Nat) : State :=
  { s with arrived := s.arrived.filter fun x =>
      match x.2 with
      | .chunk o t _ _ => !(o == origin && t == tag)
      | _ => true }

/-- REMOTE_MSV_COMBINE: the whole record, gathered, combines in one indivisible step; then its arrival of L. -/
def execRemoteMsvCombine (origin tag : Nat) (s : State) : Host.Outcome State Fault Refusal :=
  match s.inboundOf origin tag with
  | none => .next s
  | some x =>
    let h := x.header
    if h.kind != .rred || h.opcode != 2 then .next s
    else
      let ps := x.acc.range
      match gather (chunksIn s.arrived origin tag) 17 0 h.length with
      | some bs =>
        if s.clearFor x ps && s.arrivesFirst h (s.beforeLast origin tag) ps && (h.word = 0 || s.arrivalClear x) then
          let k := h.length / 4
          let r := msvCombine (wordsOfBytes k (s.readPieces ps)) (wordsOfBytes k bs)
          let s := (s.dropChunks origin tag).writePieces ps (r.1.flatMap fun w => bytesLE 4 w)
          .next ((s.updInbound origin tag fun x => { x with flags := x.flags ||| r.2 }).chunkArrive h h.length)
        else .next s
      | none => .next s

/-! ## REMOTE_GET_SERVE, REMOTE_ATOM_PERFORM, REMOTE_ARRIVAL -/

/-- REMOTE_GET_SERVE: the next chunk is read and enters the reply queue. Chunks divide the range at the origin's boundaries of
the request's own address. DEDUCED, log 87. -/
def execRemoteGetServe (origin tag : Nat) (s : State) : Host.Outcome State Fault Refusal :=
  match s.inboundOf origin tag with
  | none => .next s
  | some x =>
    let h := x.header
    if h.kind != .rgetReq then .next s
    else
      let n := chunkLen h.addr (pieceEnd h) x.got
      let ps := subPieces x.acc.range x.got n
      if s.clearFor x ps then
        let a := { s.answer .rgetData h with first := x.got, length := n, cont := x.got != 0 }
        let s := (s.touchPieces ps).reply h.origin a (s.readPieces ps)
        .next { s with inbound :=
          if x.got + n ≥ pieceEnd h then s.inbound.erase x
          else s.inbound.map fun y => if y == x then { x with got := x.got + n } else y }
      else .next s

/-- One lane's step. For CAS the operand is compared and the DST lane stored, as ATOM does (Table 9.6). -/
def State.remoteStep (s : State) (h : RHeader) (l : LaneRec × Place) : State × Word × Fl :=
  s.atomicStep l.2 (atomOpOf (h.opcode / 4)) l.1.operand l.1.compare

/-- REMOTE_ATOM_PERFORM: the next lane's step, in ascending order; the answer follows the last. DEDUCED, log 49. -/
def execRemoteAtomPerform (origin tag : Nat) (s : State) : Host.Outcome State Fault Refusal :=
  match s.inboundOf origin tag with
  | none => .next s
  | some x =>
    let h := x.header
    let ls := x.acc.lanes
    match h.kind with
    | .ratom =>
      match (ls.drop x.got).head? with
      | none => .next ((s.dropInbound origin tag).ack h 0)
      | some l =>
        if s.clearFor x [(l.2, 4)] then
          let r := (s.countErrs (s.errAt 0 l.2).toList).remoteStep h l
          let ws := x.replies ++ [r.2.1]
          let fl : Fl := if h.nd then 0 else x.flags ||| r.2.2
          if x.got + 1 < ls.length then
            .next (r.1.updInbound origin tag fun x => { x with got := x.got + 1, flags := fl, replies := ws })
          else
            let s := r.1.dropInbound origin tag
            .next (if h.nd then s.ack h fl
              else s.reply h.origin { s.answer .ratomReply h with flags := fl, length := ls.length } (ws.flatMap fun w => bytesLE 4 w.toNat))
        else .next s
    | _ => .next s

/-- REMOTE_ARRIVAL: RARRV at the word's home. -/
def execRemoteArrival (origin tag : Nat) (s : State) : Host.Outcome State Fault Refusal :=
  match s.inboundOf origin tag with
  | none => .next s
  | some x =>
    let h := x.header
    match h.kind, x.acc.word with
    | .rarrv, some p =>
      if s.arrivalClear x && s.clearFor x [(p, 16)] then .next (((s.arriveAlone p h.length).dropInbound origin tag).ack h 0)
      else .next s
    | _, _ => .next s

/-! ## RELAY_ENQUEUE (R466) -/

/-- RELAY_ENQUEUE: the operation enters the relay queue for its target, and its chunks follow it there; when this package cannot
reach the target it refuses. -/
def execRelayEnqueue (h : RHeader) (data : List Byte) (s : State) : Host.Outcome State Fault Refusal :=
  if h.target = s.cal.index || h.target ≥ s.cal.n || !(isRequest h.kind) then .next s
  else
    match s.headerFrom h with
    | some q =>
      let s := s.takeHeader q h
      if h.cont && h.kind != .rgetReq then .next s
      else if s.portGone h.target then .next (s.refuse h)
      else .next (s.updPeer h.target fun p => { p with relay := p.relay ++ [⟨none, { h with relayed := true }, [], 0, false, s.cycle, none⟩] })
    | none =>
      let mine := fun (y : YardItem) => y.header.origin == h.origin && y.header.tag == h.tag
      match (s.peer h.target).relay.find? mine with
      | none => .next s
      | some y =>
        match s.arrived.find? fun x => x.2 == .chunk h.origin h.tag (y.next + y.data.length) data with
        | some x =>
          if data.isEmpty then .next s
          else
            .next ((s.takeArrived x).updPeer h.target fun p =>
              { p with relay := p.relay.map fun z => if mine z then { z with data := z.data ++ data } else z })
        | none => .next s

/-! ## Acknowledgements, replies and refusals at the origin -/

/-- REMOTE_ACK_RECEIVE. -/
def execRemoteAckReceive (h : RHeader) (s : State) : Host.Outcome State Fault Refusal :=
  match s.headerFrom h with
  | none => .next s
  | some q =>
    if h.kind == .ack then
      .next (h.tags.foldl (fun s t => s.copyAcked (t / 64) (t % 64) h.flags) (s.takeArrived (q, .header h)))
    else .next s

/-- The values of a RATOM's lanes, in their registers. -/
def laneValues (r : Remote) (data : List Byte) : List (Nat × Nat × Word) :=
  (r.lanes.zip (wordsOfBytes r.lanes.length data)).map fun x => (r.dstReg, x.1.lane, BitVec.ofNat 32 x.2)

/-- The replies of a RATOM are written, or stand in the slot. -/
def State.atomReply (s : State) (n : Nat) (o : Op) (r : Remote) (flags : Fl) (data : List Byte) : State :=
  let lanes := (upto 32).flatMap fun l =>
    match (laneValues r data).find? fun v => v.2.1 == l with
    | some v => bytesLE 4 v.2.2.toNat
    | none => bytesLE 4 0
  let s := s.updWave o.wave fun w => w.orFlags flags
  s.endRemote n o r false 0 lanes fun s => s.updWave o.wave fun w => w.setLanes (laneValues r data)

/-- A chunk of RGET data is written, with its arrival; the operation completes with its last. -/
def State.getData (s : State) (n : Nat) (o : Op) (r : Remote) (first : Nat) (data : List Byte) : State :=
  let s := s.writePieces (subPieces r.loc first data.length) data
  let s := match r.word with
    | some p => s.arriveBy o.wave p data.length
    | none => s
  let r' := { r with got := r.got + data.length }
  let s := s.updRemote n fun _ => r'
  if r'.got ≥ r.length then s.endRemote n o r' false 0 [] id else s

/-- Replies to an operation that is over are discarded (R478). -/
def State.takeReply (s : State) (h : RHeader) (data : List Byte) : State :=
  match s.ops.look (h.tag / 64) with
  | none => s
  | some o =>
    match o.body with
    | .remote r =>
      if o.done || r.slotted || r.copies.isEmpty then s
      else
        match h.kind, r.kind with
        | .ratomReply, .ratom => s.atomReply (h.tag / 64) o r h.flags data
        | .rgetData, .rgetReq => s.getData (h.tag / 64) o r h.first data
        | _, _ => s
    | _ => s

/-- R255, R470: the data of an RGET are written as a copy's are, after the wave's older stores to those bytes. -/
def State.replyReady (s : State) (h : RHeader) (data : List Byte) : Bool :=
  match s.ops.look (h.tag / 64) with
  | none => true
  | some o =>
    match o.body with
    | .remote r => h.kind != .rgetData || o.done || s.sourceReady (h.tag / 64) o.wave (subPieces r.loc h.first data.length)
    | _ => true

/-- REMOTE_REPLY_RECEIVE: a reply's header and its data. -/
def execRemoteReplyReceive (h : RHeader) (data : List Byte) (s : State) : Host.Outcome State Fault Refusal :=
  match s.headerFrom h with
  | none => .next s
  | some q =>
    let c : Nat × Payload := (q, .chunk h.origin h.tag h.first data)
    if (h.kind == .rgetData || h.kind == .ratomReply) && s.arrived.contains c && s.replyReady h data then
      .next (((s.takeArrived (q, .header h)).takeArrived c).takeReply h data)
    else .next s

/-- REMOTE_REFUSAL: the copy completes and 0x41 is pending, with TVAL the remote address. -/
def execRemoteRefusal (h : RHeader) (s : State) : Host.Outcome State Fault Refusal :=
  match s.headerFrom h with
  | none => .next s
  | some q =>
    if h.kind != .refusal then .next s
    else
      let n := h.tag / 64
      let addr :=
        match (s.ops.look n).map Op.body with
        | some (.remote r) => ((r.copies.find? fun c => c.1 == h.tag % 64).map Prod.snd).getD h.addr
        | _ => h.addr
      .next ((s.takeArrived (q, .header h)).copyFailed n (h.tag % 64) 0x41 addr)

/-! ## LOOPBACK_PERFORM (R460) -/

/-- What an item of the loopback queue still has to do at this package. -/
def State.loopDue (s : State) (it : YardItem) : List (Place × Nat) :=
  let h := it.header
  match it.acc.orElse fun _ => s.accepted h with
  | none => []
  | some a =>
    match h.kind with
    | .rput | .rred | .rgetReq => subPieces a.range it.next (h.length - it.next)
    | .ratom => (a.lanes.drop it.next).map fun x => (x.2, 4)
    | .rarrv => a.word.toList.map fun p => (p, 16)
    | _ => []

/-- The item leaves the loopback queue, or goes on from `next`. -/
def State.loopNext (s : State) (it : YardItem) (next : Option Nat) : State :=
  s.updPeer s.cal.index fun p =>
    { p with direct := match next with
        | none => p.direct.erase it
        | some k => p.direct.map fun y => if y == it then { it with next := k, opened := true } else y }

/-- One step of an item accepted with `acc`: the next chunk, or some words of it, the next lane of an atomic, or the arrival.
DEDUCED, log 89. -/
def State.loopStep (s : State) (it : YardItem) (acc : Accepted) (n copy : Nat) (o : Op) (r : Remote) (before : List (Place × Nat)) : State :=
  let h := it.header
  let free := fun (ps : List (Place × Nat)) => before.all fun a => ps.all fun b => !(overlaps a b)
  let whole := chunkLen h.addr h.length it.next
  let k := Nat.min whole (4 * s.wordsNow h whole 0)
  let last := it.next + k ≥ h.length
  match h.kind with
  | .rput | .rred =>
    -- the chunk that the bytes end, when they do
    let chunk := it.next + k - ((h.addr + it.next) / 256 * 256 - h.addr)
    let src := subPieces r.loc it.next k
    let msv := h.kind == .rred && h.opcode == 2
    let k' := if msv then h.length else k
    let src' := if msv then r.loc else src
    let ps := subPieces acc.range it.next k'
    if !(s.sourceReady n o.wave src') || !(free ps) || (h.word != 0 && !before.isEmpty) then s
    else
      let s' := (s.raiseErrs o.wave (s.pieceErrs o src')).touchPieces src'
      let bs := s.readPieces src'
      let w :=
        if msv then
          let c := msvCombine (wordsOfBytes (k' / 4) (s.readPieces ps)) (wordsOfBytes (k' / 4) bs)
          (s'.writePieces ps (c.1.flatMap fun x => bytesLE 4 x), c.2)
        else s'.chunkWrite h ps bs
      let s' := match acc.word with
        | some p => if msv then w.1.arriveBy o.wave p k' else if k < whole then w.1 else w.1.arriveBy o.wave p chunk
        | none => w.1
      let s' := s'.updWave o.wave fun x => x.orFlags w.2
      if last || msv then (s'.loopNext it none).copyAcked n copy 0 else s'.loopNext it (some (it.next + k))
  | .rgetReq =>
    let ps := subPieces acc.range it.next k
    if free ps && s.sourceReady n o.wave (subPieces r.loc it.next k) then
      let bs := s.readPieces ps
      let s := (s.raiseErrs o.wave (s.pieceErrs o ps)).touchPieces ps
      (s.loopNext it (if last then none else some (it.next + k))).getData n o r it.next bs
    else s
  | .ratom =>
    match (acc.lanes.drop it.next).head? with
    | none => (s.loopNext it none).copyAcked n copy 0
    | some l =>
      if free [(l.2, 4)] then
        let x := (s.raiseErrs o.wave (s.errAt o.wave l.2).toList).remoteStep h l
        let fl := h.flags ||| x.2.2
        let bs := it.data ++ bytesLE 4 x.2.1.toNat
        if it.next + 1 < acc.lanes.length then
          x.1.updPeer x.1.cal.index fun p => { p with direct := p.direct.map fun y =>
            if y == it then { it with next := it.next + 1, opened := true, data := bs, header := { h with flags := fl } } else y }
        else if h.nd then (x.1.loopNext it none).copyAcked n copy 0
        else (x.1.loopNext it none).atomReply n o r fl bs
      else s
  | .rarrv =>
    match acc.word with
    | some p => if before.isEmpty then ((s.arriveBy o.wave p h.length).loopNext it none).copyAcked n copy 0 else s
    | none => s
  | _ => s

/-- The item keeps what it was accepted with. -/
def State.keepAccepted (s : State) (it : YardItem) (a : Accepted) : State :=
  s.updPeer s.cal.index fun p => { p with direct := p.direct.map fun y => if y == it then { it with acc := some a } else y }

/-- LOOPBACK_PERFORM: the next step of an operation to this package itself; its first step checks the range (R469). -/
def execLoopbackPerform (op : Nat) (s : State) : Host.Outcome State Fault Refusal :=
  match (s.peer s.cal.index).direct.find? fun it => (it.op.map Prod.fst) == some op, s.ops.look op with
  | some it, some o =>
    match o.body, it.op with
    | .remote r, some (_, copy) =>
      let ahead := (s.peer s.cal.index).direct.takeWhile fun y => y != it
      match it.acc, s.accepted it.header with
      | some a, _ => .next { s.loopStep it a op copy o r (ahead.flatMap s.loopDue) with free := s.free + 1 }
      | none, some a =>
        let s' := s.keepAccepted it a
        .next { s'.loopStep { it with acc := some a } a op copy o r (ahead.flatMap s.loopDue) with free := s.free + 1 }
      | none, none => .next ((s.loopNext it none).copyFailed op copy 0x41
          (((r.copies.find? fun c => c.1 == copy).map Prod.snd).getD 0))
    | _, _ => .next s
  | _, _ => .next s

end Sys2Proof.Machine
end

