-- ==== Sys2Proof/Machine/Links.lean ====
section
/-!
DEFINITION. Links and clock (spec/20_fabric_calendar.md R438 to R457): bring-up, the slot clock, meetings and what they send, flits,
keys, silence and fencing, and loss of light (with R478).
-/

namespace Sys2Proof.Machine

/-! ## CALN.EN (R438, R452) -/

/-- R438: the conditions under which EN is set. -/
def State.mayEnable (s : State) : Bool :=
  let c := s.cal
  decide (2 ≤ c.n) && decide (c.n ≤ 1152) && decide (c.index < c.n) && c.psel != 0 &&
    (c.selected.all fun p => (s.port p).live) && inRange 200 c.slotlen 6400 && inRange 8 c.guard 64

/-- R452: the bootstrap calendar starts; every pair is checked anew. -/
def State.calnEnable (s : State) : State :=
  if s.cal.en || !s.mayEnable then s
  else
    { s with
      cal := { s.cal with
        en := true, phase := .boot, ps := 0, stopping := false, announced := none, steered := 0, offsets := [], worst := 0, worstNow := 0 }
      peers := s.peers.map fun _ (p : Peer) => { Peer.fresh with direct := p.direct, relay := p.relay, reply := p.reply }
      ports := s.ports.map fun _ (p : Port) =>
        { p with silentRun := 0, fenced := false, fencedAt := 0, goodSince := 0, fixedAt := 0, gotAt := 0, toldAt := 0, admittedAt := 0, lanes := 0, darkAt := 0 } }

def execCalnEnable (s : State) : Host.Outcome State Fault Refusal := .next s.calnEnable

/-- R438: EN goes to 0; participation stops at the next cycle boundary. -/
def State.calnDisable (s : State) : State :=
  if s.cal.en then { s with cal := { s.cal with en := false, stopping := true, steered := s.cal.cycleNo } } else s

def execCalnDisable (s : State) : Host.Outcome State Fault Refusal := .next s.calnDisable

/-! ## Meetings -/

/-- DEDUCED, log 91. -/
def inBoot (c : Cal) : Bool := match c.phase with | .boot => true | _ => false

def inDataPhase (c : Cal) : Bool := match c.phase with | .data => true | _ => false

/-- The peer that a live port meets in the slot in force. -/
def State.meeting (s : State) (port : Nat) : Option Nat :=
  if (s.port port).live && (inBoot s.cal || inDataPhase s.cal) then s.cal.meets port s.cal.slotNow else none

/-- The guard of the slot in force has ended. -/
def Cal.guardOver (c : Cal) : Bool := decide (c.guardNs * 1000 ≤ c.intoSlot)

/-- UNIT of an entry about a port (Table 19.15). -/
def portUnit (port : Nat) : Nat := unitOf 0 port

/-! ## The preamble this package sends (R444, R454) -/

/-- The lanes a port can send on. -/
def Port.lanesNow (p : Port) : BitVec 16 := p.lanes &&& ((if p.laserA then 0x00FF else 0) ||| if p.laserB then 0xFF00 else 0)

/-- R447: the arrival offset predicted for a peer. -/
def Peer.predicted (p : Peer) : Int := p.offset - p.steeredSince

/-- R447, R448: the port's own prediction makes it silent in the data calendar; a fenced port has only its control lane. -/
def State.mute (s : State) (port q : Nat) : Bool :=
  inDataPhase s.cal && !(s.port port).fenced && decide (s.cal.guard * 1000 < (s.peer q).predicted.natAbs)

/-- Once in a meeting: the preamble, and on the control lane the announcement that this package has made or learnt (R454). -/
def State.sendPreamble (s : State) (port q : Nat) : State :=
  let now := s.cal.slotAbs + 1
  let x := s.port port
  if x.toldAt == now then s
  else
    let p := s.peer q
    let s := s.updPort port fun x => { x with toldAt := now }
    if s.mute port q then s
    else
      let pre : Preamble := ⟨p.recvSeq, x.lanesNow, p.kgenOut != p.keyPending⟩
      -- R456: the acknowledgement of a flit under the new inbound key retires the old bank; the key update is announced
      let p := { p with
        oldInKept := p.oldInKept && !p.newInGot, newInGot := false
        keyToldAt := if p.keyPending && p.keyToldAt = 0 then now else p.keyToldAt }
      { s with
        preambles := s.preambles.put q pre
        peers := s.peers.put q (if s.cal.announced.isNone then p else { p with told := s.cal.announced }) }

/-! ## Bring-up (R452 to R454) -/

/-- The version this package offers, minimum and maximum. -/
def ourVersion : Nat := 0x0100

/-- R452, step 3: the session opened with a peer whose certificate chains to the root and whose firmware is not too old. -/
def State.sessionOk (s : State) (x : PairSession) : Bool := x.opened && x.chained && decide (s.fwFused ≤ x.version)

/-- R453: why a pair is not admitted; 0 when it is. -/
def State.pairFault (s : State) (verMin verMax : Nat) (session : PairSession) (n p slotlen guard : Nat) : Nat :=
  let c := s.cal
  let v := Nat.min ourVersion verMax
  if v < ourVersion || v < verMin then 1
  else if !(s.sessionOk session) then 2
  else if n != c.n || p != c.portCount || slotlen != c.slotlen || guard != c.guard then 3
  else 0

/-- BOOTSTRAP_MEETING: the check of a pair that has not been admitted, at each of its meetings in which the peer's preamble is
locked. -/
def execBootstrapMeeting (port verMin verMax : Nat) (session : PairSession) (n p slotlen guard : Nat) (s : State) :
    Host.Outcome State Fault Refusal :=
  match s.meeting port with
  | none => .next s
  | some q =>
    if (s.peer q).admitted || (s.port port).gotAt != s.cal.slotAbs + 1 then .next s
    else
      match s.pairFault verMin verMax session n p slotlen guard with
      | 0 => .next (s.updPeer q fun x =>
          { x with
            admitted := true, sendSeq := 0, recvSeq := 0, replay := [], kgenOut := false, kgenIn := false, oldInKept := false, keysOut := 0, keysIn := 0
            keyAt := if inDataPhase s.cal then s.cal.cycleNo else 0, keyPending := false, keyToldAt := 0, keyLate := false, newInGot := false
            keyInAt := if inDataPhase s.cal then s.cal.cycleNo else 0, keyInLate := false, newSent := 0 })
      | k => .next (s.mclog 13 0 0 (portUnit port) q k)

/-- EPOCH_ANNOUNCE: package 0 announces a bootstrap cycle at least 64 ahead once it has admitted a peer; the others take the
announcement from a peer they have admitted. From then on it goes out on the control lane of every meeting (`sendPreamble`). -/
def execEpochAnnounce (cycle : Nat) (s : State) : Host.Outcome State Fault Refusal :=
  let c := s.cal
  let met := s.peers.any fun p => p.2.admitted
  if inBoot c && c.announced.isNone && met && (c.index != 0 || decide (c.cycleNo + 64 ≤ cycle)) then
    .next { s with cal := { c with announced := some cycle } }
  else .next s

/-- DATA_CALENDAR_START: at the end of the announced bootstrap cycle; a package that learns of it late enters at the slot its own
clock gives. -/
def execDataCalendarStart (s : State) : Host.Outcome State Fault Refusal :=
  let c := s.cal
  match c.announced with
  | none => .next s
  | some k =>
    if c.en && inBoot c && decide (k < c.cycleNo) then
      let c' := { c with phase := .data, ps := c.ps - ((k + 1) * c.slots * 6400 * 1000 : Nat), offsets := [] }
      .next { s with
        cal := { c' with steered := c'.cycleNo, worst := 0, worstNow := 0 }
        peers := s.peers.map fun _ (p : Peer) => { p with keyAt := 0, keyInAt := 0 }
        ports := s.ports.map fun _ (p : Port) => { p with fixedAt := 0, gotAt := 0, toldAt := 0, darkAt := 0, admittedAt := 0 } }
    else .next s

/-! ## The slot clock (R446) -/

/-- The mean of the offsets, clamped to ±1 ns. DEDUCED, log 83. -/
def meanOffset (l : List Int) : Int :=
  if l.isEmpty then 0 else max (-1000) (min 1000 ((l.foldl (· + ·) 0) / (l.length : Int)))

/-- CLOCK_STEER: the boundary of a calendar cycle. A preamble that arrives late moves the clock back by as much.
DEDUCED, log 83. -/
def execClockSteer (s : State) : Host.Outcome State Fault Refusal :=
  let c := s.cal
  if (inBoot c || inDataPhase c) && decide (c.steered < c.cycleNo) then
    if c.stopping then .next { s with cal := { c with phase := .off, ps := 0, stopping := false, steered := 0, offsets := [] } }
    else
      let d := if c.index = 0 then 0 else meanOffset c.offsets
      .next { s with
        cal := { c with ps := c.ps - d, steered := c.cycleNo, offsets := [], worst := c.worstNow, worstNow := 0 }
        peers := s.peers.map fun _ (p : Peer) => { p with steeredSince := p.steeredSince + d } }
  else .next s

/-! ## The preamble (R444) -/

/-- `seq` comes before `ack` in the sequence modulo 2^29. -/
def coveredBy (ack seq : Nat) : Bool := decide ((ack + 2 ^ 29 - seq - 1) % 2 ^ 29 < 2 ^ 28)

/-- R456: the peer's new inbound key stands in the other bank from now on. -/
def Peer.newInKey (p : Peer) (kgen : Bool) (cycle : Nat) : Peer :=
  if kgen == p.kgenIn then p
  else { p with kgenIn := kgen, keysIn := p.keysIn + 1, oldInKept := true, newInGot := false, keyInAt := cycle, keyInLate := false }

/-- The pair is admitted and the meeting is one of the data calendar. -/
def State.dataMeeting (s : State) (port : Nat) : Option Nat :=
  if inDataPhase s.cal then (s.meeting port).filter fun q => (s.peer q).admitted else none

/-- PREAMBLE_RECEIVE: once in a guard. A fenced port, whose control lane carries the preamble, measures and takes the acknowledgement; while the
bootstrap calendar runs every port only measures. DEDUCED, log 91. -/
def execPreambleReceive (port ack : Nat) (lanes : BitVec 16) (kgen : Bool) (offsetPs : Int) (s : State) :
    Host.Outcome State Fault Refusal :=
  match s.meeting port with
  | none => .next s
  | some q =>
    let x := s.port port
    if s.cal.guardOver || x.gotAt == s.cal.slotAbs + 1 then .next s
    else
      let s := (s.sendPreamble port q).updPort port fun x => { x with gotAt := s.cal.slotAbs + 1 }
      if inBoot s.cal then
        .next { s.updPeer q fun p => { p with offset := offsetPs, steeredSince := 0 } with
          cal := { s.cal with offsets := if q < s.cal.index then s.cal.offsets ++ [offsetPs] else s.cal.offsets } }
      else
        .next (s.updPeer q fun p =>
          let p := { p with measured := offsetPs }
          if !p.admitted then p
          else { p.newInKey kgen s.cal.cycleNo with replay := p.replay.filter fun f => !(coveredBy ack f.1), peerLanes := lanes })

/-! ## What a meeting sends (R450, R462, R464, R482) -/

/-- The result of taking from one item: the state, the payloads, and what is left of it. -/
structure Sent where
  st : State
  out : List Payload
  rest : Option YardItem

/-- The bytes of the chunk at `off`; `none` when they cannot be had yet. -/
def State.chunkFor (s : State) (it : YardItem) (off n : Nat) : Option (State × List Byte) :=
  match it.op with
  | none => if off + n ≤ it.next + it.data.length then some (s, (it.data.drop (off - it.next)).take n) else none
  | some (k, _) =>
    match s.ops.look k with
    | none => none
    | some o =>
      match o.body with
      | .remote r =>
        let ps := subPieces r.loc off n
        if s.sourceReady k o.wave ps then some ((s.raiseErrs o.wave (s.pieceErrs o ps)).touchPieces ps, s.readPieces ps) else none
      | _ => none

/-- Whole chunks of an item from `off` while they fit in `room`; the first argument bounds them. -/
def State.sendChunks (s : State) (it : YardItem) : Nat → Nat → State × List Payload × Nat
  | 0, off => (s, [], off)
  | room + 1, off =>
    let h := it.header
    if off ≥ h.length then (s, [], off)
    else
      let n := chunkLen h.addr h.length off
      match s.chunkFor it off n with
      | none => (s, [], off)
      | some (s, bs) =>
        let t := State.sendChunks s it room (off + n)
        (t.1, .chunk h.origin h.tag off bs :: t.2.1, t.2.2)

/-- The operation that an item belongs to is over (it was lost), so that nothing is left to send. -/
def State.itemOver (s : State) (it : YardItem) : Bool :=
  match it.op with
  | none => false
  | some (n, copy) =>
    match s.ops.look n with
    | none => true
    | some o =>
      match o.body with
      | .remote r => o.done || !(r.copies.any fun c => c.1 == copy)
      | _ => true

/-- R466: bytes of reply data that this package has asked of package `q` and not received. -/
def State.repliesDue (s : State) (q : Nat) : Nat :=
  s.ops.foldl (fun n x =>
    match x.2.body with
    | .remote r => if !x.2.done && r.targets.contains q then n + (r.asked - r.got) else n
    | _ => n) 0

/-- R466: the engine asks for the data of an RGET in pieces of at most 64 KiB, while at most 256 KiB are due from one package. -/
def State.sendGets (s : State) (k : Nat) (h : RHeader) : Nat → Nat → State × List Payload × Nat
  | 0, off => (s, [], off)
  | room + 1, off =>
    let n := Nat.min 65536 (h.length - off)
    if n = 0 || s.repliesDue h.target + n > 262144 then (s, [], off)
    else
      let t := State.sendGets (s.updRemote k fun r => { r with asked := off + n }) k h room (off + n)
      (t.1, .header { h with cont := off != 0, first := off } :: t.2.1, t.2.2)

/-- An operation of this package that travels through an intermediate. -/
def YardItem.ownRelayed (it : YardItem) : Bool := it.op.isSome && it.header.relayed

/-- R466: the flits that this package has sent through package `q` for copies that have not been acknowledged. -/
def State.relayedOut (s : State) (q : Nat) : Nat :=
  s.ops.foldl (fun n x =>
    match x.2.body with
    | .remote r =>
      if x.2.done then n
      else (r.relayed.filter fun y => y.2.1 == q && r.copies.any fun c => c.1 == y.1).foldl (fun n y => n + y.2.2) n
    | _ => n) 0

/-- `n` flits of an item of this package have been sent through package `q`. -/
def State.noteRelayed (s : State) (it : YardItem) (q n : Nat) : State :=
  match it.op with
  | some (k, copy) => if it.ownRelayed && n != 0 then s.updRemote k fun r => { r with relayed := r.relayed ++ [(copy, q, n)] } else s
  | none => s

/-- R466: 64 KiB of flits. -/
def relayLimit : Nat := 65536 / 272

/-- One item, with `room` flits left in the window. Nothing is sent unless the header and the first data flit fit (R464), or while
a limit of R466 would be passed. -/
def State.sendItem (s : State) (it : YardItem) (room : Nat) : Sent :=
  let h := it.header
  let keep : Sent := ⟨s, [], some it⟩
  if s.itemOver it then ⟨s, [], none⟩
  else
    match h.kind with
    | .rput | .rred =>
      if room < 2 then keep
      else
        let x := s.sendChunks it (room - 1) it.next
        if x.2.1.isEmpty then keep
        else
          let hd := Payload.header { h with cont := it.opened, first := it.next }
          let it' := { it with next := x.2.2, opened := true, data := it.data.drop (x.2.2 - it.next) }
          ⟨x.1, hd :: x.2.1, if x.2.2 ≥ h.length then none else some it'⟩
    | .rgetData | .ratomReply =>
      if room < it.flits then keep
      else ⟨s, .header h :: (if it.data.isEmpty then [] else [.chunk h.origin h.tag h.first it.data]), none⟩
    | .ratom =>
      if room < it.flits || (it.op.isSome && !h.nd && decide (s.repliesDue h.target + 4 * h.lanes.length > 262144)) then keep
      -- lane records beyond the 17 inline ones take one data flit more
      else
        let s := match it.op with
          | some (k, _) => if h.nd then s else s.updRemote k fun r => { r with asked := 4 * h.lanes.length }
          | none => s
        ⟨s, .header h :: List.replicate it.dataFlits (.lanes h), none⟩
    | .rgetReq =>
      match it.op with
      | none => if room < 1 then keep else ⟨s, [.header h], none⟩
      | some (k, _) =>
        let x := s.sendGets k h room it.next
        ⟨x.1, x.2.1, if x.2.2 ≥ h.length then none else some { it with next := x.2.2, opened := true }⟩
    | .rarrv | .ack | .refusal => if room < 1 then keep else ⟨s, [.header h], none⟩

/-- A queue for package `q`, in order, until it is empty, an item stays, or one has entered in the cycle `cut` or later (R482); `lim` flits
of this package may still be relayed. -/
def State.sendQueue (s : State) (q cut lim : Nat) : List YardItem → Nat → State × List Payload × List YardItem
  | [], _ => (s, [], [])
  | it :: r, room =>
    if cut ≤ it.since then (s, [], it :: r)
    else
      let x := s.sendItem it (if it.ownRelayed then Nat.min room lim else room)
      let st := x.st.noteRelayed it q x.out.length
      match x.rest with
      | some it' => (st, x.out, it' :: r)
      | none =>
        let t := State.sendQueue st q cut (if it.ownRelayed then lim - x.out.length else lim) r (room - x.out.length)
        (t.1, x.out ++ t.2.1, t.2.2)

/-- R482: the cycle in which the guard of the slot in force ended. -/
def State.guardEnd (s : State) : Nat := s.cycle - (s.cal.intoSlot - s.cal.guardNs * 1000) / 500

/-- New payloads for peer `q` with `room` flits of the meeting's `f` left after the replay. -/
def State.loadNew (s : State) (q room f : Nat) : State × List Payload :=
  let p := s.peer q
  let cap := if p.direct.isEmpty then room else Nat.min room (3 * f / 4)
  let lim := relayLimit - s.relayedOut q
  let cut := s.guardEnd
  let a := s.sendQueue q cut lim p.reply cap
  let b := a.1.sendQueue q cut lim p.relay (cap - a.2.1.length)
  let used := a.2.1.length + b.2.1.length
  let d := b.1.sendQueue q cut lim p.direct (room - used)
  (d.1.updPeer q fun p => { p with reply := a.2.2, relay := b.2.2, direct := d.2.2 }, a.2.1 ++ b.2.1 ++ d.2.1)

/-- The meeting's load: the replay, then new flits under the next sequence numbers. -/
def State.sendTo (s : State) (q w : Nat) : State :=
  let f := s.cal.flits w
  -- R456: KGEN switches at the first flit of a meeting later than the one that announced the new key
  let s := s.updPeer q fun p =>
    if p.keyPending && p.keyToldAt != 0 && decide (p.keyToldAt < s.cal.slotAbs + 1) then
      { p with kgenOut := !p.kgenOut, keysOut := p.keysOut + 1, keyPending := false, keyToldAt := 0, keyAt := s.cal.cycleNo }
    else p
  let p := s.peer q
  let x := s.loadNew q (f - p.replay.length) f
  let new := (x.2.zipIdx).map fun (y, i) => ((p.sendSeq + i) % 2 ^ 29, y)
  let s := x.1.updPeer q fun p =>
    { p with sendSeq := (p.sendSeq + new.length) % 2 ^ 29, replay := p.replay ++ new, width := w, newSent := new.length }
  let out := ((p.replay.take f ++ new).zipIdx).map fun (y, i) =>
    (q, s.cal.flit s.cal.index q p.keysOut i p.kgenOut y.1 y.2)
  { s with sent := (s.sent.filter fun y => y.1 != q) ++ out }

/-- R456: a rekey of the pair, in either direction, has not been completed by its deadline. -/
def Peer.late (p : Peer) : Bool := p.keyLate || p.keyInLate

/-- R448: the port is fenced. -/
def State.fencePort (s : State) (port : Nat) : State :=
  (s.mclog 11 0 0 (portUnit port) 0 1).updPort port fun x =>
    { x with fenced := true, fencedAt := s.cal.cycleNo, goodSince := s.cal.cycleNo + 1, silentRun := 0 }

/-- The offset measured in this guard is in force from now on. -/
def State.keepOffset (s : State) (q : Nat) : State :=
  let m := (s.peer q).measured
  { s.updPeer q fun p => { p with offset := m, steeredSince := 0 } with
    cal := { s.cal with offsets := if q < s.cal.index then s.cal.offsets ++ [m] else s.cal.offsets } }

/-- R447: a silent slot is counted and logged. -/
def State.countSilent (s : State) (port q : Nat) (pred : Int) : State :=
  { s with cal := { s.cal with silent := (s.cal.silent + 1) % 2 ^ 16 } }.mclog 9 0 0 (portUnit port) q (BitVec.ofInt 64 pred).toNat

/-- R447: the port has found no preamble of its peer. -/
def State.notFound (s : State) (port q : Nat) : State :=
  (s.mclog 10 0 0 (portUnit port) q 0).updPeer q fun p => { p with peerSilent := true }

/-- A slot that the port's own prediction makes silent; the third in a row fences the port. DEDUCED, log 82. -/
def State.silentSlot (s : State) (port q : Nat) (pred : Int) : State :=
  let s := s.countSilent port q pred
  let s := (s.updPeer q fun p => { p with bad := true }).updPort port fun x => { x with silentRun := x.silentRun + 1 }
  if (s.port port).silentRun ≥ 3 then s.fencePort port else s

/-- MEETING_LOAD_FIX: once in each meeting, when its guard has ended. In the bootstrap calendar only the control lane is used.
A slot in which no preamble is locked is silent too, and does not count towards the port's fencing. DEDUCED, log 82. -/
def execMeetingLoadFix (port : Nat) (s : State) : Host.Outcome State Fault Refusal :=
  match s.meeting port with
  | none => .next s
  | some q =>
    let x := s.port port
    let now := s.cal.slotAbs + 1
    if !s.cal.guardOver || x.fixedAt == now then .next s
    else if inBoot s.cal then .next ((s.sendPreamble port q).updPort port fun x => { x with fixedAt := now })
    else
      let s := ((s.sendPreamble port q).updPort port fun x => { x with fixedAt := now }).updPeer q fun p => { p with gotFlits := 0 }
      let p := s.peer q
      let got := x.gotAt == now
      let g : Int := s.cal.guard * 1000
      if x.fenced then
        let good := got && decide (2 * p.measured.natAbs ≤ s.cal.guard * 1000)
        let s := if got then s.keepOffset q else s
        .next ((s.updPeer q fun p => { p with bad := true }).updPort port fun x =>
          if good then x else { x with goodSince := s.cal.cycleNo + 1 })
      else
        let pred := p.predicted
        let s := { s with cal := { s.cal with worstNow := Nat.max s.cal.worstNow pred.natAbs } }
        if (pred.natAbs : Int) > g then
          .next ((if got then s.keepOffset q else s.notFound port q).silentSlot port q pred)
        else if !got then
          .next (((s.countSilent port q pred).notFound port q).updPeer q fun p => { p with bad := true })
        else
          let s := (s.keepOffset q).updPort port fun x => { x with silentRun := 0 }
          let s := s.updPeer q fun p => { p with bad := !p.admitted, peerSilent := false }
          let w := bits16 (x.lanesNow &&& p.peerLanes)
          -- R457: a port that has lost a laser in this slot sends again from the next one
          .next (if p.admitted && !p.late && x.darkAt != now then s.sendTo q w else s)

/-! ## FLIT_RECEIVE (R443, R449, R456) -/

/-- R456: the bank that a flit names holds the key that the peer has announced, the one before while that is kept, or else one that the
peer has installed since; its number. DESIGN CHOICE, log 88. -/
def Peer.keyIn (p : Peer) (kgen : Bool) : Nat :=
  if kgen == p.kgenIn then p.keysIn else if p.oldInKept then p.keysIn - 1 else p.keysIn + 1

/-- A flit under the bank `kgen` has passed: a key that stood there unannounced is the newest. -/
def Peer.usedKey (p : Peer) (kgen : Bool) (cycle : Nat) : Peer :=
  let p := if p.oldInKept then p else p.newInKey kgen cycle
  { p with newInGot := p.newInGot || kgen == p.kgenIn }

/-- R456: a pair whose rekey is late takes no data flit, but for one under a new key of the peer's. -/
def Peer.takesData (p : Peer) (kgen : Bool) : Bool := !p.keyLate && (!p.keyInLate || (kgen != p.kgenIn && !p.oldInKept))

/-- R463: the payload is no header of a KIND that Table 21.1 does not list. -/
def kindListed : Payload → Bool
  | .noKind _ => false
  | _ => true

/-- R443, R449, R463: the flit is no corrupt one: its TYPE is data or fill, its tag verifies, and a header's KIND is listed. -/
def State.flitOk (s : State) (q : Nat) (f : Flit) : Bool :=
  let p := s.peer q
  decide (f.type < 2) && (f.type == 1 || kindListed f.payload) && s.cal.tagOk q s.cal.index (p.keyIn f.kgen) p.gotFlits f

/-- FLIT_RECEIVE: the first flit of a meeting that fails ends it; each flit is handed over once, in SEQ order. -/
def execFlitReceive (port : Nat) (f : Flit) (s : State) : Host.Outcome State Fault Refusal :=
  match s.dataMeeting port with
  | none => .next s
  | some q =>
    let p := s.peer q
    if p.bad || (s.port port).fixedAt != s.cal.slotAbs + 1 then .next s
    else if (f.type == 0 && !(p.takesData f.kgen)) || !(s.flitOk q f) then .next (s.updPeer q fun p => { p with bad := true })
    else if coveredBy p.recvSeq f.seq then .next (s.updPeer q fun p => { p with gotFlits := p.gotFlits + 1 })
    else
      let s := s.updPeer q fun p =>
        { p.usedKey f.kgen s.cal.cycleNo with recvSeq := (f.seq + 1) % 2 ^ 29, gotFlits := p.gotFlits + 1 }
      if f.type = 1 then .next s
      else
        match f.payload with
        | .fill | .noKind _ => .next s
        | y => .next { s with arrived := s.arrived ++ [(q, y)] }

/-! ## LANE_ADMIT (R455) -/

/-- The port has had no part in a meeting of the calendar cycle in force: what it admits now holds for the whole cycle. -/
def State.cycleFresh (s : State) (x : Port) : Bool :=
  let first := s.cal.cycleNo * Nat.max 1 s.cal.slots
  decide (x.fixedAt ≤ first) && decide (x.gotAt ≤ first) && decide (x.toldAt ≤ first)

/-- LANE_ADMIT: at most one lane at the boundary of each calendar cycle, before the port's first meeting in it: the lowest that has trained
with every peer of the port. -/
def execLaneAdmit (port : Nat) (trained : BitVec 16) (s : State) : Host.Outcome State Fault Refusal :=
  let x := s.port port
  if x.live && inDataPhase s.cal && decide (x.admittedAt < s.cal.cycleNo) && s.cycleFresh x then
    match (upto 16).find? fun i => trained.getLsbD i && !(x.lanes.getLsbD i) && (if i < 8 then x.laserA else x.laserB) with
    | some i => .next (s.updPort port fun x => { x with lanes := x.lanes ||| BitVec.ofNat 16 (2 ^ i), admittedAt := s.cal.cycleNo })
    | none => .next s
  else .next s

/-! ## Keys (R456) -/

/-- REKEY: a new key stands in the idle bank. DESIGN CHOICE, log 88. -/
def execRekey (peer : Nat) (s : State) : Host.Outcome State Fault Refusal :=
  let p := s.peer peer
  if p.admitted && inDataPhase s.cal && !p.keyPending then
    .next (s.updPeer peer fun p => { p with keyPending := true, keyLate := false })
  else .next s

/-- REKEY_DEADLINE: 2^20 calendar cycles without one, in either direction. -/
def execRekeyDeadline (peer : Nat) (s : State) : Host.Outcome State Fault Refusal :=
  let p := s.peer peer
  let out := !p.keyPending && decide (p.keyAt + 2 ^ 20 ≤ s.cal.cycleNo)
  let inward := decide (p.keyInAt + 2 ^ 20 ≤ s.cal.cycleNo)
  if p.admitted && inDataPhase s.cal && (out || inward) then
    .next (s.updPeer peer fun p => { p with keyLate := p.keyLate || out, keyInLate := p.keyInLate || inward })
  else .next s

/-! ## Loss (R457, R478) -/

/-- The copy of this package's operations that a payload belongs to. -/
def State.copyOf (s : State) : Payload → Option (Nat × Nat)
  | .header h | .lanes h => if h.origin == s.cal.index && isRequest h.kind then some (h.tag / 64, h.tag % 64) else none
  | .chunk o t _ _ => if o == s.cal.index then some (t / 64, t % 64) else none
  | .fill | .noKind _ => none

/-- R457: the flits of the meeting in force that have been sent or begun, at 272 bytes and 25 bytes a nanosecond on each lane. -/
def State.begunFlits (s : State) (port q : Nat) : Nat :=
  if s.meeting port == some q && (s.port port).fixedAt == s.cal.slotAbs + 1 then
    25 * (s.peer q).width * (s.cal.intoSlot - s.cal.guardNs * 1000) / (272 * 1000) + 1
  else 0

/-- Flits at the end of a pair's replay buffer that have not been sent: new ones of the meeting in force that are not begun. -/
def State.unsent (s : State) (port q : Nat) : Nat :=
  let p := s.peer q
  if s.meeting port == some q && (s.port port).fixedAt == s.cal.slotAbs + 1 then
    p.newSent - (s.begunFlits port q - Nat.min (p.replay.length - p.newSent) (s.cal.flits p.width))
  else 0

/-- The pair's flits that have been sent and not acknowledged. -/
def State.sentFlits (s : State) (port q : Nat) : List (Nat × Payload) := (s.peer q).replay.take ((s.peer q).replay.length - s.unsent port q)

/-- The copies of this package's operations that have such a flit. -/
def State.lostCopies (s : State) (port q : Nat) : List (Nat × Nat) :=
  (s.sentFlits port q).foldl (fun l x =>
    match s.copyOf x.2 with
    | some c => if l.contains c then l else l ++ [c]
    | none => l) []

/-- A copy of an operation that has not completed, with its remote address. -/
def State.copyAddr (s : State) (c : Nat × Nat) : Option (Nat × Nat) :=
  match s.ops.look c.1 with
  | none => none
  | some o =>
    match o.body with
    | .remote r => if o.done then none else (r.copies.find? fun x => x.1 == c.2).map fun x => (o.wave, x.2)
    | _ => none

/-- R478: one wave's batch: its fault records, its operations' completion, and 0x40. DEDUCED, log 81. -/
def State.loseWave (s : State) (w : Nat) (cs : List ((Nat × Nat) × Nat)) : State :=
  let log := (s.streamAt (s.recdOf w).stream).filter Stream.hasLog
  let x := match log with
    | none => (s, 0)
    | some st =>
      let first := st.flog + 32 * (s.flogt st % Nat.max 1 st.flogn)
      (cs.foldl (fun s (c : (Nat × Nat) × Nat) => (s.flogWrite st w 0x40 c.2 (2 ^ 63 + cs.length)).1) s, first)
  let s := cs.foldl (fun (s : State) (c : (Nat × Nat) × Nat) => s.copyFailed c.1.1 c.1.2 0x40 x.2 false) x.1
  if cs.all fun (c : (Nat × Nat) × Nat) => !(s.frozen w) || ((s.ops.look c.1.1).all fun o => match o.body with | .remote r => !r.slotted | _ => true) then
    s.remoteTrap w 0x40 x.2
  else s

/-- What a loss leaves of a pair's replay buffer: the flits not sent, without those of lost copies. -/
def State.keptFlits (s : State) (port q : Nat) : List (Nat × Payload) :=
  let lost := s.lostCopies port q
  ((s.peer q).replay.drop ((s.peer q).replay.length - s.unsent port q)).filter fun x => !((s.copyOf x.2).any lost.contains)

/-- Every flit that the port has sent and that has not been acknowledged is lost; the number of operations lost. Flits of the meeting in
force that are not begun keep their places. -/
def State.loseFlits (s : State) (port : Nat) (qs : List Nat) : State × Nat :=
  let cs : List (Nat × ((Nat × Nat) × Nat)) :=
    (qs.flatMap (s.lostCopies port)).filterMap fun c => (s.copyAddr c).map fun (x : Nat × Nat) => (x.1, (c, x.2))
  let ws : List Nat := cs.foldl (fun l c => if l.contains c.1 then l else l ++ [c.1]) []
  let kept := qs.map fun q => (q, s.keptFlits port q, (s.sent.filter fun x => x.1 == q).take (s.begunFlits port q))
  let s := kept.foldl (fun s x => s.updPeer x.1 fun p => { p with replay := x.2.1, newSent := 0 }) s
  let s := { s with sent := (s.sent.filter fun x => !(qs.contains x.1)) ++ kept.flatMap fun x => x.2.2 }
  (ws.foldl (fun s w => s.loseWave w ((cs.filter fun c => c.1 == w).map Prod.snd)) s, cs.length)

/-- The peers that meet this package on a port. -/
def State.peersOn (s : State) (port : Nat) : List Nat :=
  if s.cal.n < 2 then [] else (upto s.cal.n).filter fun q => q != s.cal.index && s.cal.pairPort q == port

/-- R466: what other packages route through this one to package `q` is refused. -/
def State.refuseRelays (s : State) (q : Nat) : State :=
  ((s.peer q).relay.foldl (fun s it => s.refuse it.header) s).updPeer q fun p => { p with relay := [] }

/-- A port is retired (R434, R448, R457), with what stood in the relay queues of the peers that it met (R466). -/
def State.retirePort (s : State) (port : Nat) : State :=
  (((s.peersOn port).foldl State.refuseRelays s).updPort port fun x => { x with live := false }).retireUnit (.port port)

/-- R457: the loss of one laser's group of 8 lanes. -/
def State.loseLaser (s : State) (port : Nat) (laserB : Bool) : State :=
  let x := s.port port
  if !x.live || !(if laserB then x.laserB else x.laserA) then s
  else
    let r := s.loseFlits port (s.peersOn port)
    let s := r.1.mclog 12 0 0 (portUnit port) (if laserB then 1 else 0) r.2
    let s := s.updPort port fun x =>
      { x with laserA := x.laserA && laserB, laserB := x.laserB && !laserB, w8 := true, darkAt := s.cal.slotAbs + 1
               lanes := x.lanes &&& if laserB then 0x00FF else 0xFF00 }
    let s := s.retireUnit (.waves port laserB)
    if (s.port port).laserA || (s.port port).laserB then s else s.retirePort port

def execLaserFailure (port : Nat) (laserB : Bool) (s : State) : Host.Outcome State Fault Refusal := .next (s.loseLaser port laserB)

/-- LANE_FLIT_FAILURES: 2^10 flit failures of one lane in a calendar cycle are as the loss of its laser. -/
def execLaneFlitFailures (port lane : Nat) (s : State) : Host.Outcome State Fault Refusal :=
  .next (s.loseLaser port (decide (8 ≤ lane)))

/-! ## PORT_UNFENCE, PORT_RETIRE_TIMEOUT (R448) -/

/-- PORT_UNFENCE: a whole calendar cycle has passed in which every offset lay within G ÷ 2. -/
def execPortUnfence (port : Nat) (s : State) : Host.Outcome State Fault Refusal :=
  let x := s.port port
  if x.live && x.fenced && inDataPhase s.cal && decide (x.goodSince < s.cal.cycleNo) then
    .next ((s.mclog 11 0 0 (portUnit port) 0 2).updPort port fun x => { x with fenced := false, silentRun := 0 })
  else .next s

/-- PORT_RETIRE_TIMEOUT: fenced for 2^16 calendar cycles. -/
def execPortRetireTimeout (port : Nat) (s : State) : Host.Outcome State Fault Refusal :=
  let x := s.port port
  if x.live && x.fenced && decide (x.fencedAt + 2 ^ 16 ≤ s.cal.cycleNo) then
    let s := (s.loseFlits port (s.peersOn port)).1
    .next ((s.mclog 11 0 0 (portUnit port) 0 3).retirePort port)
  else .next s

end Sys2Proof.Machine
end

