-- ==== Sys2Proof/Machine/Lists.lean ====
section
/-!
DEFINITION. Collecting calls and effect lists (spec/14_collecting_mode.md R325 to R341).
-/

namespace Sys2Proof.Machine

/-! ## CALLC and RETC -/

def State.teamNo (s : State) (w : Nat) : Nat := (s.wave w).team

/-- R335: an open collection, or no directory entry for one. -/
def callcCauses (e : Env) (s : State) : List Cause :=
  causeIf (s.wave e.wave).collAct (whole e 0x39 e.word) ++
    causeIf (s.team (s.teamNo e.wave)).freeEntry.isNone (whole e 0x38 0)

/-- A directory entry is claimed for the wave's collection. -/
def State.openCollection (s : State) (w : Nat) (d : SReg) : State :=
  let t := s.teamNo w
  match (s.team t).freeEntry with
  | none => s
  | some k =>
    (s.updEntry t k fun e => { e with list := some [] }).updWave w fun x =>
      { x with collAct := true, collEntry := k, collReg := d.toNat }

/-- R335. -/
def execCallc (g : Guard) (d : SReg) (t : Target) (s : State) : Host.Outcome State Fault Refusal :=
  issueWith (.callc g d t) g false
    (fun e s => targetCause (targetAddr t e.leaf) e s ++ groupCause e s ++ callcCauses e s) noWait
    (fun p envs s =>
      match envs.head? with
      | none => s
      | some e =>
        ((s.updWave e.wave fun w => w.setS d.toNat e.leaf.nextHdr).openCollection e.wave d).jump p
          (targetAddr t e.leaf)) noCause s

/-- R336: the collection becomes a list, and the wave stops collecting. -/
def State.closeCollection (s : State) (w : Nat) : State :=
  let x := s.wave w
  let t := x.team
  let s :=
    if (s.collection w).isEmpty then (s.releaseEntry t x.collEntry).updWave w fun x => x.setS x.collReg 0
    else
      let tag := (((s.team t).dir.look x.collEntry).map EffEntry.tag).getD 0
      s.updWave w fun x => x.setS x.collReg (BitVec.ofNat 64 (handleOf x.collEntry tag))
  s.updWave w fun x => { x with collAct := false, collEntry := 0, collReg := 0 }

/-- An HSTL of the wave has yet to make its records in the open collection (R319). DEDUCED, log 53. -/
def State.recordsDue (s : State) (w : Nat) : Bool :=
  let x := s.wave w
  x.collAct && s.heldRecords x.team x.collEntry != 0

/-- R336. A finished list holds every record of the instructions issued before RETC, so it waits for an HSTL.
DEDUCED, log 53. -/
def execRetc (g : Guard) (a : SReg) (s : State) : Host.Outcome State Fault Refusal :=
  issueWith (.retc g a) g false
    (fun e s => targetCause ((s.wave e.wave).sreg a.toNat) e s ++ groupCause e s)
    (fun e s => if s.recordsDue e.wave then some 15 else none)
    (fun p envs s =>
      match envs.head? with
      | none => s
      | some e =>
        let target := (s.wave e.wave).sreg a.toNat
        let s := if (s.wave e.wave).collAct then s.closeCollection e.wave else s
        s.jump p target) noCause s

/-! ## Deriving lists (R339) -/

/-- The records of a handle; an invalid one reads as the empty list (R327). -/
def State.records (s : State) (w : Nat) (h : DWord) : List Effect := (s.listOf (s.teamNo w) h.toNat).getD []

/-- ECAT, EFLT, ERBS: `f` gives the new list. -/
def deriveOp (i : Instr) (g : Guard) (d : SReg) (f : Env → State → List Effect) (s : State) :
    Host.Outcome State Fault Refusal :=
  issue i g
    (fun e s => groupCause e s ++ causeIf (!(s.listRoom (s.teamNo e.wave) (f e s).length)) (whole e 0x38 0))
    (fun e s =>
      let r := s.newList (s.teamNo e.wave) (f e s)
      r.1.updWave e.wave fun w => w.setS d.toNat r.2) s

def execEcat (g : Guard) (d a b : SReg) (s : State) : Host.Outcome State Fault Refusal :=
  deriveOp (.ecat g d a b) g d (fun e s =>
    let w := s.wave e.wave
    s.records e.wave (w.sreg a.toNat) ++ s.records e.wave (w.sreg b.toNat)) s

/-- The record's address lies in `[lo, hi)`. -/
def Effect.within (lo hi : DWord) (r : Effect) : Bool := decide (lo.toNat ≤ r.addr.toNat) && decide (r.addr.toNat < hi.toNat)

def execEflt (g : Guard) (drop : Bool) (d a b c : SReg) (s : State) : Host.Outcome State Fault Refusal :=
  deriveOp (.eflt g drop d a b c) g d (fun e s =>
    let w := s.wave e.wave
    (s.records e.wave (w.sreg a.toNat)).filter fun r => (r.within (w.sreg b.toNat) (w.sreg c.toNat)) != drop) s

def execErbs (g : Guard) (d a b c : SReg) (stop : DWord) (s : State) : Host.Outcome State Fault Refusal :=
  deriveOp (.erbs g d a b c stop) g d (fun e s =>
    let w := s.wave e.wave
    (s.records e.wave (w.sreg a.toNat)).map fun r =>
      if r.within (w.sreg b.toNat) stop then r.moveTo (r.addr + w.sreg c.toNat) else r) s

/-! ## EDRP, ELEN (R340) -/

def execEdrp (g : Guard) (a : SReg) (s : State) : Host.Outcome State Fault Refusal :=
  issue (.edrp g a) g groupCause (fun e s =>
    let h := ((s.wave e.wave).sreg a.toNat).toNat
    let t := s.teamNo e.wave
    if h != 0 && (s.listOf t h).isSome then s.releaseEntry t (h % 2 ^ 16) else s) s

def execElen (g : Guard) (d a : SReg) (s : State) : Host.Outcome State Fault Refusal :=
  issue (.elen g d a) g groupCause (fun e s =>
    s.updWave e.wave fun w => w.setS d.toNat
      (match s.listOf (s.teamNo e.wave) (w.sreg a.toNat).toNat with
      | some l => BitVec.ofNat 64 l.length
      | none => BitVec.allOnes 64)) s

/-! ## EAPP (R337, R338) -/

/-- Table 9.5 for a record, and its place. -/
def State.recordAccess (s : State) (w : Nat) (r : Effect) : List Nat × Place :=
  match r with
  | .store sp a n _ => s.access w (if sp then .spad else .gen) .write n a.toNat (s.draw 0)
  | .atomic sp a _ _ => s.access w (if sp then .spad else .gen) .write 4 a.toNat (s.draw 0)
  | .arrive a _ => s.arrivalAccess w .write a.toNat

/-- The list that the path's EAPP applies: the one it has begun, also where a record's fault or a pre-emption has interrupted it,
else that of sA. -/
def State.applied (s : State) (e : Env) (a : SReg) : Nat × List Effect :=
  let w := s.wave e.wave
  let h := (w.sreg a.toNat).toNat
  match w.eapp with
  | some x => if (s.eappOpen e.wave e.mine).isSome || x.1 == h then x else (h, s.records e.wave (w.sreg a.toNat))
  | none => (h, s.records e.wave (w.sreg a.toNat))

/-- The causes of an EAPP in its wave: the room for what it appends, or the next record's checks. -/
def eappCauses (a : SReg) (e : Env) (s : State) : List Cause :=
  let w := s.wave e.wave
  let l := (s.applied e a).2.drop w.apos
  if w.collecting && (s.eappOpen e.wave e.mine).isNone then
    if s.recordRoom e.wave l.length then []
    else
      let have_ := s.entryRecords w.team w.collEntry
      let fit := (blocksFor have_ + s.blocksFree w.team) * 16 - have_
      [whole e 0x38 (((l.drop fit).head?.map fun r => r.addr.toNat).getD 0)]
  else
    match l with
    | [] => []
    | r :: _ => (s.recordAccess e.wave r).1.map fun c => whole e c r.addr.toNat

/-- One record is handed to the EAPP's operation, which begins with the first. -/
def State.applyRecord (s : State) (e : Env) (h : Nat) (l : List Effect) (p : Place) (r : Effect) : State :=
  let s' := s.updWave e.wave fun w => { w with apos := w.apos + 1, eapp := some (h, l) }
  match s.eappOpen e.wave e.mine with
  | none => s'.pushOp ⟨e.wave, e.mine, s.coreOf e.wave, .store, false, false, [], false, .apply h l.length [(p, r)] true, false⟩
  | some (n, _) =>
    s'.updOp n fun o =>
      match o.body with
      | .apply h k parts more => { o with body := .apply h k (parts ++ [(p, r)]) more }
      | _ => o

/-- One step of an EAPP: its wave's records are appended whole while it collects; else the next record is performed. An EAPP that
is under way goes on performing them (R337), though another path of the wave has begun to collect; one that was interrupted and issues
again appends from APOS (R332).
DEDUCED, log 48. -/
def State.eappStep (s : State) (a : SReg) (i : Instr) (e : Env) : State :=
  let w := s.wave e.wave
  let x := s.applied e a
  let l := x.2.drop w.apos
  let ended := fun (s : State) => (s.updWave e.wave fun w => { w with apos := 0, eapp := none }).advance e.ref i
  -- it counts once in S: as the operation that it has begun, or as one that has completed
  let counted := fun (s : State) => if (s.eappOpen e.wave e.mine).isSome then s.closeEapp e.wave e.mine else s.pushRecorded e
  if w.collecting && (s.eappOpen e.wave e.mine).isNone then ended (counted (s.record e.wave l))
  else
    match l with
    | [] => ended (counted s)
    | r :: rest =>
      let s := (s.applyRecord e x.1 x.2 (s.recordAccess e.wave r).2 r).fillAddr e.wave r.addr.toNat
      let s := { s with free := s.free + 1 }
      if rest.isEmpty then ended (s.closeEapp e.wave e.mine) else s

/-- A trap on this path cannot be taken while another path is in a handler (R201). -/
def State.inOtherHandler (s : State) (e : Env) : Bool :=
  let w := s.wave e.wave
  w.trapSlot.isSome && e.mine &&& w.trapMask == 0

/-- EAPP: each issue performs one record; the path's PC moves on with the last. A record that faults leaves APOS at it. One
EAPP of a wave is under way at a time, since APOS is the wave's. DEDUCED, log 48. -/
def execEapp (g : Guard) (a : SReg) (s : State) : Host.Outcome State Fault Refusal :=
  let i := Instr.eapp g a
  let others := fun (e : Env) (s : State) =>
    (s.eappOpen e.wave (BitVec.allOnes 32)).isSome && (s.eappOpen e.wave e.mine).isNone
  issueWith i g false
    (fun e s =>
      groupCause e s ++ (if others e s || s.inOtherHandler e then [] else eappCauses a e s))
    (fun e s =>
      if others e s || (s.inOtherHandler e && !(eappCauses a e s).isEmpty) then some 15 else none)
    (fun _ envs s =>
      match envs.head? with
      | none => s
      | some e => s.eappStep a i e) noCause s

/-! ## EAREA_WRITE (R328) -/

/-- A write of CSR EAREA: bytes move between the scratchpad's top and the effect area; lost contents read as zero. -/
def State.eareaWrite (s : State) (t : Nat) (v : DWord) : State :=
  let x := s.team t
  let new := v.toNat % 2 ^ 32
  let all := x.spadLen + x.effLen
  let live := x.dir.any fun e => e.2.list.isSome
  let need := s.blocksUsed t + if live then 1 else 0
  if new % 256 != 0 || new + 256 > all || new / 256 < need then s
  else
    let n := all - new
    s.updTeam t fun m =>
      { m with
        spadLen := n
        effLen := new
        spad := Sparse.keepKeys (w := 8) (fun a => a < n) m.spad
        spadUpset := m.spadUpset.filter fun k => k * 8 < n }

def execEareaWrite (team : Nat) (value : DWord) (s : State) : Host.Outcome State Fault Refusal :=
  .next (s.eareaWrite team value)

end Sys2Proof.Machine
end

