-- ==== Sys2Proof/Machine/Preempt.lean ====
section
/-!
DEFINITION. Pre-emption, resumption and cancelling (spec/17_package.md R407 to R412), and debug stops, swap-outs and returns
(spec/19_observation_and_service.md R419 to R421).
-/

namespace Sys2Proof.Machine

/-! ## Unwinding (R131, R337, Table 17.11) -/

/-- The wave leaves its groups and windows; a path that waited at an instruction stands at it again. -/
def State.unwindWave (s : State) (k : Nat) : State :=
  let s := match s.groups.find? fun g => g.homes.any fun h => h.1 == k with
    | some g => s.dissolve g.close
    | none => s
  let s : State := { s with
    regroup := (s.regroup.map fun (r : RWindow) => { r with arrived := r.arrived.filter fun a => a.1 != k }).filter fun r =>
      !r.arrived.isEmpty }
  s.updWave k fun w =>
    let idle : Leaf → Leaf := fun l => if l.wait == .window then { l with wait := .idle } else l
    { w with slotA := w.slotA.map idle, slotB := w.slotB.map idle }

/-- An EAPP under way stops at a record boundary (R337). -/
def State.stopEapp (s : State) (k : Nat) : State := s.closeEapp k (BitVec.allOnes 32)

def State.unwindTeam (s : State) (t : Nat) : State := (s.teamWaves t).foldl State.unwindWave s

/-- The operation needs no more settling before the save: it has completed, is a copy whose remaining chunks become a
residual, or has its reply in a slot (Table 17.11). -/
def opSettled (o : Op) : Bool :=
  o.done ||
    match o.body with
    | .copy .. => true
    | .remote r => r.slotted
    | _ => false

/-- The team's outstanding work is settled. -/
def State.quiesced (s : State) (t : Nat) : Bool :=
  (s.teamWaves t).all fun k =>
    (s.ops.all fun o => o.2.wave != k || opSettled o.2) && !(s.queued k) && (s.wave k).mmt.isNone

/-! ## Residuals (R410) -/

/-- Chunks performed with their arrivals, as chunks already started are. -/
def State.performRuns (s : State) (o : Op) (word : Option (Nat × Place)) (rs : List Run) : State :=
  let chunks := rs.foldl (fun l r => if l.contains r.chunk then l else l ++ [r.chunk]) []
  chunks.foldl (fun s c =>
    let go := rs.filter fun r => r.chunk == c
    let data := s.chunkRead go
    let s := (s.raiseErrs o.wave (go.flatMap fun r => s.runErrs o r)).writeChunk data
    match word with
    | some w => s.arriveBy o.wave w.2 (go.foldl (fun n r => n + r.len) 0)
    | none => s) s

/-- One copy at the save: its tails are recorded while the wave's room of 62 lasts; what is left is performed. -/
def State.settleCopy (s : State) (k n : Nat) (o : Op) : State :=
  match o.body with
  | .copy word runs =>
    if o.done then s
    else
      let w := s.wave k
      let waits := w.residuals.any fun x => x.1 == n
      let tails := (copySegs runs).filterMap fun g =>
        ((residualsOf w.ixw word (runs.filter fun r => r.seg == g)).head?).map fun x => (g, x)
      let kept := tails.take (62 - w.residuals.length)
      let covered := kept.flatMap fun x => x.2.2
      let s := s.performRuns o word (runs.filter fun r => !(covered.contains r))
      let s := s.updWave k fun w => { w with residuals := w.residuals ++ kept.map fun x => (n, x.1, x.2.1) }
      let s := s.updOp n fun o => { o with body := .copy word [] }
      if kept.isEmpty && !waits then s.finishOp n o else s
  | _ => s

def State.settleCopies (s : State) (k : Nat) : State :=
  (s.ops.filter fun o => o.2.wave == k).foldl (fun s x => s.settleCopy k x.1 x.2) s

/-! ## Leaving and returning -/

/-- R411, R421: a team whose work is settled leaves its core: its block and its block record are written, and its room is
released. `swap` tells a team swap-out from a pre-emption. -/
def State.saveTeam (s : State) (t : Nat) (swap : Bool) : State :=
  let ks := s.teamWaves t
  let s := ks.foldl State.settleCopies s
  -- R207: but for a debugger, who is shown the stop, the image holds the handler's own trap registers
  let s := if swap && !(s.team t).starvedOut then s else ks.foldl (fun s k => s.updWave k Wave.dropNest) s
  let began := ks.any fun k => (s.wave k).started
  let rs := ks.flatMap fun k => (s.wave k).residuals.map fun x => x.2.2
  let s := if began then s.writeBlock t rs else s
  let s := if swap then
      match ks.head? with
      | some k => s.eventRecord k 5 0 0 0 0
      | none => s
    else s
  let s := s.blockRecord t (if swap then 2 else 1)
  let key := (s.team t).core
  let s := s.updTeam t fun m =>
    { m with placed := false, out := true, swapped := swap, swapReq := false, returning := !swap, spad := [], spadUpset := []
             outPhases := (m.bardPhase, m.barpPhase) }
  let idle : Leaf → Leaf := fun l => { l with wait := l.wait.rest }
  let s : State := { s with waves := s.waves.map fun _ (w : Wave) =>
      if w.team == t && w.cond != .ended then
        { w.cleanDirty with
          cond := .out, slot := none, moving := false, paddockA := false, paddockB := false, resv := [], slots := []
          slotA := w.slotA.map idle, slotB := w.slotB.map idle }
      else w }
  s.assignCore key

/-- R410: one residual is translated again and its chunks enter the engine; a failure is pending in the wave and the residual
waits. -/
def State.reissueOne (s : State) (k : Nat) (x : Nat × Nat × ResidualCmd) : State × Bool :=
  let c := x.2.2
  match (s.rangeFails k .gen .read c.src c.len ++ s.rangeFails k .gen .write c.dst c.len).head? with
  | some (code, a) => (s.updWave k fun w => { w with boundary := w.boundary ++ [(code, a)] }, false)
  | none =>
    let g : Seg := ⟨c.dst, c.src, c.len⟩
    let runs := s.segRuns k .gen x.2.1 (chunksOf g) (x.2.1 * 2 ^ 26) g
    let s := s.updOp x.1 fun o =>
      match o.body with
      | .copy word rs => { o with body := .copy (if c.word = 0 then none else s.copyWord k (BitVec.ofNat 64 c.word) |>.orElse fun _ => word) (rs ++ runs) }
      | _ => o
    (s.updWave k fun w => { w with residuals := w.residuals.erase x }, true)

def State.reissueAll (s : State) (k : Nat) : List (Nat × Nat × ResidualCmd) → State
  | [] => s
  | x :: r =>
    match s.reissueOne k x with
    | (s, true) => State.reissueAll s k r
    | (s, false) => s

/-- Residual commands that a debugger has added to a team's block, or given to another wave of it: each the tail of a copy of its wave,
counted once in C. DEDUCED, log 66. -/
def State.takeResiduals (s : State) (ks : List Nat) (cs : List ResidualCmd) : State :=
  cs.foldl (fun s c =>
    match ks.find? fun k => (s.wave k).ixw == c.ixw && (s.wave k).cond != .ended with
    | none => s
    | some k =>
      let n := s.nextId
      (s.pushOp ⟨k, BitVec.allOnes 32, s.coreOf k, .copy, false, false, [], false, .copy none [], false⟩).updWave k fun w =>
        { w with residuals := w.residuals ++ [(n, 0, c)] }) s

/-- A path of the wave waits for a fault to be answered, or is about to. -/
def Wave.faulting (w : Wave) : Bool :=
  (w.boundary.any fun b => systemCause b.1) ||
    (w.slotA.leaves ++ w.slotB.leaves).any fun l =>
      match l.wait with
      | .fault .. | .noEntry .. => true
      | _ => false

/-- R411: a filled slot is written to its destination; a failed one raises 0x40 at the first boundary. DEDUCED, log 65. -/
def State.applySlot (s : State) (k : Nat) (x : ReplySlot) : State :=
  s.updWave k fun w =>
    if x.failed then { w with boundary := w.boundary ++ [(0x40, x.dest)] }
    else
      match x.kind with
      | .register => (lanesOf (BitVec.ofNat 32 x.lanes)).foldl (fun w l =>
          w.setV x.dest l (BitVec.ofNat 32 (natOfBytes ((x.data.drop (4 * l)).take 4)))) w
      | .scratchpad | .arrival => w

/-- The operations of a wave whose replies stand in slots are over. -/
def State.finishSlotted (s : State) (k : Nat) : State :=
  s.ops.foldl (fun s x =>
    match x.2.body with
    | .remote r => if x.2.wave == k && r.slotted && !x.2.done then s.opDone x.1 else s
    | _ => s) s

/-- TCAUSE.SLOT. -/
def trapSlotOf (tcause : DWord) : Slot := if tcause.getLsbD 17 then .b else .a

/-- R421: a stopped path continues at TPC: where a debugger has changed the word that stood in the image, the path that stopped
there transfers to the header that it names. DEDUCED, log 66. -/
def Wave.continueAt (w : Wave) (old : DWord) (slot : Slot) : Wave :=
  if w.tpc = old then w
  else w.setTree slot ((w.tree slot).map fun l => if l.pc = old then l.jump w.tpc else l)

/-- R412: the team's scratchpad, trees, images, replies and residuals come back from the save area, with any change a
debugger has made there (R325 for its effect lists). An arrival whose phase has ended meanwhile is over (R382). A team that had not started starts afresh.
DEDUCED, log 71. -/
def State.restoreTeam (s : State) (t : Nat) : State :=
  let m := s.team t
  let r := (s.launch m.launch).recd
  let ks := s.teamWaves t
  let base := r.save + blockOff r (teamIdx r m.ixd m.ixc m.ixt)
  let get := fun (o n : Nat) => s.areaNat r.ctx (base + o) n
  let began := ks.any fun k => (s.wave k).started
  let rs := ks.flatMap fun k => (s.wave k).residuals
  -- Table 17.13: R_n, which a debugger may have changed, places what follows
  let rn := Nat.min (get 8 4) (62 * r.w)
  let spad0 := 64 + 4104 * r.hregs + 32 * rn
  let s' :=
    if began then
      let h := get 0 8
      let f := get 8 8
      let read := fun (s : State) (o n : Nat) => s.areaTouch r.ctx (n / 64 + 2) (base + o) n
      let s' := ks.foldl (fun s' k => read s' (imageOff r rn (s.wave k).ixw) (waveImage r)) (read s 0 (teamPart r rn))
      let s' := s'.updTeam t fun m =>
        { m with
          exited := bitsN h 47 32, barArr := bitsN h 63 48, bardIn := bitN f 32 && m.outPhases.1 == m.bardPhase
          barpIn := bitN f 33 && m.outPhases.2 == m.barpPhase
          trees := (List.range r.hregs).map fun k => (k, readTree get (64 + 4104 * k))
          spad := sparseOf 8 m.spadLen fun i => get (spad0 + i) 1
          dir := restoredDir m.dir m.effLen (get (spad0 + m.spadLen) m.effLen) }
      let cmd := fun (i : Nat) =>
        let o := 64 + 4104 * r.hregs + 32 * i
        (⟨get o 8, get (o + 8) 8, get (o + 16) 4, get (o + 20) 2, get (o + 24) 8⟩ : ResidualCmd)
      let all := rs.zip ((upto rn).map cmd)
      let fresh := (all.filter fun x => x.1.2.2.ixw == x.2.ixw).map fun x => (x.1.1, x.1.2.1, x.2)
      let moved := ((all.filter fun x => x.1.2.2.ixw != x.2.ixw).map Prod.snd) ++ ((upto rn).drop rs.length).map cmd
      let s' := ks.foldl (fun s' k =>
        if (s.wave k).cond == .ended then s'
        else
          let o := imageOff r rn (s.wave k).ixw
          let s' := s'.updWave k fun w =>
            let w' := { w.reload r fun a n => get (o + a) n with
              residuals := fresh.filter fun x => w.residuals.any fun y => y.1 == x.1 && y.2.1 == x.2.1 }
            if m.swapped && !m.starvedOut then (w'.continueAt w.tpc (trapSlotOf w.tcause)).dropNest else w'
          s'.rereadHeaders k) s'
      let s' := s'.takeResiduals ks moved
      let s' := rs.foldl (fun s' x => if fresh.any fun y => y.1 == x.1 then s' else s'.opDone x.1) s'
      ks.foldl (fun s' k =>
        let s' := ((s'.wave k).slots).foldl (fun s' x => s'.applySlot k x) s'
        let s' := (s'.updWave k fun w => { w with slots := [] }).finishSlotted k
        s'.reissueAll k (s'.wave k).residuals) s'
    else s
  let s' := s'.updTeam t fun m => { m with out := false, swapped := false, starvedOut := false }
  let s' := ks.foldl (fun s' k => (s'.moved ⟨k, .a⟩ 0).moved ⟨k, .b⟩ 0) s'
  if m.swapped then
    match ks.head? with
    | some k => s'.eventRecord k 6 0 0 0 0
    | none => s'
  else s'

/-- Residuals whose page had gone are tried again once the wave's fault has been answered. -/
def State.retryResiduals (s : State) (l : Nat) : State :=
  (s.launchWaves l).foldl (fun s k =>
    let w := s.wave k
    if w.residuals.isEmpty || (s.team w.team).out || w.faulting then s else s.reissueAll k w.residuals) s

/-- RESUME_RESTORE: every team of the launch that has taken its place again is restored before its waves issue. -/
def execResumeRestore (launch : Nat) (s : State) : Host.Outcome State Fault Refusal :=
  if (s.launch launch).st == 2 then
    let ts := (s.launchTeams launch).filter fun t => (s.team t).out && (s.team t).placed
    .next ((ts.foldl State.restoreTeam s).retryResiduals launch)
  else .next s

/-- A path of the team is stopped. -/
def State.someStopped (s : State) (t : Nat) : Bool :=
  (s.teamWaves t).any fun k => ((s.wave k).slotA.leaves ++ (s.wave k).slotB.leaves).any Leaf.stopped

/-- R421: a team all of whose paths are stopped is to be swapped out, when its launch has a save area. DEDUCED, log 70. -/
def State.swapStopped (s : State) (l : Nat) (which : Nat → Bool) : State :=
  if (s.launch l).recd.save = 0 then s
  else
    ((s.launchTeams l).filter fun t => (s.team t).placed && !(s.team t).out && which t).foldl
      (fun s t => s.updTeam t fun m => { m with swapReq := true, starvedOut := false }) s

/-- R421: a team whose last path that was not stopped has exited is to be swapped out too. -/
def State.askSwaps (s : State) (l : Nat) : State :=
  if (s.launch l).st == 2 then s.swapStopped l fun t => s.someStopped t && s.allStopped t else s

/-- PREEMPT_SAVE_COMPLETE: teams whose work is settled leave: one that is to be swapped out (R421, R31), or every team of a
launch that is pre-empted, which enters 0x04 with its last one. -/
def execPreemptSaveComplete (launch : Nat) (s : State) : Host.Outcome State Fault Refusal :=
  let pre := (s.launch launch).st == 3
  let s := s.askSwaps launch
  let due := fun (s : State) => (s.launchTeams launch).filter fun t => (s.team t).placed && !(s.team t).out && (pre || (s.team t).swapReq)
  let s := (due s).foldl (fun s t => (s.teamWaves t).foldl State.stopEapp (s.unwindTeam t)) s
  if pre then
    if (due s).all s.quiesced then
      let s := (due s).foldl (fun s t => s.saveTeam t false) s
      let s := { s with teams := s.teams.map fun _ (t : Team) =>
          if t.launch == launch && t.out && t.placed then { t with placed := false, returning := true } else t }
      .next ((s.writeHead launch).updLaunch launch fun x => { x with st := 4 })
    else .next s
  else .next (((due s).filter s.quiesced).foldl (fun s t => s.saveTeam t true) s)

/-! ## PRECTL (R407 to R412) -/

/-- R105, R319: the instruction ends the restartable prefix of an idempotent block. -/
def endsPrefix : Instr → Bool
  | .st _ | .sts _ | .stv _ | .atom _ | .atoms _ | .stcond .. | .cpy _ | .cpys _ | .cpyg .. | .arrv .. => true
  | .rput .. | .rputM .. | .rget .. | .ratom .. | .rred .. | .rarrv .. | .msta .. | .mmg .. | .mmts .. => true
  | .eapp .. | .hstl .. | .hbld .. | .hset .. | .hadd .. | .hcut .. | .hlenSet .. => true
  | _ => false

/-- The instruction words at positions `n` onward of the block whose header is at `h`, before position `stop`, literal words passed
over (R60): none ends the prefix. The first argument bounds the words. -/
def State.prefixFrom (s : State) (k : Nat) (h : DWord) (stop : Nat) : Nat → Nat → Bool
  | 0, _ => true
  | f + 1, n =>
    if n ≥ stop then true
    else
      match s.fetch k (h + BitVec.ofNat 64 (8 * n)) with
      | .error _ => true
      | .ok w =>
        (match decode w (some 0) with
          | .ok i => !(endsPrefix i)
          | .error _ => true) &&
        State.prefixFrom s k h stop f (if (Fields.unpack w).hasLiteral then n + 2 else n + 1)

/-- The path stands at an EAPP or an MMTS that has issued: it is under way, or has performed a record or a step before it was
interrupted (R337, R358). The instruction that ends the prefix has issued. -/
def State.enderRuns (s : State) (k : Nat) (slot : Slot) (l : Leaf) : Bool :=
  let w := s.wave k
  (s.eappOpen k l.mask).isSome || (w.mmt.any fun m => m.slot == slot && m.lanes &&& l.mask != 0 && m.store) ||
    match s.fetchInstr ⟨k, slot⟩ l with
    | .instr (.eapp ..) => w.apos != 0
    | .instr (.mmts _ _ _ d _) => w.sreg d.toNat != 0
    | _ => false

/-- The path has issued no instruction of its idempotent block that ends the prefix. -/
def State.inPrefix (s : State) (k : Nat) (slot : Slot) (l : Leaf) : Bool :=
  l.pos != 0 && (Header.ofWord l.hdr).idem && !(s.enderRuns k slot l) && s.prefixFrom k l.header l.pos l.pos 1

/-- R409: the path stands at its block's header again, and the loads that it issued since entering it are abandoned. -/
def State.rewind (s : State) (k : Nat) (l : Leaf) : State :=
  let isMine := fun (n : Nat) (o : Op) =>
    o.wave == k && o.path &&& ~~~l.mask == 0 && decide (l.entered ≤ n) && !o.done && o.body.isLoad
  let ids := (s.ops.filter fun x => isMine x.1 x.2).map Prod.fst
  let s := { s with ops := s.ops.keep fun n o => !(isMine n o) }
  let s := ids.foldl State.hbmDrop s
  let back := fun (x : Leaf) => if x == l then { x with pc := x.header, pos := 0, wait := .idle } else x
  s.updWave k fun w => { w with slotA := w.slotA.map back, slotB := w.slotB.map back }

def State.rewindWave (s : State) (k : Nat) : State :=
  let w := s.wave k
  let at_ := fun (q : Slot) => (w.tree q).leaves.filter (s.inPrefix k q)
  (at_ .a ++ at_ .b).foldl (fun s l => s.rewind k l) s

/-- R408: a running launch that has a save area is pre-empted. -/
def State.preempt (s : State) (id : Nat) : State :=
  match s.launchNamed id with
  | none => s
  | some l =>
    let x := s.launch l
    if x.st == 2 && x.recd.save != 0 && x.ostler.isNone then
      let s := s.updLaunch l fun x => { x with st := 3, preAt := s.cycle }
      let s := (s.launchTeams l).foldl State.unwindTeam s
      let ws := (s.launchWaves l).filter fun k => !(s.team (s.wave k).team).out
      let s := ws.foldl State.stopEapp (ws.foldl State.rewindWave s)
      ws.foldl (fun s k => s.updWave k fun w => { w with resv := [] }) s
    else s

/-- R412: a pre-empted launch enters the queue of its PRIO with a new entry cycle. -/
def State.resume (s : State) (id : Nat) : State :=
  match s.launchNamed id with
  | none => s
  | some l =>
    if (s.launch l).st == 4 then s.updLaunch l fun x => { x with st := 1, queue := x.recd.prio, enq := s.cycle } else s

/-- R412: the launch stops, its residuals and reply slots are discarded, and it completes with 0x24. DEDUCED, log 69. -/
def State.cancel (s : State) (id : Nat) : State :=
  match s.launchNamed id with
  | none => s
  | some l =>
    if (s.launch l).st < 5 then
      let ws := s.launchWaves l
      let drop := fun (o : Op) =>
        match o.body with
        | .copy _ _ => { o with body := .copy none [], done := true }
        | .remote r => if r.slotted then { o with done := true } else o
        | _ => o
      let s := { s with
        ops := retire (s.ops.map fun _ (o : Op) => if ws.contains o.wave then drop o else o)
        waves := s.waves.map fun k (w : Wave) => if ws.contains k then { w with residuals := [], slots := [] } else w }
      s.finishLaunch l 0x24
    else s

def execPrectlPreempt (id : Nat) (s : State) : Host.Outcome State Fault Refusal := .next (s.preempt id)

def execPrectlResume (id : Nat) (s : State) : Host.Outcome State Fault Refusal := .next (s.resume id)

def execPrectlCancel (id : Nat) (s : State) : Host.Outcome State Fault Refusal := .next (s.cancel id)

/-! ## DBGCTL (R419 to R421) -/

/-- R419: the resident launches of a context: running, or pre-empted and not saved yet. -/
def State.ctxLaunches (s : State) (ctx : Nat) : List Nat := (s.launches.keep fun _ x => x.recd.ctx == ctx && (x.st == 2 || x.st == 3)).keys

def State.ctxWaves (s : State) (ctx : Nat) : List Nat := (s.ctxLaunches ctx).flatMap s.launchWaves

/-- R420: every path of a wave makes a debug stop with TCAUSE.CODE 0x52. A path that waits at an instruction stops there.
Its starvation timer holds (R33). DEDUCED, log 70. -/
def State.stopWave (s : State) (k : Nat) : State :=
  let s := (s.unwindWave k).stopEapp k
  let w := s.wave k
  let a := w.slotA.indexed 0 0
  let b := w.slotB.indexed 1 a.2
  let stop := fun (slot : Slot) (s : State) (x : Leaf × Nat) =>
    if x.1.stopped then s
    else
      (s.updWave k fun w =>
        (if w.hin && w.trapSlot.isSome then w.keepTrap else w).saveTrap slot x.1 0x52 x.1.mask 0 false false).eventRecord k 1 x.2 x.1.mask 0x52 x.1.pc
  let s := b.1.foldl (stop .b) (a.1.foldl (stop .a) s)
  let mark := fun (l : Leaf) => { l with stopped := true, wait := l.wait.rest }
  s.updWave k fun w =>
    { w with
      slotA := w.slotA.map mark, slotB := w.slotB.map mark
      mmt := w.mmt.map fun m => { m with stop := true } }

/-- R420, R421: STOP reaches a team that has left its core: its paths are stopped, the images in the save area show it, and until RESUME
it stays out as a team does that STOP has swapped out. DEDUCED, log 70. -/
def State.stopOut (s : State) (t : Nat) : State :=
  let m := s.team t
  let r := (s.launch m.launch).recd
  let base := r.save + blockOff r (teamIdx r m.ixd m.ixc m.ixt)
  let ks := (s.teamWaves t).filter fun k => (s.wave k).cond == .out
  let s := ks.foldl (fun s k =>
    let s := s.stopWave k
    let w := s.wave k
    if w.started then
      s.put r.ctx (base + imageOff r (s.areaNat r.ctx (base + 8) 4) w.ixw + 8)
        (bytesLE 8 w.tcause.toNat ++ bytesLE 8 w.tpc.toNat ++ bytesLE 8 w.tval.toNat)
    else s) s
  if m.placed then s else s.updTeam t fun m => { m with swapped := true, starvedOut := false, returning := false }

/-- R420. -/
def State.dbgStop (s : State) (ctx : Nat) : State :=
  let ws := (s.ctxWaves ctx).filter fun k => (s.wave k).cond != .ended && (s.wave k).cond != .out
  let s := (s.ctxLaunches ctx).foldl State.cancelStarved (ws.foldl State.stopWave s)
  let s := (((s.ctxLaunches ctx).flatMap s.launchTeams).filter fun t => (s.team t).out).foldl State.stopOut s
  (s.ctxLaunches ctx).foldl (fun s l => s.swapStopped l s.allStopped) s

/-- DEDUCED, log 66. -/
def State.dbgResume (s : State) (ctx : Nat) : State :=
  let ws := s.ctxWaves ctx
  let go := fun (l : Leaf) => { l with stopped := false }
  let s := { s with
    waves := s.waves.map fun k (w : Wave) =>
      if ws.contains k then
        let w := { w with slotA := w.slotA.map go, slotB := w.slotB.map go }
        if w.cond == .out || w.faulting then w else w.dropNest
      else w
    teams := s.teams.map fun _ (t : Team) =>
      if (s.ctxLaunches ctx).contains t.launch && !t.starvedOut then
        { t with swapReq := false, returning := t.returning || (t.out && t.swapped) }
      else t }
  (ws.filter fun k => (s.wave k).cond != .out).foldl (fun s k => (s.moved ⟨k, .a⟩ 0).moved ⟨k, .b⟩ 0) s

def State.dbgSwap (s : State) (ctx : Nat) : State :=
  (s.ctxLaunches ctx).foldl (fun s l => s.swapStopped l s.someStopped) s

def execDbgctlStop (ctx : Nat) (s : State) : Host.Outcome State Fault Refusal := .next (s.dbgStop ctx)

def execDbgctlResume (ctx : Nat) (s : State) : Host.Outcome State Fault Refusal := .next (s.dbgResume ctx)

def execDbgctlSwap (ctx : Nat) (s : State) : Host.Outcome State Fault Refusal := .next (s.dbgSwap ctx)

end Sys2Proof.Machine
end

