-- ==== Sys2Proof/Machine/Csr.lean ====
section
/-!
DEFINITION. CSRR and CSRW (spec/17_package.md R405, Table 17.8) with every CSR's field map: Tables 1.6, 1.7, 5.3, 5.5, 7.6 to 7.9, 8.3,
8.6, 9.2, 10.4, 10.6, 10.7, 14.2, 14.3, 16.2, 16.4, 16.5, 16.8, 16.9, 16.11, 17.9, 19.1 to 19.16 and 20.1 to 20.12.
-/

namespace Sys2Proof.Machine

/-- One bit for each number below `n` that satisfies `f`. -/
def bitsWhere (n : Nat) (f : Nat → Bool) : Nat := (upto n).foldl (fun x k => if f k then x + 2 ^ k else x) 0

/-! ## Reading -/

/-- Table 16.9: the items of the wave's die group; 0 outside a phased launch. DEDUCED, log 94. -/
def State.drange (s : State) (w : Nat) : Nat :=
  let x := s.launch (s.launchNo w)
  if x.recd.phased then
    let r := itemRange x.recd.n (nth 0 x.recd.scheds x.sched) (s.team (s.wave w).team).ixd
    r.1 * 2 ^ 32 + r.2
  else 0

def coreStateNo : CoreState → Nat
  | .active => 0
  | .draining => 1
  | .repartitioning => 2
  | .fenced => 3

/-- Table 8.6. -/
def State.corecfg (s : State) (w : Nat) : Nat :=
  let c := s.core (s.coreOf w)
  (s.team (s.wave w).team).lcore * 2 ^ 16 + (if s.privileged w then coreStateNo c.st * 2 ^ 14 else 0) + c.split.spad * 2 ^ 8 +
    c.split.l1 * 2 ^ 4 + c.split.stbl

/-- Table 16.11. -/
def State.diecfg (s : State) (d : Nat) : Nat :=
  let x := s.die d
  nth 0 x.ch 3 * 2 ^ 56 + nth 0 x.ch 2 * 2 ^ 50 + nth 0 x.ch 1 * 2 ^ 44 + nth 0 x.ch 0 * 2 ^ 38 +
    Nat.min x.vbret.length 511 * 2 ^ 29 + coresLive (shownRetired s.tables) d * 2 ^ 22

/-- Table 16.2. -/
def Die.hbmctl (x : Die) : Nat := x.cethr * 2 ^ 24 + x.bistint * 2 ^ 16 + x.scrub * 2 ^ 8 + x.fadep

/-- R445: these three read zero while EN is 0; in the bootstrap calendar only SLOT reads otherwise. DEDUCED, log 93. -/
def Cal.slotCsr (c : Cal) : Nat :=
  if !c.en then 0
  else
    match c.phase with
    | .off => 0
    | .boot => 2 ^ 63 + c.slotNow
    | .data => c.cycleNo % 2 ^ 16 * 2 ^ 32 + c.slotNow

def Cal.cycleCsr (c : Cal) : Nat := if c.en && inDataPhase c then c.cycleNo % 2 ^ 48 else 0

def Cal.ftimeCsr (c : Cal) : Nat := if c.en && inDataPhase c then c.ns else 0

def Cal.calnCsr (c : Cal) : Nat := (if c.en then 2 ^ 63 else 0) + c.index * 2 ^ 32 + c.n

def Cal.calpCsr (c : Cal) : Nat := c.portCount * 2 ^ 16 + c.psel.toNat

/-- Table 20.3; no shape until N and the ports are set. DEDUCED, log 93. -/
def Cal.calsCsr (c : Cal) : Nat :=
  if c.portCount = 0 || c.n = 0 then 0 else (c.slots * c.portCount - (c.nEven - 1)) * 2 ^ 16 + c.slots

/-- Table 20.12. -/
def State.driftCsr (s : State) : Nat :=
  bitsWhere 16 (fun n => (s.port n).fenced) * 2 ^ 48 + s.cal.silent * 2 ^ 32 + s.cal.worst % 2 ^ 32

/-- Table 19.9. -/
def State.pkgcfg (s : State) : Nat :=
  let live := fun (n : Nat) => (s.port n).live || (s.tables.contains (.port n) && !((shownRetired s.tables).contains (.port n)))
  bitsWhere 16 live * 2 ^ 48 + bitsWhere 16 (fun n => live n && (s.port n).w8) * 2 ^ 32 +
    if s.oos then 1 else 0

/-- What CSRR reads in one wave (R405): the whole 64-bit CSR under the wave's view. DEDUCED, log 94. -/
def State.csrRead (s : State) (e : Env) (n : Nat) : DWord :=
  let w := s.wave e.wave
  let t := s.team w.team
  let ctx := s.ctxOf e.wave
  let l := s.launch (s.launchNo e.wave)
  let priv := s.privileged e.wave
  let pro := fun (x : Nat) => if priv then x else 0
  BitVec.ofNat 64 <|
    match n with
    | 0x000 => e.leaf.mask.toNat
    | 0x001 => s.wstat e.wave
    | 0x002 => w.starvc
    | 0x003 => w.tcause.toNat
    | 0x004 => w.tpc.toNat
    | 0x005 => w.tval.toNat
    | 0x006 => s.ecoll e.wave
    | 0x007 => w.mxkoff.toNat
    | 0x008 => w.mxscl.toNat
    | 0x009 => w.mxval
    | 0x010 => w.ixw
    | 0x011 => t.ixt
    | 0x012 => t.ixc
    | 0x013 => t.ixd
    | 0x014 => l.recd.ixg
    | 0x018 => t.effLen * 2 ^ 32 + t.spadLen
    | 0x019 => s.blocksFree w.team * 2 ^ 32 + t.effLen
    | 0x01A => t.die * 2 ^ 29 + t.lcore / 8 * 2 ^ 26
    | 0x020 => ctx.limit
    | 0x021 => ctx.rgwin * 2 ^ 32 + ctx.mthr * 2 ^ 22 + ctx.fair
    | 0x022 => ctx.thr
    | 0x023 => ctx.ctxvec.toNat
    | 0x024 => ctx.ptroot.toNat
    | 0x028 => l.phase % 2 ^ 16 * 2 ^ 48 + l.sched * 2 ^ 40
    | 0x029 => s.drange e.wave
    | 0x02A => s.launchId (s.launchNo e.wave)
    | 0x030 => s.corecfg e.wave
    | 0x031 => s.diecfg t.die
    | 0x032 => (s.die t.die).hbmctl
    | 0x040 => s.cal.slotCsr
    | 0x041 => s.cal.cycleCsr
    | 0x042 => s.cal.ftimeCsr
    | 0x043 => s.cal.calnCsr
    | 0x044 => s.cal.calpCsr
    | 0x045 => s.cal.calsCsr
    | 0x046 => s.cal.slotlen
    | 0x047 => s.cal.guard
    | 0x048 => s.driftCsr
    | 0x060 => pro ((if ctx.stepOn then 2 else 0) + if ctx.att then 1 else 0)
    | 0x061 => (nth 0 ctx.wp 0).toNat
    | 0x062 => (nth 0 ctx.wp 1).toNat
    | 0x063 => (nth 0 ctx.wp 2).toNat
    | 0x064 => (nth 0 ctx.wp 3).toNat
    | 0x065 => ctx.trbuf.toNat
    | 0x066 => ctx.mbuf.toNat
    | 0x067 => ctx.blkCount * 2 ^ 32 + ctx.evCount
    | 0x068 => pro s.mclogBase
    | 0x069 => pro s.mccnt
    | 0x078 => s.pkgcfg
    | 0x079 => s.pwr * 2 ^ 48 + s.tmax * 2 ^ 40 + s.level
    | 0x07A => s.plim
    -- STALLC0 to STALLC7; PRECTL and every other number read zero
    | n => if 0x06A ≤ n && n ≤ 0x071 then
        nth 0 w.stallc (2 * (n - 0x06A)) + nth 0 w.stallc (2 * (n - 0x06A) + 1) * 2 ^ 32
      else 0

/-- R281, Table 10.7: a read of MXVAL waits for the wave's in-flight bits. -/
def Wave.anyInflight (w : Wave) : Bool := (w.tstat.any fun x => x.2.inflight) || w.acc.any fun x => x.2.inflight

def execCsrr (g : Guard) (d : SReg) (n : BitVec 16) (s : State) : Host.Outcome State Fault Refusal :=
  let i := Instr.csrr g d n
  issueWith i g false noCause (fun e s => if n = 0x009 && (s.wave e.wave).anyInflight then some 1 else none)
    (seqAct i fun e s => s.updWave e.wave fun w => w.setS d.toNat (s.csrRead e n.toNat)) noCause s

/-! ## Writing -/

/-- Bits `hi` to `lo` of a word, in place. -/
def keepBits (v : DWord) (hi lo : Nat) : DWord := BitVec.ofNat 64 (bitsN v.toNat hi lo * 2 ^ lo)

/-- Table 19.1: ATT and STEP, then the requests. DEDUCED, log 96. -/
def State.dbgctlWrite (s : State) (ctx : Nat) (v : DWord) : State :=
  let s := s.updCtx ctx fun x => { x with stepOn := v.getLsbD 1, att := if x.conf then x.att && v.getLsbD 0 else v.getLsbD 0 }
  let s := if v.getLsbD 2 then s.dbgStop ctx else s
  let s := if v.getLsbD 3 then s.dbgResume ctx else s
  if v.getLsbD 4 then s.dbgSwap ctx else s

/-- Table 17.9. -/
def State.prectlWrite (s : State) (v : DWord) : State :=
  let id := bitsN v.toNat 31 0
  match bitsN v.toNat 63 62 with
  | 1 => s.preempt id
  | 2 => s.resume id
  | 3 => s.cancel id
  | _ => s

/-- Table 20.1, R438. DEDUCED, log 95. -/
def State.calnWrite (s : State) (v : DWord) : State :=
  if s.cal.en then if v.getLsbD 63 then s else s.calnDisable
  else
    let s := { s with cal := { s.cal with index := bitsN v.toNat 42 32, n := bitsN v.toNat 10 0 } }
    if v.getLsbD 63 then s.calnEnable else s

/-- A write of a CSR that only the privileged view may write. -/
def State.csrWritePriv (s : State) (e : Env) (n : Nat) (v : DWord) : State :=
  let ctx := s.ctxNo e.wave
  let die := (s.team (s.wave e.wave).team).die
  let x := v.toNat
  let cal := fun (f : Cal → Cal) => if s.cal.en then s else { s with cal := f s.cal }
  match n with
  | 0x003 => s.updWave e.wave fun w =>
      { w with tcause := keepBits v 63 32 ||| keepBits v 19 16 ||| keepBits v 7 0 }
  | 0x005 => s.updWave e.wave fun w => { w with tval := v }
  | 0x020 => s.updCtx ctx fun c => { c with limit := bitsN x 31 0 }
  | 0x021 => s.updCtx ctx fun c => { c with rgwin := bitsN x 39 32, mthr := bitsN x 26 22, fair := bitsN x 21 0 }
  | 0x022 => s.updCtx ctx fun c => { c with thr := bitsN x 19 0 }
  | 0x023 => s.updCtx ctx fun c => { c with ctxvec := keepBits v 63 3 }
  | 0x024 => s.updCtx ctx fun c => { c with ptroot := keepBits v 45 16 }
  | 0x02B => s.prectlWrite v
  | 0x032 => s.updDie die fun d => { d with cethr := bitsN x 31 24, bistint := bitsN x 23 16, scrub := bitsN x 15 8, fadep := bitsN x 4 0 }
  | 0x043 => s.calnWrite v
  | 0x044 => cal fun c => { c with psel := BitVec.ofNat 16 x }
  | 0x046 => cal fun c => { c with slotlen := bitsN x 12 0 }
  | 0x047 => cal fun c => { c with guard := bitsN x 6 0 }
  | 0x060 => s.dbgctlWrite ctx v
  | 0x061 => s.updCtx ctx fun c => { c with wp := setIdx c.wp 0 (keepBits v 63 62 ||| keepBits v 55 6) }
  | 0x062 => s.updCtx ctx fun c => { c with wp := setIdx c.wp 1 (keepBits v 63 62 ||| keepBits v 55 6) }
  | 0x063 => s.updCtx ctx fun c => { c with wp := setIdx c.wp 2 (keepBits v 63 62 ||| keepBits v 55 6) }
  | 0x064 => s.updCtx ctx fun c => { c with wp := setIdx c.wp 3 (keepBits v 63 62 ||| keepBits v 55 6) }
  | 0x065 => s.updCtx ctx fun c => { c with trbuf := keepBits v 59 56 ||| keepBits v 55 12 }
  | 0x066 => s.updCtx ctx fun c => { c with mbuf := keepBits v 59 56 ||| keepBits v 55 12 }
  | 0x07A => { s with plim := bitsN x 11 0 }
  | _ => s

/-- What CSRW writes in one wave: the RW fields from either view, the others from the privileged one. -/
def State.csrWrite (s : State) (e : Env) (n : Nat) (v : DWord) : State :=
  match n with
  -- Table 7.7
  | 0x004 =>
    if s.privileged e.wave || (s.wave e.wave).hin then s.updWave e.wave fun w => { w with tpc := v, tpcWritten := true } else s
  | 0x007 => s.updWave e.wave fun w => { w with mxkoff := v }
  | 0x008 => s.updWave e.wave fun w => { w with mxscl := v }
  | 0x019 => s.eareaWrite (s.wave e.wave).team v
  | n => if s.privileged e.wave then s.csrWritePriv e n v else s

/-- CSRW. The path has moved on when the write takes effect, so that a stop or a pre-emption finds it at the next word. -/
def execCsrw (g : Guard) (a : SReg) (n : BitVec 16) (s : State) : Host.Outcome State Fault Refusal :=
  let i := Instr.csrw g a n
  issueWith i g false noCause noWait
    (fun p envs s => (envs.map fun e => (e, (s.wave e.wave).sreg a.toNat)).foldl (fun s x => s.csrWrite x.1 n.toNat x.2) (s.advance p i))
    noCause s

end Sys2Proof.Machine
end

