-- ==== Sys2Proof/Machine/Macro.lean ====
section
/-!
DEFINITION. The tile macro MMT and MMTS and its steps (spec/15_cluster.md R352 to R360).
-/

namespace Sys2Proof.Machine

/-! ## The descriptor (Table 15.4) -/

structure MDesc where
  abase : Nat
  bbase : Nat
  cpitch : Nat
  apitch : Nat
  nk : Nat
  cbase : Nat
  deriving DecidableEq, Repr

def MDesc.of (d : List DWord) : MDesc :=
  let f := fun (i hi lo : Nat) => bitsN (nth (0 : DWord) d i).toNat hi lo
  ⟨f 0 63 0, f 1 63 0, f 2 63 40, f 2 39 16, f 2 15 0, f 3 63 0⟩

/-- R354: the number of steps. -/
def MDesc.steps (d : MDesc) (store : Bool) : Nat := d.nk + 1 + if store then 8 else 0

/-- R356: the spans of a whole row, and the scale addresses of row `m`, span `s`. -/
def MDesc.spans (d : MDesc) (k : Pair) : Nat := (d.nk * kPer k + 127) / 128

def MDesc.scales (d : MDesc) (k : Pair) (mxscl : DWord) (m s : Nat) : Nat × Nat :=
  ((scaleBases mxscl).1 + (m * d.spans k + s) * 4, (scaleBases mxscl).2 + s * 4)

/-! ## Checks (R355) -/

/-- R355: the causes of a device range, page by page as for copies; a window address has no translation. -/
def devRangeCauses (e : Env) (s : State) (want : Want) (a len : Nat) : List Cause :=
  let fails := (rangePages a len).filterMap fun p =>
    if inWindows p.1 then some (0x30, p.1)
    else ((s.addrAccess e.wave .gen want p.1 (s.draw 0)).1.head?).map fun c => (c, p.1)
  (firstOfEach fails).map fun f => whole e f.1 f.2

/-- The first byte of an A row that is outside the vault window or in a retired bank. -/
def State.vaultRangeFail (s : State) (a len : Nat) : Option Nat :=
  if len = 0 then none
  else if a < vaultBase then some a
  else
    let gone := (upto ((a % 2 ^ 20 + len - 1) / 2 ^ 20 + 1)).filterMap fun i =>
      let x := if i = 0 then a else (a / 2 ^ 20 + i) * 2 ^ 20
      if x ≥ vaultBase + vaultSize || s.vaultRetired (x - vaultBase) then some x else none
    gone.head?

def macroVaultCauses (e : Env) (s : State) (d : MDesc) : List Cause :=
  match (upto 256).findSome? fun m => s.vaultRangeFail (d.abase + m * d.apitch) (192 * d.nk) with
  | some x => [whole e 0x34 x]
  | none => []

/-- The misaligned fields of R355, each with the first address that it misaligns. MMT ignores CBASE (Table 15.4). -/
def macroAlign (d : MDesc) (store : Bool) : List Nat :=
  (if d.bbase % 16 != 0 then [d.bbase] else []) ++ (if d.apitch % 16 != 0 then [d.abase + d.apitch] else []) ++
    (if store && d.cbase % 16 != 0 then [d.cbase] else []) ++ (if d.cpitch % 16 != 0 then [d.cbase + d.cpitch] else [])

def macroScaleCauses (e : Env) (s : State) (d : MDesc) (k : Pair) (mxscl : DWord) : List Cause :=
  let b := scaleBases mxscl
  let n := d.spans k
  spadCauses e (alignFails 4 b.1 ++ alignFails 4 b.2 ++ rangeBounds e s b.1 (256 * n * 4) ++ rangeBounds e s b.2 (n * 4))

/-- The checks of MMT and MMTS in one wave. -/
def macroCauses (e : Env) (s : State) (store : Bool) (k : Pair) (sc : Bool) (prog : SReg) (desc : SReg) : List Cause :=
  let w := s.wave e.wave
  let d := MDesc.of ((upto 4).map fun i => w.sreg (desc.toNat + i))
  groupCause e s ++ devRangeCauses e s .read d.bbase (6144 * d.nk) ++
    (if store then (upto 256).flatMap fun r => devRangeCauses e s .write (d.cbase + r * d.cpitch) 128 else []) ++
    (match macroAlign d store with | [] => [] | x :: _ => [whole e 0x32 x]) ++
    (if sc then macroScaleCauses e s d k w.mxscl else []) ++ macroVaultCauses e s d ++
    (if store then s.collectCause e else []) ++
    (if (w.sreg prog.toNat).toNat % 2 ^ 32 ≥ 1 then (upto 8).flatMap fun a => accCause e a (wantsInt k sc) s else [])

/-! ## Issue -/

def Wave.flyAll (w : Wave) (b : Bool) (left : List MEntry) : Wave :=
  (upto 8).foldl (fun w a => if !b && left.any fun m => m.body.accWritten == some a then w else w.flyAcc a b) w

/-- MMT, MMTS: the macro starts from the step that sD names, or is already past its last step. -/
def macroOp (i : Instr) (g : Guard) (store : Bool) (k : Pair) (sc : Bool) (prog desc : SReg) (s : State) :
    Host.Outcome State Fault Refusal :=
  issueWith i g false (fun e s => macroCauses e s store k sc prog desc) noWait
    (fun p envs s =>
      match envs.head? with
      | none => s
      | some e =>
        let w := s.wave e.wave
        let ds := (upto 4).map fun j => w.sreg (desc.toNat + j)
        let n := (w.sreg prog.toNat).toNat % 2 ^ 32
        let steps := (MDesc.of ds).steps store
        if n ≥ steps then (s.updWave e.wave fun w => w.setS prog.toNat 0).advance p i
        else s.updWave e.wave fun w =>
          { w with mmt := some ⟨p.slot, e.leaf.mask, store, k, sc, prog.toNat, ds, w.mxscl, n, steps, false⟩ }.flyAll true [])
    noCause s

def execMmt (g : Guard) (k : Pair) (sc : Bool) (d a : SReg) (s : State) : Host.Outcome State Fault Refusal :=
  macroOp (.mmt g k sc d a) g false k sc d a s

def execMmts (g : Guard) (k : Pair) (sc : Bool) (d a : SReg) (s : State) : Host.Outcome State Fault Refusal :=
  macroOp (.mmts g k sc d a) g true k sc d a s

/-! ## MMT_STEP (R356 to R358) -/

/-- The place of a device byte the macro names; `none` when its page is gone. -/
def State.macroPlace (s : State) (w : Nat) (want : Want) (a : Nat) : Option Place :=
  if inWindows a then none
  else
    match s.addrAccess w .gen want a (s.draw 0) with
    | ([], p) => some p
    | _ => none

/-- The places of `n` consecutive bytes, 16 at a time: a page boundary is never inside. -/
def State.macroPlaces (s : State) (w : Nat) (want : Want) : Nat → Nat → Option (List Place)
  | 0, _ => some []
  | n + 1, a =>
    match s.macroPlace w want a, State.macroPlaces s w want n (a + 16) with
    | some p, some r => some (p :: r)
    | _, _ => none

/-- Adjacent pieces become one write, so that a line written whole loses its poison (Table 16.1). -/
def joinWrites : List (Place × List Byte) → List (Place × List Byte)
  | [] => []
  | (p, b) :: r =>
    match joinWrites r with
    | [] => [(p, b)]
    | (q, c) :: t => if p.at_ b.length = q then (p, b ++ c) :: t else (p, b) :: (q, c) :: t

/-- What a step makes: the wave after it, its writes and the device places it read, or an error that it met, or that a page is
gone, or that it has to wait. -/
inductive MStep where
  | done (w : Wave) (fl : Fl) (writes : List (Place × List Byte)) (read : List Place)
  | waits
  | failed (e : ReadErr)
  | gone
  deriving DecidableEq, Repr

/-- R356: the scales of one row and span, as bits. -/
def State.macroScale (s : State) (t : Nat) (d : MDesc) (k : Pair) (mxscl : DWord) (m f : Nat) : Nat × Nat :=
  let x := d.scales k mxscl m f
  (s.spadWord t x.1, s.spadWord t x.2)

/-- The vault words of A that K step `k` reads. -/
def MDesc.aWords (d : MDesc) (k : Nat) : List Place :=
  (upto 256).flatMap fun m => (upto 24).map fun j => ⟨.vault, d.abase + m * d.apitch + 192 * k + 8 * j - vaultBase, 0, false⟩

/-- The scale words that the folds of a step read. -/
def Wave.macroScales (w : Wave) (m : Macro) (d : MDesc) : List Nat :=
  let both := fun (i q f : Nat) => (quarterRows q).flatMap fun r => let x := d.scales m.kind m.mxscl (32 * i + r) f; [x.1, x.2]
  if !m.sc || m.step = 0 then []
  else if m.step ≤ d.nk then
    (upto 8).flatMap fun i => (upto 4).flatMap fun q =>
      let t := (w.accTag i).chain
      (foldsFrom (nth 0 t.spanPos q) (nth 0 t.spanIdx q) (kPer m.kind)).flatMap (both i q)
  else
    let i := m.step - 1 - d.nk
    let t := w.accTag i
    t.openQuarters.flatMap fun q => both i q (nth 0 t.spanIdx q)

/-- The errors that a step meets: a poisoned line of B, a vault word of A, a scale word (R358). -/
def State.macroErrs (s : State) (w : Nat) (m : Macro) (d : MDesc) (img : List Place) : List ReadErr :=
  let t := (s.wave w).team
  (img.filterMap fun p => if s.poisoned p then s.errAt w p else none) ++
    (if img.isEmpty || s.dies.all fun x => x.2.vaultUpset.isEmpty then []
    else (d.aWords (m.step - 1)).filterMap fun p => (s.errAt w p).orElse fun _ => s.errAt w (p.at_ 7)) ++
    (if (s.team t).spadUpset.isEmpty then []
    else ((s.wave w).macroScales m d).filterMap fun o => s.errAt w ⟨.spad t, o, 0, false⟩)

/-- R358, R226: the accumulators that a step reads. -/
def Macro.readsAcc (m : Macro) (a : Nat) : Bool :=
  let d := MDesc.of m.desc
  decide (m.step ≠ 0) && (decide (m.step ≤ d.nk) || decide (a = m.step - 1 - d.nk)) && decide (a < 8)

/-- R258: an own older store, not yet performed, writes bytes that K step `k` reads. DESIGN CHOICE, log 138. -/
def State.macroBlocked (s : State) (w : Nat) (m : Macro) (img : List Place) : Bool :=
  let d := MDesc.of m.desc
  s.ops.any fun (_, o) => o.wave == w && !o.done && (o.body.stores.map (fun x => (x.1, x.2.1)) ++
      (if o.body.isLoad then [] else o.body.others)).any fun q =>
    (img.any fun p => overlaps q (p, 16)) || (q.1.tier == .vault && (d.aWords (m.step - 1)).any fun p => overlaps q (p, 8))

/-- K step `k` over accumulator `i`, quarter by quarter. -/
def State.macroMul (s : State) (m : Macro) (d : MDesc) (team k i : Nat) (cols : List (List MElem)) (x : Wave × Fl) : Wave × Fl :=
  (upto 4).foldl (fun x q =>
    let rows := (quarterRows q).map fun r =>
      let o := d.abase + (32 * i + r) * d.apitch + 192 * k - vaultBase
      (upto (kPer m.kind)).map fun j => elemOf m.kind (elemBits m.kind (fun b => s.vault.byte (o + b)) j)
    let r := x.1.quarterMul m.kind m.sc i q rows cols fun r f => s.macroScale team d m.kind m.mxscl (32 * i + r) f
    (r.1, x.2 ||| r.2)) x

/-- The step that the macro stands at. DEDUCED, log 55. -/
def State.macroStep (s : State) (w : Nat) (m : Macro) : MStep :=
  let d := MDesc.of m.desc
  let x := s.wave w
  let t := x.team
  if m.step = 0 then
    .done ((upto 8).foldl (fun w a => w.zeroAcc a (wantsInt m.kind m.sc)) x) 0 [] []
  else if m.step ≤ d.nk then
    let k := m.step - 1
    match s.macroPlaces w .read 384 (d.bbase + 6144 * k) with
    | none => .gone
    | some img =>
      if s.macroBlocked w m img then .waits
      else match s.macroErrs w m d img with
      | e :: _ => .failed e
      | [] =>
        let bytes := img.flatMap fun p => s.placeBytes p 16
        let cols := imageCols m.kind fun j => nth 0 bytes j
        let r := (upto 8).foldl (fun x i => s.macroMul m d t k i cols x) (x, 0)
        .done ((upto 8).foldl (fun w a => w.wrote (.a a) [0, 1, 2, 3]) r.1) r.2 [] img
  else
    let i := m.step - 1 - d.nk
    match s.macroErrs w m d [] with
    | e :: _ => .failed e
    | [] =>
    let r := x.foldOpen i fun row f => s.macroScale t d m.kind m.mxscl (32 * i + row) f
    let rows := (upto 32).map fun j =>
      (s.macroPlaces w .write 8 (d.cbase + (32 * i + j) * d.cpitch)).map fun ps =>
        ps.zipIdx.map fun (p, c) => (p, (upto 4).flatMap fun y => bytesLE 4 (r.1.accWord i j (4 * c + y)).toNat)
    if rows.any Option.isNone then .gone
    else .done r.1 r.2 ((rows.filterMap id).flatMap joinWrites) []

/-- The macro is over for now: sD names the next step, and the accumulators have landed. -/
def State.macroEnd (s : State) (w : Nat) (dst prog : Nat) : State :=
  let left := (s.mqOfWave w).filter fun m => m.wave == w
  s.updWave w fun x => ({ x with mmt := none }.flyAll false left).setS dst (BitVec.ofNat 64 prog)

/-- R358: what asks a macro to stop at its next step end, `stop` apart. -/
def State.macroStop (s : State) (w : Nat) (m : Macro) : Bool :=
  let x := s.wave w
  m.stop || !x.boundary.isEmpty || (s.team x.team).swapReq || (s.launch (s.launchNo w)).st == 3

/-- MMT_STEP: one step ends, and with it the instruction when it was the last, or when a stop has been asked for. A path that
a pre-emption has put back to its block's header (R409) stays there, and one that the fairness timer has descheduled moves on where it
stands in its slot (R123).
DEDUCED, log 55. -/
def execMmtStep (p : PathRef) (stop : Bool) (s : State) : Host.Outcome State Fault Refusal :=
  let w := s.wave p.wave
  match w.mmt with
  | none => .next s
  | some m =>
    if m.slot != p.slot || w.cond != .resident then .next s
    else
      if w.upset.any fun u => match u.1 with | .a a => m.readsAcc a | _ => false then
        .next ((s.checkRegs p.wave fun r => match r with | .a a => m.readsAcc a | _ => false).macroEnd p.wave m.dst m.step)
      else match s.macroStep p.wave m with
      | .waits => .next s
      | .gone => .next (s.macroEnd p.wave m.dst m.step)
      | .failed e => .next ((s.raiseErrs p.wave [e]).macroEnd p.wave m.dst m.step)
      | .done x fl writes read =>
        let s := read.foldl (fun s p => s.touch p 16) s
        let s := s.updWave p.wave fun _ => x.orFlags fl
        let s := writes.foldl (fun s c => s.homeWrite c.1 c.2) s
        let s := { s with free := s.free + 1 }
        let n := m.step + 1
        if n ≥ m.steps then
          let k := s.place p
          let s := (s.macroEnd p.wave m.dst 0).updWave p.wave fun w => w.setTree p.slot ((w.tree p.slot).map fun l =>
            if l.mask &&& m.lanes = 0 || l.pos = 0 then l
            else { l.advance 1 with wait := if isRunning l || !(s.stepDue p (.nop Guard.always)) then l.wait else .stepped })
          if runMask ((s.wave p.wave).tree p.slot) &&& m.lanes = 0 then .next (s.moved p k)
          else .next (s.finishIssue p k (.nop Guard.always) [])
        else if stop || s.macroStop p.wave m then .next (s.macroEnd p.wave m.dst n)
        else .next (s.updWave p.wave fun w => { w with mmt := some { m with step := n } })

end Sys2Proof.Machine
end

