-- ==== Sys2Proof/Machine/Power.lean ====
section
/-!
DEFINITION. Throttling and thermal reset (spec/19_observation_and_service.md R435), device reset (spec/17_package.md R394, spec/16_die.md
R362, R383, R384, R432) and the loss of power (R432).
-/

namespace Sys2Proof.Machine

/-! ## THROTTLE_TICK -/

/-- Table 19.10: the power limit as it acts. DEDUCED, log 95. -/
def State.plimActs (s : State) : Nat := Nat.max 1000 (Nat.min s.plim 3000)

/-- THROTTLE_TICK: one millisecond, with the package power averaged over it and the temperature of the hottest die.
DEDUCED, log 100. -/
def execThrottleTick (watts temp : Nat) (s : State) : Host.Outcome State Fault Refusal :=
  let hot := decide (s.plimActs < watts) || decide (100 ≤ temp)
  .next { s with
    pwr := watts % 2 ^ 16
    tmax := temp % 2 ^ 8
    level := if hot then Nat.min 7 (s.level + 1) else s.level - 1 }

/-! ## Device reset -/

/-- R361, R383: the keys of the pseudo-channels of the channels retired in the tables. -/
def deadKeys (us : List Retired) (die : Nat) : List Nat :=
  us.flatMap fun u =>
    match u with
    | .channel d stack n => if d == die then [8 * n + stack, 8 * n + 4 + stack] else []
    | _ => []

/-- A die as the tables load it. -/
def dieFrom (us : List Retired) (die : Nat) : Die :=
  let dead := deadKeys us die
  let slot := fun (key : Nat) => firstIdx (fun n => chanKey dead n == key) (upto 256) 0
  { Die.fresh with
    ch := (upto 4).map (channelsLive us die)
    dead := dead
    erased := us.filterMap fun u =>
      match u with
      | .tsv d key g => if d == die && !(dead.contains key) then (slot key).map fun n => (n, g) else none
      | _ => none
    vbret := us.filterMap fun u =>
      match u with
      | .vaultBank d v b => if d == die then some (v * 64 + b) else none
      | _ => none }

/-- A port as the tables load it. -/
def portFrom (us : List Retired) (n : Nat) : Port :=
  let a := !(us.contains (.waves n false))
  let b := !(us.contains (.waves n true))
  { Port.fresh with live := !(us.contains (.port n)), laserA := a, laserB := b, w8 := !(a && b) }

/-- R429: the firmware that the ROM starts: the first copy that verifies and whose security version is at least the fused one. -/
def State.bootImage (s : State) : Option Nat :=
  ([s.fwA, s.fwB].find? fun f => f.signed && decide (s.fwFused ≤ f.version)).map Firmware.content

/-- R394, R432: the package after a device reset. The persistent tables, the flash and host memory stay; the rest is as at the first
reset, with the units that the tables record left out. Without a firmware image that verifies the device stays in reset and reports
the failure (R429). DEDUCED, log 101. -/
def State.deviceReset (s : State) : State :=
  let us := s.tables
  { State.reset with
    free := s.free + 1
    copyA := s.copyA
    copyB := s.copyB
    host := s.host
    image := s.bootImage
    fwA := s.fwA
    fwB := s.fwB
    fwFused := s.fwFused
    bootFailed := s.bootImage.isNone
    streams := if s.bootImage.isSome then State.reset.streams else []
    oos := belowRange us
    dies := (upto 4).map fun d => (d, dieFrom (shownRetired us) d)
    ports := (upto 16).map fun n => (n, portFrom (shownRetired us) n) }

def execDeviceReset (s : State) : Host.Outcome State Fault Refusal := .next s.deviceReset

/-- THERMAL_RESET: at 115 °C on a die the device logs it and enters reset. DEDUCED, log 101. -/
def execThermalReset (die temp : Nat) (s : State) : Host.Outcome State Fault Refusal :=
  if 115 ≤ temp then .next (s.mclog 16 0 0 (unitOf die 0) 0 temp).deviceReset else .next s

/-- The older copy of the tables has been left half written. DEDUCED, log 102. -/
def State.tornTables (s : State) : State :=
  if !s.copyA.intact || (s.copyB.intact && decide (s.copyA.seq < s.copyB.seq)) then { s with copyA := { s.copyA with intact := false } }
  else { s with copyB := { s.copyB with intact := false } }

/-- POWER_LOSS: resident work ends, and a write of the older copy that was under way leaves the other in force. The state is the one
that the reset at the return of power finds. DEDUCED, log 102. -/
def execPowerLoss (duringTableWrite : Bool) (s : State) : Host.Outcome State Fault Refusal :=
  .next (if duringTableWrite then s.tornTables else s).deviceReset

end Sys2Proof.Machine
end

