-- ==== Sys2Proof/Machine/Service.lean ====
section
/-!
DEFINITION. A die's own service: pinned windows fading (spec/16_die.md R377), the built-in self-test (R367) and the patrol scrub
(R366).
-/

namespace Sys2Proof.Machine

/-! ## WINDOW_FADE_TICK (R377) -/

/-- The fade period in cycles. DEDUCED, log 99. -/
def Die.fadePeriod (d : Die) : Nat := 2 ^ Nat.max d.fadep 16

/-- One window's tick: `none` when its counter has reached 0. -/
def Pinned.tick (p : Pinned) : Option Pinned :=
  if p.touched then some { p with touched := false }
  else if p.fade ≤ 1 then none
  else some { p with fade := p.fade - 1 }

/-- The die's tick: every live window, and the release of those whose counter reaches 0. -/
def Die.fadeTick (d : Die) : Die :=
  let gone := (d.win.keep fun _ p => p.tick.isNone).keys
  let d := gone.foldl (fun (d : Die) k => d.unpin k) d
  { d with win := d.win.map fun _ (p : Pinned) => p.tick.getD p }

def execWindowFadeTick (die : Nat) (s : State) : Host.Outcome State Fault Refusal := .next (s.updDie die Die.fadeTick)

/-! ## The self-test (R367) -/

/-- Spare banks of a pseudo-channel that are free: two, less one for each bank that a spare replaces. DEDUCED, log 97. -/
def sparesLeft (us : List Retired) (die chan : Nat) : Nat :=
  2 - (us.filter fun u => match u with | .bank d c _ => d == die && c == chan | _ => false).length

/-- The first bank from `b` on, of the pseudo-channel `pch` of a stack, that can be tested: the pseudo-channel is live and has a
free spare, and no spare has replaced the bank. -/
def State.bankFrom (s : State) (die stack pch b : Nat) : Option (Nat × Nat) :=
  let chan := pch * 4 + stack
  if (s.die die).dead.contains chan || sparesLeft s.tables die chan = 0 then none
  else ((upto 64).find? fun k => decide (b ≤ k) && !(s.tables.contains (.bank die chan k))).map fun k => (chan, k)

/-- The bank whose turn it is: the banks of one pseudo-channel after another. DEDUCED, log 97. -/
def State.nextBank (s : State) (die stack : Nat) : Option (Nat × Nat) :=
  let at_ := (s.die die).bistAt.lookD stack (0, 0)
  (upto 65).findSome? fun i => s.bankFrom die stack ((at_.1 + i) % 64) (if i = 0 then at_.2 else 0)

/-- BIST_START: the bank is parked on a spare, which no access can tell. -/
def execBistStart (die stack : Nat) (s : State) : Host.Outcome State Fault Refusal :=
  let d := s.die die
  if d.bistint = 0 || (d.bist.look stack).isSome || 4 ≤ stack then .next s
  else
    match s.nextBank die stack with
    | none => .next s
    | some (chan, bank) =>
      .next (s.setDie die { d with bist := d.bist.put stack ⟨chan, bank⟩, bistAt := d.bistAt.put stack (chan / 4, bank + 1) })

/-- BIST_MARCH_DONE: on a pass the bank takes its accesses again; on a fail the spare keeps them and the bank is retired, and with
the last spare gone its channel is marked for retirement. -/
def execBistMarchDone (die stack : Nat) (pass : Bool) (s : State) : Host.Outcome State Fault Refusal :=
  let d := s.die die
  match d.bist.look stack with
  | none => .next s
  | some b =>
    let s := s.setDie die { d with bist := d.bist.del stack }
    if pass then .next s
    else
      let log := fun (s : State) (why : Nat) =>
        s.mclog 6 0 0 (unitOf die stack) (Config.logField 6 (b.chan / 4) b.bank).toNat (Config.logField 6 256 why).toNat
      let s := (log s 1).retireUnit (.bank die b.chan b.bank)
      let c := Retired.channel die stack (b.chan / 4 / 2)
      if sparesLeft s.tables die b.chan = 0 && !(s.tables.contains c) then .next ((log s 2).retireUnit c) else .next s

/-! ## PATROL_SCRUB (R366) -/

/-- PATROL_SCRUB: the scrub reads one line of its die; with the die's first line a period begins. What can be corrected is
corrected, and a line that cannot is poisoned. DEDUCED, log 98. -/
def execPatrolScrub (die : Nat) (line : Nat) (err : LineErr) (s : State) : Host.Outcome State Fault Refusal :=
  if (s.die die).scrub = 0 || (s.slotOfLine line).1 != die || !(s.isDev (line * 64)) then .next s
  else
    let s := if line * 64 % 2 ^ 38 = 0 then s.updDie die fun d => { d with lineErrs := [], vaultErrs := [] } else s
    .next (s.readLine line err)

end Sys2Proof.Machine
end

