-- ==== Sys2Proof/Machine/Streams.lean ====
section
/-!
DEFINITION. Command streams and the Ostler (spec/17_package.md R392 to R396), and contexts: their creation (R394) and destruction
(spec/19_observation_and_service.md R431).
-/

namespace Sys2Proof.Machine

/-! ## Streams (Tables 17.3, 17.4) -/

/-- HEAD and GEN of a stream's header. -/
def State.headOf (s : State) (x : Stream) : Nat := s.placeRead (devPlace (x.base + 16)) 8

def State.tailGen (s : State) (x : Stream) : Nat := s.placeRead (devPlace (x.base + 14)) 2

/-- The next record of a stream that has one and is not halted: its index and its 64 bytes. -/
def State.nextRecord (s : State) (x : Stream) : Option (Nat × List Byte) :=
  let h := s.headOf x
  if x.halted || s.tailGen x = h % 65536 then none
  else some (h, s.placeBytes (devPlace (x.base + 64 + 64 * (h % Nat.max 1 x.size))) 64)

/-- A command record's fields. -/
structure Command where
  kind : Nat
  operand : Nat
  result : Nat
  deriving DecidableEq, Repr

def commandOf (b : List Byte) : Command := ⟨recField b 0 2, recField b 8 8, recField b 16 8⟩

/-- R393: RESULT is 0 or an 8-byte-aligned address of device memory. -/
def State.resultOk (s : State) (c : Command) : Bool := c.result == 0 || (c.result % 8 == 0 && s.isDev c.result)

/-- R393: the check of record `i` of stream number `n`. DEDUCED, log 79. -/
def State.commandOk (s : State) (n i : Nat) (b : List Byte) : Bool :=
  let c := commandOf b
  inRange 1 c.kind 6 && recField b 4 4 == i % 2 ^ 32 && recField b 2 2 == 0 && recField b 24 40 == 0 &&
    (c.kind < 5 || n == 0) && s.resultOk c && (c.kind != 1 || (c.operand % 256 == 0 && s.isDev c.operand))

/-- The result 2^63 + 0x13. -/
def refusedResult : Nat := 2 ^ 63 + 0x13

/-- R393, step 4: the record has been read; the result word, then HEAD. -/
def State.finishRecord (s : State) (x : Stream) (i : Nat) (c : Command) (res : Nat) : State :=
  let s := s.touch (devPlace (x.base + 64 + 64 * (i % Nat.max 1 x.size))) 64
  let s := if c.result != 0 && s.resultOk c then s.homeWrite (devPlace c.result) (bytesLE 8 res) else s
  s.homeWrite (devPlace (x.base + 16)) (bytesLE 8 (i + 1))

/-- One record of stream `n` whose KIND `mine` takes: refused when its check fails, else acted on by `act`, which gives the
result. -/
def State.command (s : State) (n : Nat) (mine : Nat → Bool) (act : Nat → State → State × Nat) :
    Host.Outcome State Fault Refusal :=
  match (s.streams.drop n).head? with
  | none => .next s
  | some x =>
    match s.nextRecord x with
    | none => .next s
    | some (i, b) =>
      let c := commandOf b
      if mine c.kind then
        if s.commandOk n i b then
          let r := act c.operand s
          .next (r.1.finishRecord x i c r.2)
        else .next (s.finishRecord x i c refusedResult)
      else .next s

/-- COMMAND_LAUNCH. A record whose KIND no command has is refused here too. -/
def execCommandLaunch (stream : Nat) (s : State) : Host.Outcome State Fault Refusal :=
  s.command stream (fun k => k == 1 || k == 0 || decide (6 < k)) fun a s =>
    let r := s.makeLaunch (s.placeBytes (devPlace a) 256)
    (r.1.touch (devPlace a) 256, r.2.toNat)

/-- R407: PRECTL on a launch by its identifier; the result tells a stale one. -/
def State.commandPrectl (s : State) (f : State → Nat → State) (id : Nat) : State × Nat :=
  if (s.launchNamed id).isSome then (f s id, 0) else (s, refusedResult)

def execCommandPreempt (stream : Nat) (s : State) : Host.Outcome State Fault Refusal :=
  s.command stream (fun k => k == 2) fun id s => s.commandPrectl State.preempt id

def execCommandResume (stream : Nat) (s : State) : Host.Outcome State Fault Refusal :=
  s.command stream (fun k => k == 3) fun id s => s.commandPrectl State.resume id

def execCommandCancel (stream : Nat) (s : State) : Host.Outcome State Fault Refusal :=
  s.command stream (fun k => k == 4) fun id s => s.commandPrectl State.cancel id

/-! ## COMMAND_OPEN_STREAM (R395) -/

/-- A power of two from 16 to 65,536. -/
def streamSizeOk (n : Nat) : Bool := (upto 13).any fun k => n == 2 ^ (k + 4)

/-- Bytes of a stream: its header and its record slots (Table 17.3). DEDUCED, log 78. -/
def streamSpan (size : Nat) : Nat := 64 + 64 * size

/-- The stream whose header stands at `a`, when R395 accepts it. A halted stream is not open, and its header opens no stream
again (R425). DEDUCED, log 78. -/
def State.streamAtHeader (s : State) (a : Nat) : Option Stream :=
  let b := s.placeBytes (devPlace a) 64
  let size := recField b 24 4
  let flogn := recField b 28 4
  let flog := recField b 32 8
  if a % 64 == 0 && s.isDev a && streamSizeOk size && flogn ≤ 65536 &&
      (flog == 0 || (flog % 32 == 0 && s.isDev flog)) &&
      recField b 0 8 == 1 && recField b 8 6 == 0 && recField b 14 2 == 0 && recField b 16 8 == 0 && recField b 40 4 == 0 &&
      recField b 44 20 == 0 &&
      s.streams.all (fun x => (x.halted && a != x.base) || a + 64 ≤ x.base || x.base + streamSpan x.size ≤ a) then
    some ⟨a, size, flogn, flog, false⟩
  else none

def State.openStream (s : State) (a : Nat) : State × Nat :=
  let r := s.streamAtHeader a
  let s := s.touch (devPlace a) 64
  match r with
  | none => (s, refusedResult)
  | some x => if (s.streams.filter fun x => !x.halted).length ≥ 64 then (s, 2 ^ 63 + 1) else ({ s with streams := s.streams ++ [x] }, 0)

/-- COMMAND_OPEN_STREAM: a record of kind 5 of the bootstrap stream. In another stream it is refused. -/
def openStreamOf (n : Nat) (s : State) : Host.Outcome State Fault Refusal :=
  s.command n (fun k => k == 5) fun a s => s.openStream a

/-- The first stream whose next record has a kind. -/
def State.streamWith (s : State) (kind : Nat) : Nat :=
  ((upto s.streams.length).find? fun n =>
    match (s.streams.drop n).head? with
    | some x => (s.nextRecord x).any fun r => (commandOf r.2).kind == kind
    | none => false).getD 0

def execCommandOpenStream (s : State) : Host.Outcome State Fault Refusal := openStreamOf (s.streamWith 5) s

/-! ## COMMAND_CREATE_CONTEXT (R394, Table 17.5) -/

/-- Bits that must be zero. -/
def contextForm (b : List Byte) : Bool :=
  recField b 20 4 / 2 ^ 22 == 0 && recField b 24 1 / 4 == 0 && recField b 26 1 / 32 == 0 && recField b 27 1 / 32 == 0 &&
    recField b 28 4 / 2 ^ 20 == 0 && recField b 32 32 == 0

/-- The context of a record; `key` numbers its keys when it is confidential. DEDUCED, log 79. -/
def contextOf (b : List Byte) (key : Nat) : Context :=
  let ovr := recField b 27 1
  let c := Context.fresh
  let conf := bitN (recField b 24 1) 0
  { c with
    ptroot := BitVec.ofNat 64 (bitsN (recField b 0 8) 45 16 * 2 ^ 16)
    ctxvec := BitVec.ofNat 64 (recField b 8 8 / 8 * 8)
    limit := if bitN ovr 0 then recField b 16 4 else c.limit
    fair := if bitN ovr 1 then recField b 20 4 else c.fair
    rgwin := if bitN ovr 2 then recField b 25 1 else c.rgwin
    mthr := if bitN ovr 3 then recField b 26 1 else c.mthr
    thr := if bitN ovr 4 then recField b 28 4 else c.thr
    conf := conf
    keyNo := if conf then key else 0
    demand := bitN (recField b 24 1) 1 }

/-- The lowest free number receives the context; R431 bounds the confidential ones. -/
def State.createContext (s : State) (a : Nat) : State × Nat :=
  let b := s.placeBytes (devPlace a) 64
  let n := s.contexts.freeFrom 1
  let confs := (s.contexts.keep fun _ c => c.conf).length
  if !(s.isDev a) || !(contextForm b) || n ≥ 65536 || (bitN (recField b 24 1) 0 && confs ≥ 1024) then (s, refusedResult)
  else ({ s with contexts := s.contexts.put n (contextOf b s.nextId), nextId := s.nextId + 1 }.touch (devPlace a) 64, n)

def createContextOf (n : Nat) (s : State) : Host.Outcome State Fault Refusal :=
  s.command n (fun k => k == 6) fun a s => s.createContext a

def execCommandCreateContext (s : State) : Host.Outcome State Fault Refusal := createContextOf (s.streamWith 6) s

/-! ## CONTEXT_DESTRUCTION -/

/-- A launch of the context that has not completed, or whose waves have not all ended. DESIGN CHOICE, log 80. -/
def State.ctxBusy (s : State) (ctx : Nat) : Bool :=
  s.launches.any fun (l, x) => x.recd.ctx == ctx && (x.st < 5 || !(s.launchTeams l).isEmpty)

/-- CONTEXT_DESTRUCTION: the context's keys and number are free, its pinned windows released, its translations gone. The manual
does not say what becomes of its launches; the event waits until none is left. DESIGN CHOICE, log 80. -/
def execContextDestruction (ctx : Nat) (s : State) : Host.Outcome State Fault Refusal :=
  if ctx = 0 || (s.ctx ctx).isNone || s.ctxBusy ctx then .next s
  else
    let s := s.dropPage fun e => e.ctx == ctx
    let free := fun (d : Die) =>
      (d.win.keep fun _ p => p.ctx == ctx).keys.foldl (fun (d : Die) k => d.unpin k) d
    .next { s with contexts := s.contexts.del ctx, dies := s.dies.map fun _ (d : Die) => free d }

end Sys2Proof.Machine
end

