-- ==== Sys2Proof/Machine/System.lean ====
section
/-!
DEFINITION. System instructions: ERET (spec/07_wave_control.md R204, R205), TLBI (spec/16_die.md R374), BKPT, HINT and HALT
(spec/19_observation_and_service.md R423 to R425).
-/

namespace Sys2Proof.Machine

/-! ## ERET -/

/-- R204: an unchanged TPC restores the saved block state; HIN and the handler's path stay as they are (R205).
DEDUCED, log 58. -/
def State.eretTrap (s : State) (p : PathRef) : State :=
  let w := s.wave p.wave
  let s := s.updLeaf p fun l => { l with pc := w.tpc, pos := w.savedPos, hdr := w.savedHdr, wait := .idle, arrived := w.savedArr }
  s.updWave p.wave fun w => { w with savedHdr := 0, savedPos := 0, savedArr := none, tpcWritten := false }

/-- R81: a TPC that has been written is the target. -/
def State.eretTo (s : State) (p : PathRef) (target : DWord) : State :=
  let s := s.updLeaf p fun l => { l.jump target with wait := .idle }
  s.updWave p.wave fun w => { w with savedHdr := 0, savedPos := 0, savedArr := none, tpcWritten := false }

/-- ERET, for the path as a whole. DEDUCED, log 58. -/
def execEret (g : Guard) (s : State) : Host.Outcome State Fault Refusal :=
  issueWith (.eret g) g false
    (fun e s => if (s.wave e.wave).tpcWritten then targetCause (s.wave e.wave).tpc e s else []) noWait
    (fun p envs s =>
      match envs.head? with
      | none => s
      | some e =>
        let w := s.wave e.wave
        if w.tpcWritten then s.eretTo p w.tpc else s.eretTrap p) noCause s

/-! ## TLBI (R374) -/

/-- The entries that a TLBI removes. -/
def tlbiEntry (k : TlbiKind) (w : Wave) (e : TlbEntry) : Bool :=
  match k with
  | .addr a => e.holds (bitsN (w.sreg a.toNat).toNat 55 16 * 65536)
  | .ctx a => e.ctx == (w.sreg a.toNat).toNat % 65536
  | .all => true

/-- Virtual addresses that an outstanding operation has had translated; `none` when it keeps none of them. DEDUCED, log 47. -/
def OpBody.vas : OpBody → Option (List Nat)
  | .load _ _ _ _ accs | .reserve accs | .store _ _ accs | .atomic _ _ accs | .cond _ accs => some (accs.map fun a => a.virt.toNat)
  | .copy _ runs => some (runs.flatMap fun r => [r.srcVa, r.dstVa])
  | .apply _ _ parts _ => some (parts.map fun p => p.2.addr.toNat)
  | .matrix _ | .tree _ => some []
  | .arrive .. | .remote _ => none

/-- The operations in flight that may use one of the entries. DEDUCED, log 47. -/
def State.usersOf (s : State) (es : List TlbEntry) : List Nat :=
  (s.ops.filter fun x => !x.2.done && es.any fun e => s.ctxNo x.2.wave == e.ctx &&
    match x.2.body.vas with
    | some vs => vs.any e.holds
    | none => true).map Prod.fst

/-- All entries of the package's TLBs and walk caches. -/
def State.allTlb (s : State) : List TlbEntry :=
  (s.cores.flatMap fun c => c.2.tlb) ++ s.dies.flatMap fun d => d.2.tlb ++ d.2.walkc

/-- TLBI: the removal, and then the path is held until the accesses that used a removed entry have completed. -/
def execTlbi (g : Guard) (k : TlbiKind) (s : State) : Host.Outcome State Fault Refusal :=
  let i := Instr.tlbi g k
  issueWith i g false noCause (fun e s => if s.releaseOk e.wave then none else some 15)
    (fun p envs s =>
      let gone := envs.flatMap fun e => s.allTlb.filter (tlbiEntry k (s.wave e.wave))
      let users := s.usersOf gone
      let s := envs.foldl (fun s e => s.dropPage (tlbiEntry k (s.wave e.wave))) s
      if users.isEmpty then s.advance p i else s.updLeaf p fun l => { l with wait := .drain users }) noCause s

/-! ## BKPT, HINT, HALT -/

/-- R423: 0x50 after the instruction. -/
def execBkpt (g : Guard) (n : BitVec 16) (s : State) : Host.Outcome State Fault Refusal :=
  let i := Instr.bkpt g n
  issueWith i g false noCause noWait (seqAct i fun _ s => s) (fun e _ => [whole e 0x50 n.toNat]) s

/-- R424: number 1 leaves a mark. -/
def execHint (g : Guard) (n : BitVec 16) (s : State) : Host.Outcome State Fault Refusal :=
  issue (.hint g n) g noCause (fun e s =>
    if n = 1 then s.eventRecord e.wave 4 (slotNo e.ref.slot) e.mine 1 e.leaf.pc else s) s

/-- R425: in an Ostler wave, its stream stops for good. -/
def State.haltStream (s : State) (l : Nat) : State :=
  match (s.launch l).ostler with
  | none => s
  | some b => { s with streams := s.streams.map fun x => if x.base == b then { x with halted := true } else x }

/-- R425, R426. -/
def execHalt (g : Guard) (s : State) : Host.Outcome State Fault Refusal :=
  issue (.halt g) g noCause (fun e s =>
    let l := s.launchNo e.wave
    let s := s.mclog 15 (s.waveId e.wave) (s.recordId l) (s.coreUnit e.wave) e.leaf.pc.toNat 0
    let s := s.eventRecord e.wave 7 (slotNo e.ref.slot) e.mine 0 e.leaf.pc
    (s.haltStream l).finishLaunch l 0x22) s

end Sys2Proof.Machine
end

