-- ==== Sys2Proof/Machine/Trust.lean ====
section
/-!
DEFINITION. Agham's SPDM answers (spec/19_observation_and_service.md R429, R430, Table 19.8) and the host's accesses to device memory
(spec/17_package.md R388, R396).
-/

namespace Sys2Proof.Machine

/-! ## SPDM -/

def State.setSpdm (s : State) (x : Spdm) : State := { s with spdm := x }

/-- An answer, when the exchange so far allows the request; else an error. PRESUMED, log 103. -/
def State.spdmAnswer (s : State) (ok : Bool) (r : SpdmReply) (f : Spdm → Spdm) : Host.Outcome State Fault Refusal :=
  if ok then .next (s.setSpdm { f s.spdm with reply := r }) else .next (s.setSpdm { s.spdm with reply := .error })

/-- SPDM_VERSION: 1.2 and 1.3; the exchange starts anew. PRESUMED, log 103. -/
def execSpdmVersion (s : State) : Host.Outcome State Fault Refusal :=
  s.spdmAnswer true .version fun x => { Spdm.fresh with version := true, keyGen := x.keyGen }

def execSpdmCapabilities (s : State) : Host.Outcome State Fault Refusal :=
  s.spdmAnswer s.spdm.version .capabilities fun x => { x with caps := true }

/-- SPDM_ALGORITHMS: `ok` when the request offers ECDSA P-521, SHA-512, ephemeral Diffie-Hellman over P-521 and AES-256-GCM. -/
def execSpdmAlgorithms (ok : Bool) (s : State) : Host.Outcome State Fault Refusal :=
  s.spdmAnswer (s.spdm.caps && ok) .algorithms fun x => { x with algs := true }

def execSpdmDigests (s : State) : Host.Outcome State Fault Refusal := s.spdmAnswer s.spdm.algs .digests id

def execSpdmCertificate (s : State) : Host.Outcome State Fault Refusal := s.spdmAnswer s.spdm.algs .certificate id

def execSpdmChallenge (nonce : Nat) (s : State) : Host.Outcome State Fault Refusal :=
  s.spdmAnswer s.spdm.algs (.challengeAuth nonce) id

/-- A number for a unit of the tables. -/
def unitCode : Retired → Nat
  | .core d c n => 8 * (256 * (256 * d + c) + n)
  | .channel d k n => 8 * (256 * (256 * d + k) + n) + 1
  | .bank d c n => 8 * (256 * (256 * d + c) + n) + 2
  | .vaultBank d v n => 8 * (256 * (256 * d + v) + n) + 3
  | .tsv d c n => 8 * (256 * (256 * d + c) + n) + 4
  | .port n => 8 * n + 5
  | .waves n b => 8 * (2 * n + if b then 1 else 0) + 6

/-- Table 19.8. -/
def State.measurement (s : State) (index : Nat) : List Byte :=
  if index = 4 then bytesLE 8 s.pkgcfg ++ (upto 4).flatMap fun d => bytesLE 8 (s.diecfg d)
  else if index = 5 then bytesLE 64 (Config.tablesDigest (s.tables.map unitCode)).toNat
  else bytesLE 64 (Config.aghamSecret (8 * s.image.getD 0 + index)).toNat

def execSpdmMeasurements (index : Nat) (s : State) : Host.Outcome State Fault Refusal :=
  s.spdmAnswer (s.spdm.algs && decide (1 ≤ index) && decide (index ≤ 5)) (.measurements index (s.measurement index)) id

def execSpdmKeyExchange (share : Nat) (s : State) : Host.Outcome State Fault Refusal :=
  s.spdmAnswer s.spdm.algs (.keyExchange share) fun x => { x with pending := true, session := false }

/-- SPDM_FINISH: `ok` when the requester's proof verifies. -/
def execSpdmFinish (ok : Bool) (s : State) : Host.Outcome State Fault Refusal :=
  s.spdmAnswer (s.spdm.pending && ok) .finish fun x => { x with pending := false, session := true, keyGen := 0 }

def execSpdmKeyUpdate (s : State) : Host.Outcome State Fault Refusal :=
  s.spdmAnswer s.spdm.session .keyUpdate fun x => { x with keyGen := x.keyGen + 1 }

def execSpdmEndSession (s : State) : Host.Outcome State Fault Refusal :=
  s.spdmAnswer s.spdm.session .endSession fun x => { x with session := false, pending := false }

/-! ## The host (R388) -/

/-- The page of a local physical address is one whose leaf has CONF set, in some context's translations. DEDUCED, log 104. -/
def State.confPage (s : State) (a : Nat) : Bool :=
  s.contexts.any fun (n, c) => n != 0 && s.confLeaf a (bitsN c.ptroot.toNat 45 16 * 2 ^ 16) pageLevels

/-- The local physical address of a host address in the CXL.mem range; `none` outside device memory. -/
def State.hostLpa (s : State) (addr : Nat) : Option Nat :=
  if Config.hostBase ≤ addr && s.isDev (addr - Config.hostBase) then some (addr - Config.hostBase) else none

/-- The lines of `len` bytes at a device address. -/
def linesOf (a len : Nat) : List Nat := if len = 0 then [] else (upto ((a % 64 + len + 63) / 64)).map fun i => a / 64 + i

/-- HOST_MEM_READ: the bytes at the home slice; poison when a line of them is poisoned or lies in a confidential page.
DEDUCED, log 105. -/
def execHostMemRead (addr len : Nat) (s : State) : Host.Outcome State Fault Refusal :=
  match s.hostLpa addr with
  | none => .next { s with hostReply := .none }
  | some a =>
    let ls := linesOf a len
    if ls.any fun l => s.poison.contains l || s.confPage (l * 64) then .next { s with hostReply := .poison }
    else .next { ls.foldl (fun s l => s.reach l .none false) s with hostReply := .bytes (s.placeBytes (devPlace a) len) }

/-- The bytes of one line of a host write. -/
def State.hostWriteLine (s : State) (a : Nat) (data : List Byte) (l : Nat) : State :=
  let lo := Nat.max a (l * 64)
  let bs := (data.drop (lo - a)).take (l * 64 + 64 - lo)
  if s.confPage (l * 64) then s.mclog 14 0 0 0 lo 0
  else if s.isDev lo then s.homeWrite (devPlace lo) bs
  else s

/-- HOST_MEM_WRITE: each line at its home slice; a line of a confidential page is dropped and logged. DEDUCED, log 105. -/
def execHostMemWrite (addr : Nat) (data : List Byte) (s : State) : Host.Outcome State Fault Refusal :=
  match s.hostLpa addr with
  | none => .next s
  | some a => .next ((linesOf a data.length).foldl (fun s l => s.hostWriteLine a data l) s)

end Sys2Proof.Machine
end

