-- ==== Sys2Proof/Machine/Dispatch.lean ====
section
/-!
DEFINITION. The one dispatch from an instruction or event to its meaning (spec/opcode_table.json): one arm for each
constructor of `Instr`, in the table's order.
-/

namespace Sys2Proof.Machine

open Sys2Proof

def exec (i : Instr) (s : State) : Host.Outcome State Fault Refusal :=
  match i with
  | .iadd k o => Sys2Proof.Machine.execIadd k o s
  | .isub k o => Sys2Proof.Machine.execIsub k o s
  | .imul k o => Sys2Proof.Machine.execImul k o s
  | .imulh u o => Sys2Proof.Machine.execImulh u o s
  | .imad k o => Sys2Proof.Machine.execImad k o s
  | .imadw u o => Sys2Proof.Machine.execImadw u o s
  | .iaddc o => Sys2Proof.Machine.execIaddc o s
  | .ineg ss o => Sys2Proof.Machine.execIneg ss o s
  | .iabs ss o => Sys2Proof.Machine.execIabs ss o s
  | .imin u o => Sys2Proof.Machine.execImin u o s
  | .imax u o => Sys2Proof.Machine.execImax u o s
  | .andw o => Sys2Proof.Machine.execAndw o s
  | .orw o => Sys2Proof.Machine.execOrw o s
  | .xorw o => Sys2Proof.Machine.execXorw o s
  | .andn o => Sys2Proof.Machine.execAndn o s
  | .notw o => Sys2Proof.Machine.execNotw o s
  | .shl o => Sys2Proof.Machine.execShl o s
  | .shr o => Sys2Proof.Machine.execShr o s
  | .sar o => Sys2Proof.Machine.execSar o s
  | .rotl o => Sys2Proof.Machine.execRotl o s
  | .popc o => Sys2Proof.Machine.execPopc o s
  | .clz o => Sys2Proof.Machine.execClz o s
  | .ctz o => Sys2Proof.Machine.execCtz o s
  | .brev o => Sys2Proof.Machine.execBrev o s
  | .bfx sx o => Sys2Proof.Machine.execBfx sx o s
  | .bfi o => Sys2Proof.Machine.execBfi o s
  | .icmp c o => Sys2Proof.Machine.execIcmp c o s
  | .lea k o => Sys2Proof.Machine.execLea k o s
  | .mov o => Sys2Proof.Machine.execMov o s
  | .movi g d x blk => Sys2Proof.Machine.execMovi g d x blk s
  | .sel o => Sys2Proof.Machine.execSel o s
  | .fadd t o => Sys2Proof.Machine.execFadd t o s
  | .fsub t o => Sys2Proof.Machine.execFsub t o s
  | .fmul t o => Sys2Proof.Machine.execFmul t o s
  | .ffma t o => Sys2Proof.Machine.execFfma t o s
  | .fmin t o => Sys2Proof.Machine.execFmin t o s
  | .fmax t o => Sys2Proof.Machine.execFmax t o s
  | .fcmp t c o => Sys2Proof.Machine.execFcmp t c o s
  | .fclass t o => Sys2Proof.Machine.execFclass t o s
  | .frcp t o => Sys2Proof.Machine.execFrcp t o s
  | .frsq t o => Sys2Proof.Machine.execFrsq t o s
  | .fsqrt t o => Sys2Proof.Machine.execFsqrt t o s
  | .fexp2 o => Sys2Proof.Machine.execFexp2 o s
  | .flog2 o => Sys2Proof.Machine.execFlog2 o s
  | .fsin o => Sys2Proof.Machine.execFsin o s
  | .fcos o => Sys2Proof.Machine.execFcos o s
  | .ftanh o => Sys2Proof.Machine.execFtanh o s
  | .frnd t o => Sys2Proof.Machine.execFrnd t o s
  | .fscale t o => Sys2Proof.Machine.execFscale t o s
  | .cvt dt st o => Sys2Proof.Machine.execCvt dt st o s
  | .cvts dt st o => Sys2Proof.Machine.execCvts dt st o s
  | .pack k g d a b blk => Sys2Proof.Machine.execPack k g d a b blk s
  | .unpack k j o => Sys2Proof.Machine.execUnpack k j o s
  | .qmass m16 o => Sys2Proof.Machine.execQmass m16 o s
  | .pand g d a b => Sys2Proof.Machine.execPand g d a b s
  | .por g d a b => Sys2Proof.Machine.execPor g d a b s
  | .pxor g d a b => Sys2Proof.Machine.execPxor g d a b s
  | .pnot g d a => Sys2Proof.Machine.execPnot g d a s
  | .pmov g k => Sys2Proof.Machine.execPmov g k s
  | .pcnt g d a => Sys2Proof.Machine.execPcnt g d a s
  | .shfl k o => Sys2Proof.Machine.execShfl k o s
  | .bcast o => Sys2Proof.Machine.execBcast o s
  | .rfl g d a bc => Sys2Proof.Machine.execRfl g d a bc s
  | .vote g k a => Sys2Proof.Machine.execVote g k a s
  | .redw op g d a bc => Sys2Proof.Machine.execRedw op g d a bc s
  | .scanw op o => Sys2Proof.Machine.execScanw op o s
  | .matchw g d a bc => Sys2Proof.Machine.execMatchw g d a bc s
  | .bra g t => Sys2Proof.Machine.execBra g t s
  | .bru g t => Sys2Proof.Machine.execBru g t s
  | .brd g t => Sys2Proof.Machine.execBrd g t s
  | .brx g a => Sys2Proof.Machine.execBrx g a s
  | .call g d t => Sys2Proof.Machine.execCall g d t s
  | .ret g a => Sys2Proof.Machine.execRet g a s
  | .exit g => Sys2Proof.Machine.execExit g s
  | .yield g => Sys2Proof.Machine.execYield g s
  | .nop g => Sys2Proof.Machine.execNop g s
  | .waitc g l st c t => Sys2Proof.Machine.execWaitc g l st c t s
  | .waitw g cls a b => Sys2Proof.Machine.execWaitw g cls a b s
  | .tfence g => Sys2Proof.Machine.execTfence g s
  | .trapi g n => Sys2Proof.Machine.execTrapi g n s
  | .setf g flags v => Sys2Proof.Machine.execSetf g flags v s
  | .getf g flags d => Sys2Proof.Machine.execGetf g flags d s
  | .ld o => Sys2Proof.Machine.execLd o s
  | .st o => Sys2Proof.Machine.execSt o s
  | .lds o => Sys2Proof.Machine.execLds o s
  | .sts o => Sys2Proof.Machine.execSts o s
  | .ldv o => Sys2Proof.Machine.execLdv o s
  | .stv o => Sys2Proof.Machine.execStv o s
  | .ldu o => Sys2Proof.Machine.execLdu o s
  | .atom o => Sys2Proof.Machine.execAtom o s
  | .atoms o => Sys2Proof.Machine.execAtoms o s
  | .ldres g d base off => Sys2Proof.Machine.execLdres g d base off s
  | .stcond g d base off data => Sys2Proof.Machine.execStcond g d base off data s
  | .fence g k => Sys2Proof.Machine.execFence g k s
  | .pref g hint base off => Sys2Proof.Machine.execPref g hint base off s
  | .arrv g a b => Sys2Proof.Machine.execArrv g a b s
  | .bar g => Sys2Proof.Machine.execBar g s
  | .bard g => Sys2Proof.Machine.execBard g s
  | .barp g => Sys2Proof.Machine.execBarp g s
  | .cinv g a b => Sys2Proof.Machine.execCinv g a b s
  | .cflsh g a b => Sys2Proof.Machine.execCflsh g a b s
  | .pin g d a b => Sys2Proof.Machine.execPin g d a b s
  | .unpin g a => Sys2Proof.Machine.execUnpin g a s
  | .cpy o => Sys2Proof.Machine.execCpy o s
  | .cpys o => Sys2Proof.Machine.execCpys o s
  | .cpyg g d a b c => Sys2Proof.Machine.execCpyg g d a b c s
  | .rput rt o => Sys2Proof.Machine.execRput rt o s
  | .rputM rt o => Sys2Proof.Machine.execRputM rt o s
  | .rget rt o => Sys2Proof.Machine.execRget rt o s
  | .ratom rt o => Sys2Proof.Machine.execRatom rt o s
  | .rred op rt o => Sys2Proof.Machine.execRred op rt o s
  | .rarrv rt g a b => Sys2Proof.Machine.execRarrv rt g a b s
  | .rfence g a => Sys2Proof.Machine.execRfence g a s
  | .vqst g d a => Sys2Proof.Machine.execVqst g d a s
  | .munf g a => Sys2Proof.Machine.execMunf g a s
  | .mscl g a b => Sys2Proof.Machine.execMscl g a b s
  | .mldt g d a => Sys2Proof.Machine.execMldt g d a s
  | .msta g bf16 a b => Sys2Proof.Machine.execMsta g bf16 a b s
  | .mza g i32 d => Sys2Proof.Machine.execMza g i32 d s
  | .mmq g k sc d b => Sys2Proof.Machine.execMmq g k sc d b s
  | .mmw g k sc d b => Sys2Proof.Machine.execMmw g k sc d b s
  | .mmg g k sc d a b => Sys2Proof.Machine.execMmg g k sc d a b s
  | .mtrn g k d b j => Sys2Proof.Machine.execMtrn g k d b j s
  | .mprm g k d a b => Sys2Proof.Machine.execMprm g k d a b s
  | .mred g k d b => Sys2Proof.Machine.execMred g k d b s
  | .mcvt g k d a j => Sys2Proof.Machine.execMcvt g k d a j s
  | .mmt g k sc d a => Sys2Proof.Machine.execMmt g k sc d a s
  | .mmts g k sc d a => Sys2Proof.Machine.execMmts g k sc d a s
  | .hbld g m16 d a b => Sys2Proof.Machine.execHbld g m16 d a b s
  | .hset g d a b => Sys2Proof.Machine.execHset g d a b s
  | .hadd g d a b => Sys2Proof.Machine.execHadd g d a b s
  | .hpfx g a q => Sys2Proof.Machine.execHpfx g a q s
  | .hfind g a q => Sys2Proof.Machine.execHfind g a q s
  | .hcut g d a b => Sys2Proof.Machine.execHcut g d a b s
  | .htot g d a => Sys2Proof.Machine.execHtot g d a s
  | .hlenRead g d a => Sys2Proof.Machine.execHlenRead g d a s
  | .hlenSet g d a => Sys2Proof.Machine.execHlenSet g d a s
  | .hstl g a b => Sys2Proof.Machine.execHstl g a b s
  | .callc g d t => Sys2Proof.Machine.execCallc g d t s
  | .retc g a => Sys2Proof.Machine.execRetc g a s
  | .ecat g d a b => Sys2Proof.Machine.execEcat g d a b s
  | .eflt g drop d a b c => Sys2Proof.Machine.execEflt g drop d a b c s
  | .erbs g d a b c stop => Sys2Proof.Machine.execErbs g d a b c stop s
  | .eapp g a => Sys2Proof.Machine.execEapp g a s
  | .edrp g a => Sys2Proof.Machine.execEdrp g a s
  | .elen g d a => Sys2Proof.Machine.execElen g d a s
  | .csrr g d n => Sys2Proof.Machine.execCsrr g d n s
  | .csrw g a n => Sys2Proof.Machine.execCsrw g a n s
  | .eret g => Sys2Proof.Machine.execEret g s
  | .launch g d a => Sys2Proof.Machine.execLaunch g d a s
  | .lstat g d a => Sys2Proof.Machine.execLstat g d a s
  | .tlbi g k => Sys2Proof.Machine.execTlbi g k s
  | .bkpt g n => Sys2Proof.Machine.execBkpt g n s
  | .hint g n => Sys2Proof.Machine.execHint g n s
  | .halt g => Sys2Proof.Machine.execHalt g s
  | .boundaryCauseDelivery p => Sys2Proof.Machine.execBoundaryCauseDelivery p s
  | .waitcComplete p => Sys2Proof.Machine.execWaitcComplete p s
  | .waitwComplete p => Sys2Proof.Machine.execWaitwComplete p s
  | .barRelease team => Sys2Proof.Machine.execBarRelease team s
  | .bardRelease launch ixd => Sys2Proof.Machine.execBardRelease launch ixd s
  | .barpRelease launch => Sys2Proof.Machine.execBarpRelease launch s
  | .regroupWindowClose team part brd => Sys2Proof.Machine.execRegroupWindowClose team part brd s
  | .regionResume wave => Sys2Proof.Machine.execRegionResume wave s
  | .waveMerge lo hi => Sys2Proof.Machine.execWaveMerge lo hi s
  | .fairnessTimerExpiry p => Sys2Proof.Machine.execFairnessTimerExpiry p s
  | .fairnessDeferredSwitch p => Sys2Proof.Machine.execFairnessDeferredSwitch p s
  | .starvationExpiry wave => Sys2Proof.Machine.execStarvationExpiry wave s
  | .starvationTeamReturn team => Sys2Proof.Machine.execStarvationTeamReturn team s
  | .rotationCycle core part => Sys2Proof.Machine.execRotationCycle core part s
  | .waveComeIn core part => Sys2Proof.Machine.execWaveComeIn core part s
  | .stableDisplace core part => Sys2Proof.Machine.execStableDisplace core part s
  | .stableImageMoved wave => Sys2Proof.Machine.execStableImageMoved wave s
  | .paddockLeave p => Sys2Proof.Machine.execPaddockLeave p s
  | .loadReturn op => Sys2Proof.Machine.execLoadReturn op s
  | .hbmRequestServe die chan pass err => Sys2Proof.Machine.execHbmRequestServe die chan pass err s
  | .ownershipAck op => Sys2Proof.Machine.execOwnershipAck op s
  | .ownershipRevoke word => Sys2Proof.Machine.execOwnershipRevoke word s
  | .copyChunk op chunk => Sys2Proof.Machine.execCopyChunk op chunk s
  | .matrixEntryStart core part => Sys2Proof.Machine.execMatrixEntryStart core part s
  | .matrixWriteComplete core part => Sys2Proof.Machine.execMatrixWriteComplete core part s
  | .mmtStep p stop => Sys2Proof.Machine.execMmtStep p stop s
  | .treeUnitExecute core badLeaf => Sys2Proof.Machine.execTreeUnitExecute core badLeaf s
  | .coreFence core cause => Sys2Proof.Machine.execCoreFence core cause s
  | .coreDrainSelect launch die cluster => Sys2Proof.Machine.execCoreDrainSelect launch die cluster s
  | .coreDrainEnd core => Sys2Proof.Machine.execCoreDrainEnd core s
  | .repartitionDone core => Sys2Proof.Machine.execRepartitionDone core s
  | .teamPlace launch => Sys2Proof.Machine.execTeamPlace launch s
  | .waveEnd wave => Sys2Proof.Machine.execWaveEnd wave s
  | .launchDependenceMet launch => Sys2Proof.Machine.execLaunchDependenceMet launch s
  | .queueAgePromotion launch => Sys2Proof.Machine.execQueueAgePromotion launch s
  | .launchStart launch => Sys2Proof.Machine.execLaunchStart launch s
  | .launchEntryRelease launch => Sys2Proof.Machine.execLaunchEntryRelease launch s
  | .faultReply stream entry => Sys2Proof.Machine.execFaultReply stream entry s
  | .commandLaunch stream => Sys2Proof.Machine.execCommandLaunch stream s
  | .commandPreempt stream => Sys2Proof.Machine.execCommandPreempt stream s
  | .commandResume stream => Sys2Proof.Machine.execCommandResume stream s
  | .commandCancel stream => Sys2Proof.Machine.execCommandCancel stream s
  | .prectlPreempt id => Sys2Proof.Machine.execPrectlPreempt id s
  | .prectlResume id => Sys2Proof.Machine.execPrectlResume id s
  | .prectlCancel id => Sys2Proof.Machine.execPrectlCancel id s
  | .preemptSaveComplete launch => Sys2Proof.Machine.execPreemptSaveComplete launch s
  | .resumeRestore launch => Sys2Proof.Machine.execResumeRestore launch s
  | .dbgctlStop ctx => Sys2Proof.Machine.execDbgctlStop ctx s
  | .dbgctlResume ctx => Sys2Proof.Machine.execDbgctlResume ctx s
  | .dbgctlSwap ctx => Sys2Proof.Machine.execDbgctlSwap ctx s
  | .eareaWrite team value => Sys2Proof.Machine.execEareaWrite team value s
  | .windowFadeTick die => Sys2Proof.Machine.execWindowFadeTick die s
  | .bistStart die stack => Sys2Proof.Machine.execBistStart die stack s
  | .bistMarchDone die stack pass => Sys2Proof.Machine.execBistMarchDone die stack pass s
  | .patrolScrub die line err => Sys2Proof.Machine.execPatrolScrub die line err s
  | .throttleTick watts temp => Sys2Proof.Machine.execThrottleTick watts temp s
  | .thermalReset die temp => Sys2Proof.Machine.execThermalReset die temp s
  | .spdmAlgorithms ok => Sys2Proof.Machine.execSpdmAlgorithms ok s
  | .spdmChallenge nonce => Sys2Proof.Machine.execSpdmChallenge nonce s
  | .spdmMeasurements index => Sys2Proof.Machine.execSpdmMeasurements index s
  | .spdmKeyExchange share => Sys2Proof.Machine.execSpdmKeyExchange share s
  | .spdmFinish ok => Sys2Proof.Machine.execSpdmFinish ok s
  | .hostMemRead addr len => Sys2Proof.Machine.execHostMemRead addr len s
  | .hostMemWrite addr data => Sys2Proof.Machine.execHostMemWrite addr data s
  | .meetingLoadFix port => Sys2Proof.Machine.execMeetingLoadFix port s
  | .portUnfence port => Sys2Proof.Machine.execPortUnfence port s
  | .portRetireTimeout port => Sys2Proof.Machine.execPortRetireTimeout port s
  | .preambleReceive port ack lanes kgen offsetPs => Sys2Proof.Machine.execPreambleReceive port ack lanes kgen offsetPs s
  | .flitReceive port f => Sys2Proof.Machine.execFlitReceive port f s
  | .laneAdmit port trained => Sys2Proof.Machine.execLaneAdmit port trained s
  | .bootstrapMeeting port verMin verMax session n p slotlen guard => Sys2Proof.Machine.execBootstrapMeeting port verMin verMax session n p slotlen guard s
  | .epochAnnounce cycle => Sys2Proof.Machine.execEpochAnnounce cycle s
  | .rekey peer => Sys2Proof.Machine.execRekey peer s
  | .rekeyDeadline peer => Sys2Proof.Machine.execRekeyDeadline peer s
  | .laserFailure port laserB => Sys2Proof.Machine.execLaserFailure port laserB s
  | .laneFlitFailures port lane => Sys2Proof.Machine.execLaneFlitFailures port lane s
  | .remoteHeaderArrival h => Sys2Proof.Machine.execRemoteHeaderArrival h s
  | .remoteChunkPerform origin tag first bytes => Sys2Proof.Machine.execRemoteChunkPerform origin tag first bytes s
  | .remoteMsvCombine origin tag => Sys2Proof.Machine.execRemoteMsvCombine origin tag s
  | .remoteGetServe origin tag => Sys2Proof.Machine.execRemoteGetServe origin tag s
  | .remoteAtomPerform origin tag => Sys2Proof.Machine.execRemoteAtomPerform origin tag s
  | .remoteArrival origin tag => Sys2Proof.Machine.execRemoteArrival origin tag s
  | .relayEnqueue h data => Sys2Proof.Machine.execRelayEnqueue h data s
  | .remoteAckReceive h => Sys2Proof.Machine.execRemoteAckReceive h s
  | .remoteReplyReceive h data => Sys2Proof.Machine.execRemoteReplyReceive h data s
  | .remoteRefusal h => Sys2Proof.Machine.execRemoteRefusal h s
  | .loopbackPerform op => Sys2Proof.Machine.execLoopbackPerform op s
  | .writePerformed op => Sys2Proof.Machine.execWritePerformed op s
  | .contextDestruction ctx => Sys2Proof.Machine.execContextDestruction ctx s
  | .powerLoss duringTableWrite => Sys2Proof.Machine.execPowerLoss duringTableWrite s
  | .commandOpenStream => Sys2Proof.Machine.execCommandOpenStream s
  | .commandCreateContext => Sys2Proof.Machine.execCommandCreateContext s
  | .calnEnable => Sys2Proof.Machine.execCalnEnable s
  | .calnDisable => Sys2Proof.Machine.execCalnDisable s
  | .deviceReset => Sys2Proof.Machine.execDeviceReset s
  | .spdmVersion => Sys2Proof.Machine.execSpdmVersion s
  | .spdmCapabilities => Sys2Proof.Machine.execSpdmCapabilities s
  | .spdmDigests => Sys2Proof.Machine.execSpdmDigests s
  | .spdmCertificate => Sys2Proof.Machine.execSpdmCertificate s
  | .spdmKeyUpdate => Sys2Proof.Machine.execSpdmKeyUpdate s
  | .spdmEndSession => Sys2Proof.Machine.execSpdmEndSession s
  | .clockSteer => Sys2Proof.Machine.execClockSteer s
  | .dataCalendarStart => Sys2Proof.Machine.execDataCalendarStart s

end Sys2Proof.Machine
end

