-- ==== Sys2Proof/Machine/Select.lean ====
section
/-!
DEFINITION. Which step comes next: issue selection (spec/08_core.md R212, R213), the end of a cycle (ages, stall times and
counters, timers), and the events that are due. The order of agents that the manual leaves open is said by the agenda;
the default is the model's: DESIGN CHOICE, log 11.
-/

namespace Sys2Proof.Machine

/-! ## One path's next instruction -/

/-- The word at the path's PC, inside its block, runs. -/
def State.runWord (s : State) (p : PathRef) (l : Leaf) : Host.Outcome State Fault Refusal :=
  match s.fetchInstr p l with
  | .cause c v g => .next (s.wordCause p l c v g)
  | .instr i => exec i { s with cur := some p }

/-- R61, R62: a leaf at a header enters it, and its first word follows. -/
def State.runHeader (s : State) (p : PathRef) (l : Leaf) : Host.Outcome State Fault Refusal :=
  match s.fetch p.wave l.pc with
  | .error c => .next (s.wordCause p l c l.pc.toNat Guard.always)
  | .ok h =>
    if s.headerOk p.wave h then
      let s := { s.enterBlock p h with free := s.free + 1 }
      match s.leafAt p with
      | none => .next s
      | some l => s.runWord p l
    else .next (s.wordCause p l 0x1A l.pc.toNat Guard.always)

/-- R373, R377: the TLBs keep the translation of a fetch, and the fetch reaches its line. -/
def State.fillFetch (s : State) (w a : Nat) : State :=
  if inWindows a || a ≥ 2 ^ 56 then s
  else
    let s := match s.fetchPlace w a with
      | .ok p => s.touch p 8
      | .error _ => s
    s.tlbFill (s.coreOf w) (s.ctxNo w) a (s.draw 0)

/-- What the path does when it is chosen. The answer has `held` set when it cannot issue now. -/
def State.runPath (s : State) (p : PathRef) : Host.Outcome State Fault Refusal :=
  match s.leafAt p with
  | none => .next (s.hold 15)
  | some l =>
    if l.bad then .next (s.entryError p)
    else if s.boundaryDue p l then exec (.boundaryCauseDelivery p) s
    else
      match s.pathHold p l with
      | some c =>
        if (l.wait == .bar || l.wait == .bard || l.wait == .barp) && s.givesWay p then .next (s.switchLeaf p .yielded)
        else .next (s.hold c)
      | none =>
        match l.wait with
        | .drain _ => .next ((s.waitOver p).finishIssue p (s.place p) (.tlbi Guard.always .all) [])
        | .watch _ cs step => .next (s.raiseWatch p cs step)
        | .stepped => .next (s.raiseStep p)
        | _ =>
        let s := { s.fillFetch p.wave l.pc.toNat with free := s.free + 1 }
        if l.pos = 0 then s.runHeader p l else s.runWord p l

/-- Why the path cannot issue now; `none` when it can. -/
def State.heldFor (s : State) (p : PathRef) : Option Nat :=
  match s.runPath p with
  | .next s' => s'.held
  | _ => none

/-! ## Selection (R212, R213) -/

/-- The first of the paths that can issue does. -/
def State.firstReady (s : State) : List Cand → Option (Host.Outcome State Fault Refusal)
  | [] => none
  | c :: r =>
    match s.runPath c.ref with
    | .next s' => if s'.held.isNone then some (.next s') else State.firstReady s r
    | o => some o

/-- The partitions, as core × 4 + partition, that hold a wave. -/
def State.partitions (s : State) : List Nat :=
  s.waves.foldl (fun l (k, w) =>
    let n := s.coreOf k * 4 + w.part
    if w.cond == .waiting || w.cond == .ended || l.contains n then l else l ++ [n]) []

/-- The lowest partition not yet selected in this cycle. -/
def State.nextPartition (s : State) : Option Nat :=
  leastBy id (s.partitions.filter fun n => s.turn ≤ n && !(s.spent.contains n))

/-! ## The end of a cycle -/

/-- Table 19.6, priority column. -/
def reasonRank (c : Nat) : Nat :=
  if c = 12 then 1 else if 2 ≤ c && c ≤ 5 then 2 else if c = 8 then 3 else if c = 9 then 4 else if c = 10 then 5
  else if c = 11 then 6 else if c = 13 then 7 else if c = 14 then 8 else if c = 15 then 9 else 10

/-- What the next instruction of a path is held on, whatever else holds the path. -/
def State.instrHold (s : State) (p : PathRef) (l : Leaf) : Option Nat :=
  if l.wait != .idle then none
  else
    match s.upNext p l with
    | none => none
    | some i => (s.performs p l i).findSome? fun e => s.waveHold i e.1 e.2.1 e.2.2

/-- Table 19.6: why a live slot of a resident wave is not ready: of the reasons that hold it, the first by the priority column.
A slot all of whose paths have parked counts as serialised. DEDUCED, log 34. -/
def State.slotReason (s : State) (k : Nat) (w : Wave) (q : Slot) : Option Nat :=
  match (w.tree q).running with
  | none => if w.root.isSome then some 11 else none
  | some l =>
    leastBy reasonRank (
      (if throttled s || yielded s w then [15] else []) ++ s.pathHolds ⟨k, q⟩ l ++ (s.heldFor ⟨k, q⟩).toList ++
        (s.instrHold ⟨k, q⟩ l).toList ++ if w.paddock q then [1] else [])

/-- Table 19.6 and Table 8.1: why a wave issued nothing. An instruction is fetched in the cycle in which it is wanted, so
reason 12 never stands: DESIGN CHOICE, log 127. -/
def State.stallReason (s : State) (k : Nat) (w : Wave) : Nat :=
  match w.cond with
  | .stable => 7
  | .resident =>
    if w.moving then 15
    else
      if s.inPaddock w k then 6
      else if w.liveSlots.isEmpty then 15
      else
        match s.slotReason k w .a with
        | some c => c
        | none =>
          match s.slotReason k w .b with
          | some c => c
          | none => 0
  | _ => 15

/-- R218: none of the wave's live slots is ready. -/
def State.noneReady (s : State) (k : Nat) (w : Wave) : Bool :=
  [Slot.a, Slot.b].all fun q =>
    match (w.tree q).running with
    | none => true
    | some _ => throttled s || yielded s w || w.paddock q || (s.heldFor ⟨k, q⟩).isSome

/-- R123: a slot's fairness timer counts: the wave is in, not in the Paddock as a whole, and not stopped by a debugger with all
its paths. DEDUCED, log 119. -/
def State.fairCounts (s : State) (k : Nat) (w : Wave) (q : Slot) : Bool :=
  w.cond == .resident && !(s.inPaddock w k) && !((w.slotA.leaves ++ w.slotB.leaves).all Leaf.stopped) &&
    (w.tree q).running.isSome && decide ((w.tree q).leaves.length ≥ 2)

/-- R123: the launch is pre-empted, or the team is leaving or has left. -/
def State.fairHeld (s : State) (k : Nat) : Bool := s.frozen k || (s.launch (s.launchNo k)).st == 4

/-- R217: what a swapped wave was stalled on is satisfied: nothing holds the running leaf of one of its live slots, and it waits for
no long miss. -/
def State.stallOver (s : State) (k : Nat) (w : Wave) : Bool :=
  [Slot.a, Slot.b].any fun q =>
    match (w.tree q).running with
    | none => false
    | some l =>
      !l.stopped &&
        match l.wait with
        | .counters ws a b c t => ws.all fun h => (s.waitcHold h a b c t).isNone
        | .word ws => ws.all fun x => s.genAt x.2.1 != x.2.2
        | _ => (s.heldFor ⟨k, q⟩).isNone && !(s.awaitsLong ⟨k, q⟩)

/-- One cycle's end for one wave. Stall time counts resident cycles only, and a wave comes back from the Stable with the stall
time it left with: DESIGN CHOICE, log 128. -/
def State.tickWave (s : State) (k : Nat) (w : Wave) : Wave :=
  let issuedNow := w.issuedAt == some s.cycle
  let admitted := w.slot.isSome || w.cond == .stable
  if w.cond == .waiting || w.cond == .ended || w.cond == .out then w
  else
    let held := s.launchHeld (s.launchNo k)
    let fheld := s.fairHeld k
    let conc := s.laneClassOf k == 2
    let r := s.stallReason k w
    let c := nth 0 w.stallc r
    let f := fun (q : Slot) (n : Nat) => if conc && !fheld && s.fairCounts k w q then n - 1 else n
    { w with
      age := if admitted && w.cond == .resident then w.age + 1 else w.age
      stall := if w.cond == .resident && !issuedNow && s.noneReady k w then w.stall + 1 else w.stall
      stallc := if issuedNow || c ≥ 2 ^ 24 - 1 then w.stallc else setIdx w.stallc r (c + 1)
      fairA := f .a w.fairA
      fairB := f .b w.fairB
      starvLeft := if w.starvArmed && !held then w.starvLeft - 1 else w.starvLeft
      readyAt := if w.cond == .stable && w.readyAt.isNone && s.stallOver k w then some s.cycle else w.readyAt
      paddockA := w.paddockA || (w.cond == .resident && s.awaitsLong ⟨k, .a⟩)
      paddockB := w.paddockB || (w.cond == .resident && s.awaitsLong ⟨k, .b⟩) }

/-- R226: for how many cycles each partition of a core has issued nothing while a candidate was ready; the cycles in which
throttling stops all issue are left out. DESIGN CHOICE, log 107. -/
def State.tickCore (s : State) (key : Nat) (c : Core) : Core :=
  if throttled s then c
  else
  { c with
    idle := (upto 4).map fun q =>
      let ws := s.slotWaves key q
      if (ws.any fun x => x.2.issuedAt == some s.cycle) || !(ws.any fun x => x.2.cond == .resident && !(s.noneReady x.1 x.2)) then 0
      else nth 0 c.idle q + 1 }

/-- The timers that stand at zero after the cycle's end, as the events they cause. -/
def State.expiries (s : State) : List Instr :=
  ((s.regroup.filter s.windowOver).map fun r => Instr.regroupWindowClose r.team r.part r.brd.toNat) ++
  s.waves.flatMap fun (k, w) =>
    let conc := s.laneClassOf k == 2
    let held := s.launchHeld (s.launchNo k)
    let fheld := s.fairHeld k
    (if conc && !fheld && w.fairA == 0 && s.fairCounts k w .a then [Instr.fairnessTimerExpiry ⟨k, .a⟩] else []) ++
      (if conc && !fheld && w.fairB == 0 && s.fairCounts k w .b then [Instr.fairnessTimerExpiry ⟨k, .b⟩] else []) ++
      (if w.deferA then [Instr.fairnessDeferredSwitch ⟨k, .a⟩] else []) ++
      (if w.deferB then [Instr.fairnessDeferredSwitch ⟨k, .b⟩] else []) ++
      (if w.starvArmed && !held && w.starvLeft == 0 && w.cond != .out then [Instr.starvationExpiry k] else [])

/-! ## Events that are due by themselves -/

def slotRefs (k : Nat) : List PathRef := [⟨k, .a⟩, ⟨k, .b⟩]

def coreId (n : Nat) : CoreId := ⟨n / 64, n % 64⟩

/-- R226, R367, R377: what the dies and cores do by the count of cycles. DEDUCED, log 99. -/
def State.dieEvents (s : State) : List Instr :=
  (s.dies.flatMap fun (n, d) =>
    (if s.cycle % d.fadePeriod = 0 then [Instr.windowFadeTick n] else []) ++
      if d.bistint != 0 && s.cycle % (d.bistint * 2 ^ 30) = 0 then (upto 4).map fun k => Instr.bistStart n k else []) ++
  (s.cores.flatMap fun (n, c) =>
    ((upto 4).filter fun q => decide (2 ^ 24 ≤ nth 0 c.idle q)).map fun q => Instr.coreFence (coreId n) (.stalled q))

/-- The calendar's own events (R446 to R448, R454, R456). -/
def State.calEvents (s : State) : List Instr :=
  match s.cal.phase with
  | .off => []
  | _ =>
    [Instr.clockSteer, .dataCalendarStart] ++
      ((upto 16).flatMap fun n => [Instr.meetingLoadFix n, .portUnfence n, .portRetireTimeout n]) ++
      s.peers.keys.map fun q => Instr.rekeyDeadline q

/-- R234, R482: what happens as soon as it can: the calendar's events, an acknowledgement that has come, and the end of a wait.
DESIGN CHOICE, log 110. -/
def State.promptEvents (s : State) : List Instr :=
  s.calEvents ++
    (s.arrived.filterMap fun x =>
      match x.2 with
      | .header h => if h.kind == .ack then some (Instr.remoteAckReceive h) else none
      | _ => none) ++
    s.waves.flatMap fun (k, _) => (slotRefs k).flatMap fun p => [Instr.waitcComplete p, .waitwComplete p]

/-- What may be done with a payload that a meeting has handed over; acknowledgements are prompt. -/
def State.payloadEvents (s : State) : Payload → List Instr
  | .fill | .lanes _ | .noKind _ => []
  | .chunk o t f bs =>
    [Instr.remoteChunkPerform o t f bs] ++
      (s.peers.flatMap fun x => (x.2.relay.filter fun y => y.header.origin == o && y.header.tag == t).map fun y =>
        Instr.relayEnqueue y.header bs)
  | .header h =>
    match h.kind with
    | .ack => []
    | .refusal => [.remoteRefusal h]
    | .rgetData | .ratomReply =>
      s.arrived.filterMap fun x =>
        match x.2 with
        | .chunk o t f bs => if o == h.origin && t == h.tag && f == h.first then some (.remoteReplyReceive h bs) else none
        | _ => none
    | _ => [.remoteHeaderArrival h, .relayEnqueue h []]

/-- The events of remote operations (spec/21_fabric_transfers.md). -/
def State.fabricEvents (s : State) : List Instr :=
  (s.arrived.flatMap fun x => s.payloadEvents x.2) ++
    s.inbound.flatMap fun x =>
      let o := x.header.origin
      let t := x.header.tag
      (x.owed.map fun c => .remoteChunkPerform o t c.1 []) ++
        [.remoteMsvCombine o t, .remoteGetServe o t, .remoteAtomPerform o t, .remoteArrival o t]

/-- Words whose owner stands in the way of a store (R345). -/
def State.revokeEvents (s : State) : List Instr :=
  s.ops.flatMap fun (_, o) =>
    let ws := if o.done then [] else o.body.storeWords
    (ws.filter fun w => (ownerOf s.owners w).any fun c => c != o.core).map fun w => Instr.ownershipRevoke w

/-- Pairs of waves of one team and partition that may merge (R132). -/
def State.mergeEvents (s : State) : List Instr :=
  let ws := s.waves.filter fun (k, _) => (s.recdOf k).merge && s.mergeable k
  ws.flatMap fun (k, w) => (ws.filter fun (_, y) => y.team == w.team && y.part == w.part && decide (w.ixw < y.ixw)).map fun (j, _) =>
    Instr.waveMerge k j

/-- The events that the device's own engines may take now, in the default order. DESIGN CHOICE, log 110. -/
def State.engineEvents (s : State) : List Instr :=
  (s.ops.flatMap fun (n, o) =>
    match o.body with
    | .copy _ runs => (runs.head?.map fun r => Instr.copyChunk n r.chunk).toList
    | .remote _ => [.loopbackPerform n]
    | _ => [.loadReturn n, .ownershipAck n, .writePerformed n]) ++
  s.revokeEvents ++
  (s.dies.flatMap fun (n, d) => d.chq.keys.map fun c => Instr.hbmRequestServe n c none LineErr.clean) ++
  (s.waves.flatMap fun (k, _) =>
    (slotRefs k).flatMap fun p => [.paddockLeave p, .mmtStep p false]) ++
  (s.cores.flatMap fun (n, c) =>
    c.mq.flatMap fun (q, _) => [.matrixWriteComplete (coreId n) q, .matrixEntryStart (coreId n) q]) ++
  (s.cores.flatMap fun (n, c) => if c.treeQ.isEmpty then [] else [.treeUnitExecute (coreId n) none])

/-- R224: a launch at the head of its queue that needs cores of its split, on the clusters of its placement. -/
def State.drainEvents (s : State) (l : Nat) : List Instr :=
  if s.isHead l then
    let x := s.mapLaunch (s.launch l)
    (x.dies.zip x.clusters).flatMap fun p => p.2.map fun c => Instr.coreDrainSelect l p.1 c
  else []

def State.workEvents (s : State) : List Instr :=
  (s.waves.keys.flatMap fun k => [Instr.regionResume k, .stableImageMoved k, .waveEnd k]) ++
  (s.teams.keys.map fun t => Instr.barRelease t) ++
  (s.launches.flatMap fun (l, _) => s.drainEvents l) ++
  (s.launches.flatMap fun (l, x) =>
    ((upto x.recd.d).map fun d => Instr.bardRelease l d) ++ [.barpRelease l, .launchDependenceMet l, .queueAgePromotion l,
      .launchStart l, .teamPlace l, .preemptSaveComplete l, .resumeRestore l, .launchEntryRelease l]) ++
  (s.waves.flatMap fun (_, w) => (w.slotA.leaves ++ w.slotB.leaves).filterMap fun l =>
    match l.wait with
    | .fault x e => (firstIdx (fun (y : Stream) => y.base == x) s.streams 0).map fun n => Instr.faultReply n e
    | _ => none) ++
  s.mergeEvents ++
  (s.teams.keys.map fun t => Instr.starvationTeamReturn t) ++
  (s.regroup.map fun r => Instr.regroupWindowClose r.team r.part r.brd.toNat) ++
  (s.partitions.flatMap fun n => [Instr.waveComeIn (coreId (n / 4)) (n % 4), .stableDisplace (coreId (n / 4)) (n % 4)]) ++
  (s.cores.keys.flatMap fun n => [Instr.coreDrainEnd (coreId n), .repartitionDone (coreId n)]) ++
  ((upto s.streams.length).flatMap fun n =>
    [Instr.commandLaunch n, .commandPreempt n, .commandResume n, .commandCancel n, .commandOpenStream,
      .commandCreateContext])

/-- The event changes the state. -/
def State.moves (s : State) (e : Instr) : Bool :=
  match exec e s with
  | .next s' => s' != s
  | _ => false

/-- The first event of the default order that changes anything. -/
def State.internalEvent (s : State) : List Instr :=
  match (s.engineEvents ++ s.fabricEvents ++ s.workEvents).find? s.moves with
  | some e => [e]
  | none => []

/-- R213: the end of a cycle. DESIGN CHOICE, log 110. -/
def State.tick (s : State) : State :=
  let waves := s.waves.map fun k w => s.tickWave k w
  let due := s.internalEvent
  let s := { s with
    waves := waves
    cores := s.cores.map fun k c => s.tickCore k c
    cycle := s.cycle + 1
    turn := 0
    spent := []
    cal := match s.cal.phase with
      | .off => s.cal
      | _ => { s.cal with ps := s.cal.ps + 500 } }
  { s with agenda := s.expiries ++ s.dieEvents ++ s.promptEvents.filter s.moves ++ due }

/-! ## The next step -/

/-- After every step: no path is issuing, and completed operations that no older one of their class precedes fall out
of their counters (R234). -/
def State.settled (s : State) : State := { s with cur := none, held := none, ops := retire s.ops }

def settleOutcome : Host.Outcome State Fault Refusal → Host.Outcome State Fault Refusal
  | .next s => .next s.settled
  | .fault r => .fault r
  | .refused r => .refused r

/-- The partition's rotation cycle is over. -/
def settleRot (r : List Nat) : Host.Outcome State Fault Refusal → Host.Outcome State Fault Refusal
  | .next s => .next { s with rot := r }
  | .fault f => .fault f
  | .refused f => .refused f

/-- R429: a device that stays in reset for want of a good firmware copy takes no event but the next reset or loss of power. -/
def State.takes (s : State) (e : Instr) : Bool :=
  e.isEvent && (!s.bootFailed || match e with
    | .deviceReset | .powerLoss _ => true
    | _ => false)

/-- The step itself: the agenda's next event, else the path granted, else the partition whose rotation cycle stands first, else the
next partition's selection, else the end of the cycle. DESIGN CHOICE, log 11. -/
def State.nextStep (s : State) : Host.Outcome State Fault Refusal :=
  match s.agenda with
  | e :: r => if s.takes e then exec e { s with agenda := r } else .next { s with agenda := r }
  | [] =>
    match s.grant, s.rot with
    | some p, _ => { s with grant := none }.runPath p
    | none, n :: r =>
      (s.firstReady (sortCands true (s.candidates (n / 4) (n % 4)))).elim (.next { s with rot := r })
        (settleRot r)
    | none, [] =>
      match s.nextPartition with
      | none => .next s.tick
      | some n =>
        let s' := { s with turn := n + 1 }
        if throttled s then .next s'
        else
          match s'.firstReady (sortCands (rotationCycleNow s) (s.candidates (n / 4) (n % 4))) with
          | some o => o
          | none => .next s'

end Sys2Proof.Machine
end

