-- ==== Sys2Proof/Machine/Step.lean ====
section
/-!
DEFINITION. One step of the package, and the state with an instruction placed where the next step fetches it.
-/

namespace Sys2Proof.Machine

/-- One step: what comes next, and what follows every step. -/
def step (s : State) : Host.Outcome State Fault Refusal := settleOutcome s.nextStep

/-- `s` with the instruction whose bits are `w` (bit 0 the least significant of the first word, the bits above `nbits`
zero) in a block of its own, at which a resident wave stands. Log 21 says how a program comes to run from reset.
DESIGN CHOICE, log 21. -/
def State.withFetchWord (s : State) (nbits w : Nat) : State :=
  let n := w % 2 ^ nbits
  s.placeProgram [BitVec.ofNat 64 n, BitVec.ofNat 64 (n / 2 ^ 64)]

end Sys2Proof.Machine
end

