-- ==== Sys2Proof/Safety.lean ====
section
/-!
DEFINITION. The terms in which claims are made: canonical memory, what holds between steps, when an instruction that is asked for
goes through with its own effect, what of a wave is control and what are its registers, and what a step leaves alone.
-/

namespace Sys2Proof.Machine

/-! ## Between steps -/

/-- Every memory of the package is in its one canonical form: device memory, the vaults, host memory and each team's
scratchpad. -/
def State.memOk (s : State) : Bool :=
  Memory.wf s.dev && Memory.wf s.vault && Memory.wf s.host && s.teams.all fun t => Memory.wf t.2.spad

/-- No completed operation stands in a counter without an older one of its wave and class before it (R234). -/
def State.countersOk (s : State) : Bool := retire s.ops == s.ops

/-- Between two steps no path is issuing, and the counters hold no operation that has fallen out of them. -/
def State.between (s : State) : Bool := s.cur.isNone && s.held.isNone && s.countersOk

/-! ## An instruction that goes through -/

/-- What `i` acts on when the path `p` with leaf `l` issues it: each home wave with its lanes and the active ones; with no
active lane in a wave only an instruction whose guard is its condition acts (`always`). -/
def State.acting (s : State) (p : PathRef) (l : Leaf) (i : Instr) (g : Guard) (always : Bool) : List Env :=
  let all := s.envs p l g (instrWord i)
  if always then all else all.filter fun e => e.act != 0

/-- The path `p`, whose running leaf is `l`, is issuing `i` under guard `g`, and nothing of the wave stands in its way: it is
within the block's and the launch's registers and the wave's privilege (Table 3.5), nothing it needs is busy (R212), no
register that it reads holds an error, and no single step is due after it. -/
def State.clear (s : State) (p : PathRef) (l : Leaf) (i : Instr) (g : Guard) (always : Bool) : Bool :=
  let on := s.acting p l i g always
  s.issuing == some (p, l) && (s.decodeCause p l i).isNone && (s.holdOf p l i (on.map fun e => (e.wave, e.mine, e.act))).isNone &&
    !(s.stepDue p i) && ((s.homes p).all fun h => (s.waves.look h.1).isSome && (s.wave h.1).upset.isEmpty) &&
    decide ((s.homes p).map Prod.fst).Nodup

/-! ## What of a wave is not control -/

/-- The wave without its place in the control structures and its selection data: registers of every class, flags, counters,
tile and accumulator status, the trap registers and the collecting state are left. -/
def Wave.regs (w : Wave) : Wave :=
  { w with
    started := false, lastSlot := none, issuedAt := none, age := 0, stall := 0, resv := [], ldres := [], root := none
    slotA := .empty, slotB := .empty, fairA := 0, fairB := 0, deferA := false, deferB := false, region := none, cond := .resident, trapSlot := none, trapMask := 0 }

/-- From `s` to `t` only waves have changed. -/
def State.onlyWaves (s t : State) : Prop := t = { s with waves := t.waves }

/-- From `s` to `t` each home wave that an instruction acts on has had its registers changed as `f` says, and nothing else
but the control of waves has changed: no other register, no other wave's register, no byte of memory. -/
def State.registersBecome (s t : State) (on : List Env) (f : Env → Wave → Wave) : Prop :=
  s.onlyWaves t ∧ ∀ k, (t.wave k).regs =
    match on.find? fun e => e.wave == k with
    | some e => (f e (s.wave k)).regs
    | none => (s.wave k).regs

end Sys2Proof.Machine
end

