-- ==== Sys2Proof/Certificates/Slice0/Obligations.lean ====
section
/-!
DEFINITION. What is claimed of the model, each statement a proposition; the numbered rules are those of spec/.
-/

namespace Sys2Proof.Claims

open Sys2Proof.Machine

/-! ## Forms of claim -/

/-- The state after `i` has changed the registers of the home waves it acts on as `f` says: the path has moved on by `i`'s words
(`Obligations.EndOfIssue` says what that leaves). -/
def ran (s : State) (p : PathRef) (l : Leaf) (i : Instr) (g : Guard) (f : Env → Wave → Wave) : State :=
  (((s.acting p l i g false).foldl (fun s e => s.updWave e.wave (f e)) (s.issued p l)).advance p i).moved p (s.place p)

/-- Whenever `i` goes through, it answers the state in which its path has gone on to the next word and of all registers exactly those of
the home waves have changed, as `f` says. -/
def onRegisters (i : Instr) (g : Guard) (f : Env → Wave → Wave) : Prop :=
  ∀ (s : State) (p : PathRef) (l : Leaf), s.clear p l i g false = true →
    exec i s = .next (ran s p l i g f) ∧ s.registersBecome (ran s p l i g f) (s.acting p l i g false) f

/-- The same for an instruction that a regrouped group may not issue (R129): by a group it traps with 0x21 on every home wave
with an active lane, and does nothing else. -/
def acrossLanes (i : Instr) (g : Guard) (f : Env → Wave → Wave) : Prop :=
  (∀ (s : State) (p : PathRef) (l : Leaf), s.clear p l i g false = true → s.groupOf p = none →
    exec i s = .next (ran s p l i g f) ∧ s.registersBecome (ran s p l i g f) (s.acting p l i g false) f) ∧
  ∀ (s : State) (p : PathRef) (l : Leaf), s.clear p l i g false = true → (s.groupOf p).isSome = true → s.acting p l i g false ≠ [] →
    exec i s = .next (s.raiseOrHold p ((s.acting p l i g false).map fun e => ⟨e.wave, 0x21, e.act, instrWord i⟩))

/-- Results for a destination of either class: at 32 bits in each active lane and block position, or once at 64 bits. -/
def deliver (d : Dst) (blk : Block) (lane : Wave → Nat × Nat → Nat → Word × Fl) (uni : Wave → DWord × Fl) (e : Env) (w : Wave) : Wave :=
  match d with
  | .v n => w.vecEff e.act n blk (lane w)
  | .s n => w.uniEff n (uni w)

/-! ## Integer arithmetic as the rules give it -/

/-- `sats`: the nearest value of `n` signed bits, and SAT when it is not the value itself. -/
def clampS (n : Nat) (r : Int) : BitVec n × Fl :=
  let v := max (-(2 ^ (n - 1))) (min (2 ^ (n - 1) - 1) r)
  (BitVec.ofInt n v, if v = r then 0 else flSAT)

/-- `satu`. -/
def clampU (n : Nat) (r : Int) : BitVec n × Fl :=
  let v := max 0 (min (2 ^ n - 1) r)
  (BitVec.ofInt n v, if v = r then 0 else flSAT)

/-- The three variants of an operation with wrapped result `x` and exact results `i` and `u` on signed and unsigned operands. -/
def byVar (k : Sat) {n : Nat} (x : BitVec n) (i u : Int) : BitVec n × Fl :=
  match k with
  | .wrap => (x, 0)
  | .ss => clampS n i
  | .us => clampU n u

/-- Two-operand integer instructions. -/
inductive Int2 where
  | add (k : Sat) | sub (k : Sat) | mul (k : Sat) | mulh (u : Bool) | min (u : Bool) | max (u : Bool)
  | and | or | xor | andn | shl | shr | sar | rotl | lea (k : BitVec 3)

def Int2.instr (o : Alu2) : Int2 → Instr
  | .add k => .iadd k o
  | .sub k => .isub k o
  | .mul k => .imul k o
  | .mulh u => .imulh u o
  | .min u => .imin u o
  | .max u => .imax u o
  | .and => .andw o
  | .or => .orw o
  | .xor => .xorw o
  | .andn => .andn o
  | .shl => .shl o
  | .shr => .shr o
  | .sar => .sar o
  | .rotl => .rotl o
  | .lea k => .lea k o

/-- Their results at width `n` (R136, R137, R141, R142, R147). -/
def Int2.result (n : Nat) (x y : BitVec n) : Int2 → BitVec n × Fl
  | .add k => byVar k (x + y) (x.toInt + y.toInt) (x.toNat + y.toNat)
  | .sub k => byVar k (x - y) (x.toInt - y.toInt) ((x.toNat : Int) - y.toNat)
  | .mul k => byVar k (x * y) (x.toInt * y.toInt) (x.toNat * y.toNat)
  | .mulh false => (((x.signExtend (2 * n) * y.signExtend (2 * n)) >>> n).setWidth n, 0)
  | .mulh true => (((x.setWidth (2 * n) * y.setWidth (2 * n)) >>> n).setWidth n, 0)
  | .min false => (if x.slt y then x else y, 0)
  | .min true => (if x.ult y then x else y, 0)
  | .max false => (if x.slt y then y else x, 0)
  | .max true => (if x.ult y then y else x, 0)
  | .and => (x &&& y, 0)
  | .or => (x ||| y, 0)
  | .xor => (x ^^^ y, 0)
  | .andn => (x &&& ~~~y, 0)
  | .shl => (x <<< y.toNat, 0)
  | .shr => (x >>> y.toNat, 0)
  | .sar => (x.sshiftRight y.toNat, 0)
  | .rotl => (x.rotateLeft (y.toNat % n), 0)
  | .lea k => (x + y <<< k.toNat, 0)

/-- One-operand integer instructions. -/
inductive Int1 where
  | neg (ss : Bool) | abs (ss : Bool) | not | popc | clz | ctz | brev | mov

def Int1.instr (o : Alu1) : Int1 → Instr
  | .neg ss => .ineg ss o
  | .abs ss => .iabs ss o
  | .not => .notw o
  | .popc => .popc o
  | .clz => .clz o
  | .ctz => .ctz o
  | .brev => .brev o
  | .mov => .mov o

/-- Their results (R136, R140, R141, R143, R148). -/
def Int1.result (n : Nat) (x : BitVec n) : Int1 → BitVec n × Fl
  | .neg false => (-x, 0)
  | .neg true => clampS n (-x.toInt)
  | .abs false => (if x.msb then -x else x, 0)
  | .abs true => clampS n x.toInt.natAbs
  | .not => (~~~x, 0)
  | .popc => (BitVec.ofNat n ((List.range n).countP fun i => x.getLsbD i), 0)
  | .clz => (BitVec.ofNat n (if x = 0 then n else n - 1 - x.toNat.log2), 0)
  | .ctz => (BitVec.ofNat n (if x = 0 then n else (x &&& -x).toNat.log2), 0)
  | .brev => (x.reverse, 0)
  | .mov => (x, 0)

/-- The field of a bit-field instruction: its position and length, when it has one (R144). -/
def fieldAt {n : Nat} (pos len : BitVec n) : Option (Nat × Nat) :=
  if pos.toNat < n ∧ len.toNat ≠ 0 then some (pos.toNat, if pos.toNat + len.toNat ≤ n then len.toNat else n - pos.toNat) else none

/-- R144. -/
def extract (sx : Bool) {n : Nat} (x pos len : BitVec n) : BitVec n :=
  match fieldAt pos len with
  | none => 0
  | some (p, k) => if sx then (x.extractLsb' p k).signExtend n else (x.extractLsb' p k).setWidth n

/-- R145. -/
def insert {n : Nat} (old x pos len : BitVec n) : BitVec n :=
  match fieldAt pos len with
  | none => old
  | some (p, k) =>
    let m : BitVec n := (BitVec.allOnes k).setWidth n <<< p
    (old &&& ~~~m) ||| ((x <<< p) &&& m)

end Sys2Proof.Claims

open Sys2Proof Sys2Proof.Machine Sys2Proof.Claims

/-! ## Arithmetic and registers -/

/-- The integer instructions: each active lane gets the result of the rules at 32 bits, or a uniform register the result at 64 bits, with SAT
where a clamp acts, and no other register or byte of memory changes; the path goes on to the next word; IMADW writes a 64-bit sum to a register pair or a 128-bit sum to a pair of uniform registers;
IADDC adds the carry that its predicate holds and writes the carry out back. That a uniform IADDC (DU 1) of a group takes each home wave's own
lowest active lane is the model's choice.
Choices of the model it rests on: log 132. -/
def Obligations.IntegerArithmetic : Prop :=
  (∀ (k : Int2) (o : Alu2), onRegisters (k.instr o) o.g
     (deliver o.d o.blk (fun w pos l => k.result 32 (o.a.word w pos l) (o.b.word immInt32 w pos l))
       fun w => k.result 64 (o.a.uni w) (o.b.uni immInt64 w))) ∧
  (∀ (k : Int1) (o : Alu1), onRegisters (k.instr o) o.g
     (deliver o.d o.blk (fun w pos l => k.result 32 (o.a.word w pos l)) fun w => k.result 64 (o.a.uni w))) ∧
  (∀ (o : Alu3),
     (∀ k, onRegisters (.imad k o) o.g
       (deliver o.d o.blk
         (fun w pos l =>
           let x := o.a.word w pos l
           let y := o.b.word immInt32 w pos l
           let z := o.c.word w pos l
           byVar k (x * y + z) (x.toInt * y.toInt + z.toInt) (x.toNat * y.toNat + z.toNat))
         fun w =>
           let x := o.a.uni w
           let y := o.b.uni immInt64 w
           let z := o.c.uni w
           byVar k (x * y + z) (x.toInt * y.toInt + z.toInt) (x.toNat * y.toNat + z.toNat))) ∧
     (∀ sx, onRegisters (.bfx sx o) o.g
       (deliver o.d o.blk (fun w pos l => (extract sx (o.a.word w pos l) (o.b.word immInt32 w pos l) (o.c.word w pos l), 0))
         fun w => (extract sx (o.a.uni w) (o.b.uni immInt64 w) (o.c.uni w), 0))) ∧
     onRegisters (.bfi o) o.g fun e w =>
       match o.d with
       | .v n => w.vecEff e.act n o.blk fun pos l =>
           (insert (w.vreg (regAt n false pos) l) (o.a.word w pos l) (o.b.word immInt32 w pos l) (o.c.word w pos l), 0)
       | .s n => w.uniEff n (insert (w.sreg n.toNat) (o.a.uni w) (o.b.uni immInt64 w) (o.c.uni w), 0)) ∧
  ((∀ (u : Bool) (o : Alu3), onRegisters (.imadw u o) o.g fun e w =>
     match o.d with
     | .v n => w.pairEff e.act n o.blk fun pos l =>
         let x := o.a.word w pos l
         let y := o.b.word immInt32 w pos l
         let z := o.c.dword w pos l
         (if u then x.setWidth 64 * y.setWidth 64 + z else x.signExtend 64 * y.signExtend 64 + z, 0)
     | .s n =>
       let x := o.a.uni w
       let y := o.b.uni immInt64 w
       let z := o.c.uni w
       let r : BitVec 128 := if u then x.setWidth 128 * y.setWidth 128 + z.setWidth 128
         else x.signExtend 128 * y.signExtend 128 + z.signExtend 128
       (w.setS n.toNat (r.extractLsb' 0 64)).setS (n.toNat + 1) (r.extractLsb' 64 64)) ∧
   ∀ (o : AluP), onRegisters (.iaddc o) o.g fun e w =>
     let c := w.preg o.c.toNat
     match o.d with
     | .v n =>
       let sum := fun (l : Nat) => (o.a.word w (0, 0) l).setWidth 33 + (o.b.word immInt32 w (0, 0) l).setWidth 33 +
         (BitVec.ofBool (c.getLsbD l)).setWidth 33
       (w.vecEff e.act n .single fun _ l => ((sum l).setWidth 32, 0)).predEff e.act o.c.toNat fun l => (sum l).getLsbD 32
     | .s n =>
       let sum := (o.a.uni w).setWidth 65 + (o.b.uni immInt64 w).setWidth 65 +
         (BitVec.ofBool (c.getLsbD (lowestLane e.act))).setWidth 65
       (w.uniEff n (sum.setWidth 64, 0)).predEff e.act o.c.toNat fun _ => sum.getLsbD 64)

/-! ## Floating point -/

/-- The floating-point instructions of one, two and three operands: each element of the type is the operation's result under the path's FMT, with
the flags of every active lane and position; FCMP writes a predicate and the flags of its comparisons.
Choices of the model it rests on: logs 32, 131. -/
def Obligations.FloatArithmetic : Prop :=
  ((∀ (t : FTy) (o : Alu2) (i : Instr) (f : Mode → FFmt → Nat → Nat → Nat × Fl),
     (i, f) ∈ [((.fadd t o : Instr), addF), (.fsub t o, subF), (.fmul t o, mulF), (.fmin t o, minMaxF false), (.fmax t o, minMaxF true)] →
     onRegisters i o.g fun e w =>
       w.fltEff e t o.d o.blk
         (fun pos l => lift2 t (f (modeOf e.leaf.fmt)) (srcBits t o.a w pos l) (srcBitsB t o.b w pos l))
         fun _ => lift2 t (f (modeOf e.leaf.fmt)) (o.a.uni w).toNat (o.b.uni (immFloat t) w).toNat) ∧
   (∀ (t : FTy) (o : Alu2), onRegisters (.fscale t o) o.g fun e w =>
     w.fltEff e t o.d o.blk
       (fun pos l => lift1 t (scaleF (expLane o.b t.pair w pos l) (modeOf e.leaf.fmt)) (srcBits t o.a w pos l))
       fun _ => lift1 t (scaleF (expUni o.b w) (modeOf e.leaf.fmt)) (o.a.uni w).toNat) ∧
   ∀ (t : FTy) (o : Alu3), onRegisters (.ffma t o) o.g fun e w =>
     w.fltEff e t o.d o.blk
       (fun pos l => lift3 t (fmaF (modeOf e.leaf.fmt)) (srcBits t o.a w pos l) (srcBitsB t o.b w pos l) (srcBits t o.c w pos l))
       fun _ => lift3 t (fmaF (modeOf e.leaf.fmt)) (o.a.uni w).toNat (o.b.uni (immFloat t) w).toNat (o.c.uni w).toNat) ∧
  (∀ (t : FTy) (o : Alu1) (i : Instr) (f : Mode → FFmt → Nat → Nat × Fl),
     ((i, f) ∈ [((.frcp t o : Instr), rcpF), (.frsq t o, rsqF), (.fsqrt t o, sqrtF), (.frnd t o, rndF), (.fclass t o, classF)] ∨
       t = .f32 ∧ (i, f) ∈ [((.fexp2 o : Instr), exp2F), (.flog2 o, log2F), (.fsin o, sinF), (.fcos o, cosF), (.ftanh o, tanhF)]) →
     onRegisters i o.g fun e w =>
       w.fltEff e t o.d o.blk (fun pos l => lift1 t (f (modeOf e.leaf.fmt)) (srcBits t o.a w pos l))
         fun _ => lift1 t (f (modeOf e.leaf.fmt)) (o.a.uni w).toNat) ∧
  (∀ (t : FTy) (c : FCond) (o : Cmp2), onRegisters (.fcmp t c o) o.g fun e w =>
     let r := fun (l : Nat) =>
       if o.a.isV || (o.b.isReg && !o.b.isS) then
         lift2 t (fcmpF c (modeOf e.leaf.fmt)) (srcBits t o.a w (0, 0) l) (srcBitsB t o.b w (0, 0) l)
       else lift2 t (fcmpF c (modeOf e.leaf.fmt)) (o.a.uni w).toNat (o.b.uni (immFloat t) w).toNat
     (w.predEff e.act o.d.toNat fun l => allOnesIn t (r l).1).orFlags (orAll ((lanesOf e.act).map fun l => (r l).2)))

/-- The conversions: CVT, CVTS, PACK, UNPACK and QMASS.
Choices of the model it rests on: logs 31, 32. -/
def Obligations.Conversions : Prop :=
  (∀ (dt st : CTy) (o : Alu1), onRegisters (.cvt dt st o) o.g fun e w =>
    let md := modeOf e.leaf.fmt
    let lane := fun (pos : Nat × Nat) (l : Nat) =>
      let b := cvtBits st o.a w pos l
      ctyDeliver dt md false ((ctyValue st md.fzi b.2 b.1).scale 0)
    match o.d with
    | .v n => if dt.pair then w.pairEff e.act n o.blk fun pos l => (BitVec.ofNat 64 (lane pos l).1, (lane pos l).2)
        else w.vecEff e.act n o.blk fun pos l => (BitVec.ofNat 32 (lane pos l).1, (lane pos l).2)
    | .s n => let r := ctyDeliver dt md true ((ctyValue st md.fzi true (o.a.uni w).toNat).scale 0)
        w.uniEff n (BitVec.ofNat 64 r.1, r.2)) ∧
  (∀ (dt st : CTy) (o : Alu2), onRegisters (.cvts dt st o) o.g fun e w =>
    let md := modeOf e.leaf.fmt
    let lane := fun (pos : Nat × Nat) (l : Nat) =>
      let b := cvtBits st o.a w pos l
      ctyDeliver dt md false ((ctyValue st md.fzi b.2 b.1).scale (expLane o.b (dt.pair || st.pair) w pos l))
    match o.d with
    | .v n => if dt.pair then w.pairEff e.act n o.blk fun pos l => (BitVec.ofNat 64 (lane pos l).1, (lane pos l).2)
        else w.vecEff e.act n o.blk fun pos l => (BitVec.ofNat 32 (lane pos l).1, (lane pos l).2)
    | .s n => let r := ctyDeliver dt md true ((ctyValue st md.fzi true (o.a.uni w).toNat).scale (expUni o.b w))
        w.uniEff n (BitVec.ofNat 64 r.1, r.2)) ∧
  (∀ (k : PTy) (g : Guard) (d : Dst) (a b : Src) (blk : Block), onRegisters (.pack k g d a b blk) g fun e w =>
    let md := modeOf e.leaf.fmt
    match d with
    | .v n => w.vecEff e.act n blk fun pos l =>
        let r := packWord k md (a.word w pos l) (b.word w pos l) (w.vreg (regAt n false pos) l)
        (BitVec.ofNat 32 r.1, r.2)
    | .s n =>
      let r := packWord k md ((a.uni w).setWidth 32) ((b.uni w).setWidth 32) ((w.sreg n.toNat).setWidth 32)
      w.uniEff n (BitVec.ofNat 64 r.1, r.2)) ∧
  (∀ (k : PTy) (j : BitVec 3) (o : Alu1), onRegisters (.unpack k j o) o.g fun e w =>
    deliver o.d o.blk
      (fun w pos l => let r := unpackElem k (modeOf e.leaf.fmt) 32 j.toNat (o.a.word w pos l); (BitVec.ofNat 32 r.1, r.2))
      (fun w => let r := unpackElem k (modeOf e.leaf.fmt) 64 j.toNat ((o.a.uni w).setWidth 32); (BitVec.ofNat 64 r.1, r.2)) e w) ∧
  ∀ (m16 : Bool) (o : Alu2), onRegisters (.qmass m16 o) o.g fun e w =>
    deliver o.d o.blk
      (fun w pos l => let r := massOf m16 (modeOf e.leaf.fmt).fzi (expLane o.b false w pos l) (o.a.word w pos l).toNat
        (BitVec.ofNat 32 r.1, r.2))
      (fun w => let r := massOf m16 (modeOf e.leaf.fmt).fzi (expUni o.b w) ((o.a.uni w).setWidth 32 : Word).toNat
        (BitVec.ofNat 64 r.1, r.2)) e w

/-! ## Predicates and lanes -/

/-- ICMP, SEL and MOVI; and PAND, POR, PXOR, PNOT and PMOV between predicates and from a uniform register, each active lane's bit. That a uniform
SEL (DU 1) of a group takes each home wave's own lowest active lane is the model's choice.
Choices of the model it rests on: log 133. -/
def Obligations.CompareSelectPredicates : Prop :=
  ((∀ (c : ICond) (o : Cmp2), onRegisters (.icmp c o) o.g fun e w =>
     w.predEff e.act o.d.toNat fun l =>
       let rel := fun {n : Nat} (x y : BitVec n) =>
         match c with
         | .eq => x == y
         | .ne => !(x == y)
         | .lt => x.slt y
         | .le => x.sle y
         | .ltu => x.ult y
         | .leu => x.ule y
       if o.a.isV || (o.b.isReg && !o.b.isS) then rel (o.a.word w (0, 0) l) (o.b.word immInt32 w (0, 0) l)
       else rel (o.a.uni w) (o.b.uni immInt64 w)) ∧
   (∀ (o : AluP), onRegisters (.sel o) o.g fun e w =>
     deliver o.d o.blk
       (fun w pos l => (if (w.preg o.c.toNat).getLsbD l then o.a.word w pos l else o.b.word immInt32 w pos l, 0))
       (fun w => (if (w.preg o.c.toNat).getLsbD (lowestLane e.act) then o.a.uni w else o.b.uni immInt64 w, 0)) e w) ∧
   ∀ (g : Guard) (d : Dst) (x : Const) (blk : Block), onRegisters (.movi g d x blk) g
     (deliver d blk
       (fun _ _ _ => (match x with | .imm i => i.signExtend 32 | .lit y => y.extractLsb' 0 32, 0))
       fun _ => (match x with | .imm i => i.signExtend 64 | .lit y => y, 0))) ∧
  (∀ (g : Guard) (d a b : PReg) (x : SReg),
     (onRegisters (.pand g d a b) g fun e w => w.predEff e.act d.toNat fun l => (w.preg a.toNat &&& w.preg b.toNat).getLsbD l) ∧
     (onRegisters (.por g d a b) g fun e w => w.predEff e.act d.toNat fun l => (w.preg a.toNat ||| w.preg b.toNat).getLsbD l) ∧
     (onRegisters (.pxor g d a b) g fun e w => w.predEff e.act d.toNat fun l => (w.preg a.toNat ^^^ w.preg b.toNat).getLsbD l) ∧
     (onRegisters (.pnot g d a) g fun e w => w.predEff e.act d.toNat fun l => !((w.preg a.toNat).getLsbD l)) ∧
     (onRegisters (.pmov g (.pp d a)) g fun e w => w.predEff e.act d.toNat fun l => (w.preg a.toNat).getLsbD l) ∧
     (onRegisters (.pmov g (.sp d x)) g fun e w => w.predEff e.act d.toNat fun l => (w.sreg x.toNat).getLsbD l) ∧
     acrossLanes (.pmov g (.ps x a)) g fun _ w => w.setS x.toNat ((w.preg a.toNat).setWidth 64))

/-- The cross-lane instructions that gather one value, PCNT, RFL, VOTE and MATCHW, and SHFL and BCAST, by which each active lane reads the lane
named, or its own value when that lane is inactive or there is none; by a group each traps with 0x21. -/
def Obligations.LaneExchange : Prop :=
  (∀ (g : Guard) (d : SReg) (q a : PReg) (v : VReg) (bc : Bool),
     (acrossLanes (.pcnt g d a) g fun e w =>
       w.setS d.toNat (BitVec.ofNat 64 ((List.range 32).countP fun l => (e.act &&& w.preg a.toNat).getLsbD l))) ∧
     (acrossLanes (.rfl g d v bc) g fun e w => w.setS d.toNat ((w.vreg v.toNat (lowestLane e.act)).setWidth 64)) ∧
     (acrossLanes (.vote g (.any q) a) g fun e w =>
       w.predEff e.act q.toNat fun _ => (lanesOf e.act).any fun l => (w.preg a.toNat).getLsbD l) ∧
     (acrossLanes (.vote g (.all q) a) g fun e w =>
       w.predEff e.act q.toNat fun _ => (lanesOf e.act).all fun l => (w.preg a.toNat).getLsbD l) ∧
     (acrossLanes (.vote g (.bal d) a) g fun e w => w.setS d.toNat ((e.act &&& w.preg a.toNat).setWidth 64)) ∧
     acrossLanes (.matchw g q v bc) g fun e w =>
       w.predEff e.act q.toNat fun l => !((lanesOf e.act).any fun k => decide (k < l) && w.vreg v.toNat k == w.vreg v.toNat l)) ∧
  (∀ (o : Alu2) (n : VReg), o.d = .v n →
     (∀ k, acrossLanes (.shfl k o) o.g fun e w => w.vecEff e.act n o.blk fun pos l =>
       let c := (o.b.word immInt32 w pos l).toNat
       let j : Int := match k with
         | .idx => c % 32
         | .xor => l ^^^ (c % 32)
         | .up => (l : Int) - c
         | .dn => l + c
       (if 0 ≤ j ∧ j < 32 ∧ e.act.getLsbD j.toNat = true then o.a.word w pos j.toNat else o.a.word w pos l, 0)) ∧
     acrossLanes (.bcast o) o.g fun e w => w.vecEff e.act n o.blk fun pos l =>
       let j := (o.b.word immInt32 w pos (lowestLane e.act)).toNat % 32
       (if e.act.getLsbD j then o.a.word w pos j else o.a.word w pos l, 0))

/-- REDW and SCANW: the reduction of the active lanes in the order of R53, once or for each prefix. An integer sum over lanes is the sum of the
active lanes' values, and a minimum or maximum one of them that bounds all.
Choices of the model it rests on: logs 22, 30. -/
def Obligations.ReductionsAndScans : Prop :=
  (∀ (op : RedOp) (g : Guard) (d : SReg) (v : VReg) (bc : Bool) (o : Alu1) (n : VReg), o.d = .v n →
     (acrossLanes (.redw op g d v bc) g fun e w => w.uniEff d (redValue op (modeOf e.leaf.fmt) e.act fun l => w.vreg v.toNat l)) ∧
     acrossLanes (.scanw op o) o.g fun e w =>
       let rs := o.blk.positions.map fun pos =>
         let a := fun (l : Nat) => o.a.word w pos l
         (regAt n false pos,
           if redIsFloat op then scanFloat op (modeOf e.leaf.fmt) none (fun l => (a l).toNat) (lanesOf e.act)
           else (scanInt op none (fun l => rdSigned (redUnsigned op) (a l)) (lanesOf e.act), 0))
       (w.setLanes (rs.flatMap fun r => r.2.1.map fun x => (r.1, x.1, x.2))).orFlags (orAll (rs.map fun r => r.2.2))) ∧
  (∀ (md : Mode) (act : Mask) (a : Nat → Word), act ≠ 0 →
     (redValue .iadd md act a).1 = BitVec.ofInt 64 (((lanesOf act).map fun l => (a l).toInt).sum) ∧
     (∃ k ∈ lanesOf act, (redValue .imin md act a).1 = (a k).signExtend 64 ∧ ∀ l ∈ lanesOf act, (a k).toInt ≤ (a l).toInt) ∧
     (∃ k ∈ lanesOf act, (redValue .imax md act a).1 = (a k).signExtend 64 ∧ ∀ l ∈ lanesOf act, (a l).toInt ≤ (a k).toInt) ∧
     (∃ k ∈ lanesOf act, (redValue .umin md act a).1 = (a k).setWidth 64 ∧ ∀ l ∈ lanesOf act, (a k).toNat ≤ (a l).toNat) ∧
     ∃ k ∈ lanesOf act, (redValue .umax md act a).1 = (a k).setWidth 64 ∧ ∀ l ∈ lanesOf act, (a l).toNat ≤ (a k).toNat)

/-- What a register write leaves: a vector write changes exactly the active lanes of the block's registers, a predicate write the active lanes'
bits of its register, and predicate p0 reads all ones whatever is written to it (R10, R11, R111). -/
def Obligations.RegisterWrites : Prop :=
  ∀ (w : Wave) (act : Mask), Sparse.wf w.v = true → Sparse.wf w.p = true → Sparse.wf w.s = true →
    (∀ (n : VReg) (blk : Block) (f : Nat × Nat → Nat → Word × Fl) (r l : Nat), l < 32 →
      (w.vecEff act n blk f).vreg r l =
        match blk.positions.find? fun pos => regAt n false pos == r with
        | some pos => if act.getLsbD l then (f pos l).1 else w.vreg r l
        | none => w.vreg r l) ∧
    (∀ (n : Nat) (f : Nat → Bool) (k l : Nat), l < 32 →
      ((w.predEff act n f).preg k).getLsbD l =
        if k = 0 then true else if k = n ∧ act.getLsbD l = true then f l else (w.preg k).getLsbD l) ∧
    (∀ (n : SReg) (x : DWord × Fl) (k : Nat), (w.uniEff n x).sreg k = if k = n.toNat then x.1 else w.sreg k) ∧
    (∀ (n : SReg) (x : DWord × Fl), (w.uniEff n x).flags = w.flags ||| x.2) ∧
    w.preg 0 = BitVec.allOnes 32

/-! ## Forms of claim for instructions that do more than write registers -/

namespace Sys2Proof.Claims

/-- Whenever `i` goes through and `ok` holds in every home wave that it acts on, it answers the state that `act` makes, after which
the issue ends (`Obligations.EndOfIssue`). -/
def completes (i : Instr) (g : Guard) (always : Bool) (ok : Env → State → Prop)
    (act : PathRef → Leaf → List Env → State → State) : Prop :=
  ∀ (s : State) (p : PathRef) (l : Leaf), s.clear p l i g always = true → s.acting p l i g always ≠ [] →
    (∀ e ∈ s.acting p l i g always, ok e s) →
    exec i s = .next ((act p l (s.acting p l i g always) (s.issued p l)).finishIssue p (s.place p) i [])

/-- The effect `eff` in each home wave, lowest first, and then the next word. -/
def inTurn (i : Instr) (eff : Env → State → State) (p : PathRef) (_ : Leaf) (on : List Env) (s : State) : State :=
  (on.foldl (fun s e => eff e s) s).advance p i

/-- Where `ok` holds in every home wave that `i` acts on, and `bad` in some, `i` traps with `code`, on every home wave in which `bad`
holds and with the TVAL given there, and does nothing else. -/
def trapsWhen (i : Instr) (g : Guard) (always : Bool) (ok : Env → State → Prop) (code : Nat) (bad : Env → State → Bool)
    (tval : Env → State → Nat) : Prop :=
  ∀ (s : State) (p : PathRef) (l : Leaf), s.clear p l i g always = true →
    (∀ e ∈ s.acting p l i g always, ok e s) → (∃ e ∈ s.acting p l i g always, bad e s = true) →
    exec i s = .next (s.raiseOrHold p (((s.acting p l i g always).filter fun e => bad e s).map fun e => ⟨e.wave, code, e.act, tval e s⟩))

/-- The same without a further condition, for an instruction that acts only in home waves with an active lane. -/
def traps (i : Instr) (g : Guard) (code : Nat) (bad : Env → State → Bool) (tval : Env → State → Nat) : Prop :=
  trapsWhen i g false (fun _ _ => True) code bad tval

/-- Where `busy` holds in some home wave that `i` acts on, `i` is held, for the stall reason `code`, and does nothing. -/
def holdsWhile (i : Instr) (g : Guard) (code : Nat) (busy : Env → State → Prop) : Prop :=
  ∀ (s : State) (p : PathRef) (l : Leaf), s.clear p l i g false = true →
    (∃ e ∈ s.acting p l i g false, busy e s) → exec i s = .next (s.hold code)

/-- No cause: the wave may go to a header at `a` (R82). A target that cannot be fetched is reached, and faults there. -/
def mayEnter (s : State) (w : Nat) (a : DWord) : Prop :=
  a.toNat % 8 = 0 ∧ ∀ h, s.fetch w a = .ok h → s.headerOk w h = true

/-- R81: a branch offset counts 8-byte words from the instruction. -/
def branchTo (t : Target) (l : Leaf) : DWord :=
  match t with
  | .imm i => l.pc + 8 * i.signExtend 64
  | .lit x => x

/-- The active lanes of all home waves. -/
def lanesOn (on : List Env) : Mask := on.foldl (fun m e => m ||| e.act) 0

/-- The home waves with an active lane do not all name the address that this one has in `a` (R128). -/
def addressesDiffer (g : Guard) (a : SReg) (e : Env) (s : State) : Bool :=
  (s.homes e.ref).any fun h =>
    g.active (s.wave h.1) (e.leaf.mask &&& h.2) != 0 && (s.wave h.1).sreg a.toNat != (s.wave e.wave).sreg a.toNat

/-- The wave whose register an indirect transfer reads. -/
def readsFrom (p : PathRef) (on : List Env) : Nat := (on.head?.map Env.wave).getD p.wave

/-- The wave's counters satisfy the four thresholds of a WAITC, of which 63 always holds (R180). -/
def within (s : State) (w : Nat) (l sv c t : Nat) : Prop :=
  (l = 63 ∨ s.counter w .load ≤ l) ∧ (sv = 63 ∨ s.counter w .store ≤ sv) ∧ (c = 63 ∨ s.counter w .copy ≤ c) ∧
    (t = 63 ∨ s.counter w .tile ≤ t)

/-- A further draw of free values. -/
def nextDraw (s : State) : State := { s with free := s.free + 1 }

/-- The value of SETF. -/
def setValue (v : SetV) (w : Wave) : DWord :=
  match v with
  | .reg a => w.sreg a.toNat
  | .imm i => i.setWidth 64
  | .lit x => x

/-- Every node of a tree has the lanes of the leaves below it. -/
def covers : PTree → Prop
  | .empty => True
  | .leaf _ => True
  | .node n a b => (a.lanes ||| b.lanes) &&& ~~~n.mask = 0 ∧ covers a ∧ covers b

/-- Every register of every wave, every byte of memory at every place, and every context, launch and team are as before. -/
def keepsData (s t : State) : Prop :=
  (∀ k, (t.wave k).regs = (s.wave k).regs) ∧ (∀ q : Place, t.placeByte q = s.placeByte q) ∧ t.contexts = s.contexts ∧
    t.launches = s.launches ∧ t.teams = s.teams

end Sys2Proof.Claims

open Sys2Proof.Claims

/-! ## Control -/

/-- The end of an issue that raised nothing. The path stands at the word after the instruction's own, in its block or, past the block's end, at
the header that follows (R61); the only path of a converged wave stays there. The path has moved (parked, joined or gone on), unless a single
step is due, which raises 0x52 on the path that issued; a path that waits, is stopped, runs a macro or applies a list is not at its end yet. -/
def Obligations.EndOfIssue : Prop :=
  ∀ (s : State) (p : PathRef) (k : Nat) (i : Instr),
    (∀ l, s.leafAt p = some l →
      let n := if (encode i).bind Prod.snd = none then 1 else 2
      (s.advance p i).leafAt p = some { l with
        pc := l.pc + BitVec.ofNat 64 (8 * n), pos := if l.pos + n ≤ (Header.ofWord l.hdr).length then l.pos + n else 0
        blockedAt := none, arrived := none }) ∧
    ((s.wave p.wave).converged = true → s.groupOf p = none → s.leafAt p ≠ none → (s.moved p k).leafAt p = s.leafAt p) ∧
    ((s.ctxOf p.wave).stepOn = false → s.finishIssue p k i [] = s.moved p k) ∧
    (∀ l, s.leafAt p = some l → (s.ctxOf p.wave).stepOn = true → (∀ g n, i ≠ .bkpt g n ∧ i ≠ .trapi g n) → l.wait = .idle →
      l.stopped = false → (s.wave p.wave).mmt = none → s.eappOpen p.wave l.mask = none → s.place p = k →
      s.finishIssue p k i [] = (s.updLeaf p fun l => { l with wait := .idle }).raise p
        ((s.homes p).map fun h => ⟨h.1, 0x52, l.mask &&& h.2, 0⟩) false)

/-- An instruction with no active lane has no effect but that its path goes on to the next word (R77). BRU and BRD, whose guard is their
condition, are not among them. -/
def Obligations.NoActiveLane : Prop :=
  ∀ (i : Instr) (f : Fields) (x : Option DWord), encodeFields i = some (f, x) → (∀ g t, i ≠ .bru g t ∧ i ≠ .brd g t) →
    ∀ (s : State) (p : PathRef) (l : Leaf), s.clear p l i f.guard false = true → s.acting p l i f.guard false = [] →
      exec i s = .next (((s.issued p l).advance p i).moved p (s.place p))

/-- BRA, BRU, BRX, CALL and RET: the whole path goes to the header named; a BRU whose guard some lane does not satisfy goes on; CALL writes the
address of the next block. A transfer of any of the five to an address that is no header of the wave's block structure traps with 0x1A and TVAL
that address, on the instruction (R82); BRX and RET of a group whose waves name different addresses trap with 0x21 (R128).
Choices of the model it rests on: log 108. -/
def Obligations.Branches : Prop :=
  (∀ (g : Guard) (t : Target) (a d : SReg),
     (completes (.bra g t) g false (fun e s => mayEnter s e.wave (branchTo t e.leaf)) fun p l _ s => s.jump p (branchTo t l)) ∧
     (completes (.bru g t) g true (fun e s => s.guardAll e.ref e.leaf g = true ∧ mayEnter s e.wave (branchTo t e.leaf))
       fun p l _ s => s.jump p (branchTo t l)) ∧
     (completes (.bru g t) g true (fun e s => s.guardAll e.ref e.leaf g = false) fun p _ _ s => s.advance p (.bru g t)) ∧
     (∀ i, i = .brx g a ∨ i = .ret g a → completes i g false
       (fun e s => mayEnter s e.wave ((s.wave e.wave).sreg a.toNat) ∧ addressesDiffer g a e s = false)
       fun p _ on s => s.jump p ((s.wave (readsFrom p on)).sreg a.toNat)) ∧
     completes (.call g d t) g false (fun e s => mayEnter s e.wave (branchTo t e.leaf)) fun p l on s =>
       (on.foldl (fun s e => s.updWave e.wave fun w => w.setS d.toNat l.nextHdr) s).jump p (branchTo t l)) ∧
  (∀ (g : Guard) (t : Target) (d a : SReg),
     let bad := fun (e : Env) (s : State) => s.targetBad e.wave (branchTo t e.leaf)
     let named := fun (e : Env) (_ : State) => (branchTo t e.leaf).toNat
     let reg := fun (e : Env) (s : State) => (s.wave e.wave).sreg a.toNat
     (∀ s w a, s.targetBad w a = false ↔ mayEnter s w a) ∧
     traps (.bra g t) g 0x1A bad named ∧
     trapsWhen (.bru g t) g true (fun e s => s.guardAll e.ref e.leaf g = true) 0x1A bad named ∧
     (∀ i, i = .brx g a ∨ i = .ret g a →
       trapsWhen i g false (fun e s => addressesDiffer g a e s = false) 0x1A (fun e s => s.targetBad e.wave (reg e s)) (fun e s => (reg e s).toNat) ∧
       trapsWhen i g false (fun e s => mayEnter s e.wave (reg e s)) 0x21 (addressesDiffer g a) fun e _ => e.word) ∧
     traps (.call g d t) g 0x1A bad named)

/-- BRD: taken by every lane it goes to its target, taken by none to the next block; else it diverges, or, in a block with RGP set,
enters an arrival window, toward both (R125, R171, R173). Divergence: the only path of a converged wave becomes the running leaves of its two slots under a
root at the reconvergence header (R118); another path's leaf becomes its taken lanes, which run, and its other lanes, pending after them in
leaf order, and no other leaf changes (R120). A bad target traps with 0x1A, as does a splitting BRD whose block names no reconvergence header or
one that may not be entered (R66, R82, R490), and one for which the path table is full with 0x18 (R117).
Choices of the model it rests on: logs 23, 106, 142. -/
def Obligations.DivergentBranch : Prop :=
  (∀ (g : Guard) (t : Target) (s : State) (p : PathRef) (l : Leaf), s.clear p l (.brd g t) g true = true →
     let on := s.acting p l (.brd g t) g true
     let c := lanesOn on
     let a := branchTo t l
     let s' := s.issued p l
     on ≠ [] → (∀ e ∈ on, mayEnter s e.wave a) →
     (c = l.mask → s.guardAll p l g = true →
       exec (.brd g t) s = .next ((s'.jump p a).finishIssue p (s.place p) (.brd g t) [])) ∧
     (c = 0 → l.mask ≠ 0 → s.guardAll p l g = false →
       exec (.brd g t) s = .next ((s'.jump p l.nextHdr).finishIssue p (s.place p) (.brd g t) [])) ∧
     (c ≠ 0 → c ≠ l.mask → s.guardAll p l g = false → s.tableFull p = false → (Header.ofWord l.hdr).rcv ≠ 0 →
       (∀ e ∈ on, mayEnter s e.wave l.rcv) →
       exec (.brd g t) s = .next (((if s'.entersWindow p l then s'.arriveWindow p l c (l.mask &&& ~~~c) a l.nextHdr
         else s'.divergePath p l c (l.mask &&& ~~~c) a l.nextHdr).finishIssue p (s.place p) (.brd g t) [])))) ∧
  (∀ (g : Guard) (t : Target) (s : State) (p : PathRef) (l : Leaf), s.clear p l (.brd g t) g true = true →
     let on := s.acting p l (.brd g t) g true
     let c := lanesOn on
     let a := branchTo t l
     let trapped := fun (code tval : Nat) (bad : Env → Bool) =>
       exec (.brd g t) s = .next (s.raiseOrHold p ((on.filter bad).map fun e => ⟨e.wave, code, e.mine, tval⟩))
     let splits := s.guardAll p l g = false ∧ c ≠ 0
     let targetOk := ∀ e ∈ on, mayEnter s e.wave a
     let rcvOk := (Header.ofWord l.hdr).rcv ≠ 0 ∧ ∀ e ∈ on, mayEnter s e.wave l.rcv
     ((s.guardAll p l g = true ∨ splits ∧ s.tableFull p = false ∧ rcvOk) → (∃ e ∈ on, s.targetBad e.wave a = true) →
       trapped 0x1A a.toNat fun e => s.targetBad e.wave a) ∧
     (splits → s.tableFull p = false → targetOk → (Header.ofWord l.hdr).rcv = 0 → trapped 0x1A l.header.toNat fun _ => true) ∧
     (splits → s.tableFull p = false → targetOk → (Header.ofWord l.hdr).rcv ≠ 0 → (∃ e ∈ on, s.targetBad e.wave l.rcv = true) →
       trapped 0x1A l.rcv.toNat fun e => s.targetBad e.wave l.rcv) ∧
     (splits → s.tableFull p = true → targetOk → rcvOk → trapped 0x18 (instrWord (.brd g t)) fun _ => true)) ∧
  (∀ (s : State) (p : PathRef) (l : Leaf),
     s.entersWindow p l = true ↔ (Header.ofWord l.hdr).rgp = true ∧ s.onlyPath p = true ∧ (s.recdOf p.wave).merge = false ∧ (s.wave p.wave).collAct = false) ∧
  ((∀ (s : State) (p : PathRef) (l : Leaf) (m n : Mask) (a b : DWord), s.onlyPath p = true → (s.waves.look p.wave).isSome →
     let w := (s.divergePath p l m n a b).wave p.wave
     w.root = some ⟨m ||| n, l.fmt, l.rcv, false⟩ ∧ w.slotA = .leaf (Leaf.atHeader m l.fmt .running a) ∧
       w.slotB = .leaf (Leaf.atHeader n l.fmt .running b) ∧ w.regs = (s.wave p.wave).regs) ∧
   ∀ (t : PTree) (k : Nat) (l : Leaf) (m n : Mask) (a b j : DWord), t.runIdx = some k → t.leaves[k]? = some l →
     (t.split m n a b j).leaves =
       t.leaves.take k ++ [Leaf.atHeader m l.fmt .running a, Leaf.atHeader n l.fmt .pending b] ++ t.leaves.drop (k + 1))

/-- EXIT, YIELD, NOP and a HINT that only advances. Lanes that exit leave every leaf of the tree, and no lane that stays is lost (R176). -/
def Obligations.ExitYieldNop : Prop :=
  (∀ (g : Guard) (n : BitVec 16),
     (completes (.exit g) g false (fun _ _ => True) fun p _ on s =>
       ((on.foldl (fun s e => s.updWave e.wave fun w => w.exitLanes e.act) (s.advance p (.exit g))).updWave p.wave fun w =>
         w.setTree p.slot ((w.tree p.slot).exit (lanesOn on)))) ∧
     (completes (.yield g) g false (fun _ _ => True) fun p _ _ s =>
       ((s.advance p (.yield g)).updWave p.wave fun w => { w with yieldedAt := some s.cycle }).switchLeaf p .yielded) ∧
     onRegisters (.nop g) g (fun _ w => w) ∧
     (n ≠ 1 → onRegisters (.hint g n) g fun _ w => w)) ∧
  (∀ (t : PTree) (m : Mask), (∀ l ∈ (t.exit m).leaves, l.mask &&& m = 0) ∧
     ∀ l ∈ t.leaves, ∀ k, l.mask.getLsbD k = true → m.getLsbD k = false → covers t →
       ∃ l' ∈ (t.exit m).leaves, l'.mask.getLsbD k = true ∧ l'.pc = l.pc)

/-! ## Waiting, format and flags -/

/-- WAITC goes on when the counters of the home waves with an active lane are at or below the four thresholds, and else holds its path until they
are (R128, R180). WAITW goes on with an acquire, its starvation timer disarmed, when every word's generation differs from the one awaited, and
else holds its path on the words; a word that an older write of the wave has yet to reach is read after it, and one in error reads as zero; a
wait of class WEAK traps with 0x28 (R27, R29, R181, R258, R369).
Choices of the model it rests on: logs 39, 62, 121. -/
def Obligations.Waits : Prop :=
  (∀ (g : Guard) (a b c t : BitVec 6),
     let i := Instr.waitc g a b c t
     (completes i g false (fun e s => within s e.wave a.toNat b.toNat c.toNat t.toNat) fun p _ _ s => s.advance p i) ∧
     (∀ (s : State) (p : PathRef) (l : Leaf), s.clear p l i g false = true →
       (∃ e ∈ s.acting p l i g false, ¬ within s e.wave a.toNat b.toNat c.toNat t.toNat) →
       exec i s = .next (((s.issued p l).updLeaf p fun x => { x with wait := .counters ((s.acting p l i g false).map Env.wave) a.toNat b.toNat c.toNat t.toNat }).finishIssue
         p (s.place p) i [])) ∧
     ∀ (s : State) (p : PathRef) (l : Leaf) (ws : List Nat) (x y z v : Nat), s.leafAt p = some l → l.wait = .counters ws x y z v →
       ((∀ h ∈ ws, within s h x y z v) →
         exec (.waitcComplete p) s = .next ((s.waitOver p).finishIssue p (s.place p)
           (.waitc Guard.always (BitVec.ofNat 6 x) (BitVec.ofNat 6 y) (BitVec.ofNat 6 z) (BitVec.ofNat 6 v)) [])) ∧
       ((∃ h ∈ ws, ¬ within s h x y z v) → exec (.waitcComplete p) s = .next s)) ∧
  (∀ (g : Guard) (cls : BitVec 2) (a b : SReg),
     let i := Instr.waitw g cls a b
     let gen := fun (s : State) (w : Nat) => ((s.wave w).sreg b.toNat).toNat % 2 ^ 16
     let named := fun (s : State) (w : Nat) (q : Place) => s.arrivalPlace w .read ((s.wave w).sreg a.toNat).toNat = .ok q
     (cls ≠ 0 → ∀ (f : Nat → Place),
       (completes i g false (fun e s => named s e.wave (f e.wave) ∧ s.wordHeld e.wave (f e.wave) = false) fun p l on s =>
         let ws := on.map fun e => (e.wave, f e.wave, gen s e.wave)
         let u := nextDraw (s.genErrs ws)
         if ∀ x ∈ ws, arrGen u x.2.1 ≠ x.2.2 then
           (on.foldl (fun (s : State) e => (s.updWave e.wave fun w => w.disarmFor l.pc).acquire e.wave) u).advance p i
         else u.block p (on.map Env.wave) cls.toNat (.word ws)) ∧
       ∀ (s : State) (p : PathRef) (l : Leaf), s.clear p l i g false = true →
         (∀ e ∈ s.acting p l i g false, named s e.wave (f e.wave)) →
         (∃ e ∈ s.acting p l i g false, s.wordHeld e.wave (f e.wave) = true) → exec i s = .next (s.hold 9)) ∧
     (∀ (s : State) (ws : List (Nat × Place × Nat)), (∀ x ∈ ws, s.errAt x.1 (x.2.1.at_ 8) = none) →
       s.genErrs ws = ws.foldl (fun (s : State) x => s.touch x.2.1 16) s) ∧
     (cls = 0 → ∀ (s : State) (p : PathRef) (l : Leaf), s.clear p l i g false = true → s.acting p l i g false ≠ [] →
       (∀ e ∈ s.acting p l i g false, ∃ q, named s e.wave q) →
       exec i s = .next (s.raiseOrHold p ((s.acting p l i g false).map fun e =>
         ⟨e.wave, 0x28, e.act, s.waveClassOf e.wave * 4⟩))) ∧
     ∀ (s : State) (p : PathRef) (l : Leaf) (ws : List (Nat × Place × Nat)), s.leafAt p = some l → l.wait = .word ws →
       ((∀ x ∈ ws, arrGen s x.2.1 ≠ x.2.2) →
         exec (.waitwComplete p) s = .next (((ws.foldl (fun s x => (s.updWave x.1 fun w => w.disarmFor l.pc).acquire x.1)
           (s.genErrs ws)).waitOver p).finishIssue p (s.place p) (.waitw Guard.always 0 0 0) [])) ∧
       ((∃ x ∈ ws, arrGen s x.2.1 = x.2.2) → exec (.waitwComplete p) s = .next s))

/-- TFENCE, SETF.FLAGS and GETF.FLAGS wait while an older instruction of a home wave with an active lane can set a flag (R183, R186, R128). TFENCE
then goes on when no enabled flag is set, and traps with 0x48 and the flags when one is; SETF and GETF move FMT and FLAGS (R185, R186). -/
def Obligations.FormatAndFlags : Prop :=
  ∀ (g : Guard) (d : SReg) (v : SetV),
    let quiet := fun (e : Env) (s : State) =>
      ∀ h ∈ s.homes e.ref, g.active (s.wave h.1) (e.leaf.mask &&& h.2) ≠ 0 → s.flagsBusy h.1 = false
    let on := fun (e : Env) (s : State) => (s.wave e.wave).flags &&& e.leaf.fmt.extractLsb' 8 6
    (∀ i ∈ [Instr.tfence g, .setf g true v, .getf g true d], holdsWhile i g 15 fun e s => ¬ quiet e s) ∧
    (completes (.tfence g) g false (fun e s => quiet e s ∧ on e s = 0) fun p _ _ s => s.advance p (.tfence g)) ∧
    (∀ (s : State) (p : PathRef) (l : Leaf), s.clear p l (.tfence g) g false = true →
      (∀ e ∈ s.acting p l (.tfence g) g false, quiet e s) → (∃ e ∈ s.acting p l (.tfence g) g false, on e s ≠ 0) →
      exec (.tfence g) s = .next (s.raiseOrHold p
        (((s.acting p l (.tfence g) g false).filter fun e => on e s != 0).map fun e => ⟨e.wave, 0x48, e.act, (on e s).toNat⟩))) ∧
    (completes (.setf g false v) g false (fun _ _ => True) (inTurn (.setf g false v) fun e s =>
      s.updLeaf e.ref fun l => { l with fmt := (setValue v (s.wave e.wave)).setWidth 14 &&& 0x3F0F })) ∧
    (completes (.setf g true v) g false quiet (inTurn (.setf g true v) fun e s =>
      s.updWave e.wave fun w => { w with flags := (setValue v w).setWidth 6 })) ∧
    (onRegisters (.getf g false d) g fun e w => w.setS d.toNat (e.leaf.fmt.setWidth 64)) ∧
    completes (.getf g true d) g false quiet (inTurn (.getf g true d) fun e s =>
      s.updWave e.wave fun w => w.setS d.toNat (w.flags.setWidth 64))

/-! ## Exceptions -/

/-- TAKING AN EXCEPTION: a cause with its route to the context handler saves the path's PC, the cause with its lanes, the value and the block
position, sets HIN, and the path stands at CTXVEC; with no handler, or in one, the launch completes with 0x20 (R204 to R206).
Choices of the model it rests on: logs 59, 92. -/
def Obligations.ExceptionEntry : Prop :=
  ∀ (s : State) (p : PathRef) (l : Leaf) (code : Nat) (lanes : Mask) (tval : Nat) (drop step : Bool),
    s.leafAt p = some l → code < 256 → code ∉ [0x01, 0x10, 0x11, 0x30, 0x31] →
    (code ∉ [0x50, 0x51, 0x52] ∨ (s.ctxOf p.wave).att = false) →
    let t := s.deliver p code lanes tval drop step
    let w := t.wave p.wave
    ((s.ctxOf p.wave).ctxvec ≠ 0 → (s.wave p.wave).tcause.getLsbD 16 = false →
      w.tpc = l.pc ∧ w.tval = BitVec.ofNat 64 tval ∧ w.savedPos = l.pos ∧ (l.pos ≠ 0 → w.savedHdr = l.hdr) ∧
        w.tcause.extractLsb' 0 8 = BitVec.ofNat 8 code ∧ w.tcause.extractLsb' 32 32 = lanes ∧ w.tcause.getLsbD 16 = true ∧
        w.tcause.getLsbD 17 = decide (p.slot = .b) ∧ w.tcause.getLsbD 18 = drop ∧ w.tcause.getLsbD 19 = step ∧
        w.trapSlot = some p.slot ∧ w.trapMask = l.mask ∧
        t.leafAt p = some { l with pc := (s.ctxOf p.wave).ctxvec, pos := 0, wait := .idle, blockedAt := none, arrived := none }) ∧
    (((s.ctxOf p.wave).ctxvec = 0 ∨ (s.wave p.wave).tcause.getLsbD 16 = true) →
      ∀ x, s.launches.look (s.launchNo p.wave) = some x → x.st < 5 →
        (t.launch (s.launchNo p.wave)).st = 0x20)

/-- TRAPI and BKPT raise their cause after the instruction, so that the trap saves the next word's address (R187, R423). -/
def Obligations.SoftwareTraps : Prop :=
  ∀ (g : Guard) (n : BitVec 16) (s : State) (p : PathRef) (l : Leaf),
    (s.clear p l (.trapi g n) g false = true → s.acting p l (.trapi g n) g false ≠ [] →
      (∀ e ∈ s.acting p l (.trapi g n) g false, n ≠ 0xFFFF ∨ (s.wave e.wave).tcause.getLsbD 16 = false) →
      exec (.trapi g n) s = .next (((s.issued p l).advance p (.trapi g n)).raise p
        ((s.acting p l (.trapi g n) g false).map fun e => ⟨e.wave, 0x58, e.act, n.toNat⟩) false)) ∧
    (s.clear p l (.bkpt g n) g false = true → s.acting p l (.bkpt g n) g false ≠ [] →
      exec (.bkpt g n) s = .next (((s.issued p l).advance p (.bkpt g n)).raise p
        ((s.acting p l (.bkpt g n) g false).map fun e => ⟨e.wave, 0x50, e.act, n.toNat⟩) false))

/-- RETURNING: TRAPI 65,535 in a context handler, and ERET, put the path at the saved PC in the block that was interrupted, or at a TPC that has
been written, as a header; the first also leaves the handler (R204, R205, R207).
Choices of the model it rests on: log 58. -/
def Obligations.ExceptionReturn : Prop :=
  ∀ (g : Guard),
    let i := Instr.trapi g 0xFFFF
    let back := fun (s : State) (p : PathRef) => s.updLeaf p fun l =>
      let w := s.wave p.wave
      { l with pc := w.tpc, pos := w.savedPos, hdr := w.savedHdr, wait := .idle, arrived := w.savedArr }
    let enter := fun (s : State) (p : PathRef) => s.updLeaf p fun l =>
      { l with pc := (s.wave p.wave).tpc, pos := 0, wait := .idle, blockedAt := none, arrived := none }
    let keep := fun (w : Wave) => { w with savedHdr := 0, savedPos := 0, savedArr := none, tpcWritten := false }
    let leave := fun (w : Wave) => { keep w with tcause := w.tcause &&& ~~~0x10000, trapSlot := none, trapMask := 0 }
    (completes i g false (fun e s => e.wave = e.ref.wave ∧ (s.wave e.wave).tcause.getLsbD 16 = true ∧ (s.wave e.wave).tpcWritten = false)
      fun p _ _ s => (back s p).updWave p.wave leave) ∧
    (completes i g false (fun e s => e.wave = e.ref.wave ∧ (s.wave e.wave).tcause.getLsbD 16 = true ∧ (s.wave e.wave).tpcWritten = true ∧
        mayEnter s e.wave (s.wave e.wave).tpc)
      fun p _ _ s => (enter s p).updWave p.wave leave) ∧
    (completes (.eret g) g false (fun e s => e.wave = e.ref.wave ∧ (s.wave e.wave).tpcWritten = false)
      fun p _ _ s => (back s p).updWave p.wave keep) ∧
    completes (.eret g) g false (fun e s => e.wave = e.ref.wave ∧ (s.wave e.wave).tpcWritten = true ∧ mayEnter s e.wave (s.wave e.wave).tpc)
      fun p _ _ s => (enter s p).updWave p.wave keep

/-- BOUNDARY_CAUSE_DELIVERY: the pending cause of least code is taken and the others stay pending; a path with a pending cause takes it in its
step, whatever its next instruction is (R200). -/
def Obligations.BoundaryDelivery : Prop :=
  (∀ (s : State) (p : PathRef) (l : Leaf) (c v : Nat), s.leafAt p = some l → s.groupOf p = none → s.boundaryDue p l = true →
    (s.wave p.wave).mmt = none → leastBy Prod.fst (s.wave p.wave).boundary = some (c, v) → c < 2 ^ 16 →
    exec (.boundaryCauseDelivery p) s =
      .next ((s.updWave p.wave fun w => { w with boundary := w.boundary.erase (c, v) }).raise p [⟨p.wave, c, l.mask, v⟩] false)) ∧
  ∀ (s : State) (p : PathRef) (l : Leaf), s.agenda = [] → s.grant = some p → s.leafAt p = some l →
    l.bad = false → ({ s with grant := none } : State).boundaryDue p l = true →
    step s = settleOutcome (exec (.boundaryCauseDelivery p) { s with grant := none })

/-- ERET, LAUNCH, LSTAT, TLBI and HALT, issued by a wave that is not privileged with registers within its block's marks, trap with 0x19 and have no
effect, whatever their guard (Tables 3.5 and 3.7). -/
def Obligations.PrivilegedInstructionsTrap : Prop :=
  ∀ (g : Guard) (d a : SReg) (k : TlbiKind), ∀ i ∈ [Instr.eret g, .launch g d a, .lstat g d a, .tlbi g k, .halt g],
    ∀ (s : State) (p : PathRef) (l : Leaf), s.issuing = some (p, l) → s.privileged p.wave = false →
      (i = .launch g d a ∨ i = .lstat g d a → d.toNat ≤ (Header.ofWord l.hdr).uhw ∧ a.toNat ≤ (Header.ofWord l.hdr).uhw) →
      (∀ r, i = .tlbi g (.addr r) ∨ i = .tlbi g (.ctx r) → r.toNat ≤ (Header.ofWord l.hdr).uhw) →
      let all := s.envs p l g (instrWord i)
      let on := all.filter fun e => e.act != 0
      exec i s = .next (s.raiseOrHold p ((if on.isEmpty then all else on).map fun e => ⟨e.wave, 0x19, e.act, instrWord i⟩))

/-! ## Memory -/

namespace Sys2Proof.Claims

/-- The instructions that make accesses of memory, but for arrivals. -/
inductive Access where
  | ld (o : LdArgs) | lds (o : LdArgs) | ldv (o : LdArgs) | ldu (o : LduArgs)
  | st (o : StArgs) | sts (o : StArgs) | stv (o : StArgs)
  | atom (o : AtomArgs) | atoms (o : AtomArgs)
  | ldres (g : Guard) (d : VReg) (base : SReg) (off : VReg)
  | stcond (g : Guard) (d : PReg) (base : SReg) (off data : VReg)

def Access.instr : Access → Instr
  | .ld o => .ld o
  | .lds o => .lds o
  | .ldv o => .ldv o
  | .ldu o => .ldu o
  | .st o => .st o
  | .sts o => .sts o
  | .stv o => .stv o
  | .atom o => .atom o
  | .atoms o => .atoms o
  | .ldres g d b x => .ldres g d b x
  | .stcond g d b x y => .stcond g d b x y

def Access.guard : Access → Guard
  | .ld o | .lds o | .ldv o => o.g
  | .ldu o => o.g
  | .st o | .sts o | .stv o => o.g
  | .atom o | .atoms o => o.g
  | .ldres g .. => g
  | .stcond g .. => g

/-- How the addresses are named (R229). -/
def Access.via : Access → Via
  | .lds _ | .sts _ | .atoms _ => .spad
  | .ldv _ | .stv _ => .vault
  | _ => .gen

def Access.writes : Access → Bool
  | .ld _ | .lds _ | .ldv _ | .ldu _ | .ldres .. => false
  | _ => true

def Access.reads : Access → Bool
  | .st _ | .sts _ | .stv _ => false
  | _ => true

/-- One access for all the lanes. -/
def Access.atOnce : Access → Bool
  | .ldu _ => true
  | _ => false

/-- A collecting wave makes records instead (R330). -/
def Access.records : Access → Bool
  | .st _ | .sts _ | .stv _ => true
  | .atom o | .atoms o => o.nd
  | _ => false

def Access.reserves : Access → Bool
  | .ldres .. => true
  | _ => false

def Access.want (k : Access) : Want := if k.writes then .write else .read

def Access.bytes : Access → Nat
  | .ld o | .lds o | .ldv o => sizeBytes o.size
  | .ldu o => sizeBytes o.size
  | .st o | .sts o | .stv o => sizeBytes o.size
  | _ => 4

/-- The accesses: one for each active lane and block position, at sBase + sext(vOff lane); LDU makes one, for the path, at sBase +
sext(imm) (R237). -/
def Access.reqs (k : Access) (e : Env) (w : Wave) : List Req :=
  match k with
  | .ld o | .lds o | .ldv o => e.reqs w o.base o.off o.blk
  | .ldu o => [⟨lowestLane e.act, (0, 0), w.sreg o.base.toNat + o.off.signExtend 64⟩]
  | .st o | .sts o | .stv o => e.reqs w o.base o.off o.blk
  | .atom o | .atoms o => e.reqs w o.base o.off .single
  | .ldres _ _ b x => e.reqs w b x .single
  | .stcond _ _ b x _ => e.reqs w b x .single

/-- Every access passes the checks of Table 9.5, and none meets a watchpoint. -/
def Access.ok (k : Access) (e : Env) (s : State) : Prop :=
  (∀ r ∈ k.reqs e (s.wave e.wave), (s.reqAccess e.wave k.via k.want k.bytes r).1 = []) ∧
    s.watchCauses e k.via k.bytes k.writes k.reads (k.reqs e (s.wave e.wave)) = []

/-- The operation that a wave which is not collecting issues: its accesses, with the data, operands and compare values that it reads
now; the counter it counts in, its ordering, and the registers it will write (R235 to R243). -/
def Access.operation (k : Access) (e : Env) (s : State) : OpClass × Bool × Bool × List Reg × OpBody :=
  let w := s.wave e.wave
  let at_ := fun (r : Req) => (s.reqAccess e.wave k.via k.want k.bytes r).2
  let rs := k.reqs e w
  let ld := fun (d : VReg) (wide : Bool) => s.loadAccs e.wave k.via k.bytes d wide rs
  let st := fun (d : VReg) (wide : Bool) => rs.map fun r =>
    (⟨r.lane, 0, at_ r, r.addr, if wide then w.vpair (regAt d true r.pos) r.lane else (w.vreg (regAt d false r.pos) r.lane).setWidth 64, 0⟩ : Acc)
  let at1 := fun (d c : VReg) (cas : Bool) => rs.map fun r =>
    (⟨r.lane, d.toNat, at_ r, r.addr, (w.vreg c.toNat r.lane).setWidth 64, if cas then w.vreg d.toNat r.lane else 0⟩ : Acc)
  match k with
  | .ld o | .lds o | .ldv o =>
    (.load, o.acq, false, vregs o.blk (o.size == .d) o.d, .load o.size o.sx false o.hint (ld o.d (o.size == .d)))
  | .ldu o =>
    (.load, o.acq, false, [.s o.d.toNat], .load o.size o.sx true o.hint (rs.map fun r =>
      let v := s.overlayOf e.wave .gen k.bytes r.addr
      ⟨r.lane, o.d.toNat, at_ r, r.addr, v.1, v.2⟩))
  | .st o | .sts o | .stv o => (.store, false, o.rel, [], .store o.size o.hint (st o.data (o.size == .d)))
  | .atom o | .atoms o =>
    (if o.nd then .store else .load, ordAcq o.ord, ordRel o.ord, if o.nd then [] else [.v o.d.toNat],
      .atomic o.op o.nd (at1 o.d o.c (o.op == .cas)))
  | .ldres _ d _ _ => (.load, false, false, [.v d.toNat], .reserve (ld d false))
  | .stcond _ d _ _ x => (.load, false, false, if d = 0 then [] else [.p d.toNat], .cond d (rs.map fun r =>
      ⟨r.lane, 0, at_ r, r.addr, (w.vreg x.toNat r.lane).setWidth 64, 0⟩))

/-- What issuing it does: the operation is pushed, and the TLBs keep the translations used; an LDRES is its lanes' most recent one
(R124). -/
def Access.effect (k : Access) (e : Env) (s : State) : State :=
  let x := k.operation e s
  let s' := match k with
    | .ldres .. => s.updWave e.wave fun w => { w with ldres := (lanesOf e.act).foldl (fun t l => t.put l 0) w.ldres }
    | _ => s
  (s'.pushMem e x.1 x.2.1 x.2.2.1 x.2.2.2.1 x.2.2.2.2).fillReqs e.wave k.via (k.reqs e (s.wave e.wave))

/-- The memories are in their canonical form, and `n` bytes of a scratchpad are those of a team that has them (R328). -/
def writable (s : State) (p : Place) (n : Nat) : Prop :=
  s.memOk = true ∧ Table.wf s.lineKeys = true ∧
    match p.tier with
    | .spad t => ∃ x, s.teams.look t = some x ∧ p.addr + n ≤ x.spadLen
    | _ => True

/-- The byte at `q` is none of the `n` bytes at `p`. -/
def apart (p q : Place) (n : Nat) : Prop := q.tier ≠ p.tier ∨ q.addr < p.addr ∨ p.addr + n ≤ q.addr

/-- The bytes are sound and, in device memory, last written under the place's key, so that writing some of them leaves the others. -/
def sound (s : State) (p : Place) (n : Nat) : Prop :=
  ∀ i < n, s.upsetAt (p.at_ i) = false ∧ (p.tier = .dev → s.lineKeys.lookD ((p.addr + i) / 64) 0 = p.key)

end Sys2Proof.Claims

open Sys2Proof.Claims

/-- The address checks of Table 9.5 for one access of `n` bytes: every code whose condition holds is raised (0x30 also for a vault instruction's
address with any of bits 63:56 set, log 51), and where none holds the access lies in the window that its address names.
Choices of the model it rests on: logs 26, 28, 51. -/
def Obligations.AddressChecks : Prop :=
  ∀ (s : State) (w n a d : Nat) (want : Want),
    (2 ^ 56 ≤ a → 0x30 ∈ (s.access w .gen want n a d).1) ∧
    (a % n ≠ 0 → ∀ via, 0x32 ∈ (s.access w via want n a d).1) ∧
    ((s.team (s.wave w).team).spadLen ≤ a → 0x33 ∈ (s.access w .spad want n a d).1) ∧
    (a < (s.team (s.wave w).team).spadLen → a % n = 0 →
      s.access w .spad want n a d = ([], ⟨.spad (s.wave w).team, a, 0, false⟩)) ∧
    (a < spadSize → a < (s.team (s.wave w).team).spadLen → a % n = 0 → (spadBase + a) % n = 0 → spadBase + a < 2 ^ 56 →
      s.access w .gen want n (spadBase + a) d = ([], ⟨.spad (s.wave w).team, a, 0, false⟩)) ∧
    (a < spadSize → (s.team (s.wave w).team).spadLen ≤ a → 0x33 ∈ (s.access w .gen want n (spadBase + a) d).1) ∧
    (a < vaultBase ∨ vaultBase + vaultSize ≤ a → 0x34 ∈ (s.access w .vault want n a d).1) ∧
    (2 ^ 56 ≤ a → 0x30 ∈ (s.access w .vault want n a d).1) ∧
    (∀ via ∈ [Via.gen, .vault], a < vaultSize →
      (s.vaultRetired a = true → 0x34 ∈ (s.access w via want n (vaultBase + a) d).1) ∧
      (s.vaultRetired a = false → (vaultBase + a) % n = 0 → s.access w via want n (vaultBase + a) d = ([], ⟨.vault, a, 0, false⟩))) ∧
    (a < 2 ^ 56 → inWindows a = false → a % n = 0 →
      (∀ q, s.xlate (s.coreOf w) (s.ctxNo w) (s.privileged w) want a d = .ok q → s.access w .gen want n a d = ([], q)) ∧
      ∀ c, s.xlate (s.coreOf w) (s.ctxNo w) (s.privileged w) want a d = .error c → (s.access w .gen want n a d).1 = [c])

/-- Issue of loads, stores, atomics and reservations by waves that do not collect: one operation for each home wave. The frame of that issue: no
register, no flag, no byte of memory, no team, launch or context changes; each home wave has one more outstanding operation.
Choices of the model it rests on: logs 35, 42. -/
def Obligations.AccessesIssue : Prop :=
  (∀ (k : Access), completes k.instr k.guard false (fun e s => (s.wave e.wave).collecting = false ∧ k.ok e s)
     (inTurn k.instr k.effect)) ∧
  (∀ (k : Access) (s : State) (p : PathRef) (l : Leaf), s.clear p l k.instr k.guard false = true →
     (∀ e ∈ s.acting p l k.instr k.guard false, (s.wave e.wave).collecting = false ∧ k.ok e s) →
     ∃ t, exec k.instr s = .next t ∧ keepsData s t ∧ t.nextId = s.nextId + (s.acting p l k.instr k.guard false).length)

/-- An access that fails a check raises its code in its lane, the one access of LDU in all the lanes, before the instruction has any effect (R78,
R237). In a wave that is collecting a load is checked alike; a store, and an atomic with .ND, for which the collection has no room raises 0x38
too, with the address of its lowest lane's access (R332), and an atomic with a reply, LDRES and STCOND raise 0x39 (Table 14.4).
Choices of the model it rests on: log 50. -/
def Obligations.FailingAccessTraps : Prop :=
  ∀ (k : Access) (s : State) (p : PathRef) (l : Leaf), s.clear p l k.instr k.guard false = true →
    let cs := (s.acting p l k.instr k.guard false).flatMap fun e =>
      let rs := k.reqs e (s.wave e.wave)
      (rs.flatMap fun r => (s.reqAccess e.wave k.via k.want k.bytes r).1.map fun c =>
        (⟨e.wave, c, if k.atOnce then e.act else laneBit r.lane, r.addr.toNat⟩ : Cause)) ++
      if (s.wave e.wave).collecting then
        if k.records then
          if s.recordRoom e.wave rs.length then []
          else [⟨e.wave, 0x38, e.act, ((rs.find? fun r => r.lane == lowestLane e.act).map fun r => r.addr.toNat).getD 0⟩]
        else if k.writes || k.reserves then [⟨e.wave, 0x39, e.act, instrWord k.instr⟩] else []
      else []
    cs ≠ [] → exec k.instr s = .next (s.raiseOrHold p cs)

/-- A collecting wave's stores, atomics with .ND and arrivals make records in its collection instead, and count as completed (R330). -/
def Obligations.CollectingRecords : Prop :=
  (∀ (o : StArgs) (i : Instr) (via : Via), (i, via) ∈ [((.st o : Instr), Via.gen), (.sts o, .spad), (.stv o, .vault)] →
    let rs := fun (e : Env) (s : State) => e.reqs (s.wave e.wave) o.base o.off o.blk
    let n := sizeBytes o.size
    completes i o.g false
      (fun e s => (s.wave e.wave).collecting = true ∧ s.recordRoom e.wave (rs e s).length = true ∧
        (∀ r ∈ rs e s, (s.reqAccess e.wave via .write n r).1 = []) ∧ s.watchCauses e via n true false (rs e s) = [])
      (inTurn i fun e s => (s.record e.wave ((rs e s).map fun r => .store (via == .spad) r.addr n
        (if o.size == .d then (s.wave e.wave).vpair (regAt o.data true r.pos) r.lane
          else ((s.wave e.wave).vreg (regAt o.data false r.pos) r.lane).setWidth 64))).pushRecorded e)) ∧
  ∀ (g : Guard) (a b : SReg), completes (.arrv g a b) g false
    (fun e s => (s.wave e.wave).collecting = true ∧ s.recordRoom e.wave 1 = true ∧
      ∃ q, s.arrivalPlace e.wave .write ((s.wave e.wave).sreg a.toNat).toNat = .ok q)
    (inTurn (.arrv g a b) fun e s =>
      let w := s.wave e.wave
      (s.record e.wave [.arrive (w.sreg a.toNat) ((w.sreg b.toNat).toNat % 2 ^ 48)]).pushRecorded e)

/-- LOAD_RETURN: a load whose reads meet no error writes each lane's extended value to its register, or a uniform register, and nothing else; it
has completed. LDRES the same, with a reservation on the address; an atomic performs the step of its lowest lane left, and STCOND's lowest lane
left stores or not; the operation then stands for the lanes after it. It binds whenever the operations before it allow, and else nothing
happens. What a load's access delivers: the little-endian datum of its size, extended with its sign or with zeros, and for a store the bytes of
its datum in the same order.
Choices of the model it rests on: logs 17, 35, 49, 136. -/
def Obligations.LoadReturn : Prop :=
  (∀ (s : State) (n : Nat) (o : Op), s.ops.look n = some o → o.done = false →
     (∀ ps, o.body.returns = some ps →
       (s.mayPerform n o ps = true → exec (.loadReturn n) s = .next (s.bind n o)) ∧
       (s.mayPerform n o ps = false → exec (.loadReturn n) s = .next s)) ∧
     (o.body.returns = none → exec (.loadReturn n) s = .next s) ∧
     ((s.waves.look o.wave).isSome →
     let ended := retire (s.ops.upd n fun x => { x with done := true, dests := [] })
     (∀ sz sx uni hint accs, o.body = .load sz sx uni hint accs → s.mayPerform n o (accs.map fun a => (a.place, sizeBytes sz)) = true →
       (∀ a ∈ accs, s.readErr (s.reader n o) (sizeBytes sz) a.place = none) →
       let x := s.wave o.wave
       let v := fun (a : Acc) => s.accValue (s.reader n o) (sizeBytes sz) sx a
       ∃ t, exec (.loadReturn n) s = .next t ∧ t.ops = ended ∧
         t.wave o.wave = (if uni then accs.foldl (fun w a => w.setS a.reg (v a)) x
           else x.setLanes (accs.flatMap fun a => if sz = .d then pairWrites a.reg a.lane (v a) else [(a.reg, a.lane, (v a).setWidth 32)])) ∧
         (∀ k, k ≠ o.wave → t.wave k = s.wave k) ∧ ∀ q : Place, t.placeByte q = s.placeByte q) ∧
     (∀ accs, o.body = .reserve accs → s.mayPerform n o (accs.map fun a => (a.place, 4)) = true →
       (∀ a ∈ accs, s.readErr (s.reader n o) 4 a.place = none) →
       ∃ t, exec (.loadReturn n) s = .next t ∧ t.ops = ended ∧ (∀ q : Place, t.placeByte q = s.placeByte q) ∧
         (t.wave o.wave).regs =
           ((s.wave o.wave).setLanes (accs.map fun a => (a.reg, a.lane, (s.accValue (s.reader n o) 4 false a).setWidth 32))).regs ∧
         ∀ a, accs = [a] → a.place.tier = .dev →
           ((t.wave o.wave).resv.look a.lane).map (fun r => (r.virt, r.place)) = some (a.virt, a.place)) ∧
     (∀ op a rest, o.body = .atomic op false (a :: rest) → s.mayPerform n o [(a.place, 4)] = true →
       let o' := { o with body := .atomic op false rest }
       let t := ((s.laneStep o op a).1.updWave o.wave fun w =>
         (w.setLanes [(a.reg, a.lane, (s.laneStep o op a).2.1)]).orFlags (s.laneStep o op a).2.2).updOp n fun _ => o'
       exec (.loadReturn n) s = .next (if rest = [] then t.finishOp n o' else nextDraw t)) ∧
     ∀ pd a rest, o.body = .cond pd (a :: rest) → s.mayPerform n o [(a.place, 4)] = true →
       let o' := { o with body := .cond pd rest }
       let t := ((s.condStep o a).1.updWave o.wave fun w =>
         w.setP pd.toNat (if (s.condStep o a).2 then w.preg pd.toNat ||| laneBit a.lane else w.preg pd.toNat &&& ~~~(laneBit a.lane))).updOp n fun _ => o'
       exec (.loadReturn n) s = .next (if rest = [] then t.finishOp n o' else nextDraw t))) ∧
  (∀ (n x : Nat), n ∈ [1, 2, 4, 8] → x < 2 ^ (8 * n) →
     extendTo64 n false x = BitVec.ofNat 64 x ∧ extendTo64 n true x = (BitVec.ofNat (8 * n) x).signExtend 64 ∧
       (∀ newer, overlayBytes x newer 0 n = x) ∧ natOfBytes (bytesLE n x) = x)

/-- One lane's step of an atomic reads the word and leaves the new one (Table 9.6), and a STCOND's lane stores exactly when its reservation stands
on the very address, and uses the reservation up (R243).
Choices of the model it rests on: logs 45, 49. -/
def Obligations.AtomicSteps : Prop :=
  (∀ (s : State) (p : Place) (op : AtomOp) (c d : Word), writable s p 4 → sound s p 4 → s.poisoned p = false →
    let old := BitVec.ofNat 32 (s.placeRead p 4)
    let r := s.atomicStep p op c d
    let new := match op with
      | .add => old + c
      | .and => old &&& c
      | .or => old ||| c
      | .xor => old ^^^ c
      | .min => if old.slt c then old else c
      | .max => if old.slt c then c else old
      | .umin => if old.ult c then old else c
      | .umax => if old.ult c then c else old
      | .swap => c
      | .cas => if old = c then d else old
      | .fadd => BitVec.ofNat 32 (fp32.add Mode.rne (fp32.dec old.toNat) (fp32.dec c.toNat)).1
    r.2.1 = old ∧ r.1.placeRead p 4 = new.toNat ∧ ∀ q, apart p q 4 → r.1.placeByte q = s.placeByte q) ∧
  ∀ (s : State) (o : Op) (a : Acc), writable s a.place 4 → sound s a.place 4 →
    let stands := ((s.wave o.wave).resv.look a.lane).map Resv.virt = some a.virt
    let t := (s.condStep o a).1
    ((s.condStep o a).2 = true ↔ stands) ∧ (¬ stands → ∀ q : Place, t.placeByte q = s.placeByte q) ∧
    (stands → t.placeRead a.place 4 = (a.data.setWidth 32 : Word).toNat ∧ ∀ q, apart a.place q 4 → t.placeByte q = s.placeByte q) ∧
    (Table.wf (s.wave o.wave).resv = true → (t.wave o.wave).resv.look a.lane = none)

/-- A write at its home is read back, leaves every other byte, and ends every reservation on its granules (R230, R244); above the scratchpad's end
it writes nothing (R328). Every write keeps the memories in their canonical form. -/
def Obligations.WriteThenRead : Prop :=
  (∀ (s : State) (p : Place) (bs : List Byte), writable s p bs.length →
     let t := s.homeWrite p bs
     ((∀ i < bs.length, s.upsetAt (p.at_ i) = false) → ∀ i (h : i < bs.length), t.placeByte (p.at_ i) = bs[i]) ∧
     (sound s p bs.length → ∀ q, apart p q bs.length → t.placeByte q = s.placeByte q) ∧
     (∀ k, (t.wave k).regs = (s.wave k).regs) ∧
     ((p.tier = .dev ∨ ∃ m, p.tier = .spad m) → ∀ i < bs.length, ∀ k, ∀ r ∈ (t.wave k).resv, sameGranule r.2.place (p.at_ i) = false)) ∧
  (∀ (s : State) (p : Place) (bs : List Byte) (m : Nat) (x : Team), p.tier = .spad m → s.teams.look m = some x → x.spadLen ≤ p.addr →
     sound s p bs.length → ∀ q, (s.homeWrite p bs).placeByte q = s.placeByte q) ∧
  (∀ (s : State), s.memOk = true →
     (∀ (p : Place) (bs : List Byte), (s.homeWrite p bs).memOk = true) ∧
     ∀ (core : Nat) (hint : Hint) (p : Place) (bs : List Byte), (s.store core hint p bs).memOk = true)

/-- OWNERSHIP_ACK: the bytes of a store to device memory reach their home, and its core owns the words; a word that another core owns is first
taken from it by OWNERSHIP_REVOKE (R345). WRITE_PERFORMED: a store outside device memory, a lane of an atomic with .ND and an arrival take
place. The accesses of one store go together, but those to TSO pages in one tier behind an earlier one in the other wait for it (R389).
Choices of the model it rests on: log 49. -/
def Obligations.StoresArrive : Prop :=
  ((∀ (s : State) (n : Nat) (o : Op) (sz : Size) (hint : Hint) (accs : List Acc), s.ops.look n = some o → o.done = false →
     o.body = .store sz hint accs →
     let go := tsoReady true false accs
     go ≠ [] → (∀ a ∈ go, ∀ w ∈ wordsOf a.place (sizeBytes sz), ownerOf s.owners w = none ∨ ownerOf s.owners w = some o.core) →
     s.mayPerform n o (go.map fun a => (a.place, sizeBytes sz)) = true →
     exec (.ownershipAck n) s = .next (s.storeAccs n o sz hint go accs)) ∧
   (∀ (s : State) (core : Nat) (hint : Hint) (p : Place) (bs : List Byte), p.tier = .dev → writable s p bs.length → bs.length ≤ 64 →
     let t := s.store core hint p bs
     (∀ i (h : i < bs.length), t.placeByte (p.at_ i) = bs[i] ∧ ownerOf t.owners ((p.addr + i) / 4) = some core) ∧
     (sound s p bs.length → ∀ q, apart p q bs.length → t.placeByte q = s.placeByte q)) ∧
   (∀ (s : State) (word c n : Nat) (o : Op) (sz : Size) (hint : Hint) (accs : List Acc) (a : Acc), ownerOf s.owners word = some c →
     (n, o) ∈ s.ops → o.done = false → o.core ≠ c → o.body = .store sz hint accs → a ∈ accs → a.place.tier = .dev →
     word ∈ wordsOf a.place (sizeBytes sz) →
     exec (.ownershipRevoke word) s = .next (s.revoke word) ∧ ownerOf (s.revoke word).owners word = none) ∧
   ∀ (dev : Bool) (accs : List Acc),
     ((∀ a ∈ accs, a.place.tso = false) → tsoReady dev false accs = accs.filter fun a => isDevAcc a == dev) ∧
     (tsoReady dev false accs).Sublist (accs.filter fun a => isDevAcc a == dev) ∧
     ∀ (xs ys : List Acc) (a b : Acc), accs = xs ++ a :: ys → a.place.tso = true → b ∈ xs → b.place.tso = true → isDevAcc b ≠ isDevAcc a →
       tsoReady (isDevAcc a) false accs = tsoReady (isDevAcc a) false (xs ++ ys)) ∧
  (∀ (s : State) (n : Nat) (o : Op), s.ops.look n = some o → o.done = false →
     (∀ sz hint accs, o.body = .store sz hint accs →
       let go := tsoReady false false accs
       go ≠ [] → s.mayPerform n o (go.map fun a => (a.place, sizeBytes sz)) = true →
       exec (.writePerformed n) s = .next (s.storeAccs n o sz hint go accs)) ∧
     (∀ op a rest, o.body = .atomic op true (a :: rest) → s.mayPerform n o [(a.place, 4)] = true →
       let o' := { o with body := .atomic op true rest }
       let t := (s.laneStep o op a).1.updOp n fun _ => o'
       exec (.writePerformed n) s = .next (if rest = [] then t.finishOp n o' else nextDraw t)) ∧
     ∀ p k, o.body = .arrive p k → s.mayPerform n o [(p, 16)] = true →
       exec (.writePerformed n) s = .next ((s.arriveBy o.wave p k).finishOp n o))

/-- An arrival of `n`: the count rises by n, and at each multiple of the target that it reaches the generation does (R250); ARRV issues it as an
operation that counts in S and releases. -/
def Obligations.Arrivals : Prop :=
  (∀ (s : State) (p : Place) (n : Nat), writable s p 16 → sound s p 16 → p.addr % 16 = 0 → s.poisoned p = false →
    let target := Nat.min (s.placeRead p 8) (2 ^ 48)
    let count := s.placeRead (p.at_ 8) 6 + n
    let t := s.arrive p n
    (target = 0 → t.placeRead (p.at_ 8) 6 = count % 2 ^ 48 ∧ t.placeRead (p.at_ 14) 2 = s.placeRead (p.at_ 14) 2) ∧
    (target ≠ 0 → t.placeRead (p.at_ 8) 6 = count % target ∧
      t.placeRead (p.at_ 14) 2 = (s.placeRead (p.at_ 14) 2 + count / target) % 2 ^ 16) ∧
    t.placeRead p 8 = s.placeRead p 8 ∧ ∀ w, s.arriveBy w p n = t) ∧
  ∀ (g : Guard) (a b : SReg), completes (.arrv g a b) g false
    (fun e s => (s.wave e.wave).collecting = false ∧
      ∃ q, s.arrivalPlace e.wave .write ((s.wave e.wave).sreg a.toNat).toNat = .ok q)
    (inTurn (.arrv g a b) fun e s =>
      let w := s.wave e.wave
      match s.arrivalPlace e.wave .write (w.sreg a.toNat).toNat with
      | .ok q => (s.pushMem e .store false true [] (.arrive q ((w.sreg b.toNat).toNat % 2 ^ 48))).fillAddr e.wave (w.sreg a.toNat).toNat
      | .error _ => s)

/-- FENCE goes on when what it waits for is done, with an acquire unless it is .REL, and waits else (R246). An acquire drops exactly the words
that the core's L1 does not own (R347).
Choices of the model it rests on: log 37. -/
def Obligations.Fences : Prop :=
  (∀ (g : Guard) (k : FenceKind),
     let done := fun (e : Env) (s : State) =>
       match k with
       | .acq => ∀ x ∈ s.ops, x.2.wave = e.wave → x.2.cls = .load → x.2.done = true
       | _ => s.releaseOk e.wave = true
     (completes (.fence g k) g false done (inTurn (.fence g k) fun e s => if k = .rel then s else s.dropUnowned (s.coreOf e.wave))) ∧
     ∀ (s : State) (p : PathRef) (l : Leaf), s.clear p l (.fence g k) g false = true →
       (∃ e ∈ s.acting p l (.fence g k) g false, ¬ done e s) → exec (.fence g k) s = .next (s.hold 15)) ∧
  (∀ (s : State) (core w : Nat), (s.cores.look core).isSome → Table.wf (s.core core).l1 = true →
     ((s.dropUnowned core).core core).l1.look w =
       match (s.core core).l1.look w with
       | some v => if v.owned then some v else none
       | none => none)

/-- PREF, CINV, CFLSH, PIN and UNPIN: what each does in its wave; CINV drops exactly the lines of L1 that overlap a mapped piece of the range, and
CFLSH those of the memory-side caches too (R245, R248); none changes a byte of memory. Pinned windows: what PIN answers and claims
(R376), and how a tick fades a window (R377).
Choices of the model it rests on: logs 26, 46, 99. -/
def Obligations.CacheAndWindows : Prop :=
  (∀ (g : Guard) (h : Hint) (a b d : SReg) (x : VReg),
     (completes (.pref g h a x) g false (fun _ _ => True) (inTurn (.pref g h a x) fun e s =>
       (e.reqs (s.wave e.wave) a x .single).foldl (fun s r =>
         let y := s.reqAccess e.wave .gen .read 1 r
         if y.1.isEmpty && y.2.tier == .dev && h != .na && !(s.poisoned y.2) then
           (s.fillLine (s.coreOf e.wave) s.free h y.2).reach (y.2.addr / 64) h true
         else s) s)) ∧
     (let pieces := fun (e : Env) (s : State) =>
        s.mappedPieces e.wave ((s.wave e.wave).sreg a.toNat).toNat (((s.wave e.wave).sreg b.toNat).toNat % 2 ^ 32)
      completes (.cinv g a b) g false (fun _ _ => True) (inTurn (.cinv g a b) fun e s => s.dropLines (s.coreOf e.wave) (pieces e s)) ∧
      completes (.cflsh g a b) g false (fun _ _ => True) (inTurn (.cflsh g a b) fun e s =>
        (s.dropLines (s.coreOf e.wave) (pieces e s)).flushLines (pieces e s))) ∧
     (∀ (s : State) (core : Nat) (ps : List (Nat × Nat)) (w : Nat), (s.cores.look core).isSome → Table.wf (s.core core).l1 = true →
       ((s.dropLines core ps).core core).l1.look w =
         if ps.any fun p => decide (p.1 / 64 ≤ w / 16) && decide (w / 16 ≤ (p.1 + p.2 - 1) / 64) then none else (s.core core).l1.look w) ∧
     (let n := fun (e : Env) (s : State) => ((s.wave e.wave).sreg b.toNat).toNat
       let at_ := fun (e : Env) (s : State) => ((s.wave e.wave).sreg a.toNat).toNat
       completes (.pin g d a b) g false
         (fun e s => at_ e s % 65536 = 0 ∧ n e s ≠ 0 ∧ n e s % 65536 = 0 ∧ (s.pinScan e.wave (at_ e s) (n e s)).1 = [])
         (inTurn (.pin g d a b) fun e s =>
           let r := s.pin e.wave (at_ e s) (n e s) (s.pinScan e.wave (at_ e s) (n e s)).2
           (r.1.fillAddr e.wave (at_ e s)).updWave e.wave fun w => w.setS d.toNat r.2)) ∧
     completes (.unpin g a) g false (fun _ _ => True) (inTurn (.unpin g a) fun e s =>
       s.unpin (s.ctxNo e.wave) ((s.wave e.wave).sreg a.toNat).toNat)) ∧
  ((∀ (s : State) (w a n k : Nat),
     let p := (s.addrAccess w .gen .read a (s.draw 0)).2
     let die := p.addr / 2 ^ 38
     (s.pin w a n true).2 = BitVec.ofNat 64 (2 ^ 63 + 4) ∧
     (a / 2 ^ s.pageSize w a ≠ (a + n - 1) / 2 ^ s.pageSize w a → (s.pin w a n false).2 = BitVec.ofNat 64 (2 ^ 63 + 2)) ∧
     (a / 2 ^ s.pageSize w a = (a + n - 1) / 2 ^ s.pageSize w a →
       ((s.die die).freeWindow = none → (s.pin w a n false).2 = BitVec.ofNat 64 (2 ^ 63 + 1)) ∧
       ((s.die die).freeWindow = some k → (s.die die).pinned + n > 2 ^ 27 → (s.pin w a n false).2 = BitVec.ofNat 64 (2 ^ 63 + 3)) ∧
       ((s.die die).freeWindow = some k → (s.die die).pinned + n ≤ 2 ^ 27 →
         (s.pin w a n false).2 = BitVec.ofNat 64 ((Sparse.rd (s.die die).winTag k).toNat * 2 ^ 16 + die * 16 + k) ∧
         ((s.pin w a n false).1.die die).win.look k = some ⟨s.ctxNo w, p.addr, n, 255, false⟩))) ∧
   (∀ (p : Pinned), (p.touched = true → p.tick = some { p with touched := false }) ∧
     (p.touched = false → p.fade ≤ 1 → p.tick = none) ∧
     (p.touched = false → 1 < p.fade → p.tick = some { p with fade := p.fade - 1 })) ∧
   ∀ (s : State) (d : Nat), (s.dies.look d).isSome → exec (.windowFadeTick d) s = .next (s.updDie d Die.fadeTick) ∧
     ∀ k p, (s.die d).win = [(k, p)] → ((s.updDie d Die.fadeTick).die d).win.look k = p.tick ∧
       (p.tick = none → Sparse.rd ((s.updDie d Die.fadeTick).die d).winTag k = Sparse.rd (s.die d).winTag k + 1))

/-- HBM_REQUEST_SERVE serves a request of the operation that its channel has begun, else of one that may pass, else of the oldest (R364), and
reads the line under the line code: a clean read changes nothing else, and an uncorrectable one poisons the line (Table 16.1).
Choices of the model it rests on: logs 9, 44, 98. -/
def Obligations.HbmServes : Prop :=
  (∀ (s : State) (d c t : Nat) (pass : Option Nat) (err : LineErr) (r : HbmReq),
    let q := (s.die d).chq.lookD c []
    serveTag s.cycle ((s.die d).serving.look c) pass q = some t → q.find? (fun x => x.op == t) = some r →
    exec (.hbmRequestServe d c pass err) s = .next ((s.setDie d { s.die d with
      chq := if (q.erase r).isEmpty then (s.die d).chq.del c else (s.die d).chq.put c (q.erase r)
      serving := (s.die d).serving.put c t }).readLine r.line err)) ∧
  (∀ (h : HbmReq) (r : List HbmReq) (now t : Nat), let q := h :: r
    serveTag now none none q = some h.op ∧
    ((q.any fun x => x.op == t) = true → serveTag now (some t) none q = some t) ∧
    ((q.any fun x => x.op == t) = true → h.since + 4096 ≤ now → serveTag now none (some t) q = some h.op) ∧
    ((q.any fun x => x.op == t) = true → now < h.since + 4096 → serveTag now none (some t) q = some t)) ∧
  ∀ (s : State) (line : Nat), s.readLine line .clean = s ∧
    ∀ e : LineErr, lineRead ((s.die (s.slotOfLine line).1).erasedGroup (s.slotOfLine line).2) e = .poisoned →
      ∀ x, x = line ∨ x ∈ s.poison → x * 64 < s.mclogBase ∨ s.mclogBase + 2 ^ 18 ≤ x * 64 → x ∈ (s.readLine line e).poison

/-! ## Barriers and phases -/

namespace Sys2Proof.Claims

/-- The three barriers: BAR, BARD, BARP. -/
inductive Bar where
  | team | die | package

def Bar.instr (g : Guard) : Bar → Instr
  | .team => .bar g
  | .die => .bard g
  | .package => .barp g

def Bar.wait : Bar → Wait
  | .team => .bar
  | .die => .bard
  | .package => .barp

/-- The class of those that meet at it: of the team's waves, or of the launch's teams (R27). -/
def Bar.cls (s : State) (w : Nat) : Bar → Nat
  | .team => s.waveClassOf w
  | .die | .package => s.teamClassOf w

/-- The arrival of the waves in `b`. -/
def Bar.mark (b : Nat) (x : Team) : Bar → Team
  | .team => { x with barArr := x.barArr ||| b }
  | .die => { x with bardArr := x.bardArr ||| b }
  | .package => { x with barpArr := x.barpArr ||| b }

/-- The number of the phase that the team is in at it. -/
def Bar.phase (x : Team) : Bar → Nat
  | .team => x.barPhase
  | .die => x.bardPhase
  | .package => x.barpPhase

/-- Everyone awaited has arrived: the team's waves, the die group's teams, the launch's teams. -/
def Bar.due (s : State) (t : Nat) : Bar → Bool
  | .team => s.barDue t
  | .die => s.bardDue (s.team t).launch (s.team t).ixd
  | .package => s.barpDue (s.team t).launch

def Bar.release (s : State) (t : Nat) : Bar → State
  | .team => s.barRelease t
  | .die => s.bardRelease (s.team t).launch (s.team t).ixd
  | .package => s.barpRelease (s.team t).launch

/-- The whole range passes the address checks (R254). -/
def rangeOk (s : State) (w : Nat) (via : Via) (want : Want) (a len : Nat) : Prop :=
  s.rangeFails w via want a len = []

/-- Neither a group nor a collecting wave issues it, and its arrival word, if it names one, is one. -/
def copyOk (s : State) (e : Env) (word : DWord) : Prop :=
  s.groupOf e.ref = none ∧ (s.wave e.wave).collecting = false ∧
    (word = 0 ∨ ∃ q, s.arrivalPlace e.wave .write word.toNat = .ok q)

end Sys2Proof.Claims

open Sys2Proof.Claims

/-- BAR, BARD and BARP: an arrival, with a release before it; the last arrival awaited completes it as an acquire and releases the others, and any
other waits. An instruction issued again after its path had arrived makes no second arrival: it joins the phase that it arrived in, and goes on
at once when that phase is over (R34). A release that is not possible yet holds the instruction, and class WEAK traps with 0x28 (R27, R246, R257, R382). Phases: the
item ranges of the four die groups follow one another and cover all items (R380); the end of a phase advances its number and takes the
schedule of least cost, the lowest of several (R381).
Choices of the model it rests on: logs 39, 94, 121. -/
def Obligations.Barriers : Prop :=
  ((∀ (k : Bar) (g : Guard),
     (completes (k.instr g) g false (fun e s => k.cls s e.wave ≠ 0 ∧ s.releaseOk e.wave = true) fun p _ on s =>
       let t := (s.wave p.wave).team
       let before := (s.leafAt p).bind Leaf.arrived
       let pass := fun (s : State) => (s.passWaits p (on.map Env.wave)).advance p (k.instr g)
       if before ≠ none ∧ before ≠ some (k.phase (s.team t)) then pass s
       else
         let s' := (if before = none then
             let u := on.foldl (fun s e => s.updTeam t fun x => k.mark (2 ^ (s.wave e.wave).ixw) x) s
             u.updLeaf p fun l => { l with arrived := some (k.phase (u.team t)) }
           else s).noteArrivals t
         if k.due s' t then k.release (pass s') t else s'.block p (on.map Env.wave) (k.cls s' p.wave) k.wait) ∧
     (∀ (s : State) (p : PathRef) (l : Leaf), s.clear p l (k.instr g) g false = true →
       (∀ e ∈ s.acting p l (k.instr g) g false, k.cls s e.wave ≠ 0) →
       (∃ e ∈ s.acting p l (k.instr g) g false, s.releaseOk e.wave = false) → exec (k.instr g) s = .next (s.hold 8)) ∧
     traps (k.instr g) g 0x28 (fun e s => k.cls s e.wave == 0) fun _ _ => 0) ∧
   ∀ (s : State) (t l d : Nat),
     (s.barDue t = true ↔ (s.team t).barArr ≠ 0 ∧ ∀ k < (s.launch (s.team t).launch).recd.w,
       (s.team t).barArr.testBit k = true ∨ (s.team t).exited.testBit k = true ∨
         ∃ x ∈ s.waves, x.2.team = t ∧ x.2.cond = .ended ∧ x.2.ixw = k) ∧
     (s.barDue t = true → exec (.barRelease t) s = .next (s.barRelease t)) ∧
     ((s.noteLaunch l).bardDue l d = true → exec (.bardRelease l d) s = .next ((s.noteLaunch l).bardRelease l d)) ∧
     ((s.noteLaunch l).barpDue l = true → exec (.barpRelease l) s = .next ((s.noteLaunch l).barpRelease l))) ∧
  ((∀ n sched, 0 < weightOf sched 0 + weightOf sched 1 + weightOf sched 2 + weightOf sched 3 →
     (itemRange n sched 0).1 = 0 ∧
       (∀ d < 3, (itemRange n sched (d + 1)).1 = (itemRange n sched d).1 + (itemRange n sched d).2) ∧
       (itemRange n sched 3).1 + (itemRange n sched 3).2 = n) ∧
   (∀ (x : Launch) (now : Nat), x.recd.phased = true →
     (x.nextPhase now).phase = (x.phase + 1) % 2 ^ 16 ∧ (x.nextPhase now).sched = phaseChoice (x.recd.scheds.take x.recd.ns) x.sched x.times ∧
       (x.nextPhase now).times = [0, 0, 0, 0] ∧ (x.nextPhase now).phaseAt = now) ∧
   ∀ (scheds : List Nat) (cur : Nat) (times : List Nat), scheds ≠ [] →
     let old := scheds.getD cur 0
     let cost := fun (k : Nat) => phaseCost old (scheds.getD k 0) times
     let c := phaseChoice scheds cur times
     c < scheds.length ∧ (∀ k < scheds.length, fracLt (cost k) (cost c) = false) ∧ ∀ k < c, fracLt (cost c) (cost k) = true)

/-! ## Copies -/

/-- CPY, CPYS and CPYG enter the copy engine; the chunks of a part are consecutive, each lies within one 256-byte block of the destination and
together they have its length (R254 to R256). COPY_CHUNK: a chunk that no older store of the wave holds back is written, with what its reads
meet raised, and makes its arrival; when it is one run, without an arrival word, its destination then holds the bytes of its source and no other byte has changed.
Choices of the model it rests on: logs 27, 50. -/
def Obligations.Copies : Prop :=
  ((∀ (o : U4) (i : Instr) (via : Via), (i, via) ∈ [((.cpy o : Instr), Via.gen), (.cpys o, .spad)] →
     completes i o.g false
       (fun e s =>
         let w := s.wave e.wave
         let c := cpySeg o w
         copyOk s e (w.sreg o.d.toNat) ∧ rangeOk s e.wave .gen .read c.src c.len ∧ rangeOk s e.wave via .write c.dst c.len)
       (inTurn i fun e s => let w := s.wave e.wave; s.startCopy e via (w.sreg o.d.toNat) [cpySeg o w])) ∧
   (∀ (g : Guard) (d a : SReg) (b : VReg) (c : SReg),
     completes (.cpyg g d a b c) g false
       (fun e s =>
         let w := s.wave e.wave
         s.pathActive e g = BitVec.allOnes 32 ∧ copyOk s e (w.sreg d.toNat) ∧
           ∀ x ∈ cpygSegs a b c w, rangeOk s e.wave .gen .read x.src x.len ∧ rangeOk s e.wave .gen .write x.dst x.len)
       (inTurn (.cpyg g d a b c) fun e s => let w := s.wave e.wave; s.startCopy e .gen (w.sreg d.toNat) (cpygSegs a b c w))) ∧
   (∀ (a : SReg) (b : VReg) (c : SReg) (w : Wave), (cpygSegs a b c w).length = 32 ∧ ∀ l < 32, (cpygSegs a b c w)[l]? =
     some ⟨(w.sreg a.toNat + BitVec.ofNat 64 l * BitVec.ofNat 64 ((w.sreg c.toNat).toNat % 2 ^ 16)).toNat, (w.vpair b.toNat l).toNat,
       (w.sreg c.toNat).toNat % 2 ^ 16⟩) ∧
   ∀ (s : State) (w seg c : Nat) (x : Seg), x.dst + x.len ≤ 2 ^ 64 →
     let rs := s.segRuns w .gen seg (chunksOf x) c x
     (rs.map Run.len).sum = x.len ∧
       ∀ r ∈ rs, c ≤ r.chunk ∧ r.chunk < c + chunksOf x ∧ 0 < r.len ∧ r.dstVa / 256 = (r.dstVa + r.len - 1) / 256 ∧ r.seg = seg) ∧
  (∀ (s : State) (n c : Nat) (o : Op) (word : Option (Nat × Place)) (runs : List Run), s.ops.look n = some o → o.done = false →
     o.body = .copy word runs →
     let go := runs.filter fun r => r.chunk == c
     let rest := runs.filter fun r => r.chunk != c
     go ≠ [] →
     (s.copyHeld n o go = true → exec (.copyChunk n c) s = .next s) ∧
     (s.copyHeld n o go = false →
       let u := (s.raiseErrs o.wave (go.flatMap fun r => s.runErrs o r)).writeChunk
         (go.map fun r => (r, s.runBytes r, s.poisonedBy r))
       let v := match word with
         | some w => u.arriveBy o.wave w.2 (go.map Run.len).sum
         | none => u
       let v := v.updOp n fun o => { o with body := .copy word rest }
       exec (.copyChunk n c) s = .next
         (if rest = [] ∧ (∀ x ∈ (v.wave o.wave).residuals, x.1 ≠ n) then v.finishOp n o else nextDraw v)) ∧
     ∀ (r : Run), go = [r] → word = none → s.copyHeld n o go = false → s.runErrs o r = [] → s.runPoisoned r = false →
       writable s r.dst r.len → sound s r.dst r.len → (∀ i < r.len, s.upsetAt (r.src.at_ i) = false ∧ s.poisoned (r.src.at_ i) = false) →
       ∃ t, exec (.copyChunk n c) s = .next t ∧ (∀ i < r.len, t.placeByte (r.dst.at_ i) = s.placeByte (r.src.at_ i)) ∧
         (∀ q, apart r.dst q r.len → t.placeByte q = s.placeByte q) ∧ ∀ k, (t.wave k).regs = (s.wave k).regs)

/-! ## Remote operations -/

namespace Sys2Proof.Claims

/-- Neither a group nor a collecting wave issues it. -/
def fabricOk (e : Env) (s : State) : Prop := s.groupOf e.ref = none ∧ (s.wave e.wave).collecting = false

/-- The source of a put, its length and its destination. -/
def putSrc (o : U4) (w : Wave) : Nat := (w.sreg o.b.toNat).toNat
def putLen (o : U4) (w : Wave) : Nat := (w.sreg o.c.toNat).toNat % 2 ^ 32

end Sys2Proof.Claims

open Sys2Proof.Claims

/-- RPUT, RRED, RPUT.M, RGET, RATOM and RARRV enter the Yard as one operation; of no bytes they are complete at issue; an RPUT.M whose set count
is outside 1 to 64 is refused at the origin with TVAL sA (R469 to R474, R477).
Choices of the model it rests on: logs 84, 85, 86. -/
def Obligations.RemoteIssue : Prop :=
  ∀ (rt : Route) (o : U4),
    (∀ (i : Instr) (kind : RKind) (code : Nat),
      (i, kind, code) ∈ [((.rput rt o : Instr), RKind.rput, 0), (.rred .add rt o, .rred, 0), (.rred .max rt o, .rred, 1),
        (.rred .msv rt o, .rred, 2), (.rred .iadd rt o, .rred, 3)] →
      completes i o.g false
        (fun e s =>
          let w := s.wave e.wave
          fabricOk e s ∧ rangeOk s e.wave .gen .read (putSrc o w) (putLen o w) ∧ (w.sreg o.d.toNat).toNat % 16 = 0 ∧
            (kind = .rred → putLen o w % 4 = 0 ∧ putSrc o w % 4 = 0 ∧ (w.sreg o.a.toNat).toNat % 4 = 0))
        (inTurn i fun e s =>
          let w := s.wave e.wave
          if putLen o w = 0 then s
          else s.enterYard e .copy false [] rt
            { Remote.blank with kind := kind, opcode := code, loc := s.sourceOf e.wave o, length := putLen o w }
            [⟨w.sreg o.a.toNat, (w.sreg o.d.toNat).toNat % 2 ^ 53⟩])) ∧
    (completes (.rputM rt o) o.g false
      (fun e s =>
        let w := s.wave e.wave
        let a := (w.sreg o.a.toNat).toNat
        let n := s.setCount e.wave a
        fabricOk e s ∧ a % 8 = 0 ∧ s.setFail e a 8 = [] ∧ s.setHeld e a = false ∧ rangeOk s e.wave .gen .read (putSrc o w) (putLen o w) ∧
          w.sreg o.d.toNat = 0 ∧
          (1 ≤ n → n ≤ 64 → s.setFail e a (8 + 16 * n) = [] ∧ ∀ k < n, (s.setEntry e.wave a k).word % 16 = 0) ∧
          s.copiesFit e.wave s.nextId rt { Remote.blank with loc := s.sourceOf e.wave o, length := putLen o w }
            (s.setDests e.wave a).zipIdx = true)
      (inTurn (.rputM rt o) fun e s =>
        let w := s.wave e.wave
        let a := w.sreg o.a.toNat
        let r := { Remote.blank with loc := s.sourceOf e.wave o, length := putLen o w }
        let ds := s.setDests e.wave a.toNat
        let s := s.touchPieces (s.setPieces e.wave a.toNat)
        if ds.isEmpty then
          ((s.enterYard e .copy false [] rt r []).updRemote s.nextId fun r =>
            { r with copies := [(0, a.toNat)], targets := [remoteTarget a] }).copyFailed s.nextId 0 0x41 a.toNat
        else if putLen o w = 0 then s
        else s.enterYard e .copy false [] rt r ds)) ∧
    (∀ (s : State) (w a : Nat), (s.setDests w a = [] ↔ s.setCount w a = 0 ∨ 64 < s.setCount w a) ∧
      ∀ k, (s.setDests w a)[k]? = if s.setCount w a ≤ 64 ∧ k < s.setCount w a then some (s.setEntry w a k) else none) ∧
    (completes (.rget rt o) o.g false
      (fun e s => copyOk s e ((s.wave e.wave).sreg o.d.toNat) ∧
        rangeOk s e.wave .gen .write (putSrc o (s.wave e.wave)) (putLen o (s.wave e.wave)))
      (inTurn (.rget rt o) fun e s =>
        let w := s.wave e.wave
        if putLen o w = 0 then s
        else s.enterYard e .copy false [] rt
          { Remote.blank with
            kind := .rgetReq, loc := s.localPieces e.wave .write (putSrc o w) (putLen o w)
            word := (s.copyWord e.wave (w.sreg o.d.toNat)).map Prod.snd, length := putLen o w }
          [⟨w.sreg o.a.toNat, 0⟩])) ∧
    (∀ (a : AtomArgs),
      completes (.ratom rt a) a.g false
        (fun e s => fabricOk e s ∧ (∀ l ∈ lanesOf e.act, laneWord a (s.wave e.wave) l % 4 = 0) ∧
          (ordRel a.ord = true → s.releaseOk e.wave = true))
        (inTurn (.ratom rt a) fun e s =>
          let w := s.wave e.wave
          let recs := (lanesOf e.act).map fun l =>
            (⟨l, laneWord a w l, w.vreg a.c.toNat l, if a.op = .cas then w.vreg a.d.toNat l else 0⟩ : LaneRec)
          s.enterYard e (if a.nd then .store else .load) (ordAcq a.ord) (if a.nd then [] else [.v a.d.toNat]) rt
            { Remote.blank with
              kind := .ratom, opcode := a.op.code.toNat * 4 + ordCode a.ord, nd := a.nd, dstReg := a.d.toNat, lanes := recs
              length := recs.length }
            [⟨w.sreg a.base.toNat, 0⟩])) ∧
    ∀ (g : Guard) (a b : SReg),
      completes (.rarrv rt g a b) g false (fun e s => fabricOk e s ∧ ((s.wave e.wave).sreg a.toNat).toNat % 16 = 0)
        (inTurn (.rarrv rt g a b) fun e s =>
          let w := s.wave e.wave
          s.enterYard e .store false [] rt { Remote.blank with kind := .rarrv, length := (w.sreg b.toNat).toNat % 2 ^ 48 }
            [⟨w.sreg a.toNat, 0⟩])

/-- Entry into the Yard of an operation with one destination: it counts, and its item enters the queue of its route, or it is refused and 0x41 is
pending with TVAL the remote address (R460, R461, R465, R477). RFENCE waits for the operations to one package; VQST reads the state of a pair
(R476).
Choices of the model it rests on: logs 13, 84. -/
def Obligations.YardEntry : Prop :=
  (∀ (s : State) (e : Env) (cls : OpClass) (acq : Bool) (dests : List Reg) (rt : Route) (r : Remote) (d : Dest),
    (s.waves.look e.wave).isSome → (s.wave e.wave).cond ≠ .ended →
    let t := s.enterYard e cls acq dests rt r [d]
    let r' := { r with copies := [(0, d.addr.toNat)], targets := [d.addr.toNat / 2 ^ 53] }
    let code : BitVec 2 := match rt with
      | .a => 0
      | .d => 1
      | .v => 2
    let it : YardItem := ⟨some (s.nextId, 0), { s.headerOf e.wave s.nextId 0 r' d with route := code }, [], 0, false, s.cycle, none⟩
    t.nextId = s.nextId + 1 ∧
    (∀ q, s.routeOf rt (remoteTarget d.addr) (s.draw 0) = .direct q → (t.peer q).direct = (s.peer q).direct ++ [it] ∧
      t.ops.look s.nextId = some ⟨e.wave, e.mine, s.coreOf e.wave, cls, acq, false, dests, decide (dests ≠ []), .remote r', false⟩ ∧
      keepsData s t) ∧
    (s.routeOf rt (remoteTarget d.addr) (s.draw 0) = .loop → (t.peer s.cal.index).direct = (s.peer s.cal.index).direct ++ [it]) ∧
    (∀ k, s.routeOf rt (remoteTarget d.addr) (s.draw 0) = .via k →
      (t.peer k).direct = (s.peer k).direct ++ [{ it with header := { it.header with relayed := true } }]) ∧
    (s.routeOf rt (remoteTarget d.addr) (s.draw 0) = .refused → r'.usesSlot = none → r'.slotted = false →
      (t.wave e.wave).boundary = (s.wave e.wave).boundary ++ [(0x41, d.addr.toNat)])) ∧
  (∀ (s : State) (q n : Nat),
    (∀ rt, s.routeOf rt s.cal.index n = .loop) ∧
    (q ≠ s.cal.index → s.cal.n ≤ q → ∀ rt, s.routeOf rt q n = .refused) ∧
    (q ≠ s.cal.index → q < s.cal.n → s.routeOf .d q n = if (s.port (s.cal.pairPort q)).live then .direct q else .refused) ∧
    (q ≠ s.cal.index → q < s.cal.n → s.intermediates q ≠ [] → ∃ k ∈ s.intermediates q, s.routeOf .v q n = .via k)) ∧
  ∀ (g : Guard) (d a : SReg),
    let pkg := fun (e : Env) (s : State) => ((s.wave e.wave).sreg a.toNat).toNat % 2048
    let free := fun (e : Env) (s : State) => s.cal.n ≤ pkg e s ∨ s.remoteCounted e.wave (pkg e s) = false
    (completes (.rfence g a) g false (fun e s => fabricOk e s ∧ free e s) fun p _ _ s => s.advance p (.rfence g a)) ∧
    (∀ (s : State) (p : PathRef) (l : Leaf), s.clear p l (.rfence g a) g false = true →
      (∀ e ∈ s.acting p l (.rfence g a) g false, fabricOk e s) → (∃ e ∈ s.acting p l (.rfence g a) g false, ¬ free e s) →
      exec (.rfence g a) s = .next (s.hold 14)) ∧
    (completes (.vqst g d a) g false fabricOk (inTurn (.vqst g d a) fun e s =>
      s.updWave e.wave fun w => w.setS d.toNat (s.vqst (pkg e s)))) ∧
    ∀ (s : State) (q : Nat), (s.cal.n ≤ q ∨ q = s.cal.index → s.vqst q = BitVec.ofNat 64 (3 * 2 ^ 46)) ∧
      (q < s.cal.n → q ≠ s.cal.index → (s.vqst q).extractLsb' 48 11 = BitVec.ofNat 11 (s.cal.pairSlot q) ∧
        (s.vqst q).extractLsb' 32 14 = BitVec.ofNat 14 (min (s.peer q).direct.length 16383))

/-- Requests at their target: REMOTE_HEADER_ARRIVAL takes or refuses an operation as a whole (R469); its parts are performed when those before it
in its direct queue allow (R475): an RPUT's chunk whole, an RRED's some words at a time (R470), a RATOM a lane at a time (R473), an RGET a chunk
at a time; and its answer enters the reply queue. Answers at the origin: acknowledgements, replies and refusals
complete the copies they name (R467, R477); an operation to this package itself goes through its own loopback queue (R460).
Choices of the model it rests on: logs 38, 49, 87, 89, 90, 114, 115, 116, 134, 137. -/
def Obligations.RemoteTargetAndOrigin : Prop :=
  (∀ (s : State) (q : Nat) (h : RHeader),
     (s.headerFrom h = some q → isRequest h.kind = true → h.target = s.cal.index →
       let s' := s.takeHeader q h
       (h.cont = true → h.kind ≠ .rgetReq → exec (.remoteHeaderArrival h) s = .next s') ∧
       (∀ a, h.cont = false ∨ h.kind = .rgetReq → s'.accepted h = some a →
         exec (.remoteHeaderArrival h) s = .next (nextDraw { s' with
           inbound := s.inbound ++ [⟨h, if h.kind = .rgetReq then h.first else 0, [], 0, none, [], a⟩] })) ∧
       (h.cont = false ∨ h.kind = .rgetReq → s'.accepted h = none → exec (.remoteHeaderArrival h) s = .next (s'.reply h.origin (s'.answer .refusal h) []))) ∧
     (s.headerFrom h = some q → isRequest h.kind = true → h.target ≠ s.cal.index → h.target < s.cal.n →
       h.cont = false ∨ h.kind = .rgetReq →
       let s' := s.takeHeader q h
       exec (.relayEnqueue h []) s = .next
         (if (s'.port (s'.cal.pairPort h.target)).live then
           s'.updPeer h.target fun p => { p with relay := p.relay ++ [⟨none, { h with relayed := true }, [], 0, false, s.cycle, none⟩] }
         else s'.reply h.origin (s'.answer .refusal h) [])) ∧
     ∀ (x : Inbound) (ps : List (Place × Nat)), s.inboundOf h.origin h.tag = some x → x.header = h →
       (∀ (bs : List Byte) (f : Nat), h.kind = .rput ∨ h.kind = .rred ∧ h.opcode ≠ 2 → (∀ c ∈ x.owed, c.1 ≠ f) →
         (q, .chunk h.origin h.tag f bs) ∈ s.arrived → (∀ y ∈ s.arrived, y.2 = .chunk h.origin h.tag f bs → y.1 = q) →
         (∀ c, x.part = some c → c.1 = f) →
         subPieces x.acc.range f bs.length = ps → s.clearFor x ps = true →
         -- R470: reductions reach a word in the order in which they arrive
         (h.kind = .rred → s.arrivesFirst h (s.arrived.takeWhile fun z => z != (q, .chunk h.origin h.tag f bs)) ps = true) →
         -- the words done before, and those of this step: some of a reduction's, all of a put's
         let k := (x.part.map Prod.snd).getD 0
         let left := (bs.length + 3) / 4 - k
         let n := if h.kind = .rred then 1 + Config.pick (s.draw 0) % max 1 left else left
         let last := decide (bs.length ≤ 4 * (k + n))
         let r := s.chunkWrite h (subPieces ps (4 * k) (4 * n)) ((bs.drop (4 * k)).take (4 * n))
         let u := nextDraw ((if last then r.1.takeArrived (q, .chunk h.origin h.tag f bs) else r.1).updInbound h.origin h.tag fun y =>
           { y with flags := y.flags ||| r.2, part := if last then none else some (f, k + n) })
         exec (.remoteChunkPerform h.origin h.tag f bs) s = .next
           (if !last then u
           else if h.word = 0 ∨ s.arrivalClear x = true then u.chunkArrive h bs.length
           else u.updInbound h.origin h.tag fun y => { y with owed := y.owed ++ [(f, bs.length)] })) ∧
       (h.kind = .rgetReq →
         -- a request names 64 KiB at most
         let end_ := min h.length (h.first + 65536)
         let n := min (end_ - x.got) (256 - (h.addr + x.got) % 256)
         subPieces x.acc.range x.got n = ps → s.clearFor x ps = true →
         let s' := (ps.foldl (fun (s : State) y => s.touch y.1 y.2) s).reply h.origin
           { s.answer .rgetData h with first := x.got, length := n, cont := x.got != 0 } (s.readPieces ps)
         let left := if end_ ≤ x.got + n then s.inbound.erase x
           else s.inbound.map fun y => if y = x then { x with got := x.got + n } else y
         exec (.remoteGetServe h.origin h.tag) s = .next { s' with inbound := left }) ∧
       (∀ l, h.kind = .ratom → x.acc.lanes[x.got]? = some l → s.clearFor x [(l.2, 4)] = true →
         let r := (s.countErrs (s.errAt 0 l.2).toList).remoteStep h l
         let words := x.replies ++ [r.2.1]
         let fl : Fl := if h.nd then 0 else x.flags ||| r.2.2
         let s' := r.1.dropInbound h.origin h.tag
         exec (.remoteAtomPerform h.origin h.tag) s = .next
           (if x.got + 1 < x.acc.lanes.length then
             r.1.updInbound h.origin h.tag fun y => { y with got := y.got + 1, flags := fl, replies := words }
           else if h.nd then s'.ack h 0
           else s'.reply h.origin { s'.answer .ratomReply h with flags := fl, length := x.acc.lanes.length }
             (words.flatMap fun w => bytesLE 4 w.toNat))) ∧
       (∀ (l : LaneRec × Place), s.remoteStep h l = s.atomicStep l.2 (atomOpOf (h.opcode / 4)) l.1.operand l.1.compare) ∧
       (∀ w, h.kind = .rarrv → x.acc.word = some w → s.arrivalClear x = true → s.clearFor x [(w, 16)] = true →
         exec (.remoteArrival h.origin h.tag) s = .next (((s.arriveAlone w h.length).dropInbound h.origin h.tag).ack h 0)) ∧
       ∀ bs, h.kind = .rred → h.opcode = 2 → gather (chunksIn s.arrived h.origin h.tag) 17 0 h.length = some bs →
         x.acc.range = ps → s.arrivesFirst h (s.beforeLast h.origin h.tag) ps = true → s.clearFor x ps = true → s.arrivalClear x = true →
         let r := msvCombine (wordsOfBytes (h.length / 4) (s.readPieces ps)) (wordsOfBytes (h.length / 4) bs)
         exec (.remoteMsvCombine h.origin h.tag) s = .next
           ((((s.dropChunks h.origin h.tag).writePieces ps (r.1.flatMap fun w => bytesLE 4 w)).updInbound h.origin h.tag fun y =>
             { y with flags := y.flags ||| r.2 }).chunkArrive h h.length)) ∧
  ((∀ (s : State) (q : Nat) (h : RHeader), s.headerFrom h = some q →
     let s' := s.takeArrived (q, .header h)
     (h.kind = .ack → exec (.remoteAckReceive h) s = .next (h.tags.foldl (fun s t => s.copyAcked (t / 64) (t % 64) h.flags) s')) ∧
     (∀ data, h.kind = .rgetData ∨ h.kind = .ratomReply → (q, .chunk h.origin h.tag h.first data) ∈ s.arrived → s.replyReady h data = true →
       exec (.remoteReplyReceive h data) s =
         .next ((s'.takeArrived (q, .chunk h.origin h.tag h.first data)).takeReply h data)) ∧
     ∀ o r a, h.kind = .refusal → s.ops.look (h.tag / 64) = some o → o.body = .remote r → o.done = false → r.slotted = false →
       r.copies = [(h.tag % 64, a)] → r.usesSlot = none → (s.waves.look o.wave).isSome → (s.wave o.wave).cond ≠ .ended →
       ∃ t, exec (.remoteRefusal h) s = .next t ∧ (t.wave o.wave).boundary = (s.wave o.wave).boundary ++ [(0x41, a)] ∧
         ∀ k, k ≠ o.wave → (t.wave k).regs = (s.wave k).regs) ∧
   (∀ (s : State) (n c : Nat) (o : Op) (r : Remote) (fl : Fl), s.ops.look n = some o → o.body = .remote r → o.done = false →
     (r.copies.any fun x => x.1 == c) = true → (s.waves.look o.wave).isSome → Table.wfFrom 0 s.ops = true →
     let t := s.copyAcked n c fl
     let rest := r.copies.filter fun x => x.1 != c
     (t.wave o.wave).flags = (s.wave o.wave).flags ||| fl ∧
       (rest ≠ [] → t.ops.look n = some { o with body := .remote { r with copies := rest } }) ∧
       (rest = [] → ∀ o', t.ops.look n = some o' → o'.done = true ∧ o'.dests = [])) ∧
   ∀ (s : State) (n c : Nat) (o : Op) (r : Remote) (it : YardItem) (more : List YardItem), s.ops.look n = some o → o.body = .remote r →
     (s.peer s.cal.index).direct = it :: more → it.op = some (n, c) →
     (∀ a, it.acc = some a → exec (.loopbackPerform n) s = .next { s.loopStep it a n c o r [] with free := s.free + 1 }) ∧
     (∀ a, it.acc = none → s.accepted it.header = some a →
       exec (.loopbackPerform n) s = .next { (s.keepAccepted it a).loopStep { it with acc := some a } a n c o r [] with free := s.free + 1 }) ∧
     (it.acc = none → s.accepted it.header = none →
       exec (.loopbackPerform n) s = .next ((s.loopNext it none).copyFailed n c 0x41
         (((r.copies.find? fun x => x.1 == c).map Prod.snd).getD 0))))

/-! ## The matrix engine -/

namespace Sys2Proof.Claims

/-- The scales that are read lie in the scratchpad at multiples of 4 (R278). -/
def scalesOk (s : State) (w : Nat) (addrs : List (Nat × Nat)) : Prop :=
  addrs = [] ∨ (scaleBases (s.wave w).mxscl).1 % 4 = 0 ∧ (scaleBases (s.wave w).mxscl).2 % 4 = 0 ∧
    ∀ x ∈ addrs, x.1 + 4 ≤ s.spadLimit w ∧ x.2 + 4 ≤ s.spadLimit w

/-- The A elements that are read lie in the scratchpad, and 16-bit ones at even addresses (R271). -/
def rowsOk (s : State) (w : Nat) (k : Pair) (u : Unf) (rows : List (List AElem)) : Prop :=
  (pairInt k = false → u.base % 2 = 0) ∧ ∀ r ∈ rows, ∀ o ∈ rowOffs k u r, o < s.spadLimit w

/-- Accumulator `a` is valid, and of the type, once the entries before have run (R273). -/
def accHolds (s : State) (w a : Nat) (int : Bool) : Prop := (s.tagAhead w a).valid = true ∧ (s.tagAhead w a).int = int

def tileHolds (s : State) (w t : Nat) : Prop := ((s.wave w).tileStat t).valid = true

/-- No quarter of the path is partial, and the path is no group (R129, R266). -/
def quartersOk (g : Guard) (e : Env) (s : State) : Prop :=
  partialQuarters (s.pathActive e g) = false ∧ s.groupOf e.ref = none

/-- MMQ and MMW may multiply the quarters `qs` (R292). -/
def mulOk (k : Pair) (sc : Bool) (d : AReg) (b : TReg) (qs : List Nat) (e : Env) (s : State) : Prop :=
  let x := s.wave e.wave
  let u := Unf.of x.unfList
  tileHolds s e.wave b.toNat ∧ accHolds s e.wave d.toNat (pairInt k && !sc) ∧
    rowsOk s e.wave k u (qs.flatMap fun q => unfRows k u q (koffOf x.mxkoff q)) ∧
    (sc = true → scalesOk s e.wave (qs.flatMap fun q => s.mmqScales e.wave k d.toNat q))

/-- MMG may gather (R296): its operands are aligned, every index-list entry and target that it uses lies in the scratchpad. -/
def gatherOk (k : Pair) (sc : Bool) (d : SReg) (a : VReg) (b : TReg) (e : Env) (s : State) : Prop :=
  let w := s.wave e.wave
  let u := Unf.of w.unfList
  let qs := fullQuarters e.act
  let base := (w.sreg d.toNat).toNat
  tileHolds s e.wave b.toNat ∧ base % 4 = 0 ∧ u.sbase % 4 = 0 ∧
    (∀ q ∈ qs, ∀ m ∈ quarterRows q, base + 4 * m + 4 ≤ s.spadLimit e.wave ∧
      ∀ o ∈ targetOffs u (s.mmgEntry e.wave d m), o + 4 ≤ s.spadLimit e.wave) ∧
    rowsOk s e.wave k u (qs.flatMap fun q => gatherRows k u w a q (koffOf w.mxkoff q)) ∧
    (sc = true → scalesOk s e.wave (qs.flatMap fun q => mmgScales w k u a q))

end Sys2Proof.Claims

open Sys2Proof.Claims

/-- What the matrix instructions do at issue, each when its checks hold: MUNF and MSCL write their registers; the others enter the partition's
queue with what they read, one entry for each quarter, and the quarter instructions move the K origins on. MMT and MMTS start at the step that
sD names, or are already over (R286 to R298, R352 to R355).
Choices of the model it rests on: logs 54, 55, 56, 57, 111. -/
def Obligations.MatrixIssue : Prop :=
  ∀ (g : Guard) (k : Pair) (sc : Bool) (d : AReg) (t b : TReg) (a x : SReg) (v : VReg),
    let reg := fun (e : Env) (s : State) (r : SReg) => ((s.wave e.wave).sreg r.toNat).toNat
    let alone := fun (e : Env) (s : State) => s.groupOf e.ref = none
    let unf := fun (e : Env) (s : State) => (s.wave e.wave).unfList
    let scl := fun (e : Env) (s : State) => (s.wave e.wave).mxscl
    (acrossLanes (.munf g a) g fun _ w => w.setUnfold ((List.range 8).map fun j => w.sreg (a.toNat + j))) ∧
    (acrossLanes (.mscl g a x) g fun _ w => { w with mxscl := (w.sreg x.toNat).setWidth 32 ++ ((w.sreg a.toNat).setWidth 32 : Word) }) ∧
    (∀ int, completes (.mza g int d) g false alone (inTurn (.mza g int d) fun e s => s.enterQueue e [] 0 none none [.mza int d.toNat])) ∧
    (completes (.mldt g t a) g false (fun e s => alone e s ∧ reg e s a % 16 = 0 ∧ reg e s a + 6144 ≤ s.spadLimit e.wave)
      (inTurn (.mldt g t a) fun e s => (s.pushMatrix e .tile).enterQueue e [] 0 (some s.nextId) none [.mldt t.toNat (reg e s a)])) ∧
    (∀ bf, completes (.msta g bf d a) g false
      (fun e s => alone e s ∧ reg e s a % 16 = 0 ∧ reg e s a + (if bf then 2048 else 4096) ≤ s.spadLimit e.wave ∧
        (s.wave e.wave).collecting = false ∧ (s.tagAhead e.wave d.toNat).valid = true ∧ scalesOk s e.wave (s.foldScales e.wave d.toNat))
      (inTurn (.msta g bf d a) fun e s =>
        (s.pushMatrix e .store).enterQueue e (unf e s) (scl e s) none (some s.nextId) [.msta bf d.toNat (reg e s a) (decide ((s.tagAhead e.wave d.toNat).openQuarters ≠ []))])) ∧
    (∀ ty j, completes (.mcvt g ty t d j) g false
      (fun e s => alone e s ∧ (s.tagAhead e.wave d.toNat).valid = true ∧ scalesOk s e.wave (s.foldScales e.wave d.toNat))
      (inTurn (.mcvt g ty t d j) fun e s => s.enterQueue e (unf e s) (scl e s) none none 
        [.mcvt ty t.toNat d.toNat j.toNat (decide ((s.tagAhead e.wave d.toNat).openQuarters ≠ []))])) ∧
    (∀ i, i = Instr.mmq g k sc d b ∨ i = .mmw g k sc d b →
      let qs := fun (e : Env) => if i = .mmw g k sc d b then [0, 1, 2, 3] else fullQuarters e.act
      completes i g false
        (fun e s => quartersOk g e s ∧ (i = .mmw g k sc d b → s.pathActive e g = BitVec.allOnes 32) ∧ mulOk k sc d b (qs e) e s)
        (inTurn i fun e s =>
          ((s.pushMatrix e .tile).enterQueue e (unf e s) (scl e s) (some s.nextId) none
            ((qs e).map fun q => .mmq k sc d.toNat b.toNat q (koffOf (s.wave e.wave).mxkoff q))).updWave e.wave fun w =>
              { w with mxkoff := advanceKoff w.mxkoff (qs e) k })) ∧
    (completes (.mmg g k sc a v b) g false
      (fun e s => quartersOk g e s ∧ (s.wave e.wave).collecting = false ∧ s.spadSettled e.wave s.nextId [] = true ∧ gatherOk k sc a v b e s)
      (inTurn (.mmg g k sc a v b) fun e s =>
        let w := s.wave e.wave
        (((s.pushMatrix e .tile).pushMatrix e .store).enterQueue e (unf e s) (scl e s) (some s.nextId) (some (s.nextId + 1))
          ((fullQuarters e.act).map fun q => .mmg k sc b.toNat q (koffOf w.mxkoff q)
            ((quarterRows q).map fun m => (w.vreg v.toNat m).toNat) ((quarterRows q).map fun m => s.mmgEntry e.wave a m))).updWave
          e.wave fun w => { w with mxkoff := advanceKoff w.mxkoff (fullQuarters e.act) k })) ∧
    (∀ (i : Instr) (mk : Wave → Nat → MBody),
      (∃ j : BitVec 3, i = .mtrn g k d b j ∧ mk = fun _ q => .mtrn k d.toNat b.toNat q j.toNat) ∨
        (i = .mprm g k d v b ∧ mk = fun w q => .mprm k d.toNat b.toNat q ((quarterRows q).map fun m => (w.vreg v.toNat m).toNat)) ∨
        (i = .mred g k d b ∧ mk = fun _ q => .mred k d.toNat b.toNat q) →
      completes i g false
        (fun e s => quartersOk g e s ∧ tileHolds s e.wave b.toNat ∧ accHolds s e.wave d.toNat (pairInt k))
        (inTurn i fun e s => s.enterQueue e [] 0 none none ((fullQuarters e.act).map (mk (s.wave e.wave))))) ∧
    ∀ (i : Instr) (store : Bool), (i, store) ∈ [((.mmt g k sc a x : Instr), false), (.mmts g k sc a x, true)] →
      completes i g false (fun e s => macroCauses e s store k sc a x = []) fun p _ on s =>
        match on.head? with
        | none => s
        | some e =>
          let ds := (List.range 4).map fun j => (s.wave e.wave).sreg (x.toNat + j)
          let n := reg e s a % 2 ^ 32
          let steps := (MDesc.of ds).nk + 1 + if store then 8 else 0
          if n ≥ steps then (s.updWave e.wave fun w => w.setS a.toNat 0).advance p i
          else s.updWave e.wave fun w => { w with mmt := some ⟨p.slot, e.leaf.mask, store, k, sc, a.toNat, ds, w.mxscl, n, steps, false⟩ }.flyAll true []

namespace Sys2Proof.Claims

/-- Column `n` of B in a tile: its elements at 192 bytes a column (R265). -/
def colOf (k : Pair) (w : Wave) (t n : Nat) : List MElem :=
  (List.range (kPer k)).map fun j => elemOfB k (elemBits k (fun o => w.tileByte t (192 * n + o)) j)

/-- The A row whose elements come from where `f` says, from the K origin on (R270). -/
def rowOf (k : Pair) (u : Unf) (rd : Nat → Byte) (f : Nat → AElem) (koff : Nat) : List MElem :=
  (List.range (kPer k)).map fun i => (f (16 * koff + i)).value k u rd

def wordAt (rd : Nat → Byte) (o : Nat) : Nat := natOfBytes [rd o, rd (o + 1), rd (o + 2), rd (o + 3)]

/-- A scaled chain at one of its positions (R57, R274): the element, the exact partial of the open span, the position in the span, the
span's index, and the flags so far. -/
structure Chain where
  acc  : Nat
  part : Int
  pos  : Nat
  idx  : Nat
  fl   : Fl

/-- One product enters the chain; with the last one of a span, the span is folded. -/
def Chain.step (scl : Nat → Nat × Nat) (c : Chain) (x : MElem × MElem) : Chain :=
  let part := c.part + x.1.toInt * x.2.toInt
  if c.pos + 1 < 128 then { c with part := part, pos := c.pos + 1 }
  else
    let f := foldPart c.acc part (scl c.idx).1 (scl c.idx).2
    ⟨f.1, 0, 0, (c.idx + 1) % 2 ^ 16, c.fl ||| f.2⟩

/-- Sixteen products at a time are summed exactly, rounded once to FP32 and added to the element (R55); `none` is a position without one. -/
def inGroups (acc : Word) (ps : List (Option (FV × Fl))) : Word × Fl :=
  let r := (List.range ((ps.length + 15) / 16)).foldl (fun (x : Nat × Fl) j =>
    let g := groupSum (((ps.drop (16 * j)).take 16).filterMap id)
    let y := addF32 x.1 g.1
    (y.1, x.2 ||| g.2 ||| y.2)) (acc.toNat, 0)
  (BitVec.ofNat 32 r.1, r.2)

/-- The wave's accumulator `a` when its open spans have been folded (R58, R274). -/
def foldedWord (u : Unf) (mx : DWord) (rd : Nat → Byte) (w : Wave) (a r n : Nat) : Word :=
  let t := w.accTag a
  let o := u.scales mx r (nth 0 t.spanIdx (r / 8))
  if t.scl = true ∧ nth 0 t.spanPos (r / 8) ≠ 0 then
    BitVec.ofNat 32 (foldPart (w.accWord a r n).toNat (w.partWord a r n).toInt (wordAt rd o.1) (wordAt rd o.2)).1
  else w.accWord a r n

/-- The bits of K element `kk` of a run of bytes, as MCVT's type lays it out (R298). -/
def bitsAt (k : McvtTy) (rd : Nat → Byte) (kk : Nat) : Nat :=
  match k with
  | .int8 | .dp8 => (rd kk).toNat
  | .int4 => (rd (kk / 2)).toNat / 16 ^ (kk % 2) % 16
  | .bf16 | .fp16 => (rd (2 * kk)).toNat + 256 * (rd (2 * kk + 1)).toNat

end Sys2Proof.Claims

open Sys2Proof.Claims

/-- What the entries of the queue compute, over the bytes that they have read. MZA leaves a valid accumulator of zeros. A quarter of MMQ or MMW adds
to each element of its quarter the products of its row and column: without .SC in one sum of integers or in groups of sixteen floating-point
products, with .SC product by product along its chain, which is folded at each span's end; it changes no other element. MTRN, MPRM and MRED are
such products with matrices of ones and zeros. MMG hands each of its rows' elements, started at +0, to the entries of its index list. MLDT's tile
holds the bytes read, MSTA writes the folded accumulator's words or their BF16 values, and MCVT converts them into the block named of a tile
(R55 to R58, R265, R270, R273, R274, R278, R280, R289 to R298).
Choices of the model it rests on: logs 112, 143. -/
def Obligations.MatrixArithmetic : Prop :=
  (∀ (m : MEntry) (rd : Nat → Byte) (w : Wave), w.faded = [] → Sparse.wf w.a = true → Sparse.wf w.partial_ = true → Sparse.wf w.t = true →
    let d := m.compute rd w
    let u := Unf.of m.unfold
    let scl := fun (r f : Nat) => (wordAt rd (u.scales m.mxscl r f).1, wordAt rd (u.scales m.mxscl r f).2)
    -- quarter `q` of accumulator `a` becomes what `f` says, and nothing else of the registers changes but the accumulator's tag
    let quarter := fun (a q : Nat) (f : Nat → Nat → Word) =>
      (∀ c r n, r < 32 → n < 32 → d.wave.accWord c r n = if c = a ∧ r / 8 = q then f r n else w.accWord c r n) ∧
        (∀ c, c ≠ a → d.wave.accTag c = w.accTag c) ∧ d.wave.t = w.t ∧ d.wave.s = w.s ∧ d.wave.v = w.v ∧ d.writes = [] ∧ d.adds = []
    (∀ int a, m.body = .mza int a →
      (∀ c r n, r < 32 → n < 32 → d.wave.accWord c r n = if c = a then 0 else w.accWord c r n) ∧
        (d.wave.accTag a).valid = true ∧ (d.wave.accTag a).int = int ∧ ∀ c, c ≠ a → d.wave.accTag c = w.accTag c) ∧
    (∀ k a t q koff, m.body = .mmq k false a t q koff → q < 4 →
      let x := fun (r n : Nat) => accPlain k (w.accWord a r n) (rowOf k u rd (u.elem r) koff) (colOf k w t n)
      quarter a q (fun r n => (x r n).1) ∧ (d.wave.accTag a).scl = false ∧
        d.flags = orAll ((List.range 8).flatMap fun i => (List.range 32).map fun n => (x (8 * q + i) n).2)) ∧
    (∀ k a t q koff, m.body = .mmq k true a t q koff → q < 4 →
      let c := (w.accTag a).chain
      let x := fun (r n : Nat) => ((rowOf k u rd (u.elem r) koff).zip (colOf k w t n)).foldl (Chain.step (scl r))
        ⟨(w.accWord a r n).toNat, (w.partWord a r n).toInt, nth 0 c.spanPos q, nth 0 c.spanIdx q, 0⟩
      nth 0 c.spanPos q < 128 → nth 0 c.spanIdx q < 2 ^ 16 → c.spanPos.length = 4 → c.spanIdx.length = 4 →
      quarter a q (fun r n => BitVec.ofNat 32 (x r n).acc) ∧
        (∀ r n, r < 32 → n < 32 → r / 8 = q → d.wave.partWord a r n = BitVec.ofInt 32 (x r n).part ∧
          nth 0 (d.wave.accTag a).spanPos q = (x r n).pos ∧ nth 0 (d.wave.accTag a).spanIdx q = (x r n).idx)) ∧
    (∀ k a t q (f : Nat → Nat → Bool),
      (∃ j, m.body = .mtrn k a t q j ∧ f = fun r x => x == r + 32 * j) ∨
        (∃ idx, m.body = .mprm k a t q idx ∧ f = fun r x => idx[r - 8 * q]? == some x) ∨ (m.body = .mred k a t q ∧ f = fun _ _ => true) → q < 4 →
      quarter a q (fun r n => (accOnes k (w.accWord a r n) (f r) (colOf k w t n)).1) ∧ (d.wave.accTag a).scl = false) ∧
    (∀ k sc t q koff idx ens, m.body = .mmg k sc t q koff idx ens → koff < 2 ^ 16 →
      let x := fun (i n : Nat) =>
        let row := rowOf k u rd (u.gather i) koff
        let sg := fun (f : Nat) => (wordAt rd (u.gatherScales m.mxscl i f).1, wordAt rd (u.gatherScales m.mxscl i f).2)
        if sc then
          let c := (row.zip (colOf k w t n)).foldl (Chain.step sg) ⟨0, 0, 16 * koff % 128, 16 * koff / 128, 0⟩
          BitVec.ofNat 32 (if c.pos = 0 then c.acc else (foldPart c.acc c.part (sg c.idx).1 (sg c.idx).2).1)
        else (accPlain k 0 row (colOf k w t n)).1
      d.wave = w ∧ d.writes = [] ∧ d.adds = (idx.zip ens).flatMap fun z =>
        if z.2 = 2 ^ 32 - 1 then [] else (List.range 32).map fun n => (u.sbase + 4 * (z.2 * u.spitch + n), x z.1 n)) ∧
    (∀ t o j, m.body = .mldt t o → j < 6144 →
      d.wave.tileByte t j = rd (o + j) ∧ (d.wave.tileStat t).valid = true ∧ ∀ c, c ≠ t → d.wave.tileByte c j = w.tileByte c j) ∧
    (∀ bf a o f, m.body = .msta bf a o f →
      let x := fun (r n : Nat) => foldedWord u m.mxscl rd w a r n
      let value := fun (r n : Nat) => if (w.accTag a).int then intVal (x r n).toInt else fp32.dec (x r n).toNat
      (∀ c r n, r < 32 → n < 32 → d.wave.accWord c r n = if c = a then x r n else w.accWord c r n) ∧
      d.writes = (List.range 32).flatMap fun r => (List.range 32).flatMap fun n =>
        if bf then
          let y := (bf16.deliver Mode.rne (value r n)).1
          (List.range 2).map fun i => (o + 2 * (32 * r + n) + i, BitVec.ofNat 8 (y / 256 ^ i))
        else (List.range 4).map fun i => (o + 4 * (32 * r + n) + i, (x r n).extractLsb' (8 * i) 8)) ∧
    ∀ k t a j f, m.body = .mcvt k t a j f → j < k.blocks →
      (∀ r n, r < 32 → n < 32 →
        bitsAt k (fun o => d.wave.tileByte t (192 * n + o)) (32 * j + r) = (mcvtElem k (w.accTag a).int (foldedWord u m.mxscl rd w a r n)).1) ∧
      (∀ kk n, n < 32 → kk < 32 * k.blocks → kk / 32 ≠ j → bitsAt k (fun o => d.wave.tileByte t (192 * n + o)) kk =
        if (w.tileStat t).valid then bitsAt k (fun o => w.tileByte t (192 * n + o)) kk else 0) ∧
      (d.wave.tileStat t).valid = true ∧ ∀ c b, c ≠ t → b < 6144 → d.wave.tileByte c b = w.tileByte c b) ∧
  (∀ (k : Pair) (acc : Word) (as bs : List MElem), as.length = bs.length → bs.length ≤ 384 →
    (pairInt k = true → accPlain k acc as bs = clampS 32 (acc.toInt + ((as.zip bs).map fun x => x.1.toInt * x.2.toInt).sum)) ∧
    (pairInt k = false → accPlain k acc as bs = inGroups acc ((as.zip bs).map fun x => some (prodFV x.1.toFV x.2.toFV))) ∧
    ∀ (f : Nat → Bool),
      (pairInt k = true → accOnes k acc f bs = accPlain k acc ((List.range bs.length).map fun i => .int (if f i then 1 else 0)) bs) ∧
      (pairInt k = false → accOnes k acc f bs = inGroups acc (bs.zipIdx.map fun x =>
        if f x.2 then some (if x.1.toFV.isNaN then (.nan false, nanFlag x.1.toFV) else (x.1.toFV, 0)) else none))) ∧
  (∀ (ps : List (FV × Fl)),
    let vs := ps.map Prod.fst
    let fl := orAll (ps.map Prod.snd)
    ((∃ x ∈ vs, x.isNaN = true) → groupSum ps = (fp32.cnan, fl)) ∧
    ((∀ x ∈ vs, x.isNaN = false) → .inf false ∈ vs → .inf true ∈ vs → groupSum ps = (fp32.cnan, fl ||| flIV)) ∧
    (∀ b, (∀ x ∈ vs, x.isNaN = false) → .inf b ∈ vs → .inf (!b) ∉ vs → groupSum ps = (fp32.infBits b, fl)) ∧
    ∀ (xs : List (Bool × Nat × Int)) (e : Int), vs = xs.map (fun x => .fin x.1 x.2.1 x.2.2) → (∃ x ∈ xs, x.2.2 = e) → (∀ x ∈ xs, e ≤ x.2.2) →
      let v := (xs.map fun x => (if x.1 then -1 else 1) * (x.2.1 : Int) * 2 ^ (x.2.2 - e).toNat).sum
      (v = 0 → groupSum ps = (fp32.zeroBits (decide (∀ x ∈ xs, x.1 = true ∧ x.2.1 = 0)), fl)) ∧
      (v ≠ 0 → groupSum ps = ((fp32.round Mode.rne (decide (v < 0)) v.natAbs e).1, fl ||| (fp32.round Mode.rne (decide (v < 0)) v.natAbs e).2))) ∧
  (∀ (acc sa sw : Nat) (part : Int),
    (foldPart acc part sa sw).1 =
      (addF32 acc (mulF32 (fp32.round Mode.rne (decide (part < 0)) part.natAbs 0).1 (mulF32 sa sw).1).1).1) ∧
  ∀ (x : Word), (mcvtElem .int8 true x).1 = (clampS 8 x.toInt).1.toNat ∧ (mcvtElem .int4 true x).1 = (clampS 4 x.toInt).1.toNat

/-- The matrix queue: entries stand behind those before them, the last of an instruction completes it; MATRIX_ENTRY_START starts the oldest that
has not started once the datapath is free, which reads its scratchpad bytes a part at a time (R299) and computes when it has them all;
MATRIX_WRITE_COMPLETE makes an addition of the oldest entry (R296) or ends it and sets its flags, eight cycles after its datapath cycles at the
earliest (R262, R264, R285). MMT_STEP: a step that goes through leaves its wave and its writes, and the macro goes on, ends with the instruction,
or stops with sD naming the next step; an error or a page that has gone stops it at its step (R356 to R358).
Choices of the model it rests on: logs 55, 56, 134, 138. -/
def Obligations.MatrixQueue : Prop :=
  (∀ (s : State),
     (∀ (e : Env) (u : List DWord) (mx : DWord) (tOp sOp : Option Nat) (bs : List MBody), bs ≠ [] →
       let t := s.enterQueue e u mx tOp sOp bs
       let q := t.mqAt (s.coreOf e.wave) (s.wave e.wave).part
       q.take (s.mqAt (s.coreOf e.wave) (s.wave e.wave).part).length = s.mqAt (s.coreOf e.wave) (s.wave e.wave).part ∧
         (q.drop (s.mqAt (s.coreOf e.wave) (s.wave e.wave).part).length).map MEntry.body = bs ∧
         (∀ k, ((t.wave k).s, (t.wave k).v, (t.wave k).p, (t.wave k).flags) = ((s.wave k).s, (s.wave k).v, (s.wave k).p, (s.wave k).flags)) ∧
         ∀ q : Place, t.placeByte q = s.placeByte q) ∧
     (∀ (c : CoreId) (part i : Nat) (m : MEntry), nextEntry (s.mqAt (coreKey c) part) = some (i, m) →
       let q := s.mqAt (coreKey c) part
       let own := m.tOp.toList ++ m.sOp.toList
       ((∃ x ∈ q, x.started = true ∧ s.cycle < x.ends) ∨ s.spadSettled m.wave m.born own = false →
         exec (.matrixEntryStart c part) s = .next s) ∧
       ((∀ x ∈ q, x.started = true → x.ends ≤ s.cycle) → s.spadSettled m.wave m.born own = true →
         let team := (s.wave m.wave).team
         let todo := m.toRead (s.wave m.wave)
         let n := 1 + Config.pick (s.draw 0) % max 1 todo.length
         let bad := (todo.take n).filter fun o => s.upsetAt ⟨.spad team, o, 0, false⟩
         let m' := { m with got := m.got ++ (todo.take n).map fun o => (o, s.spadRd team o) }
         let u := s.raiseErrs m.wave (bad.map fun o => (2, s.coreUnit m.wave, o))
         (n < todo.length → exec (.matrixEntryStart c part) s = .next (nextDraw (u.setMq (coreKey c) part (setIdx q i m')))) ∧
         (todo.length ≤ n →
           let u := u.checkRegs m.wave m.body.readsReg
           let r := m'.compute m'.byte (u.wave m.wave)
           let t := (u.updWave m.wave fun _ => m.body.partsWritten.foldl (fun w x => w.wrote x.1 x.2) r.wave).setMq (coreKey c) part
             (setIdx q i { m' with
               started := true, ends := s.cycle + m.body.cycles, flags := r.flags, writes := r.writes, adds := r.adds })
           exec (.matrixEntryStart c part) s = .next (match m.last, m.tOp with | true, some n => t.opDone n | _, _ => t)))) ∧
     (∀ (c : CoreId) (part i : Nat) (m : MEntry), nextEntry (s.mqAt (coreKey c) part) = some (i, m) →
       (s.mqAt (coreKey c) part)[i]? = some m ∧ m.started = false ∧ ∀ j < i, ∀ x, (s.mqAt (coreKey c) part)[j]? = some x → x.started = true) ∧
     ∀ (c : CoreId) (part : Nat) (m : MEntry) (rest : List MEntry), s.mqAt (coreKey c) part = m :: rest →
       let team := (s.wave m.wave).team
       (m.started = false ∨ s.cycle < m.ends + 8 → exec (.matrixWriteComplete c part) s = .next s) ∧
       (m.started = true → m.ends + 8 ≤ s.cycle →
         (∀ x more, m.adds = x :: more → readsLeft m rest = false →
           let r := s.scatterAdd m.wave team m.body.addsInt x.1 x.2
           exec (.matrixWriteComplete c part) s =
             .next (r.1.setMq (coreKey c) part ({ m with adds := more, flags := m.flags ||| r.2 } :: rest))) ∧
         (m.adds ≠ [] → readsLeft m rest = true → exec (.matrixWriteComplete c part) s = .next s) ∧
         (m.adds = [] →
           let u := m.writes.foldl (fun (s : State) x => s.writeByte ⟨.spad team, x.1, 0, false⟩ x.2) (s.setMq (coreKey c) part rest)
           let t := u.updWave m.wave fun w => (w.landed (rest.filter fun x => x.wave == m.wave) m.body).orFlags m.flags
           exec (.matrixWriteComplete c part) s = .next (match m.last, m.sOp with | true, some n => t.opDone n | _, _ => t)))) ∧
  (∀ (s : State) (p : PathRef) (m : Macro) (stop : Bool), (s.wave p.wave).mmt = some m → m.slot = p.slot → (s.wave p.wave).cond = .resident →
     let bad := (s.wave p.wave).upset.any fun u => match u.1 with | .a a => m.readsAcc a | _ => false
     (bad = true → exec (.mmtStep p stop) s =
       .next ((s.checkRegs p.wave fun r => match r with | .a a => m.readsAcc a | _ => false).macroEnd p.wave m.dst m.step)) ∧
     (bad = false → s.macroStep p.wave m = .waits → exec (.mmtStep p stop) s = .next s) ∧
     (bad = false → s.macroStep p.wave m = .gone → exec (.mmtStep p stop) s = .next (s.macroEnd p.wave m.dst m.step)) ∧
     (∀ e, bad = false → s.macroStep p.wave m = .failed e → exec (.mmtStep p stop) s = .next ((s.raiseErrs p.wave [e]).macroEnd p.wave m.dst m.step)) ∧
     (∀ x fl ws rd, bad = false → s.macroStep p.wave m = .done x fl ws rd →
       let t := nextDraw (ws.foldl (fun (s : State) c => s.homeWrite c.1 c.2)
         ((rd.foldl (fun (s : State) c => s.touch c 16) s).updWave p.wave fun _ => x.orFlags fl))
       (m.steps ≤ m.step + 1 →
         let fin := (t.macroEnd p.wave m.dst 0).updWave p.wave fun w => w.setTree p.slot ((w.tree p.slot).map fun l =>
           if l.mask &&& m.lanes = 0 ∨ l.pos = 0 then l
           else { l.advance 1 with wait := if isRunning l = true ∨ t.stepDue p (.nop Guard.always) = false then l.wait else .stepped })
         exec (.mmtStep p stop) s = .next (if runMask ((fin.wave p.wave).tree p.slot) &&& m.lanes = 0 then fin.moved p (t.place p)
           else fin.finishIssue p (t.place p) (.nop Guard.always) [])) ∧
       (m.step + 1 < m.steps → stop = true → exec (.mmtStep p stop) s = .next (t.macroEnd p.wave m.dst (m.step + 1))) ∧
       (m.step + 1 < m.steps → stop = false → t.macroStop p.wave m = false →
         exec (.mmtStep p stop) s = .next (t.updWave p.wave fun w => { w with mmt := some { m with step := m.step + 1 } }))) ∧
     (m.step = 0 → ∃ x, s.macroStep p.wave m = .done x 0 [] [] ∧ ∀ a < 8, (x.accTag a).valid = true ∧ (x.accTag a).int = wantsInt m.kind m.sc) ∧
     ((s.waves.look p.wave).isSome → Sparse.wf (s.wave p.wave).s = true → ∀ n, (s.macroEnd p.wave m.dst n).wave p.wave =
       { (s.macroEnd p.wave m.dst n).wave p.wave with mmt := none } ∧
       ((s.macroEnd p.wave m.dst n).wave p.wave).sreg m.dst = BitVec.ofNat 64 n))

/-! ## Sum trees and effect lists -/

namespace Sys2Proof.Claims

/-- A sum-tree register in its canonical form: no leaf beyond its length. -/
def treeOk (t : Tree) : Prop := Sparse.wf t.leaves = true ∧ ∀ x ∈ t.leaves, x.1 < t.len

/-- The leaves below `i` summed. -/
def massBelow (t : Tree) (i : Nat) : Nat := ((List.range i).map t.leaf).sum

end Sys2Proof.Claims

open Sys2Proof.Claims

/-- A sum-tree instruction enters the core's queue with what its wave's registers hold at issue (R303, R305, R310 to R316). TREE_UNIT_EXECUTE
executes the oldest instruction of the core's queue whole, when its wave's older scratchpad accesses are made (R306), and its counted operation
has completed (R304); an HBLD.SP of a collecting wave finds the records made before its issue, and those that an older HSTL makes later (R319, R331).
Choices of the model it rests on: logs 52, 53, 54. -/
def Obligations.SumTreeIssue : Prop :=
  (∀ (g : Guard) (h : HReg) (a b : VReg) (d x : SReg) (m16 : Bool),
     let alone := fun (e : Env) (s : State) => s.groupOf e.ref = none
     let lim := fun (e : Env) (s : State) => s.spadLimit e.wave
     (∀ (i : Instr) (f : Env → Wave → TreeDo),
       (i, f) ∈ [((.hset g h a b : Instr), fun e w => TreeDo.set (lanePairs e w a b)), (.hadd g h a b, fun e w => .add (lanePairs e w a b)),
         (.hpfx g h (.vec a b), fun e w => .pfxV a.toNat (laneVals e w b)), (.hpfx g h (.uni d x), fun _ w => .pfxS d.toNat (w.sreg x.toNat).toNat),
         (.hfind g h (.vec a b), fun e w => .findV a.toNat (laneVals e w b)),
         (.hfind g h (.uni d x), fun _ w => .findS d.toNat (w.sreg x.toNat).toNat),
         (.hcut g d h x, fun _ w => .cut d.toNat (w.sreg x.toNat).toNat), (.htot g d h, fun _ _ => .tot d.toNat),
         (.hlenRead g d h, fun _ _ => .lenRead d.toNat), (.hlenSet g h x, fun _ w => .lenSet (w.sreg x.toNat).toNat)] →
       completes i g false alone (inTurn i fun e s => s.enterTree e h.toNat none (f e (s.wave e.wave)))) ∧
     (let n := fun (e : Env) (s : State) => min ((s.wave e.wave).sreg x.toNat).toNat (if m16 then 2048 else 1024)
      let regs := fun (e : Env) (s : State) => (n e s * (if m16 then 2 else 4) + 127) / 128
      completes (.hbld g m16 h (.vec a) x) g false
       (fun e s => alone e s ∧ (n e s = 0 ∨ a.toNat + regs e s - 1 ≤ min 255 (Header.ofWord e.leaf.hdr).vhw) ∧
         ∀ k < regs e s, Reg.v (a.toNat + k) ∉ s.busyRegs e.wave e.mine)
       (inTurn (.hbld g m16 h (.vec a) x) fun e s => s.enterTree e h.toNat none
         (.build m16 ((s.wave e.wave).sreg x.toNat).toNat (leavesOf m16 (n e s) ((s.wave e.wave).vImage a.toNat (regs e s)))))) ∧
     (let n := fun (e : Env) (s : State) => min ((s.wave e.wave).sreg x.toNat).toNat (if m16 then 2048 else 1024) * (if m16 then 2 else 4)
      let o := fun (e : Env) (s : State) => ((s.wave e.wave).sreg d.toNat).toNat % 2 ^ 32
      completes (.hbld g m16 h (.sp d) x) g false
       (fun e s => alone e s ∧ o e s % (if m16 then 2 else 4) = 0 ∧ o e s + n e s ≤ lim e s)
       (inTurn (.hbld g m16 h (.sp d) x) fun e s =>
         (s.pushOp ⟨e.wave, e.mine, s.coreOf e.wave, .load, false, false, [], false, .tree e.word, false⟩).enterTree e h.toNat (some s.nextId)
           (.buildSp m16 ((s.wave e.wave).sreg x.toNat).toNat (o e s)
             (if (s.wave e.wave).collecting then some (s.collection e.wave) else none)))) ∧
     let o := fun (e : Env) (s : State) => ((s.wave e.wave).sreg d.toNat).toNat % 2 ^ 32
     completes (.hstl g h d) g false
       (fun e s => alone e s ∧ o e s % 4 = 0 ∧ o e s + 4096 ≤ lim e s ∧
         ((s.wave e.wave).collecting = true → s.recordRoom e.wave 512 = true))
       (inTurn (.hstl g h d) fun e s =>
         (s.pushOp ⟨e.wave, e.mine, s.coreOf e.wave, .store, false, false, [], false, .tree e.word, false⟩).enterTree e h.toNat (some s.nextId)
           (.stl (o e s) (if (s.wave e.wave).collecting then some (s.wave e.wave).collEntry else none)))) ∧
  (∀ (s : State) (core : CoreId) (c : TreeCmd) (rest : List TreeCmd), (s.core (coreKey core)).treeQ = c :: rest →
     (s.treeReady c = false → ∀ bad, exec (.treeUnitExecute core bad) s = .next s) ∧
     (s.treeReady c = true → (s.team c.team).spadUpset = [] →
       let r := c.apply c.records (fun o => s.spadRd c.team o) (s.treeOf c.team c.h) (s.wave c.wave)
       let u := (s.setTree c.team c.h r.1).updWave c.wave fun _ => r.2.1.orFlags r.2.2
       let t := (u.storeTree c r.1).updCore (coreKey core) fun x => { x with treeQ := rest.map (TreeCmd.finds c.wave (u.stlRecords c r.1)) }
       exec (.treeUnitExecute core none) s = .next (match c.op with | some n => t.opDone n | none => t)) ∧
     (∀ m16 len o rs, c.body = .buildSp m16 len o rs → c.records = rs.getD []) ∧
     (∀ o (t : Tree), c.body = .stl o none → s.storeTree c t = s.homeWrite ⟨.spad c.team, o, 0, false⟩ t.image ∧ s.stlRecords c t = []) ∧
     (∀ o k (t : Tree), c.body = .stl o (some k) → (s.wave c.wave).collAct = true → (s.wave c.wave).collEntry = k →
       s.storeTree c t = s.record c.wave (imageRecords 513 o t.image) ∧ s.stlRecords c t = imageRecords 513 o t.image ∧
         ∀ m16 len p old, TreeCmd.finds c.wave (s.stlRecords c t) { c with body := .buildSp m16 len p (some old) } =
           { c with body := .buildSp m16 len p (some (old ++ imageRecords 513 o t.image)) }) ∧
     (∀ op, c.op = some op → s.treeReady c = s.spadQuiet c.wave op []) ∧
     ∀ (rs : List Effect) (rd : Nat → Byte) (t : Tree) (w : Wave),
       (∀ d i, c.body = .pfxS d i → c.apply rs rd t w = (t, w.setS d (BitVec.ofNat 64 (t.pre (min i t.len))), 0)) ∧
       (∀ d m, c.body = .findS d m → c.apply rs rd t w = (t, w.setS d (BitVec.ofNat 64 (t.find m)), 0)) ∧
       (∀ d m, c.body = .cut d m → c.apply rs rd t w = ((t.cut m).2, w.setS d (BitVec.ofNat 64 (t.cut m).1), 0)) ∧
       (∀ d, c.body = .tot d → c.apply rs rd t w = (t, w.setS d (BitVec.ofNat 64 t.total), 0)) ∧
       (∀ d, c.body = .lenRead d → c.apply rs rd t w = (t, w.setS d (BitVec.ofNat 64 t.len), 0)) ∧
       (∀ ls, c.body = .set ls → c.apply rs rd t w = ((t.set ls).1, w, (t.set ls).2)) ∧
       (∀ ls, c.body = .add ls → c.apply rs rd t w = ((t.add ls).1, w, (t.add ls).2)) ∧
       (∀ n, c.body = .lenSet n → c.apply rs rd t w = ((t.setLen n).1, w, (t.setLen n).2)) ∧
       (∀ d l m, c.body = .findV d [(l, m)] → c.apply rs rd t w = (t, w.setV d l (BitVec.ofNat 32 (t.find m)), 0)) ∧
       (∀ m16 n ls, c.body = .build m16 n ls →
         c.apply rs rd t w = (Tree.ofLeaves m16 (min n (maxLeaves m16)) ls, w, if maxLeaves m16 < n then flSAT else 0)) ∧
       (∀ m16 n o col, c.body = .buildSp m16 n o col → c.apply [] rd t w =
         (Tree.ofLeaves m16 (min n (maxLeaves m16))
           (leavesOf m16 (min n (maxLeaves m16)) ((upto (min n (maxLeaves m16) * leafBytes m16)).map fun j => rd (o + j))), w,
          if maxLeaves m16 < n then flSAT else 0)) ∧
       ∀ d l i, c.body = .pfxV d [(l, i)] →
         c.apply rs rd t w = (t, w.setV d l (clampU 32 (t.pre (min i t.len))).1, (clampU 32 (t.pre (min i t.len))).2))

/-- Queries of a sum-tree register: prefixes and totals are exact sums of leaves; HFIND and HCUT find the leaf at a mass; HCUT leaves the leaves
up to it; HSET's highest lane wins and values clamp; HADD adds the combined deltas and clamps; HLEN clamps and zeroes (R301, R311 to R315). -/
def Obligations.SumTreeQueries : Prop :=
  ∀ (t : Tree), treeOk t →
    (∀ i, t.pre i = massBelow t i) ∧ t.total = massBelow t t.len ∧
    (∀ m, m < t.total → t.find m < t.len ∧ massBelow t (t.find m) ≤ m ∧ m < massBelow t (t.find m + 1)) ∧
    (∀ m, t.total ≤ m → t.find m = t.len) ∧
    (∀ m, 0 < m → m ≤ t.total →
      massBelow t (t.cut m).1 < m ∧ m ≤ massBelow t ((t.cut m).1 + 1) ∧ (t.cut m).2.len = t.len ∧
        ∀ j, (t.cut m).2.leaf j = if j ≤ (t.cut m).1 then t.leaf j else 0) ∧
    (∀ m, t.total < m → t.cut m = (t.len, t)) ∧
    (∀ (lanes : List (Nat × Nat × Nat)) (j : Nat), lanes.Pairwise (fun x y => x.1 < y.1) → j < t.len →
      (t.set lanes).1.leaf j =
        match lanes.reverse.find? fun x => x.2.1 == j with
        | some x => min x.2.2 (maxLeaf t.m16)
        | none => t.leaf j) ∧
    (∀ (lanes : List (Nat × Nat × Nat)) (j : Nat), j < t.len →
      let v : Int := t.leaf j + ((lanes.filter fun x => x.2.1 == j).map fun x => (BitVec.ofNat 32 x.2.2).toInt).sum
      (t.add lanes).1.leaf j = if lanes.any fun x => x.2.1 == j then (max 0 (min v (maxLeaf t.m16))).toNat else t.leaf j) ∧
    (∀ n, (t.setLen n).1.len = min n (if t.m16 then 2048 else 1024) ∧ treeOk (t.setLen n).1 ∧
      ∀ j, (t.setLen n).1.leaf j = if j < min n (if t.m16 then 2048 else 1024) then t.leaf j else 0) ∧
    ∀ (lanes : List (Nat × Nat × Nat)) (m : Nat), treeOk (t.set lanes).1 ∧ treeOk (t.add lanes).1 ∧ treeOk (t.cut m).2

/-- CALLC opens a collection, RETC closes it into a list, ECAT, EFLT and ERBS make lists of the records of others, EDRP releases one and ELEN
counts one (R335, R336, R339, R340). EAPP performs the next record of its list, or ends; one that begins while its wave collects appends them all
(R337, R338). EAREA_WRITE moves bytes between the scratchpad and the effect area (R328).
Choices of the model it rests on: logs 24, 48, 53, 134. -/
def Obligations.EffectLists : Prop :=
  (∀ (g : Guard) (d a b c : SReg) (t : Target) (stop : DWord) (drop : Bool),
     let alone := fun (e : Env) (s : State) => s.groupOf e.ref = none
     let recs := fun (e : Env) (s : State) (r : SReg) => s.records e.wave ((s.wave e.wave).sreg r.toNat)
     let inRange := fun (e : Env) (s : State) (hi : DWord) (r : Effect) =>
       decide (((s.wave e.wave).sreg b.toNat).toNat ≤ r.addr.toNat) && decide (r.addr.toNat < hi.toNat)
     (completes (.callc g d t) g false
       (fun e s => mayEnter s e.wave (branchTo t e.leaf) ∧ alone e s ∧ (s.wave e.wave).collAct = false ∧
         (s.team (s.wave e.wave).team).freeEntry.isSome = true)
       fun p _ on s =>
         match on.head? with
         | none => s
         | some e => ((s.updWave e.wave fun w => w.setS d.toNat e.leaf.nextHdr).openCollection e.wave d).jump p (branchTo t e.leaf)) ∧
     (completes (.retc g a) g false
       (fun e s => mayEnter s e.wave ((s.wave e.wave).sreg a.toNat) ∧ alone e s ∧ s.recordsDue e.wave = false)
       fun p _ on s =>
         match on.head? with
         | none => s
         | some e => (if (s.wave e.wave).collAct then s.closeCollection e.wave else s).jump p ((s.wave e.wave).sreg a.toNat)) ∧
     (∀ (i : Instr) (f : Env → State → List Effect),
       (i, f) ∈ [((.ecat g d a b : Instr), fun e s => recs e s a ++ recs e s b),
         (.eflt g drop d a b c, fun e s => (recs e s a).filter fun r => inRange e s ((s.wave e.wave).sreg c.toNat) r != drop),
         (.erbs g d a b c stop, fun e s => (recs e s a).map fun r =>
           if inRange e s stop r then r.moveTo (r.addr + (s.wave e.wave).sreg c.toNat) else r)] →
       completes i g false (fun e s => alone e s ∧ s.listRoom (s.wave e.wave).team (f e s).length = true)
         (inTurn i fun e s =>
           (s.newList (s.wave e.wave).team (f e s)).1.updWave e.wave fun w => w.setS d.toNat (s.newList (s.wave e.wave).team (f e s)).2)) ∧
     (completes (.edrp g a) g false alone (inTurn (.edrp g a) fun e s =>
       let h := ((s.wave e.wave).sreg a.toNat).toNat
       if h ≠ 0 ∧ (s.listOf (s.wave e.wave).team h).isSome = true then s.releaseEntry (s.wave e.wave).team (h % 2 ^ 16) else s)) ∧
     (completes (.elen g d a) g false alone (inTurn (.elen g d a) fun e s =>
       s.updWave e.wave fun w => w.setS d.toNat
         (match s.listOf (s.wave e.wave).team (w.sreg a.toNat).toNat with
         | some l => BitVec.ofNat 64 l.length
         | none => BitVec.allOnes 64))) ∧
     ∀ (s : State) (t : Nat) (rs : List Effect), (s.teams.look t).isSome → Table.wfFrom 0 (s.team t).dir = true →
       (∀ x ∈ (s.team t).dir, 0 < x.1 ∧ x.1 < 2 ^ 16 ∧ x.2.tag < 2 ^ 16) → rs ≠ [] → (s.team t).freeEntry.isSome = true →
       let n := s.newList t rs
       n.1.listOf t n.2.toNat = some rs ∧ (n.1.releaseEntry t (n.2.toNat % 2 ^ 16)).listOf t n.2.toNat = none ∧
         ∀ h, h ≠ n.2.toNat → (s.listOf t h).isSome = true → n.1.listOf t h = s.listOf t h) ∧
  ((∀ (g : Guard) (a : SReg),
     let rest := fun (e : Env) (s : State) => (s.applied e a).2.drop (s.wave e.wave).apos
     let ended := fun (e : Env) (s : State) => (s.updWave e.wave fun w => { w with apos := 0, eapp := none }).advance e.ref (.eapp g a)
     (completes (.eapp g a) g false
       (fun e s => s.groupOf e.ref = none ∧ ((s.eappOpen e.wave (BitVec.allOnes 32)).isNone = true ∨ (s.eappOpen e.wave e.mine).isSome = true) ∧
         s.inOtherHandler e = false ∧
         if (s.wave e.wave).collecting = true ∧ (s.eappOpen e.wave e.mine).isNone = true then s.recordRoom e.wave (rest e s).length = true
         else ∀ r, (rest e s).head? = some r → (s.recordAccess e.wave r).1 = [])
       fun _ _ on s =>
         match on.head? with
         | none => s
         | some e => s.eappStep a (.eapp g a) e) ∧
     ∀ (s : State) (e : Env),
       let appends := (s.wave e.wave).collecting = true ∧ (s.eappOpen e.wave e.mine).isNone = true
       (appends → s.eappStep a (.eapp g a) e = ended e ((s.record e.wave (rest e s)).pushRecorded e)) ∧
       (¬ appends → rest e s = [] → s.eappStep a (.eapp g a) e =
         ended e (if (s.eappOpen e.wave e.mine).isSome then s.closeEapp e.wave e.mine else s.pushRecorded e)) ∧
       ∀ r more, ¬ appends → rest e s = r :: more →
         let t := nextDraw ((s.applyRecord e (s.applied e a).1 (s.applied e a).2 (s.recordAccess e.wave r).2 r).fillAddr e.wave r.addr.toNat)
         s.eappStep a (.eapp g a) e = if more = [] then ended e (t.closeEapp e.wave e.mine) else t) ∧
   ∀ (s : State) (t : Nat) (v : DWord), (s.teams.look t).isSome → Sparse.wf (w := 8) (s.team t).spad = true →
     let x := s.team t
     let new := v.toNat % 2 ^ 32
     let need := s.blocksUsed t + if x.dir.any fun e => e.2.list.isSome then 1 else 0
     (new % 256 ≠ 0 ∨ x.spadLen + x.effLen < new + 256 ∨ new / 256 < need → exec (.eareaWrite t v) s = .next s) ∧
     (new % 256 = 0 → new + 256 ≤ x.spadLen + x.effLen → need ≤ new / 256 →
       ∃ u, exec (.eareaWrite t v) s = .next u ∧ (u.team t).effLen = new ∧ (u.team t).spadLen = x.spadLen + x.effLen - new ∧
         u.waves = s.waves ∧ (∀ k, k ≠ t → u.team k = s.team k) ∧
         ∀ a, u.placeByte ⟨.spad t, a, 0, false⟩ = if a < (u.team t).spadLen then s.placeByte ⟨.spad t, a, 0, false⟩ else 0))

/-! ## System instructions and control registers -/

/-- CSRR, CSRW, LAUNCH, LSTAT, TLBI, HINT 1 and HALT, each when nothing holds it; after HALT in an Ostler wave its stream has no next record (R374, R402, R403, R405, R424, R425).
Choices of the model it rests on: logs 47, 92, 95. -/
def Obligations.SystemInstructions : Prop :=
  ∀ (g : Guard) (d a : SReg) (n : BitVec 16) (k : TlbiKind),
    let reg := fun (e : Env) (s : State) => (s.wave e.wave).sreg a.toNat
    let at_ := fun (e : Env) (s : State) => s.xlate (s.coreOf e.wave) (s.ctxNo e.wave) true .read (reg e s).toNat (s.draw 0)
    (completes (.csrr g d n) g false (fun e s => n = 0x009 → (s.wave e.wave).anyInflight = false)
      (inTurn (.csrr g d n) fun e s => s.updWave e.wave fun w => w.setS d.toNat (s.csrRead e n.toNat))) ∧
    (completes (.csrw g a n) g false (fun _ _ => True) fun p _ on s =>
      (on.map fun e => (e, reg e s)).foldl (fun (s : State) x => s.csrWrite x.1 n.toNat x.2) (s.advance p (.csrw g a n))) ∧
    (completes (.launch g d a) g false
      (fun e s => inWindows (reg e s).toNat = false ∧ (reg e s).toNat % 256 = 0 ∧ (s.wave e.wave).collAct = false ∧
        s.releaseOk e.wave = true ∧ ∃ q, at_ e s = .ok q ∧ q.tier ≠ .host)
      (inTurn (.launch g d a) fun e s =>
        match at_ e s with
        | .error _ => s
        | .ok q => (((s.makeLaunch (s.placeBytes q 256)).1.touch q 256).fillAddr e.wave (reg e s).toNat).updWave e.wave fun w =>
            w.setS d.toNat (s.makeLaunch (s.placeBytes q 256)).2)) ∧
    (completes (.lstat g d a) g false (fun _ _ => True) (inTurn (.lstat g d a) fun e s =>
      (s.lstat (reg e s).toNat).1.updWave e.wave fun w => w.setS d.toNat (s.lstat (reg e s).toNat).2)) ∧
    (completes (.tlbi g k) g false (fun e s => s.releaseOk e.wave = true) fun p _ on s =>
      let gone := on.flatMap fun e => s.allTlb.filter (tlbiEntry k (s.wave e.wave))
      let t := on.foldl (fun (s : State) e => s.dropPage (tlbiEntry k (s.wave e.wave))) s
      if s.usersOf gone = [] then t.advance p (.tlbi g k) else t.updLeaf p fun l => { l with wait := .drain (s.usersOf gone) }) ∧
    (completes (.hint g 1) g false (fun _ _ => True) (inTurn (.hint g 1) fun e s =>
      s.eventRecord e.wave 4 (slotNo e.ref.slot) e.mine 1 e.leaf.pc)) ∧
    (completes (.halt g) g false (fun _ _ => True) (inTurn (.halt g) fun e s =>
      (((s.mclog 15 (s.waveId e.wave) (s.recordId (s.launchNo e.wave)) (s.coreUnit e.wave) e.leaf.pc.toNat 0).eventRecord e.wave 7
        (slotNo e.ref.slot) e.mine 0 e.leaf.pc).haltStream (s.launchNo e.wave)).finishLaunch (s.launchNo e.wave) 0x22)) ∧
    ∀ (s : State) (l b : Nat), (s.launch l).ostler = some b →
      ∀ x ∈ (s.haltStream l).streams, x.base = b → (s.haltStream l).nextRecord x = none

namespace Sys2Proof.Claims

/-- The CSR numbers that Tables 17.8 and 19.16 assign. -/
def csrNumber (n : Nat) : Prop :=
  n ≤ 0x009 ∨ 0x010 ≤ n ∧ n ≤ 0x014 ∨ 0x018 ≤ n ∧ n ≤ 0x01A ∨ 0x020 ≤ n ∧ n ≤ 0x024 ∨ 0x028 ≤ n ∧ n ≤ 0x02A ∨ n = 0x02B ∨
    0x030 ≤ n ∧ n ≤ 0x032 ∨ 0x040 ≤ n ∧ n ≤ 0x048 ∨ 0x060 ≤ n ∧ n ≤ 0x071 ∨ 0x078 ≤ n ∧ n ≤ 0x07A

end Sys2Proof.Claims

open Sys2Proof.Claims

/-- The control registers: what the privileged view writes reads back within the register's fields; the other view writes none of them but TPC in
a handler, MXKOFF, MXSCL and EAREA; a CSRR or CSRW of any number that Tables 17.8 and 19.16 do not assign traps with 0x18 and has no effect (R405,
R419).
Choices of the model it rests on: logs 93, 94, 95, 96. -/
def Obligations.ControlRegisters : Prop :=
  ∀ (s : State) (e : Env) (v : DWord),
    (∀ (n : Nat) (mask : DWord),
      (n, mask) ∈ [(0x003, 0xFFFFFFFF000F00FF), (0x005, 0xFFFFFFFFFFFFFFFF), (0x007, 0xFFFFFFFFFFFFFFFF), (0x008, 0xFFFFFFFFFFFFFFFF),
        (0x004, 0xFFFFFFFFFFFFFFFF), (0x020, 0xFFFFFFFF), (0x021, 0xFF07FFFFFF), (0x022, 0xFFFFF), (0x023, 0xFFFFFFFFFFFFFFF8),
        (0x024, 0x00003FFFFFFF0000), (0x032, 0xFFFFFF1F), (0x061, 0xC0FFFFFFFFFFFFC0), (0x062, 0xC0FFFFFFFFFFFFC0),
        (0x063, 0xC0FFFFFFFFFFFFC0), (0x064, 0xC0FFFFFFFFFFFFC0), (0x065, 0x0FFFFFFFFFFFF000), (0x066, 0x0FFFFFFFFFFFF000),
        (0x07A, 0xFFF)] →
      s.privileged e.wave = true → (s.waves.look e.wave).isSome → (s.ctx (s.ctxNo e.wave)).isSome → (s.ctxOf e.wave).wp.length = 4 →
      (s.csrWrite e n v).csrRead e n = v &&& mask) ∧
    (∀ n, s.privileged e.wave = false → n ∉ [0x004, 0x007, 0x008, 0x019] → s.csrWrite e n v = s) ∧
    (s.privileged e.wave = false → (s.wave e.wave).hin = false → s.csrWrite e 0x004 v = s) ∧
    (∀ (p : PathRef) (l : Leaf) (word : DWord), s.agenda = [] → s.grant = some p → s.leafAt p = some l → l.wait ≠ .stepped →
      let s0 : State := { s with grant := none }
      l.bad = false → s0.boundaryDue p l = false → s0.pathHold p l = none → (∀ ids, l.wait ≠ .drain ids) →
      (∀ ops cs st, l.wait ≠ .watch ops cs st) → l.pos ≠ 0 →
      let s1 : State := { s0.fillFetch p.wave l.pc.toNat with free := s.free + 1 }
      s1.fetch p.wave l.pc = .ok word → word.extractLsb' 56 8 = 0xB0 ∨ word.extractLsb' 56 8 = 0xB1 →
      ¬ csrNumber (word.extractLsb' 18 16).toNat →
      step s = .next (s1.wordCause p l 0x18 word.toNat (Fields.unpack word).guard).settled) ∧
    (s.cal.en = false → s.csrRead e 0x040 = 0 ∧ s.csrRead e 0x041 = 0 ∧ s.csrRead e 0x042 = 0) ∧
    (s.csrRead e 0x000 = e.leaf.mask.setWidth 64 ∧ s.csrRead e 0x010 = BitVec.ofNat 64 (s.wave e.wave).ixw ∧
      s.csrRead e 0x011 = BitVec.ofNat 64 (s.team (s.wave e.wave).team).ixt) ∧
    (s.cal.en = true → ∀ n ∈ [0x044, 0x046, 0x047], s.csrWrite e n v = s) ∧
    ∀ n, (s.csrWrite e n v).ops = s.ops ∨ n ∈ [0x019, 0x02B, 0x060]

/-! ## Waves and paths between instructions -/

/-- Fairness: an expired timer switches its slot to the next leaf, or defers the switch while the leaf's reservations are younger than 64
instructions (R123, R124). REGION_RESUME joins a region's lanes again at its reconvergence header (R130); a window closes when it is full or
its time is over (R126); PADDOCK_LEAVE and ROTATION_CYCLE (R213, R214). WAVE_MERGE: when the two waves of a launch in merge mode satisfy R132,
the lower-indexed one takes the other's lanes, each into its lowest free lanes in order, with their vector registers and predicates; the other
one ends.
Choices of the model it rests on: logs 35, 106, 108, 126. -/
def Obligations.PathEvents : Prop :=
  (∀ (s : State) (p : PathRef),
     let w := s.wave p.wave
     let m := runMask (w.tree p.slot)
     let young := (∃ h ∈ s.homes p, ∃ r ∈ (s.wave h.1).resv, (m &&& h.2).getLsbD r.1 = true) ∧ s.sinceLdres p < 64
     (w.fair p.slot = 0 → s.rotates p = true → w.deferred p.slot = false →
       (young → exec (.fairnessTimerExpiry p) s = .next (s.updWave p.wave fun w => w.setDefer p.slot true)) ∧
       (¬ young → exec (.fairnessTimerExpiry p) s = .next (s.switchLeaf p .pending))) ∧
     (w.deferred p.slot = true → s.rotates p = true → ¬ young → exec (.fairnessDeferredSwitch p) s = .next (s.switchLeaf p .pending)) ∧
     (w.paddock p.slot = true → s.awaitsLong p = false → ∃ t, exec (.paddockLeave p) s = .next t ∧
       ((s.waves.look p.wave).isSome → (t.wave p.wave).paddock p.slot = false) ∧ s.onlyWaves t ∧
       ∀ k, k ≠ p.wave → t.wave k = s.wave k) ∧
     (∀ (c : CoreId) (part : Nat), rotationCycleNow s = true → throttled s = false →
       s.turn ≤ coreKey c * 4 + part → coreKey c * 4 + part ∉ s.spent →
       exec (.rotationCycle c part) s = .next { s with rot := s.rot ++ [coreKey c * 4 + part], spent := (coreKey c * 4 + part) :: s.spent } ∧
         ({ s with spent := (coreKey c * 4 + part) :: s.spent } : State).nextPartition ≠ some (coreKey c * 4 + part)) ∧
     (∀ (n : Nat) (r : List Nat), s.agenda = [] → s.grant = none → s.rot = n :: r →
       let cs := s.candidates (n / 4) (n % 4)
       (∀ (x : Cand) (v : State), x ∈ cs → s.runPath x.ref = .next v → v.held = none →
         (∀ y ∈ cs, y ≠ x → y.age < x.age ∨ ∃ u, s.runPath y.ref = .next u ∧ u.held ≠ none) →
         step s = .next ({ v with rot := r } : State).settled) ∧
       ((∀ y ∈ cs, ∃ u, s.runPath y.ref = .next u ∧ u.held ≠ none) → step s = .next ({ s with rot := r } : State).settled)) ∧
     (∀ (k : Nat) (r : Region), s.regionDone k = true → (s.wave k).region = some r → r.mask ≠ 0 →
       ∃ t, exec (.regionResume k) s = .next t ∧ (t.wave k).region = none ∧
         (t.wave k).slotA = .leaf (Leaf.atHeader r.mask r.fmt .running r.join) ∧ (t.wave k).regs = (s.wave k).regs ∧
         (∀ g ∈ t.groups, g.lead ≠ k) ∧ ∀ j, j ≠ k → t.wave j = s.wave j) ∧
     (∀ k, s.regionDone k = false → exec (.regionResume k) s = .next s) ∧
     ∀ (team part brd : Nat) (r : RWindow), s.regroup.find? (windowKey team part (BitVec.ofNat 64 brd)) = some r →
       let rgwin := ((r.arrived.head?).map fun a => (s.ctxOf a.1).rgwin).getD 0
       (s.windowFull r = true ∨ r.opened + rgwin ≤ s.cycle → exec (.regroupWindowClose team part brd) s = .next (s.closeWindow r)) ∧
       (s.windowFull r = false → s.cycle < r.opened + rgwin → exec (.regroupWindowClose team part brd) s = .next s)) ∧
  (∀ (s : State) (lo hi : Nat) (a b : Leaf),
     let x := s.wave lo
     let y := s.wave hi
     let r := s.recdOf lo
     let mean := s.meanLanes (s.coreOf lo) x.part
     x.slotA.running = some a → y.slotA.running = some b →
     r.merge = true → x.team = y.team → x.part = y.part → x.ixw < y.ixw → s.mergeable lo = true → s.mergeable hi = true →
     mean.1 < (s.ctxOf lo).mthr * mean.2 → a.pc = b.pc → a.fmt = b.fmt → x.recCount = y.recCount →
     (∀ n < 8 * r.ug, x.sreg n = y.sreg n) → (lanesOf a.mask).length + (lanesOf b.mask).length ≤ 32 → s.mergesFirst lo hi = true →
     ∃ t, exec (.waveMerge lo hi) s = .next t ∧
       (∀ k, k ≠ lo → k ≠ hi → t.wave k = s.wave k) ∧ (t.wave hi).slotA = .empty ∧ (t.wave hi).cond = .ended ∧
       (t.wave lo).flags = x.flags ∧ (t.wave lo).s = x.s ∧
       (Sparse.wf x.v = true → ∀ m ∈ (lanesOf b.mask).zip (lanesOf (~~~a.mask)), ∀ n < 8 * r.vg, (t.wave lo).vreg n m.2 = y.vreg n m.1) ∧
       (Sparse.wf x.v = true → ∀ l, a.mask.getLsbD l = true → ∀ n, (t.wave lo).vreg n l = x.vreg n l) ∧
       (x.slotA = .leaf a → ∃ l, (t.wave lo).slotA = .leaf l ∧ l.pc = a.pc ∧
         (lanesOf l.mask).length = (lanesOf a.mask).length + (lanesOf b.mask).length))

/-- Starvation and the end of waves: STARVATION_EXPIRY promotes what has not started and counts; a team swapped out for that returns when all
teams of its launch are placed; WAVE_END gives up the slot and the registers of a wave that has ended (R24, R29 to R31, R177).
Choices of the model it rests on: logs 62, 63, 64, 121. -/
def Obligations.StarvationAndEnds : Prop :=
  (∀ (s : State) (k : Nat),
    let w := s.wave k
    let l := s.launchNo k
    let t := ((s.promote l).eventRecord k 3 w.starvedPath.1 w.starvedPath.2 (s.unstarted l) (BitVec.ofNat 64 w.starvOp))
    let u := t.updWave k fun w => { w with starvLeft := max (t.ctxOf k).limit 4096, starvExp := w.starvExp + 1 }
    w.starvArmed = true → w.starvLeft = 0 → s.launchHeld l = false →
      (w.starvExp = 0 ∨ (s.launch l).promoted = false → exec (.starvationExpiry k) s = .next u) ∧
      (1 ≤ w.starvExp → (s.launch l).promoted = true → exec (.starvationExpiry k) s =
        .next (match u.starvedTeam l with | some t => u.updTeam t fun x => { x with starvedOut := true, swapReq := true } | none => u))) ∧
  (∀ (s : State) (n : Nat), (s.teams.look n).isSome →
    let t := s.team n
    t.starvedOut = true → t.out = true → t.placed = false → t.returning = false → s.unplacedTeams t.launch = 0 →
    ∃ u, exec (.starvationTeamReturn n) s = .next u ∧ u.team n = { t with returning := true } ∧ u.waves = s.waves) ∧
  ∀ (s : State) (k : Nat),
    let w := s.wave k
    (s.waves.look k).isSome → w.cond = .ended → s.waveIdle k = true → s.waveGone k = false → (s.teams.look w.team).isSome →
    ∃ t, exec (.waveEnd k) s = .next t ∧ (∀ o ∈ t.ops, o.2.wave ≠ k) ∧
      ((t.teams.look w.team).isSome → (t.waves.look k).isSome → (t.wave k).slot = none ∧ (t.wave k).v = [] ∧ (t.wave k).s = [] ∧ (t.wave k).p = [] ∧
        (t.team w.team).exited = (s.team w.team).exited ||| 2 ^ w.ixw) ∧
      exec (.waveEnd k) { s with waves := s.waves.upd k fun w => { w with cond := .resident } } =
        .next { s with waves := s.waves.upd k fun w => { w with cond := .resident } }

/-! ## Cores, teams and launches -/

/-- Residence: the first ready wave that fits comes in, an image has moved after one cycle for each 256 bytes, and a displaced wave leaves for the
Stable when it has room there (R23, R216 to R218, R221). The pool and the fence: an Active core of another split is chosen to drain for the
head of a queue that wants cores, drains when it is empty, and has its new split after 2,048 cycles (R222 to R224); a fenced core ends the
launches of its teams with 0x21 and is retired (R226).
Choices of the model it rests on: logs 60, 61, 63, 107, 123, 125. -/
def Obligations.ResidenceAndPool : Prop :=
  (∀ (s : State) (c : CoreId) (part k : Nat),
     let key := coreNo c
     (∀ rest, s.incoming key part = k :: rest →
       s.holdsRegs k (s.wave k) = true ∨ fits (s.regsUsed key part) (granulesOf (s.recdOf k)) = true →
       exec (.waveComeIn c part) s = .next (s.comeIn k)) ∧
     (∀ rest v x vs, s.incoming key part = k :: rest → s.holdsRegs k (s.wave k) = false →
       fits (s.regsUsed key part) (granulesOf (s.recdOf k)) = false → ((s.wave k).cond = .new ∨ s.waveClassOf k ≠ 0) →
       s.victims key part = (v, x) :: vs →
       s.enough (granulesOf (s.recdOf k)) (s.regsUsed key part) (s.stableRoom key) ((v, x) :: vs) = true →
       exec (.waveComeIn c part) s = .next (s.swapOut v)) ∧
     (s.incoming key part = [] → exec (.waveComeIn c part) s = .next s) ∧
     ((s.waves.look k).isSome → ((s.comeIn k).wave k).cond = .resident ∧ ((s.swapOut k).wave k).cond = .stable ∧
       ((s.swapOut k).wave k).resv = [] ∧ ((s.swapOut k).wave k).moving = true ∧ (s.swapOut k).owners = s.owners) ∧
     (let w := s.wave k
      let began := if w.cond = .stable then w.stableAt else w.residentAt
      w.moving = true → (began + (imageSize (s.recdOf k) + 255) / 256 ≤ s.cycle →
         exec (.stableImageMoved k) s = .next (s.updWave k fun w => { w with moving := false })) ∧
       (s.cycle < began + (imageSize (s.recdOf k) + 255) / 256 → exec (.stableImageMoved k) s = .next s)) ∧
     (∀ v, s.overdue key part = some k → s.displaced key part k = some v →
       exec (.stableDisplace c part) s = .next (if imageSize (s.recdOf v) ≤ s.stableRoom key then s.swapOut v else s)) ∧
     ∀ r : LaunchRec, imageSize r = 256 + 1024 * r.vg + 64 * r.ug + 6144 * r.tiles + 4096 * r.accs) ∧
  (∀ (s : State) (c : CoreId),
     let k := coreNo c
     (∀ (l die cluster : Nat),
       let x := s.mapLaunch (s.launch l)
       let cs := clusterCores die cluster
       s.isHead l = true → ((x.dies.zip x.clusters).any fun p => p.1 == die && p.2.contains cluster) = true →
       (∀ j ∈ cs, s.coreSt j ≠ .draining ∧ s.coreSt j ≠ .repartitioning) → s.wantsCores x.recd die cluster = true →
       exec (.coreDrainSelect l die cluster) s =
         .next (match leastBy s.admitted (cs.filter fun j => s.coreSt j == .active && (s.core j).split != x.recd.split) with
           | some j => s.updCore j fun c => { c with st := .draining, nextSplit := some x.recd.split }
           | none => s)) ∧
     (s.coreSt k = .draining → s.coreEmpty k = true →
       exec (.coreDrainEnd c) s = .next (s.updCore k fun c => { c with st := .repartitioning, dueAt := s.cycle + 2048, l1 := [] })) ∧
     (s.coreSt k = .draining → s.coreEmpty k = false → exec (.coreDrainEnd c) s = .next s) ∧
     (s.coreSt k = .repartitioning → (s.core k).dueAt ≤ s.cycle → ∃ t, exec (.repartitionDone c) s = .next t ∧
       (t.core k).st = .active ∧ (t.core k).split = (s.core k).nextSplit.getD (s.core k).split ∧ ∀ j, j ≠ k → t.core j = s.core j) ∧
     (∀ cause, c.die < 4 → c.core < 64 → s.coreSt k ≠ .fenced → (∀ p, cause = .stalled p → 2 ^ 24 ≤ nth 0 (s.core k).idle p) →
       ∃ t, exec (.coreFence c cause) s = .next t ∧
         Retired.core c.die (c.core / 8) (s.physCore c.die c.core % 9) ∈ t.tables ∧
         (∀ n x, (n, x) ∈ s.teams → x.placed = true → x.core = k → (s.launches.look x.launch).isSome → (s.launch x.launch).st < 5 →
           (t.launch x.launch).st = 0x21) ∧ (t.coreSt k = .fenced ∨ (t.core k).since = s.cycle + 1)) ∧
     ∀ p, c.die < 4 → c.core < 64 → s.coreSt k ≠ .fenced → nth 0 (s.core k).idle p < 2 ^ 24 → exec (.coreFence c (.stalled p)) s = .next s)

/-- A launch from its queue to the release of its entry: dependences, ageing, start, placement of its teams, completion (R22, R30, R210, R399 to
R401, R404). The launch record's checks in their order, and the acceptance of a launch into the lowest free entry (R397, R398, R402).
Choices of the model it rests on: logs 62, 63, 71, 72, 73, 74, 75, 76, 77. -/
def Obligations.LaunchLife : Prop :=
  (∀ (s : State) (l : Nat) (x : Launch), s.launches.look l = some x →
     (x.st = 0 → (∀ d ∈ x.recd.deps, s.depMet x.recd.ctx d = true) → ∃ t, exec (.launchDependenceMet l) s = .next t ∧
       t.launch l = { x with st := 1, queue := x.recd.prio, enq := s.cycle } ∧ t.waves = s.waves) ∧
     (x.st = 0 → (∃ d ∈ x.recd.deps, s.depMet x.recd.ctx d = false) → exec (.launchDependenceMet l) s = .next s) ∧
     (x.st = 1 → x.queue < 7 → x.enq + 2 ^ 24 * (x.queue - x.recd.prio + 1) ≤ s.cycle → ∃ t, exec (.queueAgePromotion l) s = .next t ∧
       t.launch l = { x with queue := x.queue + 1 }) ∧
     (∀ t, s.started l = some t → s.firstToStart l = true → exec (.launchStart l) s = .next t) ∧
     (s.started l = none → exec (.launchStart l) s = .next s) ∧
     (teamClass x.recd = 2 → x.st = 1 → s.heldBack l x.queue x.promoted x.recd.split = false → ∀ t, s.started l = some t →
       (s.begun l).placeAll l (x.unplaced + ((s.begun l).backTeams l).length) = some t) ∧
     (∀ p, x.st = 2 → s.heldBack l x.recd.prio x.promoted x.recd.split = false → s.outranked l x.recd.prio x.promoted = false → s.placing l x = some p →
       exec (.teamPlace l) s = .next ((s.doPlace l p).updLaunch l fun y =>
         { y with promoted := y.promoted && decide (0 < (s.doPlace l p).unplacedTeams l) })) ∧
     (5 ≤ x.st → x.readIt = true ∨ (∃ c, x.doneAt = some c ∧ c + 2 ^ 30 ≤ s.cycle) → s.launchTeams l = [] →
       exec (.launchEntryRelease l) s = .next { s with
         launches := s.launches.del l, launchTags := Sparse.wr s.launchTags l (Sparse.rd s.launchTags l + 1) }) ∧
     (∀ (d c i key : Nat),
       let n := s.nextId
       let t := s.placeFresh l d c i key
       let b := s.basePart key
       let r := x.recd
       (t.team n).ixt = i ∧ (t.team n).ixc = c ∧ (t.team n).ixd = d ∧ (t.team n).placed = true ∧ (t.team n).spadLen = r.spad ∧
         (t.team n).spad = [] ∧
         ∀ j < r.w, (t.wave (n + 1 + j)).ixw = j ∧ (t.wave (n + 1 + j)).part = (b + j) % 4 ∧ (t.wave (n + 1 + j)).team = n ∧
           (t.wave (n + 1 + j)).slotA = .leaf (Leaf.atHeader (BitVec.allOnes 32) 0 .running r.entry) ∧
           (r.args.length = 4 → ∀ i < 4, (t.wave (n + 1 + j)).sreg i = nth 0 r.args i)) ∧
     ∀ (id : Nat), x.st < 256 → s.launchNamed id = some l → (s.lstat id).2.extractLsb' 0 8 = BitVec.ofNat 8 x.st ∧ (s.lstat id).2.getLsbD 63 = false) ∧
  (∀ (s : State) (b : List Byte),
     let r := parseRecord b
     (s.oos = true → s.refusal b r = 0x21) ∧
     (s.oos = false → s.recordOk b r = false → s.refusal b r = 0x13) ∧
     (s.oos = false → s.recordOk b r = true → r.laneClass = 3 ∨ r.waveClass = 3 ∨ r.teamClass = 3 → s.refusal b r = 0x11) ∧
     (s.oos = false → s.recordOk b r = true → classOk r = true → (r.w = 0 ∨ 16 < r.w ∨ r.c = 0 ∨ 8 < r.c ∨ r.d = 0 ∨ 4 < r.d ∨ r.t = 0 ∨ r.g ≤ r.ixg ∨
       r.vg = 0 ∨ 32 < r.vg ∨ r.ug = 0 ∨ 8 < r.ug ∨ r.split.spad + r.split.l1 + r.split.stbl ≠ 16) → s.refusal b r = 0x10) ∧
     (s.oos = false → recField b 0 2 ≠ 0x0100 ∨ 7 < r.prio ∨ r.entry.toNat % 8 ≠ 0 ∨ s.ctx r.ctx = none → s.refusal b r = 0x13) ∧
     (s.launches.freeFrom 0 < 4096 → s.refusal b r = 0 →
       let t := (s.makeLaunch b).1
       (s.makeLaunch b).2 = BitVec.ofNat 64 (t.launchId (s.launches.freeFrom 0)) ∧
         t.launch (s.launches.freeFrom 0) = { Launch.blank with recd := r, image := b, queue := r.prio } ∧
         ∀ k, k ≠ s.launches.freeFrom 0 → t.launch k = s.launch k) ∧
     (4096 ≤ s.launches.freeFrom 0 → s.makeLaunch b = (s, BitVec.ofNat 64 (2 ^ 63 + 1))))

/-- Pre-emption and debugging: PRECTL asks by identifier, the save leaves 0x04 when every team has settled, resumption queues the launch again,
cancelling completes it with 0x24; debug stops mark every path (R407 to R412, R419 to R421).
Choices of the model it rests on: logs 16, 66, 67, 68, 69, 70, 119. -/
def Obligations.Preemption : Prop :=
  (∀ (s : State) (id : Nat),
    exec (.prectlPreempt id) s = .next (s.preempt id) ∧ exec (.prectlResume id) s = .next (s.resume id) ∧
      exec (.prectlCancel id) s = .next (s.cancel id)) ∧
  (∀ (s : State) (id l : Nat), s.launchNamed id = some l → (s.launches.look l).isSome →
    ((s.launch l).st = 2 → (s.launch l).recd.save ≠ 0 → (s.launch l).ostler = none → ((s.preempt id).launch l).st = 3) ∧
    ((s.launch l).st ≠ 2 ∨ (s.launch l).recd.save = 0 ∨ (s.launch l).ostler ≠ none → s.preempt id = s) ∧
    ((s.launch l).st = 4 → ((s.resume id).launch l).st = 1 ∧ ((s.resume id).launch l).queue = (s.launch l).recd.prio) ∧
    ((s.launch l).st ≠ 4 → s.resume id = s) ∧
    ((s.launch l).st < 5 → ((s.cancel id).launch l).st = 0x24) ∧ (5 ≤ (s.launch l).st → s.cancel id = s)) ∧
  (∀ (s : State) (id : Nat), s.launchNamed id = none → s.preempt id = s ∧ s.resume id = s ∧ s.cancel id = s) ∧
  (∀ (s : State) (l : Nat),
    let due := fun (s : State) (pre : Bool) =>
      (s.launchTeams l).filter fun t => (s.team t).placed && !(s.team t).out && (pre || (s.team t).swapReq)
    let unwind := fun (s : State) (t : Nat) => (s.teamWaves t).foldl State.stopEapp (s.unwindTeam t)
    (s.askSwaps l = if (s.launch l).st = 2 then s.swapStopped l (fun t => s.someStopped t && s.allStopped t) else s) ∧
    ((s.launch l).st = 3 →
      let t := (due s true).foldl unwind s
      (∃ k ∈ due t true, t.quiesced k = false) → exec (.preemptSaveComplete l) s = .next t) ∧
    ((s.launch l).st = 3 → (s.launches.look l).isSome →
      let t := (due s true).foldl unwind s
      (∀ k ∈ due t true, t.quiesced k = true) → ∃ u, exec (.preemptSaveComplete l) s = .next u ∧ (u.launch l).st = 4) ∧
    ((s.launch l).st ≠ 3 →
      let t := (due (s.askSwaps l) false).foldl unwind (s.askSwaps l)
      exec (.preemptSaveComplete l) s = .next (((due t false).filter t.quiesced).foldl (fun s t => s.saveTeam t true) t)) ∧
    ((s.launch l).st = 2 → exec (.resumeRestore l) s =
      .next ((((s.launchTeams l).filter fun t => (s.team t).out && (s.team t).placed).foldl State.restoreTeam s).retryResiduals l)) ∧
    ((s.launch l).st ≠ 2 → exec (.resumeRestore l) s = .next s)) ∧
  ∀ (s : State) (ctx : Nat),
    exec (.dbgctlStop ctx) s = .next (s.dbgStop ctx) ∧ exec (.dbgctlResume ctx) s = .next (s.dbgResume ctx) ∧
      exec (.dbgctlSwap ctx) s = .next (s.dbgSwap ctx) ∧
      (∀ k, (s.waves.look k).isSome → ∀ l ∈ ((s.stopWave k).wave k).slotA.leaves ++ ((s.stopWave k).wave k).slotB.leaves, l.stopped = true) ∧
      (∀ l, (s.launch l).recd.save = 0 → ∀ f, s.swapStopped l f = s)

/-- Command streams: one record of the next index is acted on by the command of its kind when it passes its check, and refused with 2^63 + 0x13
else; HEAD then stands at the next index (R392 to R396). FAULT_REPLY retries or kills what waits on its entry (R406); a context is destroyed
when none of its launches is left (R431).
Choices of the model it rests on: logs 29, 78, 79, 80, 92, 118, 135. -/
def Obligations.CommandStreams : Prop :=
  (∀ (s : State) (n i : Nat) (x : Stream) (b : List Byte), (s.streams.drop n).head? = some x → s.nextRecord x = some (i, b) →
    let c := commandOf b
    let good := s.commandOk n i b
    let refuse := s.finishRecord x i c (2 ^ 63 + 0x13)
    let prectl := fun (f : State → Nat → State) =>
      if (s.launchNamed c.operand).isSome then (f s c.operand).finishRecord x i c 0 else refuse
    (c.kind = 1 → good = true → exec (.commandLaunch n) s =
      .next (((s.makeLaunch (s.placeBytes (devPlace c.operand) 256)).1.touch (devPlace c.operand) 256).finishRecord x i c
        (s.makeLaunch (s.placeBytes (devPlace c.operand) 256)).2.toNat)) ∧
    (c.kind = 0 ∨ 6 < c.kind ∨ c.kind = 1 ∧ good = false → exec (.commandLaunch n) s = .next refuse) ∧
    (c.kind = 2 → exec (.commandPreempt n) s = .next (if good then prectl State.preempt else refuse)) ∧
    (c.kind = 3 → exec (.commandResume n) s = .next (if good then prectl State.resume else refuse)) ∧
    (c.kind = 4 → exec (.commandCancel n) s = .next (if good then prectl State.cancel else refuse)) ∧
    (c.kind = 5 → s.streamWith 5 = n → exec .commandOpenStream s =
      .next (if good then (s.openStream c.operand).1.finishRecord x i c (s.openStream c.operand).2 else refuse)) ∧
    (c.kind = 6 → s.streamWith 6 = n → exec .commandCreateContext s =
      .next (if good then (s.createContext c.operand).1.finishRecord x i c (s.createContext c.operand).2 else refuse)) ∧
    ∀ res, writable s (devPlace x.base) 24 → (s.finishRecord x i c res).placeRead (devPlace (x.base + 16)) 8 = (i + 1) % 2 ^ 64) ∧
  (∀ (s : State) (n e : Nat) (x : Stream), (s.streams.drop n).head? = some x → x.hasLog = true → e < x.flogn →
    let reply := s.placeRead (devPlace (x.flog + 32 * e + 24)) 8
    let waits := s.waitingPaths.filter fun y => y.2.wait == .fault x.base e
    (reply ≠ 1 ∧ reply ≠ 2 ∨ waits = [] → exec (.faultReply n e) s = .next (s.takeEntries x)) ∧
    (reply = 1 → waits ≠ [] → exec (.faultReply n e) s =
      .next (((s.dropPage (TlbEntry.holds (s.placeRead (devPlace (x.flog + 32 * e)) 8))).retryPaths x.base e).takeEntries x)) ∧
    (reply = 2 → waits ≠ [] → exec (.faultReply n e) s =
      .next ((waits.foldl (fun (s : State) y => s.finishLaunch (s.launchNo y.1.wave) 0x23) s).takeEntries x))) ∧
  ∀ (s : State) (ctx : Nat), ctx ≠ 0 →
    ((s.ctx ctx).isSome = true → s.ctxBusy ctx = false → Table.wfFrom 0 s.contexts = true → ∃ t, exec (.contextDestruction ctx) s = .next t ∧
      t.ctx ctx = none ∧ (∀ k, k ≠ ctx → t.ctx k = s.ctx k) ∧ ∀ c ∈ t.cores, ∀ e ∈ c.2.tlb, e.ctx ≠ ctx) ∧
    (s.ctxBusy ctx = true → exec (.contextDestruction ctx) s = .next s)

/-! ## Service, trust and the host -/

/-- Power, heat and resets: a tick raises the level while the package is too hot or over its limit and lowers it else; at 115 °C the device
resets; a device reset keeps the tables, host memory and the flash, starts the first firmware copy that verifies and is not too old, or stays in
reset and says so, and leaves the rest as after the first reset (R429); the loss of power
during a write of the tables tears the older copy only (R394, R432, R435). The die's own tests: BIST parks a bank on a spare and retires it
when its march fails; the patrol scrub reads one line of its die (R366, R367).
Choices of the model it rests on: logs 10, 36, 97, 98, 100, 101, 102. -/
def Obligations.DieCare : Prop :=
  ((∀ (s : State) (watts temp : Nat),
     let hot := max 1000 (min s.plim 3000) < watts ∨ 100 ≤ temp
     (hot → exec (.throttleTick watts temp) s =
       .next { s with pwr := watts % 2 ^ 16, tmax := temp % 2 ^ 8, level := min 7 (s.level + 1) }) ∧
     (¬ hot → exec (.throttleTick watts temp) s =
       .next { s with pwr := watts % 2 ^ 16, tmax := temp % 2 ^ 8, level := s.level - 1 })) ∧
   (∀ (s : State) (die temp : Nat),
     (temp < 115 → exec (.thermalReset die temp) s = .next s) ∧
     (115 ≤ temp → exec (.thermalReset die temp) s = .next (s.mclog 16 0 0 (unitOf die 0) 0 temp).deviceReset)) ∧
   (∀ (s : State), exec .deviceReset s = .next s.deviceReset ∧
     s.deviceReset.tables = s.tables ∧ s.deviceReset.host = s.host ∧ s.deviceReset.fwA = s.fwA ∧
     s.deviceReset.fwB = s.fwB ∧ s.deviceReset.fwFused = s.fwFused ∧
     (s.fwA.signed = true → s.fwFused ≤ s.fwA.version → s.deviceReset.image = some s.fwA.content) ∧
     (s.fwA.signed = false ∨ s.fwA.version < s.fwFused → s.fwB.signed = true → s.fwFused ≤ s.fwB.version →
       s.deviceReset.image = some s.fwB.content) ∧
     ((∀ f ∈ [s.fwA, s.fwB], f.signed = false ∨ f.version < s.fwFused) →
       s.deviceReset.image = none ∧ s.deviceReset.bootFailed = true ∧ s.deviceReset.streams = []) ∧ s.deviceReset.dev = State.reset.dev ∧
     s.deviceReset.vault = State.reset.vault ∧ s.deviceReset.waves = [] ∧ s.deviceReset.launches = State.reset.launches ∧
     s.deviceReset.contexts = State.reset.contexts) ∧
   ∀ (s : State), exec (.powerLoss false) s = .next s.deviceReset ∧
     ∃ t, exec (.powerLoss true) s = .next t ∧
       (s.copyA.intact = true → s.copyB.intact = true → s.copyA.seq ≠ s.copyB.seq → t.tables = s.tables)) ∧
  (∀ (s : State) (die stack : Nat),
     (∀ chan bank, stack < 4 → (s.die die).bistint ≠ 0 → (s.die die).bist.look stack = none → s.nextBank die stack = some (chan, bank) →
       ∃ t, exec (.bistStart die stack) s = .next t ∧ (t.die die).bist.look stack = some ⟨chan, bank⟩ ∧
         (∀ q : Place, t.placeByte q = s.placeByte q) ∧ Retired.bank die chan bank ∉ s.tables) ∧
     ((s.die die).bistint = 0 → exec (.bistStart die stack) s = .next s) ∧
     (∀ b, (s.die die).bist.look stack = some b → Table.wfFrom 0 (s.die die).bist = true →
       (∃ t, exec (.bistMarchDone die stack true) s = .next t ∧ (t.die die).bist.look stack = none ∧ t.tables = s.tables) ∧
       ∃ t, exec (.bistMarchDone die stack false) s = .next t ∧ (t.die die).bist.look stack = none ∧
         Retired.bank die b.chan b.bank ∈ t.tables) ∧
     ∀ (line : Nat) (e : LineErr), (s.die die).scrub ≠ 0 → (s.slotOfLine line).1 = die → s.isDev (line * 64) = true →
       (line * 64 % 2 ^ 38 ≠ 0 → exec (.patrolScrub die line e) s = .next (s.readLine line e)) ∧
       (line * 64 % 2 ^ 38 = 0 → exec (.patrolScrub die line e) s =
         .next ((s.updDie die fun d => { d with lineErrs := [], vaultErrs := [] }).readLine line e)) ∧
       (badSymbols e = [] → s.readLine line e = s) ∧
       (genPoly.length = 17 ∧ ∀ i < 16, gfEval (gfPow i) genPoly = 0) ∧
       ((s.die die).erasedGroup (s.slotOfLine line).2 = none → 8 < (badSymbols e).length → isLineWord (errWord e) = false →
         line ∈ (s.readLine line e).poison) ∧
       ∀ g, (s.die die).erasedGroup (s.slotOfLine line).2 = some g → ((badSymbols e).filter fun k => (tsvOf k).1 != g).length ≤ 4 →
         lineRead (some g) e ≠ .poisoned ∧ (errGroup e = none → s.readLine line e = s))

/-- SPDM: a request that the exchange so far allows is answered, another gets the error answer (R429, R430). The host reads and writes device
memory; a poisoned or confidential line gives poison, and a write to a confidential one is dropped (R388, R396).
Choices of the model it rests on: logs 8, 14, 103, 104, 105. -/
def Obligations.HostAndSpdm : Prop :=
  (∀ (s : State) (n : Nat) (ok : Bool),
     let x := s.spdm
     (exec .spdmVersion s = .next { s with spdm := { Spdm.fresh with version := true, keyGen := x.keyGen, reply := .version } }) ∧
     (x.version = true → exec .spdmCapabilities s = .next { s with spdm := { x with caps := true, reply := .capabilities } }) ∧
     (x.caps = true → exec (.spdmAlgorithms true) s = .next { s with spdm := { x with algs := true, reply := .algorithms } }) ∧
     (x.algs = true →
       exec .spdmDigests s = .next { s with spdm := { x with reply := .digests } } ∧
       exec .spdmCertificate s = .next { s with spdm := { x with reply := .certificate } } ∧
       exec (.spdmChallenge n) s = .next { s with spdm := { x with reply := .challengeAuth n } } ∧
       (1 ≤ n → n ≤ 5 → exec (.spdmMeasurements n) s = .next { s with spdm := { x with reply := .measurements n (s.measurement n) } }) ∧
       exec (.spdmKeyExchange n) s = .next { s with spdm := { x with pending := true, session := false, reply := .keyExchange n } }) ∧
     (x.pending = true → exec (.spdmFinish true) s =
       .next { s with spdm := { x with pending := false, session := true, keyGen := 0, reply := .finish } }) ∧
     (x.session = true →
       exec .spdmKeyUpdate s = .next { s with spdm := { x with keyGen := x.keyGen + 1, reply := .keyUpdate } } ∧
       exec .spdmEndSession s = .next { s with spdm := { x with session := false, pending := false, reply := .endSession } }) ∧
     (∀ i, x.algs = false ∧ i ∈ [Instr.spdmDigests, .spdmCertificate, .spdmChallenge n, .spdmMeasurements n, .spdmKeyExchange n] ∨
         x.session = false ∧ i ∈ [Instr.spdmKeyUpdate, .spdmEndSession] ∨ x.pending = false ∧ i = .spdmFinish ok ∨
         x.caps = false ∧ i = .spdmAlgorithms ok ∨ x.version = false ∧ i = .spdmCapabilities →
       exec i s = .next { s with spdm := { x with reply := .error } }) ∧
     ∀ i, (s.measurement i).length = if i = 4 then 40 else 64) ∧
  (∀ (s : State) (addr : Nat),
     (s.hostLpa addr = none →
       (∀ len, exec (.hostMemRead addr len) s = .next { s with hostReply := .none }) ∧ ∀ data, exec (.hostMemWrite addr data) s = .next s) ∧
     ∀ a, s.hostLpa addr = some a →
       (∀ len, (∀ l ∈ linesOf a len, l ∉ s.poison ∧ s.confPage (l * 64) = false) → ∃ t, exec (.hostMemRead addr len) s = .next t ∧
         t.hostReply = .bytes (s.placeBytes (devPlace a) len) ∧ (∀ q : Place, t.placeByte q = s.placeByte q) ∧ t.waves = s.waves) ∧
       (∀ len, (∃ l ∈ linesOf a len, l ∈ s.poison ∨ s.confPage (l * 64) = true) →
         exec (.hostMemRead addr len) s = .next { s with hostReply := .poison }) ∧
       (∀ data, a % 64 + data.length ≤ 64 → data ≠ [] → s.confPage (a / 64 * 64) = false →
         exec (.hostMemWrite addr data) s = .next (s.homeWrite (devPlace a) data)) ∧
       ∀ data, a % 64 + data.length ≤ 64 → data ≠ [] → s.confPage (a / 64 * 64) = true →
         exec (.hostMemWrite addr data) s = .next (s.mclog 14 0 0 0 a 0))

/-! ## The fabric calendar -/

/-- The calendar: in each matching the packages meet in pairs, and each pair meets in exactly one; the pair's port and slot are those of its
matching (R439 to R441). The clock and the bring-up of links (R438, R446, R452 to R454).
Choices of the model it rests on: logs 83, 91. -/
def Obligations.CalendarAndLinks : Prop :=
  (∀ (c : Cal), 2 ≤ c.n →
     (∀ i j, i < c.nEven → j < c.nEven - 1 →
       c.partner i j < c.nEven ∧ c.partner i j ≠ i ∧ c.partner (c.partner i j) j = i) ∧
     (∀ i k, i < c.nEven → k < c.nEven → i ≠ k → ∃ j, j < c.nEven - 1 ∧ c.partner i j = k ∧ ∀ j', j' < c.nEven - 1 → c.partner i j' = k → j' = j) ∧
     (∀ q, c.index < c.nEven → q < c.nEven → q ≠ c.index → c.partner c.index (c.matching q) = q ∧ c.matching q < c.nEven - 1) ∧
     ∀ q, c.index < c.n → q < c.n → q ≠ c.index → c.portCount ≠ 0 → c.meets (c.pairPort q) (c.pairSlot q) = some q ∧ c.pairSlot q < c.slots) ∧
  (∀ (s : State),
     (s.cal.en = false → s.mayEnable = true → ∃ t, exec .calnEnable s = .next t ∧ t.cal.en = true ∧ t.cal.phase = .boot ∧ t.cal.ps = 0 ∧
       t.cal.slotNow = 0 ∧ (∀ x ∈ t.peers, x.2.admitted = false) ∧ t.waves = s.waves) ∧
     (s.cal.en = true ∨ s.mayEnable = false → exec .calnEnable s = .next s) ∧
     (s.cal.en = true → exec .calnDisable s = .next { s with cal := { s.cal with en := false, stopping := true, steered := s.cal.cycleNo } }) ∧
     (s.cal.phase ≠ .off → s.cal.steered < s.cal.cycleNo →
       (s.cal.stopping = true → exec .clockSteer s =
         .next { s with cal := { s.cal with phase := .off, ps := 0, stopping := false, steered := 0, offsets := [] } }) ∧
       (s.cal.stopping = false → ∃ t, exec .clockSteer s = .next t ∧
         t.cal.ps = s.cal.ps - (if s.cal.index = 0 then 0 else meanOffset s.cal.offsets) ∧ t.cal.offsets = [] ∧ t.cal.steered = s.cal.cycleNo)) ∧
     (s.cal.cycleNo ≤ s.cal.steered → exec .clockSteer s = .next s) ∧
     (∀ l, -1000 ≤ meanOffset l ∧ meanOffset l ≤ 1000) ∧
     (∀ (port q vMin vMax n p sl g : Nat) (x : PairSession), s.meeting port = some q → (s.peer q).admitted = false →
       ((s.port port).gotAt ≠ s.cal.slotAbs + 1 → exec (.bootstrapMeeting port vMin vMax x n p sl g) s = .next s) ∧
       ((s.port port).gotAt = s.cal.slotAbs + 1 →
       (vMin ≤ 0x0100 → 0x0100 ≤ vMax → x.opened = true → x.chained = true → s.fwFused ≤ x.version → n = s.cal.n → p = s.cal.portCount → sl = s.cal.slotlen → g = s.cal.guard →
         ∃ t, exec (.bootstrapMeeting port vMin vMax x n p sl g) s = .next t ∧ (t.peer q).admitted = true ∧ (t.peer q).sendSeq = 0 ∧
           (t.peer q).recvSeq = 0 ∧ ∀ k, k ≠ q → t.peer k = s.peer k) ∧
       (x.opened = false ∨ x.chained = false ∨ x.version < s.fwFused ∨ n ≠ s.cal.n ∨ p ≠ s.cal.portCount ∨ sl ≠ s.cal.slotlen ∨ g ≠ s.cal.guard ∨ vMax < 0x0100 ∨ 0x0100 < vMin →
         ∃ why, why ∈ [1, 2, 3] ∧ exec (.bootstrapMeeting port vMin vMax x n p sl g) s = .next (s.mclog 13 0 0 (portUnit port) q why)))) ∧
     (∀ k, s.cal.phase = .boot → s.cal.announced = none → (s.peers.any fun p => p.2.admitted) = true →
       (s.cal.index = 0 → s.cal.cycleNo + 64 ≤ k) → exec (.epochAnnounce k) s = .next { s with cal := { s.cal with announced := some k } }) ∧
     (∀ k, s.cal.en = true → s.cal.phase = .boot → s.cal.announced = some k →
       (s.cal.cycleNo ≤ k → exec .dataCalendarStart s = .next s) ∧
       (k < s.cal.cycleNo → ∃ t, exec .dataCalendarStart s = .next t ∧ t.cal.phase = .data ∧ t.cal.announced = some k ∧
         t.cal.ps = s.cal.ps - (k + 1) * s.cal.slots * 6400000)))

/-- Meetings: preambles, the load, flits in sequence order, lanes, keys, silence and the fence, and the loss of light (R443 to R457, R478).
Choices of the model it rests on: logs 81, 82, 88, 140. -/
def Obligations.Meetings : Prop :=
  ∀ (s : State) (port q : Nat),
    (∀ (ack : Nat) (lanes : BitVec 16) (kgen : Bool) (o : Int), s.meeting port = some q → s.cal.guardOver = false →
      (s.port port).gotAt ≠ s.cal.slotAbs + 1 → (s.ports.look port).isSome → ∃ t, exec (.preambleReceive port ack lanes kgen o) s = .next t ∧
        (t.port port).gotAt = s.cal.slotAbs + 1 ∧ (t.port port).toldAt = s.cal.slotAbs + 1 ∧ (s.cal.phase = .boot → (t.peer q).offset = o) ∧
        ((s.port port).toldAt ≠ s.cal.slotAbs + 1 → s.mute port q = false → t.preambles.look q =
          some ⟨(s.peer q).recvSeq, (s.port port).lanesNow, (s.peer q).kgenOut != (s.peer q).keyPending⟩ ∧
          (∀ k, s.cal.announced = some k → (t.peer q).told = some k)) ∧
        (s.cal.phase = .data → (t.peer q).measured = o ∧
          ((s.peer q).admitted = true →
            (t.peer q).replay = (s.peer q).replay.filter (fun f => !(coveredBy ack f.1)) ∧ (t.peer q).peerLanes = lanes ∧ (t.peer q).kgenIn = kgen))) ∧
    (s.cal.guardOver = true → ∀ ack lanes kgen o, exec (.preambleReceive port ack lanes kgen o) s = .next s) ∧
    (∀ (f : Flit), s.dataMeeting port = some q → (s.peer q).bad = false → (s.port port).fixedAt = s.cal.slotAbs + 1 →
      let tagged := s.cal.tagOk q s.cal.index ((s.peer q).keyIn f.kgen) (s.peer q).gotFlits f
      (2 ≤ f.type ∨ tagged = false ∨ f.type = 0 ∧ (s.peer q).takesData f.kgen = false ∨ (f.type = 0 ∧ ∃ bs, f.payload = .noKind bs) →
        exec (.flitReceive port f) s = .next (s.updPeer q fun p => { p with bad := true })) ∧
      (f.type < 2 → tagged = true → (f.type = 0 → (s.peer q).takesData f.kgen = true) → (f.type = 0 → ∀ bs, f.payload ≠ .noKind bs) →
        (coveredBy (s.peer q).recvSeq f.seq = true →
          exec (.flitReceive port f) s = .next (s.updPeer q fun p => { p with gotFlits := p.gotFlits + 1 })) ∧
        (coveredBy (s.peer q).recvSeq f.seq = false → ∃ t, exec (.flitReceive port f) s = .next t ∧
          (t.peer q).recvSeq = (f.seq + 1) % 2 ^ 29 ∧ (t.peer q).gotFlits = (s.peer q).gotFlits + 1 ∧
          (f.type = 1 → t.arrived = s.arrived) ∧
          (f.kgen = (s.peer q).kgenIn → (t.peer q).newInGot = true ∧ (t.peer q).oldInKept = (s.peer q).oldInKept) ∧
          (f.kgen ≠ (s.peer q).kgenIn → (s.peer q).oldInKept = false → (t.peer q).kgenIn = f.kgen ∧ (t.peer q).oldInKept = true) ∧
          ((∀ o g n bs, f.payload = .chunk o g n bs → f.type = 0 → t.arrived = s.arrived ++ [(q, f.payload)]) ∧
            ∀ h, f.payload = .header h → f.type = 0 → t.arrived = s.arrived ++ [(q, f.payload)])))) ∧
    (∀ (c : Cal) (a b key pos seq : Nat) (kgen : Bool) (y : Payload),
      let f := c.flit a b key pos kgen seq y
      f.payload = y ∧ f.kgen = kgen ∧ f.seq = seq % 2 ^ 29 ∧ f.type = payloadType y ∧ c.tagOk a b key pos f = true ∧
        (c.flitBytes a b key pos f).length = 272 ∧ (payloadBytes y).length = 256) ∧
    (∀ (trained : BitVec 16) (i : Nat), (s.port port).live = true → s.cal.phase = .data → (s.port port).admittedAt < s.cal.cycleNo → s.cycleFresh (s.port port) = true →
      ((List.range 16).find? fun i => trained.getLsbD i && !((s.port port).lanes.getLsbD i) &&
        (if i < 8 then (s.port port).laserA else (s.port port).laserB)) = some i → (s.ports.look port).isSome →
      ∃ t, exec (.laneAdmit port trained) s = .next t ∧ (t.port port).lanes = (s.port port).lanes ||| BitVec.ofNat 16 (2 ^ i) ∧
        (t.port port).admittedAt = s.cal.cycleNo) ∧
    ((s.peer q).admitted = true → s.cal.phase = .data → (s.peer q).keyPending = false →
      exec (.rekey q) s = .next (s.updPeer q fun p => { p with keyPending := true, keyLate := false }) ∧
      ((s.peer q).keyAt + 2 ^ 20 ≤ s.cal.cycleNo → ∃ t, exec (.rekeyDeadline q) s = .next t ∧ (t.peer q).keyLate = true) ∧
      ((s.peer q).keyInAt + 2 ^ 20 ≤ s.cal.cycleNo → ∃ t, exec (.rekeyDeadline q) s = .next t ∧ (t.peer q).keyInLate = true) ∧
      (s.cal.cycleNo < (s.peer q).keyAt + 2 ^ 20 → s.cal.cycleNo < (s.peer q).keyInAt + 2 ^ 20 → exec (.rekeyDeadline q) s = .next s)) ∧
    ((s.port port).live = true → (s.port port).fenced = true →
      (s.cal.phase = .data → (s.port port).goodSince < s.cal.cycleNo → exec (.portUnfence port) s =
        .next ((s.mclog 11 0 0 (portUnit port) 0 2).updPort port fun x => { x with fenced := false, silentRun := 0 })) ∧
      ((s.port port).fencedAt + 2 ^ 16 ≤ s.cal.cycleNo → exec (.portRetireTimeout port) s =
        .next (((s.loseFlits port (s.peersOn port)).1.mclog 11 0 0 (portUnit port) 0 3).retirePort port))) ∧
    (s.cal.phase = .boot → s.meeting port = some q → s.cal.guardOver = true → (s.port port).fixedAt ≠ s.cal.slotAbs + 1 →
      exec (.meetingLoadFix port) s = .next ((s.sendPreamble port q).updPort port fun x => { x with fixedAt := s.cal.slotAbs + 1 })) ∧
    (s.cal.phase = .data → s.meeting port = some q → s.cal.guardOver = true → (s.port port).fixedAt ≠ s.cal.slotAbs + 1 →
      (s.port port).fenced = false →
      let t := ((s.sendPreamble port q).updPort port fun x => { x with fixedAt := s.cal.slotAbs + 1 }).updPeer q fun p => { p with gotFlits := 0 }
      let pred := (s.peer q).offset - (s.peer q).steeredSince
      let u : State := { t with cal := { t.cal with worstNow := max t.cal.worstNow pred.natAbs } }
      (s.cal.guard * 1000 < pred.natAbs → exec (.meetingLoadFix port) s =
        .next ((if (s.port port).gotAt = s.cal.slotAbs + 1 then u.keepOffset q else u.notFound port q).silentSlot port q pred)) ∧
      (pred.natAbs ≤ s.cal.guard * 1000 → (s.port port).gotAt ≠ s.cal.slotAbs + 1 → exec (.meetingLoadFix port) s =
        .next (((u.countSilent port q pred).notFound port q).updPeer q fun p => { p with bad := true })) ∧
      (pred.natAbs ≤ s.cal.guard * 1000 → (s.port port).gotAt = s.cal.slotAbs + 1 → (s.peer q).admitted = true → (s.peer q).late = false →
        (s.port port).darkAt ≠ s.cal.slotAbs + 1 →
        let v := ((u.keepOffset q).updPort port fun x => { x with silentRun := 0 }).updPeer q fun p => { p with bad := false, peerSilent := false }
        exec (.meetingLoadFix port) s = .next (v.sendTo q (bits16 ((s.port port).lanesNow &&& (s.peer q).peerLanes))))) ∧
    (∀ b, exec (.laserFailure port b) s = .next (s.loseLaser port b)) ∧
    (∀ lane, exec (.laneFlitFailures port lane) s = .next (s.loseLaser port (decide (8 ≤ lane)))) ∧
    (∀ b, (s.port port).live = false → s.loseLaser port b = s) ∧
    ∀ b, (s.port port).live = true → (if b then (s.port port).laserB else (s.port port).laserA) = true →
      Retired.waves port b ∈ (s.loseLaser port b).tables

/-! ## Steps, encodings and invariants -/

/-- A step runs the instruction that stands at the path chosen: when nothing holds the path, the word at its PC decodes to `i` and its literal
word is there, the step is `exec i` with the path issuing, and what follows every step. A path at a header first enters its block. The path is
the one granted, or the first of the partition's candidates that does not wait; an event of the agenda comes first (R61 to R64, R78, R212,
R213).
Choices of the model it rests on: log 11. -/
def Obligations.StepRunsDecoded : Prop :=
  (∀ (s : State) (p : PathRef) (l : Leaf) (w : DWord), s.agenda = [] → s.grant = some p → s.leafAt p = some l → l.wait ≠ .stepped →
    let s0 : State := { s with grant := none }
    l.bad = false → s0.boundaryDue p l = false → s0.pathHold p l = none → (∀ ids, l.wait ≠ .drain ids) →
    (∀ ops cs st, l.wait ≠ .watch ops cs st) →
    let s1 : State := { s0.fillFetch p.wave l.pc.toNat with free := s.free + 1 }
    s1.fetch p.wave l.pc = .ok w →
    (∀ i, l.pos ≠ 0 → (Fields.unpack w).hasLiteral = false → decode w none = .ok i →
      step s = settleOutcome (exec i { s1 with cur := some p })) ∧
    (∀ i j x, l.pos ≠ 0 → (Fields.unpack w).hasLiteral = true → decode w (some 0) = .ok j → s1.decodeCause p l j = none →
      l.pos < (Header.ofWord l.hdr).length → s1.fetch p.wave (l.pc + 8) = .ok x → decode w (some x) = .ok i →
      step s = settleOutcome (exec i { s1 with cur := some p })) ∧
    (∀ r, l.pos ≠ 0 → decode w (some 0) = .error r → step s = .next (s1.wordCause p l 0x18 w.toNat (Fields.unpack w).guard).settled) ∧
    (l.pos = 0 → s1.headerOk p.wave w = false → step s = .next (s1.wordCause p l 0x1A l.pc.toNat Guard.always).settled) ∧
    ∀ l', l.pos = 0 → s1.headerOk p.wave w = true →
      let s2 : State := { s1.enterBlock p w with free := s1.free + 1 }
      s2.leafAt p = some l' → step s = settleOutcome (s2.runWord p l') ∧ l'.pos = 1 ∧ l'.pc = l.pc + 8 ∧ l'.hdr = w) ∧
  (∀ (s : State) (n : Nat) (c : Cand) (r : List Cand) (t : State), s.agenda = [] → s.grant = none → s.rot = [] → s.nextPartition = some n →
    throttled s = false → sortCands (rotationCycleNow s) (s.candidates (n / 4) (n % 4)) = c :: r →
    ({ s with turn := n + 1 } : State).runPath c.ref = .next t → t.held = none → step s = .next t.settled) ∧
  (∀ (s : State) (e : Instr) (r : List Instr), s.agenda = e :: r → e.isEvent = true → s.bootFailed = false ∨ e = .deviceReset →
    step s = settleOutcome (exec e { s with agenda := r })) ∧
  (∀ (s : State) (r : List Instr), s.bootFailed = true → s.agenda = .hostMemRead 0 1 :: r → step s = .next { s with agenda := r }.settled) ∧
  ∀ (s : State), s.agenda = [] → s.grant = none → s.rot = [] → s.nextPartition = none → step s = .next s.tick.settled

namespace Sys2Proof.Claims

/-- A word written out field by field: major, minor, dst, srcA, srcB, srcC, and the bits below srcC (bits 17..0). -/
def wordOf (major minor dst a b c rest : Nat) : DWord :=
  BitVec.ofNat 64 (major * 2 ^ 56 + minor * 2 ^ 50 + dst * 2 ^ 42 + a * 2 ^ 34 + b * 2 ^ 26 + c * 2 ^ 18 + rest)

/-- The word `w`, with the literal word `x` where it takes one, decodes to `i`. -/
def reads (w : DWord) (x : Option DWord) (i : Instr) : Bool :=
  match decode w x with
  | .ok j => j == i
  | .error _ => false

/-- The word `w` is no instruction, for the reason `r`. -/
def rejects (w : DWord) (r : Reject) : Bool :=
  match decode w none with
  | .ok _ => false
  | .error q => q == r

end Sys2Proof.Claims

/-- Words written out from the encoding tables decode to the instructions they stand for: IADD v1, v2, v3; ST.D with a block; BRA 2; WAITC;
LD.H.S.ACQ; MMQ.SC; HPFX uniform; EFLT.DROP; CSRR; RPUT.M.V; ATOM.CAS.AR; and four that are no instructions (Tables 3.3 to 3.7, Table 9.4). That
ST.D takes a register block, as Table 9.4 has it and the text after Table 3.7 does not, is the model's choice.
Choices of the model it rests on: log 130. -/
def Obligations.EncodedWordsDecode : Prop :=
  reads (wordOf 0x00 0 1 2 3 0 0) none (.iadd .wrap ⟨⟨0, false⟩, .v 1, .v 2 false, .reg (.v 3 false), ⟨.one, .one⟩⟩) = true ∧
  reads (wordOf 0x61 0x30 0 5 16 32 (2 ^ 16 + 2 ^ 8)) none (.st ⟨⟨0, false⟩, .d, false, .none, 5, 16, 32, ⟨.two, .one⟩⟩) = true ∧
  reads (wordOf 0x50 8 0 0 0 2 (3 * 2 ^ 10 + 2 ^ 9)) none (.bra ⟨3, true⟩ (.imm 2)) = true ∧
  reads (wordOf 0x59 0 0 0x04 0x20 0xC4 0) none (.waitc ⟨0, false⟩ 1 2 3 4) = true ∧
  reads (wordOf 0x60 0x19 7 5 9 0 (2 ^ 8)) none (.ld ⟨⟨0, false⟩, .h, true, true, .none, 7, 5, 9, ⟨.one, .one⟩⟩) = true ∧
  reads (wordOf 0x95 0x09 3 0 4 0 0) none (.mmq ⟨0, false⟩ .i8d8 true 3 4) = true ∧
  reads (wordOf 0xA3 0 6 2 7 0 (2 ^ 7)) none (.hpfx ⟨0, false⟩ 2 (.uni 6 7)) = true ∧
  reads (wordOf 0xAB 1 1 2 3 4 (2 ^ 8 + 2 ^ 7 + 2 ^ 6)) none (.eflt ⟨0, false⟩ true 1 2 3 4) = true ∧
  reads (wordOf 0xB0 0 9 0 0x00 0x23 0) none (.csrr ⟨0, false⟩ 9 0x023) = true ∧
  reads (wordOf 0x83 1 1 2 3 4 (2 ^ 8 + 2 ^ 7 + 2 ^ 6 + 2)) none (.rputM .v ⟨⟨0, false⟩, 1, 2, 3, 4⟩) = true ∧
  reads (wordOf 0x67 0x27 8 5 9 10 (2 ^ 8)) none (.atom ⟨⟨0, false⟩, .cas, .ar, false, 8, 5, 9, 10⟩) = true ∧
  reads (wordOf 0x00 0x10 1 2 0 0 0) (some 77) (.iadd .wrap ⟨⟨0, false⟩, .v 1, .v 2 false, .lit 77, ⟨.one, .one⟩⟩) = true ∧
  rejects (wordOf 0xF8 0 0 0 0 0 0) .headerInBlock = true ∧ rejects (wordOf 0x1F 0 0 0 0 0 0) .majorUnassigned = true ∧
  rejects (wordOf 0x60 0x00 7 64 9 0 (2 ^ 8)) .registerRange = true ∧ rejects (wordOf 0x58 0 0 0 0 0 1) .modUnlisted = true

/-- DECODING AND ENCODING AGREE: every well-formed instruction with an encoding is decoded from its words, and every word that decodes is the
encoding of what it decodes to, so that no two instructions share a word (R59, R60, R69 to R79). -/
def Obligations.DecodeEncodeAgree : Prop :=
  (∀ (i : Instr) (w : DWord) (x : Option DWord), i.wf = true → encode i = some (w, x) → decode w (some (x.getD 0)) = .ok i) ∧
  (∀ (w x : DWord) (i : Instr), decode w (some x) = .ok i →
    i.wf = true ∧ encode i = some (w, if (Fields.unpack w).hasLiteral then some x else none)) ∧
  ∀ (w : DWord), (Fields.unpack w).pack = w

/-- THE INVARIANT OF EVERY STEP: the memories (device memory, vaults, host memory, every scratchpad) stay in their canonical form.
Choices of the model it rests on: log 7. -/
def Obligations.MemoryStaysCanonical : Prop :=
  ∀ (s t : State), s.memOk = true → step s = .next t → t.memOk = true

/-- Between steps no path is issuing, and no completed operation stands in a counter without an older one of its wave and class before it (R234). -/
def Obligations.StepsSettle : Prop :=
  (∀ (s t : State), step s = .next t → t.between = true) ∧
  ∀ (ops : Table Op) (w : Nat) (c : OpClass), Table.wfFrom 0 ops = true →
    retire (retire ops) = retire ops ∧ (∀ x ∈ ops, x.2.done = false → x ∈ retire ops) ∧
      ∀ x ∈ retire ops, x.2.done = true → x.2.wave = w → x.2.cls = c → ∃ y ∈ ops, y.1 < x.1 ∧ y.2.done = false ∧ y.2.wave = w ∧ y.2.cls = c

/-- The machine right after reset: nothing runs, memory lists nothing, every unit works, the calendar is off, the bootstrap stream is open and
context 0 exists; the invariants hold (R392, R394, R396, R438; PLIM by Table 19.10).
Choices of the model it rests on: logs 1, 5, 7, 10. -/
def Obligations.ResetState : Prop :=
  let s := State.reset
  s.memOk = true ∧ s.between = true ∧ s.waves = [] ∧ s.launches = [] ∧ s.ops = [] ∧ s.cal.en = false ∧ s.plim = 3000 ∧ s.mccnt = 0 ∧
    s.oos = false ∧ s.tables = [] ∧ s.streams = [Stream.boot] ∧ s.contexts.keys = [0] ∧ (∀ a, s.placeByte ⟨.dev, a, 0, false⟩ = 0) ∧
    ∀ n < 16, (s.port n).live = true ∧ (s.port n).fenced = false
end

