-- ==== Sys2Proof/Laws/Table.lean ====
section
/-!
SUPPORT. Laws of tables, sparse values and memories: read after write, other keys unchanged, and that every write keeps the canonical
form.
-/

namespace Sys2Proof.Machine

theorem Table.look_put {α : Type} (t : Table α) (n m : Nat) (x : α) :
    (Table.put t n x).look m = if m = n then some x else t.look m := by
  induction t with
  | nil => by_cases h : m = n <;> simp [Table.put, Table.look, h]
  | cons c r ih =>
    obtain ⟨k, a⟩ := c
    simp only [Table.put]
    split
    · subst_vars; by_cases h : m = k <;> simp [Table.look, h]
    · split
      · simp only [Table.look]; split <;> try rfl
        by_cases h : m < n
        · simp [h, show m ≠ k by omega, show m < k by omega]
        · simp [h]
      · simp only [Table.look, ih]
        by_cases h : m = n
        · subst h; simp [show m ≠ k by omega, show ¬ m < k by omega]
        · simp [h]

theorem Table.look_upd {α : Type} (t : Table α) (n m : Nat) (f : α → α) :
    (Table.upd t n f).look m = if m = n then (t.look n).map f else t.look m := by
  unfold Table.upd
  cases h : t.look n with
  | none => by_cases hm : m = n <;> simp [hm, h]
  | some a => simp [Table.look_put]

theorem Table.look_map {α β : Type} (t : Table α) (f : Nat → α → β) (m : Nat) :
    (Table.map f t).look m = (t.look m).map (f m) := by
  induction t with
  | nil => rfl
  | cons c r ih =>
    obtain ⟨k, a⟩ := c
    simp only [Table.map, Table.look]
    split
    · subst_vars; rfl
    · split
      · rfl
      · exact ih

theorem Table.lookD_put {α : Type} (t : Table α) (n m : Nat) (x d : α) :
    (Table.put t n x).lookD m d = if m = n then x else t.lookD m d := by
  unfold Table.lookD; rw [Table.look_put]; split <;> rfl

theorem Table.lookD_map {α : Type} (t : Table α) (f : Nat → α → α) (m : Nat) (d : α) (hd : f m d = d) :
    (Table.map f t).lookD m d = f m (t.lookD m d) := by
  unfold Table.lookD; rw [Table.look_map]; cases t.look m <;> simp [hd]

/-! ## Canonical forms -/

theorem Table.wfFrom_mono {α : Type} {lo lo' : Nat} {t : Table α} (h : lo' ≤ lo) (w : Table.wfFrom lo t = true) :
    Table.wfFrom lo' t = true := by
  cases t with
  | nil => rfl
  | cons c r => simp [Table.wfFrom] at *; exact ⟨by omega, w.2⟩

theorem Sparse.wfFrom_mono {w lo lo' : Nat} {t : Sparse w} (h : lo' ≤ lo) (x : Sparse.wfFrom lo t = true) :
    Sparse.wfFrom lo' t = true := by
  cases t with
  | nil => rfl
  | cons c r => simp [Sparse.wfFrom] at *; exact ⟨⟨by omega, x.1.2⟩, x.2⟩

theorem Sparse.wfFrom_put {w : Nat} {x : BitVec w} (hx : x ≠ 0) :
    ∀ {lo n : Nat} {t : Sparse w}, lo ≤ n → Sparse.wfFrom lo t = true → Sparse.wfFrom lo (Table.put t n x) = true
  | lo, n, [], h, _ => by simp [Table.put, Sparse.wfFrom, h]; exact hx
  | lo, n, (k, a) :: r, h, w => by
    simp only [Sparse.wfFrom, Bool.and_eq_true, decide_eq_true_eq] at w
    simp only [Table.put]
    split
    · subst_vars; simp [Sparse.wfFrom, h, w.2]; exact hx
    · split
      · simp only [Sparse.wfFrom, Bool.and_eq_true, decide_eq_true_eq]
        exact ⟨⟨h, hx⟩, ⟨by omega, w.1.2⟩, w.2⟩
      · simp only [Sparse.wfFrom, Bool.and_eq_true, decide_eq_true_eq]
        exact ⟨w.1, Sparse.wfFrom_put hx (by omega) w.2⟩

theorem Sparse.wfFrom_del {w : Nat} : ∀ {lo n : Nat} {t : Sparse w}, Sparse.wfFrom lo t = true → Sparse.wfFrom lo (Table.del t n) = true
  | _, _, [], h => h
  | lo, n, (k, a) :: r, h => by
    have h' := h
    simp only [Sparse.wfFrom, Bool.and_eq_true, decide_eq_true_eq] at h'
    simp only [Table.del]
    split
    · exact Sparse.wfFrom_mono (by omega) h'.2
    · split
      · exact h
      · simp only [Sparse.wfFrom, Bool.and_eq_true, decide_eq_true_eq]
        exact ⟨h'.1, Sparse.wfFrom_del h'.2⟩

/-- A write keeps the canonical form. -/
theorem Sparse.wf_wr {w : Nat} {t : Sparse w} (n : Nat) (x : BitVec w) (h : Sparse.wf t = true) : Sparse.wf (Sparse.wr t n x) = true := by
  unfold Sparse.wr Sparse.wf at *
  split
  · exact Sparse.wfFrom_del h
  · exact Sparse.wfFrom_put ‹_› (by omega) h

theorem Sparse.wf_keepKeys {w : Nat} (f : Nat → Bool) : ∀ {lo : Nat} {t : Sparse w}, Sparse.wfFrom lo t = true →
    Sparse.wfFrom lo (Sparse.keepKeys f t) = true
  | _, [], h => h
  | lo, (k, a) :: r, h => by
    simp only [Sparse.wfFrom, Bool.and_eq_true, decide_eq_true_eq] at h
    have ih : Sparse.wfFrom (k + 1) (Sparse.keepKeys f r) = true := Sparse.wf_keepKeys f h.2
    simp only [Sparse.keepKeys, Table.keep] at ih ⊢
    split
    · simp only [Sparse.wfFrom, Bool.and_eq_true, decide_eq_true_eq]; exact ⟨h.1, ih⟩
    · exact Sparse.wfFrom_mono (by omega) ih

theorem Table.look_none_of_lt {α : Type} {lo n : Nat} {t : Table α} (h : Table.wfFrom lo t = true) (hn : n < lo) : t.look n = none := by
  cases t with
  | nil => rfl
  | cons c r =>
    obtain ⟨k, a⟩ := c
    simp only [Table.wfFrom, Bool.and_eq_true, decide_eq_true_eq] at h
    simp [Table.look, show n ≠ k by omega, show n < k by omega]

theorem Sparse.tableWf {w lo : Nat} {t : Sparse w} (h : Sparse.wfFrom lo t = true) : Table.wfFrom lo t = true := by
  induction t generalizing lo with
  | nil => rfl
  | cons c r ih =>
    simp only [Sparse.wfFrom, Table.wfFrom, Bool.and_eq_true, decide_eq_true_eq] at *
    exact ⟨h.1.1, ih h.2⟩

theorem Table.look_del {α : Type} : ∀ {lo n m : Nat} {t : Table α}, Table.wfFrom lo t = true →
    (Table.del t n).look m = if m = n then none else t.look m
  | _, _, _, [], _ => by simp [Table.del, Table.look]
  | lo, n, m, (k, a) :: r, h => by
    simp only [Table.wfFrom, Bool.and_eq_true, decide_eq_true_eq] at h
    simp only [Table.del]
    split
    · subst_vars
      by_cases hm : m = k
      · subst hm; simp [Table.look_none_of_lt h.2 (Nat.lt_succ_self m)]
      · simp only [Table.look, hm, ite_false]
        split
        · exact Table.look_none_of_lt h.2 (by omega)
        · rfl
    · split
      · by_cases hm : m = n
        · subst hm; simp [Table.look, *]
        · simp [hm]
      · simp only [Table.look, Table.look_del h.2]
        by_cases hm : m = n
        · subst hm; simp [*]
        · simp [hm]

/-- Read after write. -/
theorem Sparse.rd_wr {w : Nat} {t : Sparse w} (h : Sparse.wf t = true) (n m : Nat) (x : BitVec w) :
    Sparse.rd (Sparse.wr t n x) m = if m = n then x else Sparse.rd t m := by
  unfold Sparse.wr Sparse.rd
  split
  · rw [Table.look_del (Sparse.tableWf h)]; split
    · simp_all
    · rfl
  · rw [Table.look_put]; split <;> rfl

/-! ## Memories -/

theorem Memory.wf_setByte {m : Memory} (a : Nat) (x : Byte) (h : Memory.wf m = true) : Memory.wf (m.setByte a x) = true :=
  Sparse.wf_wr (w := 8) a x h

theorem Memory.byte_setByte {m : Memory} (h : Memory.wf m = true) (a b : Nat) (x : Byte) :
    (m.setByte a x).byte b = if b = a then x else m.byte b := Sparse.rd_wr (w := 8) h a b x

theorem Memory.wf_write : ∀ (n : Nat) {m : Memory} (a x : Nat), Memory.wf m = true → Memory.wf (m.write a n x) = true
  | 0, _, _, _, h => h
  | n + 1, _, a, _, h => Memory.wf_write n (a + 1) _ (Memory.wf_setByte a _ h)

theorem Memory.wf_writeBytes : ∀ (bs : List Byte) {m : Memory} (a : Nat), Memory.wf m = true → Memory.wf (m.writeBytes a bs) = true
  | [], _, _, h => h
  | _ :: r, _, a, h => Memory.wf_writeBytes r (a + 1) (Memory.wf_setByte a _ h)

/-- A write leaves every other byte alone. -/
theorem Memory.byte_writeBytes : ∀ (bs : List Byte) {m : Memory} (a b : Nat), Memory.wf m = true → (b < a ∨ a + bs.length ≤ b) →
    (m.writeBytes a bs).byte b = m.byte b
  | [], _, _, _, _, _ => rfl
  | x :: r, m, a, b, h, hb => by
    simp only [Memory.writeBytes, List.length_cons] at *
    rw [Memory.byte_writeBytes r (a + 1) b (Memory.wf_setByte a x h) (by omega), Memory.byte_setByte h]
    simp [show b ≠ a by omega]

end Sys2Proof.Machine
end

