-- ==== Sys2Proof/Laws/Issue.lean ====
section
/-!
SUPPORT. What the shared operations of issue do: updates of one wave, the path's moves, and the issue of an instruction that only
changes registers.
-/

namespace Sys2Proof.Machine

/-! ## One wave -/

theorem State.wave_updWave (s : State) (k j : Nat) (f : Wave → Wave) (h : (s.waves.look k).isSome) :
    (s.updWave k f).wave j = if j = k then f (s.wave k) else s.wave j := by
  unfold State.updWave State.wave Table.lookD
  simp only [Table.look_upd]
  obtain ⟨w, hw⟩ := Option.isSome_iff_exists.mp h
  by_cases hj : j = k <;> simp [hj, hw]

theorem State.updWave_none (s : State) (k : Nat) (f : Wave → Wave) (h : s.waves.look k = none) : s.updWave k f = s := by
  unfold State.updWave Table.upd; rw [h]

/-- A wave after an update of one wave, when the update keeps what is compared. -/
theorem State.regs_updWave (s : State) (k j : Nat) (f : Wave → Wave) (hf : ∀ w, (f w).regs = w.regs) :
    ((s.updWave k f).wave j).regs = (s.wave j).regs := by
  cases h : s.waves.look k with
  | none => rw [State.updWave_none s k f h]
  | some w =>
    rw [State.wave_updWave s k j f (by simp [h])]
    by_cases hj : j = k
    · subst hj; simp [hf]
    · simp [hj]

theorem State.look_updWave (s : State) (k j : Nat) (f : Wave → Wave) :
    ((s.updWave k f).waves.look j).isSome = (s.waves.look j).isSome := by
  unfold State.updWave; simp only [Table.look_upd]
  by_cases h : j = k
  · subst h; simp
  · simp [h]

/-! ## Changes of control -/

theorem Wave.regs_setTree (w : Wave) (k : Slot) (t : PTree) : (w.setTree k t).regs = w.regs := by cases k <;> rfl

theorem Wave.regs_resettle (fair ka kb : Nat) (w : Wave) : (w.resettle fair ka kb).regs = w.regs := by
  unfold Wave.resettle; dsimp only; split <;> rfl

theorem Wave.regs_checkEnd (w : Wave) : w.checkEnd.regs = w.regs := by
  unfold Wave.checkEnd; split <;> rfl

theorem State.regs_updLeaf (s : State) (p : PathRef) (f : Leaf → Leaf) (j : Nat) :
    ((s.updLeaf p f).wave j).regs = (s.wave j).regs :=
  State.regs_updWave _ _ _ _ fun w => Wave.regs_setTree w _ _

theorem State.regs_advance (s : State) (p : PathRef) (i : Instr) (j : Nat) : ((s.advance p i).wave j).regs = (s.wave j).regs :=
  State.regs_updLeaf _ _ _ _

/-- Updates of several waves that keep what is compared. -/
theorem State.regs_foldl {α : Type} (k : α → Nat) (f : α → Wave → Wave) (hf : ∀ x w, (f x w).regs = w.regs) (j : Nat) :
    ∀ (l : List α) (s : State), ((l.foldl (fun s x => s.updWave (k x) (f x)) s).wave j).regs = (s.wave j).regs
  | [], _ => rfl
  | x :: r, s => by
    rw [List.foldl_cons, State.regs_foldl k f hf j r, State.regs_updWave _ _ _ _ (hf x)]

theorem State.look_foldl {α : Type} (k : α → Nat) (f : α → Wave → Wave) (j : Nat) :
    ∀ (l : List α) (s : State),
      (((l.foldl (fun s x => s.updWave (k x) (f x)) s).waves).look j).isSome = (s.waves.look j).isSome
  | [], _ => rfl
  | x :: r, s => by rw [List.foldl_cons, State.look_foldl k f j r, State.look_updWave]

theorem State.regs_issued (s : State) (p : PathRef) (l : Leaf) (j : Nat) : ((s.issued p l).wave j).regs = (s.wave j).regs := by
  unfold State.issued
  dsimp only
  rw [State.regs_updWave (hf := by intro w; rfl)]
  exact State.regs_foldl Prod.fst (fun h w => w.countIssue (l.mask &&& h.2)) (fun _ _ => rfl) j _ _

theorem State.regs_mapWaves (s : State) (f : Nat → Wave → Wave) (j : Nat) (hf : ∀ k w, (f k w).regs = w.regs)
    (hb : f j (Wave.blank 0 0 0) = Wave.blank 0 0 0) :
    (({ s with waves := s.waves.map f } : State).wave j).regs = (s.wave j).regs := by
  unfold State.wave
  simp only
  rw [Table.lookD_map _ _ _ _ hb, hf]

theorem State.regs_loseResv (s : State) (p : PathRef) (m : Mask) (j : Nat) : ((s.loseResv p m).wave j).regs = (s.wave j).regs := by
  unfold State.loseResv
  split
  · rfl
  · exact State.regs_foldl Prod.fst (fun h w => w.dropResv (m &&& h.2)) (fun _ _ => rfl) j _ _

theorem State.regs_resettle (s : State) (h : Nat) (old : Wave) (ka kb j : Nat) : ((s.resettle h old ka kb).wave j).regs = (s.wave j).regs := by
  unfold State.resettle
  dsimp only [List.foldl_cons, List.foldl_nil]
  rw [State.regs_updWave _ _ _ _ fun w => by rw [Wave.regs_checkEnd, Wave.regs_resettle], State.regs_loseResv, State.regs_loseResv]

theorem State.regs_parkRegion (s : State) (p : PathRef) (j : Nat) : ((s.parkRegion p).wave j).regs = (s.wave j).regs := by
  unfold State.parkRegion
  split
  · rfl
  · dsimp only
    split
    · rfl
    · rw [State.regs_mapWaves _ _ _ _ rfl]
      · exact State.regs_updWave _ _ _ _ fun w => Wave.regs_setTree w _ _
      · intro k w
        cases h : w.region with
        | none => rfl
        | some r => simp only []; split <;> rfl

theorem State.regs_moved (s : State) (p : PathRef) (k j : Nat) : ((s.moved p k).wave j).regs = (s.wave j).regs := by
  unfold State.moved
  dsimp only
  rw [State.regs_resettle, State.regs_parkRegion]

/-! ## Only waves -/

theorem State.onlyWaves_refl (s : State) : s.onlyWaves s := rfl

theorem State.onlyWaves_trans {s t u : State} (h : s.onlyWaves t) (h' : t.onlyWaves u) : s.onlyWaves u := by
  unfold State.onlyWaves at *; rw [h'] ; simp only; rw [h]

theorem State.onlyWaves_updWave (s : State) (k : Nat) (f : Wave → Wave) : s.onlyWaves (s.updWave k f) := rfl

theorem State.onlyWaves_foldl {α : Type} (k : α → Nat) (f : α → Wave → Wave) :
    ∀ (l : List α) (s : State), s.onlyWaves (l.foldl (fun s x => s.updWave (k x) (f x)) s)
  | [], _ => rfl
  | x :: r, s => State.onlyWaves_trans (State.onlyWaves_updWave s (k x) (f x)) (State.onlyWaves_foldl k f r _)

theorem State.onlyWaves_issued (s : State) (p : PathRef) (l : Leaf) : s.onlyWaves (s.issued p l) :=
  State.onlyWaves_trans (State.onlyWaves_foldl Prod.fst (fun h w => w.countIssue (l.mask &&& h.2)) _ s) rfl

theorem State.onlyWaves_parkRegion (s : State) (p : PathRef) : s.onlyWaves (s.parkRegion p) := by
  unfold State.parkRegion
  split
  · rfl
  · dsimp only
    split <;> rfl

theorem State.onlyWaves_loseResv (s : State) (p : PathRef) (m : Mask) : s.onlyWaves (s.loseResv p m) := by
  unfold State.loseResv
  split
  · rfl
  · exact State.onlyWaves_foldl Prod.fst (fun h w => w.dropResv (m &&& h.2)) _ s

theorem State.onlyWaves_resettle (s : State) (h : Nat) (old : Wave) (ka kb : Nat) : s.onlyWaves (s.resettle h old ka kb) := by
  unfold State.resettle
  exact State.onlyWaves_trans (State.onlyWaves_trans (State.onlyWaves_loseResv _ _ _) (State.onlyWaves_loseResv _ _ _)) rfl

theorem State.onlyWaves_moved (s : State) (p : PathRef) (k : Nat) : s.onlyWaves (s.moved p k) :=
  State.onlyWaves_trans (State.onlyWaves_parkRegion s p) (State.onlyWaves_resettle _ _ _ _ _)

/-! ## The readers of a wave's registers -/

/-- An effect that looks at registers alone and keeps the wave's team. -/
structure RegEffect (f : Wave → Wave) : Prop where
  cong : ∀ w w', w.regs = w'.regs → (f w).regs = (f w').regs
  team : ∀ w, (f w).team = w.team

theorem Wave.team_of_regs {w w' : Wave} (h : w.regs = w'.regs) : w.team = w'.team :=
  show w.regs.team = w'.regs.team from congrArg Wave.team h

/-- The single step that is due depends on the wave's team and on nothing else of the waves. -/
theorem State.stepDue_onlyWaves {s t : State} (h : s.onlyWaves t) (p : PathRef) (i : Instr)
    (ht : (t.wave p.wave).team = (s.wave p.wave).team) : t.stepDue p i = s.stepDue p i := by
  have h1 : t.ctxOf p.wave = s.ctxOf p.wave := by
    unfold State.ctxOf State.ctxNo State.recdOf State.launchNo State.team State.launch State.context
    rw [ht]; rw [h]
  unfold State.stepDue; rw [h1]

theorem State.finishIssue_plain (s : State) (p : PathRef) (k : Nat) (i : Instr) (h : s.stepDue p i = false) :
    s.finishIssue p k i [] = s.moved p k := by
  unfold State.finishIssue
  simp only [List.isEmpty_nil, ite_true, State.stepNow, h, Bool.false_and]
  cases s.leafAt p <;> simp

theorem State.readErrors_none (s : State) (i : Instr) (w : Nat) (h : (s.wave w).upset = []) : s.readErrors i w = s := by
  unfold State.readErrors State.checkRegs; simp [h]

theorem foldl_readErrors {s : State} (i : Instr) : ∀ {on : List Env}, (∀ e ∈ on, (s.wave e.wave).upset = []) →
    on.foldl (fun s e => s.readErrors i e.wave) s = s
  | [], _ => rfl
  | e :: r, h => by
    simp only [List.foldl_cons, State.readErrors_none s i e.wave (h e (by simp))]
    exact foldl_readErrors i fun e' he => h e' (by simp [he])

/-! ## Clear instructions -/

theorem State.clear_parts {s : State} {p : PathRef} {l : Leaf} {i : Instr} {g : Guard} {b : Bool} (h : s.clear p l i g b = true) :
    s.issuing = some (p, l) ∧ s.decodeCause p l i = none ∧
      s.holdOf p l i ((s.acting p l i g b).map fun e => (e.wave, e.mine, e.act)) = none ∧ s.stepDue p i = false ∧
      (∀ h ∈ s.homes p, (s.waves.look h.1).isSome ∧ (s.wave h.1).upset = []) ∧ ((s.homes p).map Prod.fst).Nodup := by
  unfold State.clear at h
  simp only [Bool.and_eq_true, beq_iff_eq, Option.isNone_iff_eq_none, decide_eq_true_eq, List.all_eq_true, Bool.not_eq_true',
    List.isEmpty_iff] at h
  exact ⟨h.1.1.1.1.1, h.1.1.1.1.2, h.1.1.1.2, h.1.1.2, h.1.2, h.2⟩

theorem State.acting_home {s : State} {p : PathRef} {l : Leaf} {i : Instr} {g : Guard} {b : Bool} {e : Env}
    (h : e ∈ s.acting p l i g b) : ∃ x ∈ s.homes p, e.wave = x.1 := by
  unfold State.acting State.envs at h
  dsimp only at h
  split at h
  · obtain ⟨x, hx, rfl⟩ := List.mem_map.mp h; exact ⟨x, (List.mem_filter.mp hx).1, rfl⟩
  · obtain ⟨x, hx, rfl⟩ := List.mem_map.mp (List.mem_filter.mp h).1; exact ⟨x, (List.mem_filter.mp hx).1, rfl⟩

theorem State.acting_nodup {s : State} {p : PathRef} {l : Leaf} {i : Instr} {g : Guard} {b : Bool}
    (h : ((s.homes p).map Prod.fst).Nodup) : ((s.acting p l i g b).map Env.wave).Nodup := by
  have key : ((s.envs p l g (instrWord i)).map Env.wave).Nodup := by
    unfold State.envs; rw [List.map_map]; exact h.sublist (List.Sublist.map _ List.filter_sublist)
  unfold State.acting
  dsimp only
  split
  · exact key
  · exact key.sublist (List.Sublist.map _ List.filter_sublist)

/-- THE ISSUE of an instruction that goes through and raises no cause of its own before its effect, and after it none that a
running tile macro has to make room for or that waits for its accesses (R358, R422). -/
theorem issueWith_clear {i : Instr} {g : Guard} {b : Bool} {chk : Env → State → List Cause} {wait : Env → State → Option Nat}
    {act : PathRef → List Env → State → State} {after : Env → State → List Cause} {s : State} {p : PathRef} {l : Leaf}
    (h : s.clear p l i g b = true) (hc : ∀ e ∈ s.acting p l i g b, chk e s = []) (hw : ∀ e ∈ s.acting p l i g b, wait e s = none)
    (hne : b = true ∨ s.acting p l i g b ≠ [])
    (hl : (s.acting p l i g b).flatMap (fun e => after e s) = [] ∨
      (s.wave p.wave).mmt = none ∧ lowestCode ((s.acting p l i g b).flatMap fun e => after e s) ≠ 0x51) :
    issueWith i g b chk wait act after s =
      .next ((act p (s.acting p l i g b) (s.issued p l)).finishIssue p (s.place p) i ((s.acting p l i g b).flatMap fun e => after e s)) := by
  obtain ⟨h1, h2, h3, h4, h5, -⟩ := State.clear_parts h
  have hm : ((s.wave p.wave).mmt.isSome &&
      (!((s.acting p l i g b).flatMap fun e => after e s).isEmpty || s.stepDue p i)) = false := by
    rcases hl with hl | ⟨hl, -⟩ <;> simp [hl, h4]
  have hw51 : lowestCode ((s.acting p l i g b).flatMap fun e => after e s) ≠ 0x51 := by
    rcases hl with hl | ⟨-, hl⟩
    · rw [hl]; decide
    · exact hl
  have hr : ∀ e ∈ s.acting p l i g b, (s.wave e.wave).upset = [] := fun e he => by
    obtain ⟨x, hx, hex⟩ := State.acting_home he; rw [hex]; exact (h5 x hx).2
  have hcs : (s.acting p l i g b).flatMap (fun e => chk e s) = [] := List.flatMap_eq_nil_iff.mpr hc
  have hws : (s.acting p l i g b).findSome? (fun e => wait e s) = none := List.findSome?_eq_none_iff.mpr hw
  unfold issueWith
  simp only [h1, h2]
  cases b with
  | true =>
    simp only [State.acting, ite_true] at h3 hr hcs hws hm hw51 ⊢
    simp only [h3, Bool.not_true, Bool.false_and, Bool.false_eq_true, ite_false, foldl_readErrors i hr, hcs, hws,
      List.isEmpty_nil, hm, hw51]
  | false =>
    simp only [State.acting, Bool.false_eq_true, ite_false] at h3 hr hcs hws hne hm hw51 ⊢
    have hne' : (List.filter (fun e => e.act != 0) (s.envs p l g (instrWord i))).isEmpty = false := by
      rcases hne with hne | hne
      · cases hne
      · exact List.isEmpty_eq_false_iff.mpr hne
    simp only [Bool.false_eq_true, ite_false, h3, Bool.not_false, Bool.true_and, hne', foldl_readErrors i hr, hcs, hws,
      List.isEmpty_nil, Bool.not_true, hm, hw51]

/-- The plain form. With no active lane the path only moves on, which is the same formula. -/
theorem issue_clear {i : Instr} {g : Guard} {chk : Env → State → List Cause} {eff : Env → State → State} {s : State} {p : PathRef} {l : Leaf}
    (h : s.clear p l i g false = true) (hc : ∀ e ∈ s.acting p l i g false, chk e s = []) :
    issue i g chk eff s =
      .next ((((s.acting p l i g false).foldl (fun s e => eff e s) (s.issued p l)).advance p i).finishIssue p (s.place p) i []) := by
  by_cases hne : s.acting p l i g false = []
  · obtain ⟨h1, h2, h3, h4, -, -⟩ := State.clear_parts h
    unfold issue issueWith
    simp only [State.acting, Bool.false_eq_true, ite_false] at hne h3
    simp only [State.acting, h1, h2, Bool.false_eq_true, ite_false, hne, List.map_nil] at h3 ⊢
    simp [h3, h4]
  · have := issueWith_clear (chk := chk) (wait := noWait) (act := seqAct i eff) (after := noCause) h hc (fun _ _ => rfl) (Or.inr hne)
      (Or.inl (by unfold noCause; simp))
    unfold issue; rw [this]
    unfold seqAct noCause
    have hn : (s.acting p l i g false).flatMap (fun _ => ([] : List Cause)) = [] := by simp
    simp [hn]

/-- The registers of every wave after the effects on distinct home waves. -/
theorem regs_foldl {f : Env → Wave → Wave} (hf : ∀ e, RegEffect (f e)) :
    ∀ {on : List Env} {s : State}, (on.map Env.wave).Nodup → (∀ e ∈ on, (s.waves.look e.wave).isSome) → ∀ k,
      ((on.foldl (fun s e => onWave f e s) s).wave k).regs =
        match on.find? fun e => e.wave == k with
        | some e => (f e (s.wave k)).regs
        | none => (s.wave k).regs
  | [], _, _, _, _ => rfl
  | e :: r, s, hd, hl, k => by
    simp only [List.map_cons, List.nodup_cons] at hd
    simp only [List.foldl_cons]
    have hl' : ∀ e' ∈ r, (((onWave f e s).waves).look e'.wave).isSome := fun e' he' => by
      unfold onWave; rw [State.look_updWave]; exact hl e' (by simp [he'])
    rw [regs_foldl hf hd.2 hl' k]
    have hw : (onWave f e s).wave k = if k = e.wave then f e (s.wave e.wave) else s.wave k :=
      State.wave_updWave s e.wave k (f e) (hl e (by simp))
    by_cases hk : k = e.wave
    · subst hk
      have hn : r.find? (fun e' => e'.wave == e.wave) = none := by
        rw [List.find?_eq_none]; intro e' he'; simp only [beq_iff_eq]
        intro hh; exact hd.1 (List.mem_map.mpr ⟨e', he', hh⟩)
      simp [hn, hw]
    · have hk' : (e.wave == k) = false := by simp; exact fun h => hk h.symm
      simp only [List.find?_cons, hk', hw, hk, ite_false]

theorem onlyWaves_foldl (f : Env → Wave → Wave) : ∀ (on : List Env) (s : State), s.onlyWaves (on.foldl (fun s e => onWave f e s) s)
  | [], _ => rfl
  | e :: r, s => State.onlyWaves_trans (State.onlyWaves_updWave s e.wave (f e)) (onlyWaves_foldl f r _)

theorem State.issued_look (s : State) (p : PathRef) (l : Leaf) (k : Nat) :
    ((s.issued p l).waves.look k).isSome = (s.waves.look k).isSome := by
  unfold State.issued
  rw [State.look_updWave]
  exact State.look_foldl Prod.fst (fun h w => w.countIssue (l.mask &&& h.2)) k _ _

/-- An instruction whose effect is on registers: what every wave's registers become, and that nothing else changes. -/
theorem issue_registers {i : Instr} {g : Guard} {chk : Env → State → List Cause} {f : Env → Wave → Wave} {s : State} {p : PathRef}
    {l : Leaf} (h : s.clear p l i g false = true) (hc : ∀ e ∈ s.acting p l i g false, chk e s = []) (hf : ∀ e, RegEffect (f e)) :
    ∃ t, issue i g chk (onWave f) s = .next t ∧ s.registersBecome t (s.acting p l i g false) f ∧
      t = (((s.acting p l i g false).foldl (fun s e => onWave f e s) (s.issued p l)).advance p i).moved p (s.place p) := by
  obtain ⟨-, -, -, h4, h5, h6⟩ := State.clear_parts h
  let s1 := (s.acting p l i g false).foldl (fun s e => onWave f e s) (s.issued p l)
  have hl : ∀ e ∈ s.acting p l i g false, (((s.issued p l).waves).look e.wave).isSome := fun e he => by
    obtain ⟨x, hx, hex⟩ := State.acting_home he
    rw [State.issued_look, hex]; exact (h5 x hx).1
  have hr : ∀ k, (s1.wave k).regs = match (s.acting p l i g false).find? fun e => e.wave == k with
      | some e => (f e (s.wave k)).regs
      | none => (s.wave k).regs := fun k => by
    simp only [s1]
    rw [regs_foldl hf (State.acting_nodup h6) hl k]
    split
    · exact (hf _).cong _ _ (State.regs_issued s p l k)
    · exact State.regs_issued s p l k
  have ho : s.onlyWaves (s1.advance p i) :=
    State.onlyWaves_trans (State.onlyWaves_trans (State.onlyWaves_issued s p l) (onlyWaves_foldl f _ _)) rfl
  have ht : ((s1.advance p i).wave p.wave).team = (s.wave p.wave).team := by
    have e1 : ((s1.advance p i).wave p.wave).team = (s1.wave p.wave).team :=
      Wave.team_of_regs (State.regs_advance s1 p i p.wave)
    rw [e1]
    have e2 := hr p.wave
    split at e2
    · exact (Wave.team_of_regs e2).trans ((hf _).team _)
    · exact Wave.team_of_regs e2
  refine ⟨(s1.advance p i).moved p (s.place p), ?_, ⟨State.onlyWaves_trans ho (State.onlyWaves_moved _ _ _), fun k => ?_⟩, rfl⟩
  · rw [issue_clear h hc, State.finishIssue_plain]
    rw [State.stepDue_onlyWaves ho p i ht, h4]
  · rw [State.regs_moved, State.regs_advance]; exact hr k

end Sys2Proof.Machine
end

