-- ==== Sys2Proof/Laws/State.lean ====
section
/-!
SUPPORT. What each update of the state and of a wave leaves in each field.
-/

namespace Sys2Proof.Machine

/-! ### updWave -/

@[simp] theorem State.cycle_updWave (s : State) (k : Nat) (f : Wave → Wave) : (s.updWave k f).cycle = s.cycle := rfl
@[simp] theorem State.cur_updWave (s : State) (k : Nat) (f : Wave → Wave) : (s.updWave k f).cur = s.cur := rfl
@[simp] theorem State.grant_updWave (s : State) (k : Nat) (f : Wave → Wave) : (s.updWave k f).grant = s.grant := rfl
@[simp] theorem State.rot_updWave (s : State) (k : Nat) (f : Wave → Wave) : (s.updWave k f).rot = s.rot := rfl
@[simp] theorem State.agenda_updWave (s : State) (k : Nat) (f : Wave → Wave) : (s.updWave k f).agenda = s.agenda := rfl
@[simp] theorem State.turn_updWave (s : State) (k : Nat) (f : Wave → Wave) : (s.updWave k f).turn = s.turn := rfl
@[simp] theorem State.spent_updWave (s : State) (k : Nat) (f : Wave → Wave) : (s.updWave k f).spent = s.spent := rfl
@[simp] theorem State.free_updWave (s : State) (k : Nat) (f : Wave → Wave) : (s.updWave k f).free = s.free := rfl
@[simp] theorem State.nextId_updWave (s : State) (k : Nat) (f : Wave → Wave) : (s.updWave k f).nextId = s.nextId := rfl
@[simp] theorem State.held_updWave (s : State) (k : Nat) (f : Wave → Wave) : (s.updWave k f).held = s.held := rfl
@[simp] theorem State.waves_updWave (s : State) (k : Nat) (f : Wave → Wave) : (s.updWave k f).waves = s.waves.upd k f := rfl
@[simp] theorem State.teams_updWave (s : State) (k : Nat) (f : Wave → Wave) : (s.updWave k f).teams = s.teams := rfl
@[simp] theorem State.launches_updWave (s : State) (k : Nat) (f : Wave → Wave) : (s.updWave k f).launches = s.launches := rfl
@[simp] theorem State.launchTags_updWave (s : State) (k : Nat) (f : Wave → Wave) : (s.updWave k f).launchTags = s.launchTags := rfl
@[simp] theorem State.contexts_updWave (s : State) (k : Nat) (f : Wave → Wave) : (s.updWave k f).contexts = s.contexts := rfl
@[simp] theorem State.ops_updWave (s : State) (k : Nat) (f : Wave → Wave) : (s.updWave k f).ops = s.ops := rfl
@[simp] theorem State.groups_updWave (s : State) (k : Nat) (f : Wave → Wave) : (s.updWave k f).groups = s.groups := rfl
@[simp] theorem State.regroup_updWave (s : State) (k : Nat) (f : Wave → Wave) : (s.updWave k f).regroup = s.regroup := rfl
@[simp] theorem State.closes_updWave (s : State) (k : Nat) (f : Wave → Wave) : (s.updWave k f).closes = s.closes := rfl
@[simp] theorem State.streams_updWave (s : State) (k : Nat) (f : Wave → Wave) : (s.updWave k f).streams = s.streams := rfl
@[simp] theorem State.dev_updWave (s : State) (k : Nat) (f : Wave → Wave) : (s.updWave k f).dev = s.dev := rfl
@[simp] theorem State.vault_updWave (s : State) (k : Nat) (f : Wave → Wave) : (s.updWave k f).vault = s.vault := rfl
@[simp] theorem State.host_updWave (s : State) (k : Nat) (f : Wave → Wave) : (s.updWave k f).host = s.host := rfl
@[simp] theorem State.poison_updWave (s : State) (k : Nat) (f : Wave → Wave) : (s.updWave k f).poison = s.poison := rfl
@[simp] theorem State.lineKeys_updWave (s : State) (k : Nat) (f : Wave → Wave) : (s.updWave k f).lineKeys = s.lineKeys := rfl
@[simp] theorem State.owners_updWave (s : State) (k : Nat) (f : Wave → Wave) : (s.updWave k f).owners = s.owners := rfl
@[simp] theorem State.cores_updWave (s : State) (k : Nat) (f : Wave → Wave) : (s.updWave k f).cores = s.cores := rfl
@[simp] theorem State.dies_updWave (s : State) (k : Nat) (f : Wave → Wave) : (s.updWave k f).dies = s.dies := rfl
@[simp] theorem State.oos_updWave (s : State) (k : Nat) (f : Wave → Wave) : (s.updWave k f).oos = s.oos := rfl
@[simp] theorem State.mccnt_updWave (s : State) (k : Nat) (f : Wave → Wave) : (s.updWave k f).mccnt = s.mccnt := rfl
@[simp] theorem State.pwr_updWave (s : State) (k : Nat) (f : Wave → Wave) : (s.updWave k f).pwr = s.pwr := rfl
@[simp] theorem State.tmax_updWave (s : State) (k : Nat) (f : Wave → Wave) : (s.updWave k f).tmax = s.tmax := rfl
@[simp] theorem State.level_updWave (s : State) (k : Nat) (f : Wave → Wave) : (s.updWave k f).level = s.level := rfl
@[simp] theorem State.plim_updWave (s : State) (k : Nat) (f : Wave → Wave) : (s.updWave k f).plim = s.plim := rfl
@[simp] theorem State.copyA_updWave (s : State) (k : Nat) (f : Wave → Wave) : (s.updWave k f).copyA = s.copyA := rfl
@[simp] theorem State.copyB_updWave (s : State) (k : Nat) (f : Wave → Wave) : (s.updWave k f).copyB = s.copyB := rfl
@[simp] theorem State.image_updWave (s : State) (k : Nat) (f : Wave → Wave) : (s.updWave k f).image = s.image := rfl
@[simp] theorem State.fwA_updWave (s : State) (k : Nat) (f : Wave → Wave) : (s.updWave k f).fwA = s.fwA := rfl
@[simp] theorem State.fwB_updWave (s : State) (k : Nat) (f : Wave → Wave) : (s.updWave k f).fwB = s.fwB := rfl
@[simp] theorem State.fwFused_updWave (s : State) (k : Nat) (f : Wave → Wave) : (s.updWave k f).fwFused = s.fwFused := rfl
@[simp] theorem State.bootFailed_updWave (s : State) (k : Nat) (f : Wave → Wave) : (s.updWave k f).bootFailed = s.bootFailed := rfl
@[simp] theorem State.spdm_updWave (s : State) (k : Nat) (f : Wave → Wave) : (s.updWave k f).spdm = s.spdm := rfl
@[simp] theorem State.hostReply_updWave (s : State) (k : Nat) (f : Wave → Wave) : (s.updWave k f).hostReply = s.hostReply := rfl
@[simp] theorem State.cal_updWave (s : State) (k : Nat) (f : Wave → Wave) : (s.updWave k f).cal = s.cal := rfl
@[simp] theorem State.ports_updWave (s : State) (k : Nat) (f : Wave → Wave) : (s.updWave k f).ports = s.ports := rfl
@[simp] theorem State.peers_updWave (s : State) (k : Nat) (f : Wave → Wave) : (s.updWave k f).peers = s.peers := rfl
@[simp] theorem State.inbound_updWave (s : State) (k : Nat) (f : Wave → Wave) : (s.updWave k f).inbound = s.inbound := rfl
@[simp] theorem State.sent_updWave (s : State) (k : Nat) (f : Wave → Wave) : (s.updWave k f).sent = s.sent := rfl
@[simp] theorem State.preambles_updWave (s : State) (k : Nat) (f : Wave → Wave) : (s.updWave k f).preambles = s.preambles := rfl
@[simp] theorem State.arrived_updWave (s : State) (k : Nat) (f : Wave → Wave) : (s.updWave k f).arrived = s.arrived := rfl

/-! ### updTeam -/

@[simp] theorem State.cycle_updTeam (s : State) (k : Nat) (f : Team → Team) : (s.updTeam k f).cycle = s.cycle := rfl
@[simp] theorem State.cur_updTeam (s : State) (k : Nat) (f : Team → Team) : (s.updTeam k f).cur = s.cur := rfl
@[simp] theorem State.grant_updTeam (s : State) (k : Nat) (f : Team → Team) : (s.updTeam k f).grant = s.grant := rfl
@[simp] theorem State.rot_updTeam (s : State) (k : Nat) (f : Team → Team) : (s.updTeam k f).rot = s.rot := rfl
@[simp] theorem State.agenda_updTeam (s : State) (k : Nat) (f : Team → Team) : (s.updTeam k f).agenda = s.agenda := rfl
@[simp] theorem State.turn_updTeam (s : State) (k : Nat) (f : Team → Team) : (s.updTeam k f).turn = s.turn := rfl
@[simp] theorem State.spent_updTeam (s : State) (k : Nat) (f : Team → Team) : (s.updTeam k f).spent = s.spent := rfl
@[simp] theorem State.free_updTeam (s : State) (k : Nat) (f : Team → Team) : (s.updTeam k f).free = s.free := rfl
@[simp] theorem State.nextId_updTeam (s : State) (k : Nat) (f : Team → Team) : (s.updTeam k f).nextId = s.nextId := rfl
@[simp] theorem State.held_updTeam (s : State) (k : Nat) (f : Team → Team) : (s.updTeam k f).held = s.held := rfl
@[simp] theorem State.waves_updTeam (s : State) (k : Nat) (f : Team → Team) : (s.updTeam k f).waves = s.waves := rfl
@[simp] theorem State.teams_updTeam (s : State) (k : Nat) (f : Team → Team) : (s.updTeam k f).teams = s.teams.upd k f := rfl
@[simp] theorem State.launches_updTeam (s : State) (k : Nat) (f : Team → Team) : (s.updTeam k f).launches = s.launches := rfl
@[simp] theorem State.launchTags_updTeam (s : State) (k : Nat) (f : Team → Team) : (s.updTeam k f).launchTags = s.launchTags := rfl
@[simp] theorem State.contexts_updTeam (s : State) (k : Nat) (f : Team → Team) : (s.updTeam k f).contexts = s.contexts := rfl
@[simp] theorem State.ops_updTeam (s : State) (k : Nat) (f : Team → Team) : (s.updTeam k f).ops = s.ops := rfl
@[simp] theorem State.groups_updTeam (s : State) (k : Nat) (f : Team → Team) : (s.updTeam k f).groups = s.groups := rfl
@[simp] theorem State.regroup_updTeam (s : State) (k : Nat) (f : Team → Team) : (s.updTeam k f).regroup = s.regroup := rfl
@[simp] theorem State.closes_updTeam (s : State) (k : Nat) (f : Team → Team) : (s.updTeam k f).closes = s.closes := rfl
@[simp] theorem State.streams_updTeam (s : State) (k : Nat) (f : Team → Team) : (s.updTeam k f).streams = s.streams := rfl
@[simp] theorem State.dev_updTeam (s : State) (k : Nat) (f : Team → Team) : (s.updTeam k f).dev = s.dev := rfl
@[simp] theorem State.vault_updTeam (s : State) (k : Nat) (f : Team → Team) : (s.updTeam k f).vault = s.vault := rfl
@[simp] theorem State.host_updTeam (s : State) (k : Nat) (f : Team → Team) : (s.updTeam k f).host = s.host := rfl
@[simp] theorem State.poison_updTeam (s : State) (k : Nat) (f : Team → Team) : (s.updTeam k f).poison = s.poison := rfl
@[simp] theorem State.lineKeys_updTeam (s : State) (k : Nat) (f : Team → Team) : (s.updTeam k f).lineKeys = s.lineKeys := rfl
@[simp] theorem State.owners_updTeam (s : State) (k : Nat) (f : Team → Team) : (s.updTeam k f).owners = s.owners := rfl
@[simp] theorem State.cores_updTeam (s : State) (k : Nat) (f : Team → Team) : (s.updTeam k f).cores = s.cores := rfl
@[simp] theorem State.dies_updTeam (s : State) (k : Nat) (f : Team → Team) : (s.updTeam k f).dies = s.dies := rfl
@[simp] theorem State.oos_updTeam (s : State) (k : Nat) (f : Team → Team) : (s.updTeam k f).oos = s.oos := rfl
@[simp] theorem State.mccnt_updTeam (s : State) (k : Nat) (f : Team → Team) : (s.updTeam k f).mccnt = s.mccnt := rfl
@[simp] theorem State.pwr_updTeam (s : State) (k : Nat) (f : Team → Team) : (s.updTeam k f).pwr = s.pwr := rfl
@[simp] theorem State.tmax_updTeam (s : State) (k : Nat) (f : Team → Team) : (s.updTeam k f).tmax = s.tmax := rfl
@[simp] theorem State.level_updTeam (s : State) (k : Nat) (f : Team → Team) : (s.updTeam k f).level = s.level := rfl
@[simp] theorem State.plim_updTeam (s : State) (k : Nat) (f : Team → Team) : (s.updTeam k f).plim = s.plim := rfl
@[simp] theorem State.copyA_updTeam (s : State) (k : Nat) (f : Team → Team) : (s.updTeam k f).copyA = s.copyA := rfl
@[simp] theorem State.copyB_updTeam (s : State) (k : Nat) (f : Team → Team) : (s.updTeam k f).copyB = s.copyB := rfl
@[simp] theorem State.image_updTeam (s : State) (k : Nat) (f : Team → Team) : (s.updTeam k f).image = s.image := rfl
@[simp] theorem State.fwA_updTeam (s : State) (k : Nat) (f : Team → Team) : (s.updTeam k f).fwA = s.fwA := rfl
@[simp] theorem State.fwB_updTeam (s : State) (k : Nat) (f : Team → Team) : (s.updTeam k f).fwB = s.fwB := rfl
@[simp] theorem State.fwFused_updTeam (s : State) (k : Nat) (f : Team → Team) : (s.updTeam k f).fwFused = s.fwFused := rfl
@[simp] theorem State.bootFailed_updTeam (s : State) (k : Nat) (f : Team → Team) : (s.updTeam k f).bootFailed = s.bootFailed := rfl
@[simp] theorem State.spdm_updTeam (s : State) (k : Nat) (f : Team → Team) : (s.updTeam k f).spdm = s.spdm := rfl
@[simp] theorem State.hostReply_updTeam (s : State) (k : Nat) (f : Team → Team) : (s.updTeam k f).hostReply = s.hostReply := rfl
@[simp] theorem State.cal_updTeam (s : State) (k : Nat) (f : Team → Team) : (s.updTeam k f).cal = s.cal := rfl
@[simp] theorem State.ports_updTeam (s : State) (k : Nat) (f : Team → Team) : (s.updTeam k f).ports = s.ports := rfl
@[simp] theorem State.peers_updTeam (s : State) (k : Nat) (f : Team → Team) : (s.updTeam k f).peers = s.peers := rfl
@[simp] theorem State.inbound_updTeam (s : State) (k : Nat) (f : Team → Team) : (s.updTeam k f).inbound = s.inbound := rfl
@[simp] theorem State.sent_updTeam (s : State) (k : Nat) (f : Team → Team) : (s.updTeam k f).sent = s.sent := rfl
@[simp] theorem State.preambles_updTeam (s : State) (k : Nat) (f : Team → Team) : (s.updTeam k f).preambles = s.preambles := rfl
@[simp] theorem State.arrived_updTeam (s : State) (k : Nat) (f : Team → Team) : (s.updTeam k f).arrived = s.arrived := rfl

/-! ### updLaunch -/

@[simp] theorem State.cycle_updLaunch (s : State) (k : Nat) (f : Launch → Launch) : (s.updLaunch k f).cycle = s.cycle := rfl
@[simp] theorem State.cur_updLaunch (s : State) (k : Nat) (f : Launch → Launch) : (s.updLaunch k f).cur = s.cur := rfl
@[simp] theorem State.grant_updLaunch (s : State) (k : Nat) (f : Launch → Launch) : (s.updLaunch k f).grant = s.grant := rfl
@[simp] theorem State.rot_updLaunch (s : State) (k : Nat) (f : Launch → Launch) : (s.updLaunch k f).rot = s.rot := rfl
@[simp] theorem State.agenda_updLaunch (s : State) (k : Nat) (f : Launch → Launch) : (s.updLaunch k f).agenda = s.agenda := rfl
@[simp] theorem State.turn_updLaunch (s : State) (k : Nat) (f : Launch → Launch) : (s.updLaunch k f).turn = s.turn := rfl
@[simp] theorem State.spent_updLaunch (s : State) (k : Nat) (f : Launch → Launch) : (s.updLaunch k f).spent = s.spent := rfl
@[simp] theorem State.free_updLaunch (s : State) (k : Nat) (f : Launch → Launch) : (s.updLaunch k f).free = s.free := rfl
@[simp] theorem State.nextId_updLaunch (s : State) (k : Nat) (f : Launch → Launch) : (s.updLaunch k f).nextId = s.nextId := rfl
@[simp] theorem State.held_updLaunch (s : State) (k : Nat) (f : Launch → Launch) : (s.updLaunch k f).held = s.held := rfl
@[simp] theorem State.waves_updLaunch (s : State) (k : Nat) (f : Launch → Launch) : (s.updLaunch k f).waves = s.waves := rfl
@[simp] theorem State.teams_updLaunch (s : State) (k : Nat) (f : Launch → Launch) : (s.updLaunch k f).teams = s.teams := rfl
@[simp] theorem State.launches_updLaunch (s : State) (k : Nat) (f : Launch → Launch) : (s.updLaunch k f).launches = s.launches.upd k f := rfl
@[simp] theorem State.launchTags_updLaunch (s : State) (k : Nat) (f : Launch → Launch) : (s.updLaunch k f).launchTags = s.launchTags := rfl
@[simp] theorem State.contexts_updLaunch (s : State) (k : Nat) (f : Launch → Launch) : (s.updLaunch k f).contexts = s.contexts := rfl
@[simp] theorem State.ops_updLaunch (s : State) (k : Nat) (f : Launch → Launch) : (s.updLaunch k f).ops = s.ops := rfl
@[simp] theorem State.groups_updLaunch (s : State) (k : Nat) (f : Launch → Launch) : (s.updLaunch k f).groups = s.groups := rfl
@[simp] theorem State.regroup_updLaunch (s : State) (k : Nat) (f : Launch → Launch) : (s.updLaunch k f).regroup = s.regroup := rfl
@[simp] theorem State.closes_updLaunch (s : State) (k : Nat) (f : Launch → Launch) : (s.updLaunch k f).closes = s.closes := rfl
@[simp] theorem State.streams_updLaunch (s : State) (k : Nat) (f : Launch → Launch) : (s.updLaunch k f).streams = s.streams := rfl
@[simp] theorem State.dev_updLaunch (s : State) (k : Nat) (f : Launch → Launch) : (s.updLaunch k f).dev = s.dev := rfl
@[simp] theorem State.vault_updLaunch (s : State) (k : Nat) (f : Launch → Launch) : (s.updLaunch k f).vault = s.vault := rfl
@[simp] theorem State.host_updLaunch (s : State) (k : Nat) (f : Launch → Launch) : (s.updLaunch k f).host = s.host := rfl
@[simp] theorem State.poison_updLaunch (s : State) (k : Nat) (f : Launch → Launch) : (s.updLaunch k f).poison = s.poison := rfl
@[simp] theorem State.lineKeys_updLaunch (s : State) (k : Nat) (f : Launch → Launch) : (s.updLaunch k f).lineKeys = s.lineKeys := rfl
@[simp] theorem State.owners_updLaunch (s : State) (k : Nat) (f : Launch → Launch) : (s.updLaunch k f).owners = s.owners := rfl
@[simp] theorem State.cores_updLaunch (s : State) (k : Nat) (f : Launch → Launch) : (s.updLaunch k f).cores = s.cores := rfl
@[simp] theorem State.dies_updLaunch (s : State) (k : Nat) (f : Launch → Launch) : (s.updLaunch k f).dies = s.dies := rfl
@[simp] theorem State.oos_updLaunch (s : State) (k : Nat) (f : Launch → Launch) : (s.updLaunch k f).oos = s.oos := rfl
@[simp] theorem State.mccnt_updLaunch (s : State) (k : Nat) (f : Launch → Launch) : (s.updLaunch k f).mccnt = s.mccnt := rfl
@[simp] theorem State.pwr_updLaunch (s : State) (k : Nat) (f : Launch → Launch) : (s.updLaunch k f).pwr = s.pwr := rfl
@[simp] theorem State.tmax_updLaunch (s : State) (k : Nat) (f : Launch → Launch) : (s.updLaunch k f).tmax = s.tmax := rfl
@[simp] theorem State.level_updLaunch (s : State) (k : Nat) (f : Launch → Launch) : (s.updLaunch k f).level = s.level := rfl
@[simp] theorem State.plim_updLaunch (s : State) (k : Nat) (f : Launch → Launch) : (s.updLaunch k f).plim = s.plim := rfl
@[simp] theorem State.copyA_updLaunch (s : State) (k : Nat) (f : Launch → Launch) : (s.updLaunch k f).copyA = s.copyA := rfl
@[simp] theorem State.copyB_updLaunch (s : State) (k : Nat) (f : Launch → Launch) : (s.updLaunch k f).copyB = s.copyB := rfl
@[simp] theorem State.image_updLaunch (s : State) (k : Nat) (f : Launch → Launch) : (s.updLaunch k f).image = s.image := rfl
@[simp] theorem State.fwA_updLaunch (s : State) (k : Nat) (f : Launch → Launch) : (s.updLaunch k f).fwA = s.fwA := rfl
@[simp] theorem State.fwB_updLaunch (s : State) (k : Nat) (f : Launch → Launch) : (s.updLaunch k f).fwB = s.fwB := rfl
@[simp] theorem State.fwFused_updLaunch (s : State) (k : Nat) (f : Launch → Launch) : (s.updLaunch k f).fwFused = s.fwFused := rfl
@[simp] theorem State.bootFailed_updLaunch (s : State) (k : Nat) (f : Launch → Launch) : (s.updLaunch k f).bootFailed = s.bootFailed := rfl
@[simp] theorem State.spdm_updLaunch (s : State) (k : Nat) (f : Launch → Launch) : (s.updLaunch k f).spdm = s.spdm := rfl
@[simp] theorem State.hostReply_updLaunch (s : State) (k : Nat) (f : Launch → Launch) : (s.updLaunch k f).hostReply = s.hostReply := rfl
@[simp] theorem State.cal_updLaunch (s : State) (k : Nat) (f : Launch → Launch) : (s.updLaunch k f).cal = s.cal := rfl
@[simp] theorem State.ports_updLaunch (s : State) (k : Nat) (f : Launch → Launch) : (s.updLaunch k f).ports = s.ports := rfl
@[simp] theorem State.peers_updLaunch (s : State) (k : Nat) (f : Launch → Launch) : (s.updLaunch k f).peers = s.peers := rfl
@[simp] theorem State.inbound_updLaunch (s : State) (k : Nat) (f : Launch → Launch) : (s.updLaunch k f).inbound = s.inbound := rfl
@[simp] theorem State.sent_updLaunch (s : State) (k : Nat) (f : Launch → Launch) : (s.updLaunch k f).sent = s.sent := rfl
@[simp] theorem State.preambles_updLaunch (s : State) (k : Nat) (f : Launch → Launch) : (s.updLaunch k f).preambles = s.preambles := rfl
@[simp] theorem State.arrived_updLaunch (s : State) (k : Nat) (f : Launch → Launch) : (s.updLaunch k f).arrived = s.arrived := rfl

/-! ### updCtx -/

@[simp] theorem State.cycle_updCtx (s : State) (k : Nat) (f : Context → Context) : (s.updCtx k f).cycle = s.cycle := rfl
@[simp] theorem State.cur_updCtx (s : State) (k : Nat) (f : Context → Context) : (s.updCtx k f).cur = s.cur := rfl
@[simp] theorem State.grant_updCtx (s : State) (k : Nat) (f : Context → Context) : (s.updCtx k f).grant = s.grant := rfl
@[simp] theorem State.rot_updCtx (s : State) (k : Nat) (f : Context → Context) : (s.updCtx k f).rot = s.rot := rfl
@[simp] theorem State.agenda_updCtx (s : State) (k : Nat) (f : Context → Context) : (s.updCtx k f).agenda = s.agenda := rfl
@[simp] theorem State.turn_updCtx (s : State) (k : Nat) (f : Context → Context) : (s.updCtx k f).turn = s.turn := rfl
@[simp] theorem State.spent_updCtx (s : State) (k : Nat) (f : Context → Context) : (s.updCtx k f).spent = s.spent := rfl
@[simp] theorem State.free_updCtx (s : State) (k : Nat) (f : Context → Context) : (s.updCtx k f).free = s.free := rfl
@[simp] theorem State.nextId_updCtx (s : State) (k : Nat) (f : Context → Context) : (s.updCtx k f).nextId = s.nextId := rfl
@[simp] theorem State.held_updCtx (s : State) (k : Nat) (f : Context → Context) : (s.updCtx k f).held = s.held := rfl
@[simp] theorem State.waves_updCtx (s : State) (k : Nat) (f : Context → Context) : (s.updCtx k f).waves = s.waves := rfl
@[simp] theorem State.teams_updCtx (s : State) (k : Nat) (f : Context → Context) : (s.updCtx k f).teams = s.teams := rfl
@[simp] theorem State.launches_updCtx (s : State) (k : Nat) (f : Context → Context) : (s.updCtx k f).launches = s.launches := rfl
@[simp] theorem State.launchTags_updCtx (s : State) (k : Nat) (f : Context → Context) : (s.updCtx k f).launchTags = s.launchTags := rfl
@[simp] theorem State.contexts_updCtx (s : State) (k : Nat) (f : Context → Context) : (s.updCtx k f).contexts = s.contexts.upd k f := rfl
@[simp] theorem State.ops_updCtx (s : State) (k : Nat) (f : Context → Context) : (s.updCtx k f).ops = s.ops := rfl
@[simp] theorem State.groups_updCtx (s : State) (k : Nat) (f : Context → Context) : (s.updCtx k f).groups = s.groups := rfl
@[simp] theorem State.regroup_updCtx (s : State) (k : Nat) (f : Context → Context) : (s.updCtx k f).regroup = s.regroup := rfl
@[simp] theorem State.closes_updCtx (s : State) (k : Nat) (f : Context → Context) : (s.updCtx k f).closes = s.closes := rfl
@[simp] theorem State.streams_updCtx (s : State) (k : Nat) (f : Context → Context) : (s.updCtx k f).streams = s.streams := rfl
@[simp] theorem State.dev_updCtx (s : State) (k : Nat) (f : Context → Context) : (s.updCtx k f).dev = s.dev := rfl
@[simp] theorem State.vault_updCtx (s : State) (k : Nat) (f : Context → Context) : (s.updCtx k f).vault = s.vault := rfl
@[simp] theorem State.host_updCtx (s : State) (k : Nat) (f : Context → Context) : (s.updCtx k f).host = s.host := rfl
@[simp] theorem State.poison_updCtx (s : State) (k : Nat) (f : Context → Context) : (s.updCtx k f).poison = s.poison := rfl
@[simp] theorem State.lineKeys_updCtx (s : State) (k : Nat) (f : Context → Context) : (s.updCtx k f).lineKeys = s.lineKeys := rfl
@[simp] theorem State.owners_updCtx (s : State) (k : Nat) (f : Context → Context) : (s.updCtx k f).owners = s.owners := rfl
@[simp] theorem State.cores_updCtx (s : State) (k : Nat) (f : Context → Context) : (s.updCtx k f).cores = s.cores := rfl
@[simp] theorem State.dies_updCtx (s : State) (k : Nat) (f : Context → Context) : (s.updCtx k f).dies = s.dies := rfl
@[simp] theorem State.oos_updCtx (s : State) (k : Nat) (f : Context → Context) : (s.updCtx k f).oos = s.oos := rfl
@[simp] theorem State.mccnt_updCtx (s : State) (k : Nat) (f : Context → Context) : (s.updCtx k f).mccnt = s.mccnt := rfl
@[simp] theorem State.pwr_updCtx (s : State) (k : Nat) (f : Context → Context) : (s.updCtx k f).pwr = s.pwr := rfl
@[simp] theorem State.tmax_updCtx (s : State) (k : Nat) (f : Context → Context) : (s.updCtx k f).tmax = s.tmax := rfl
@[simp] theorem State.level_updCtx (s : State) (k : Nat) (f : Context → Context) : (s.updCtx k f).level = s.level := rfl
@[simp] theorem State.plim_updCtx (s : State) (k : Nat) (f : Context → Context) : (s.updCtx k f).plim = s.plim := rfl
@[simp] theorem State.copyA_updCtx (s : State) (k : Nat) (f : Context → Context) : (s.updCtx k f).copyA = s.copyA := rfl
@[simp] theorem State.copyB_updCtx (s : State) (k : Nat) (f : Context → Context) : (s.updCtx k f).copyB = s.copyB := rfl
@[simp] theorem State.image_updCtx (s : State) (k : Nat) (f : Context → Context) : (s.updCtx k f).image = s.image := rfl
@[simp] theorem State.fwA_updCtx (s : State) (k : Nat) (f : Context → Context) : (s.updCtx k f).fwA = s.fwA := rfl
@[simp] theorem State.fwB_updCtx (s : State) (k : Nat) (f : Context → Context) : (s.updCtx k f).fwB = s.fwB := rfl
@[simp] theorem State.fwFused_updCtx (s : State) (k : Nat) (f : Context → Context) : (s.updCtx k f).fwFused = s.fwFused := rfl
@[simp] theorem State.bootFailed_updCtx (s : State) (k : Nat) (f : Context → Context) : (s.updCtx k f).bootFailed = s.bootFailed := rfl
@[simp] theorem State.spdm_updCtx (s : State) (k : Nat) (f : Context → Context) : (s.updCtx k f).spdm = s.spdm := rfl
@[simp] theorem State.hostReply_updCtx (s : State) (k : Nat) (f : Context → Context) : (s.updCtx k f).hostReply = s.hostReply := rfl
@[simp] theorem State.cal_updCtx (s : State) (k : Nat) (f : Context → Context) : (s.updCtx k f).cal = s.cal := rfl
@[simp] theorem State.ports_updCtx (s : State) (k : Nat) (f : Context → Context) : (s.updCtx k f).ports = s.ports := rfl
@[simp] theorem State.peers_updCtx (s : State) (k : Nat) (f : Context → Context) : (s.updCtx k f).peers = s.peers := rfl
@[simp] theorem State.inbound_updCtx (s : State) (k : Nat) (f : Context → Context) : (s.updCtx k f).inbound = s.inbound := rfl
@[simp] theorem State.sent_updCtx (s : State) (k : Nat) (f : Context → Context) : (s.updCtx k f).sent = s.sent := rfl
@[simp] theorem State.preambles_updCtx (s : State) (k : Nat) (f : Context → Context) : (s.updCtx k f).preambles = s.preambles := rfl
@[simp] theorem State.arrived_updCtx (s : State) (k : Nat) (f : Context → Context) : (s.updCtx k f).arrived = s.arrived := rfl

/-! ### updCore -/

@[simp] theorem State.cycle_updCore (s : State) (k : Nat) (f : Core → Core) : (s.updCore k f).cycle = s.cycle := rfl
@[simp] theorem State.cur_updCore (s : State) (k : Nat) (f : Core → Core) : (s.updCore k f).cur = s.cur := rfl
@[simp] theorem State.grant_updCore (s : State) (k : Nat) (f : Core → Core) : (s.updCore k f).grant = s.grant := rfl
@[simp] theorem State.rot_updCore (s : State) (k : Nat) (f : Core → Core) : (s.updCore k f).rot = s.rot := rfl
@[simp] theorem State.agenda_updCore (s : State) (k : Nat) (f : Core → Core) : (s.updCore k f).agenda = s.agenda := rfl
@[simp] theorem State.turn_updCore (s : State) (k : Nat) (f : Core → Core) : (s.updCore k f).turn = s.turn := rfl
@[simp] theorem State.spent_updCore (s : State) (k : Nat) (f : Core → Core) : (s.updCore k f).spent = s.spent := rfl
@[simp] theorem State.free_updCore (s : State) (k : Nat) (f : Core → Core) : (s.updCore k f).free = s.free := rfl
@[simp] theorem State.nextId_updCore (s : State) (k : Nat) (f : Core → Core) : (s.updCore k f).nextId = s.nextId := rfl
@[simp] theorem State.held_updCore (s : State) (k : Nat) (f : Core → Core) : (s.updCore k f).held = s.held := rfl
@[simp] theorem State.waves_updCore (s : State) (k : Nat) (f : Core → Core) : (s.updCore k f).waves = s.waves := rfl
@[simp] theorem State.teams_updCore (s : State) (k : Nat) (f : Core → Core) : (s.updCore k f).teams = s.teams := rfl
@[simp] theorem State.launches_updCore (s : State) (k : Nat) (f : Core → Core) : (s.updCore k f).launches = s.launches := rfl
@[simp] theorem State.launchTags_updCore (s : State) (k : Nat) (f : Core → Core) : (s.updCore k f).launchTags = s.launchTags := rfl
@[simp] theorem State.contexts_updCore (s : State) (k : Nat) (f : Core → Core) : (s.updCore k f).contexts = s.contexts := rfl
@[simp] theorem State.ops_updCore (s : State) (k : Nat) (f : Core → Core) : (s.updCore k f).ops = s.ops := rfl
@[simp] theorem State.groups_updCore (s : State) (k : Nat) (f : Core → Core) : (s.updCore k f).groups = s.groups := rfl
@[simp] theorem State.regroup_updCore (s : State) (k : Nat) (f : Core → Core) : (s.updCore k f).regroup = s.regroup := rfl
@[simp] theorem State.closes_updCore (s : State) (k : Nat) (f : Core → Core) : (s.updCore k f).closes = s.closes := rfl
@[simp] theorem State.streams_updCore (s : State) (k : Nat) (f : Core → Core) : (s.updCore k f).streams = s.streams := rfl
@[simp] theorem State.dev_updCore (s : State) (k : Nat) (f : Core → Core) : (s.updCore k f).dev = s.dev := rfl
@[simp] theorem State.vault_updCore (s : State) (k : Nat) (f : Core → Core) : (s.updCore k f).vault = s.vault := rfl
@[simp] theorem State.host_updCore (s : State) (k : Nat) (f : Core → Core) : (s.updCore k f).host = s.host := rfl
@[simp] theorem State.poison_updCore (s : State) (k : Nat) (f : Core → Core) : (s.updCore k f).poison = s.poison := rfl
@[simp] theorem State.lineKeys_updCore (s : State) (k : Nat) (f : Core → Core) : (s.updCore k f).lineKeys = s.lineKeys := rfl
@[simp] theorem State.owners_updCore (s : State) (k : Nat) (f : Core → Core) : (s.updCore k f).owners = s.owners := rfl
@[simp] theorem State.cores_updCore (s : State) (k : Nat) (f : Core → Core) : (s.updCore k f).cores = s.cores.put k (f (s.core k)) := rfl
@[simp] theorem State.dies_updCore (s : State) (k : Nat) (f : Core → Core) : (s.updCore k f).dies = s.dies := rfl
@[simp] theorem State.oos_updCore (s : State) (k : Nat) (f : Core → Core) : (s.updCore k f).oos = s.oos := rfl
@[simp] theorem State.mccnt_updCore (s : State) (k : Nat) (f : Core → Core) : (s.updCore k f).mccnt = s.mccnt := rfl
@[simp] theorem State.pwr_updCore (s : State) (k : Nat) (f : Core → Core) : (s.updCore k f).pwr = s.pwr := rfl
@[simp] theorem State.tmax_updCore (s : State) (k : Nat) (f : Core → Core) : (s.updCore k f).tmax = s.tmax := rfl
@[simp] theorem State.level_updCore (s : State) (k : Nat) (f : Core → Core) : (s.updCore k f).level = s.level := rfl
@[simp] theorem State.plim_updCore (s : State) (k : Nat) (f : Core → Core) : (s.updCore k f).plim = s.plim := rfl
@[simp] theorem State.copyA_updCore (s : State) (k : Nat) (f : Core → Core) : (s.updCore k f).copyA = s.copyA := rfl
@[simp] theorem State.copyB_updCore (s : State) (k : Nat) (f : Core → Core) : (s.updCore k f).copyB = s.copyB := rfl
@[simp] theorem State.image_updCore (s : State) (k : Nat) (f : Core → Core) : (s.updCore k f).image = s.image := rfl
@[simp] theorem State.fwA_updCore (s : State) (k : Nat) (f : Core → Core) : (s.updCore k f).fwA = s.fwA := rfl
@[simp] theorem State.fwB_updCore (s : State) (k : Nat) (f : Core → Core) : (s.updCore k f).fwB = s.fwB := rfl
@[simp] theorem State.fwFused_updCore (s : State) (k : Nat) (f : Core → Core) : (s.updCore k f).fwFused = s.fwFused := rfl
@[simp] theorem State.bootFailed_updCore (s : State) (k : Nat) (f : Core → Core) : (s.updCore k f).bootFailed = s.bootFailed := rfl
@[simp] theorem State.spdm_updCore (s : State) (k : Nat) (f : Core → Core) : (s.updCore k f).spdm = s.spdm := rfl
@[simp] theorem State.hostReply_updCore (s : State) (k : Nat) (f : Core → Core) : (s.updCore k f).hostReply = s.hostReply := rfl
@[simp] theorem State.cal_updCore (s : State) (k : Nat) (f : Core → Core) : (s.updCore k f).cal = s.cal := rfl
@[simp] theorem State.ports_updCore (s : State) (k : Nat) (f : Core → Core) : (s.updCore k f).ports = s.ports := rfl
@[simp] theorem State.peers_updCore (s : State) (k : Nat) (f : Core → Core) : (s.updCore k f).peers = s.peers := rfl
@[simp] theorem State.inbound_updCore (s : State) (k : Nat) (f : Core → Core) : (s.updCore k f).inbound = s.inbound := rfl
@[simp] theorem State.sent_updCore (s : State) (k : Nat) (f : Core → Core) : (s.updCore k f).sent = s.sent := rfl
@[simp] theorem State.preambles_updCore (s : State) (k : Nat) (f : Core → Core) : (s.updCore k f).preambles = s.preambles := rfl
@[simp] theorem State.arrived_updCore (s : State) (k : Nat) (f : Core → Core) : (s.updCore k f).arrived = s.arrived := rfl

/-! ### updDie -/

@[simp] theorem State.cycle_updDie (s : State) (k : Nat) (f : Die → Die) : (s.updDie k f).cycle = s.cycle := rfl
@[simp] theorem State.cur_updDie (s : State) (k : Nat) (f : Die → Die) : (s.updDie k f).cur = s.cur := rfl
@[simp] theorem State.grant_updDie (s : State) (k : Nat) (f : Die → Die) : (s.updDie k f).grant = s.grant := rfl
@[simp] theorem State.rot_updDie (s : State) (k : Nat) (f : Die → Die) : (s.updDie k f).rot = s.rot := rfl
@[simp] theorem State.agenda_updDie (s : State) (k : Nat) (f : Die → Die) : (s.updDie k f).agenda = s.agenda := rfl
@[simp] theorem State.turn_updDie (s : State) (k : Nat) (f : Die → Die) : (s.updDie k f).turn = s.turn := rfl
@[simp] theorem State.spent_updDie (s : State) (k : Nat) (f : Die → Die) : (s.updDie k f).spent = s.spent := rfl
@[simp] theorem State.free_updDie (s : State) (k : Nat) (f : Die → Die) : (s.updDie k f).free = s.free := rfl
@[simp] theorem State.nextId_updDie (s : State) (k : Nat) (f : Die → Die) : (s.updDie k f).nextId = s.nextId := rfl
@[simp] theorem State.held_updDie (s : State) (k : Nat) (f : Die → Die) : (s.updDie k f).held = s.held := rfl
@[simp] theorem State.waves_updDie (s : State) (k : Nat) (f : Die → Die) : (s.updDie k f).waves = s.waves := rfl
@[simp] theorem State.teams_updDie (s : State) (k : Nat) (f : Die → Die) : (s.updDie k f).teams = s.teams := rfl
@[simp] theorem State.launches_updDie (s : State) (k : Nat) (f : Die → Die) : (s.updDie k f).launches = s.launches := rfl
@[simp] theorem State.launchTags_updDie (s : State) (k : Nat) (f : Die → Die) : (s.updDie k f).launchTags = s.launchTags := rfl
@[simp] theorem State.contexts_updDie (s : State) (k : Nat) (f : Die → Die) : (s.updDie k f).contexts = s.contexts := rfl
@[simp] theorem State.ops_updDie (s : State) (k : Nat) (f : Die → Die) : (s.updDie k f).ops = s.ops := rfl
@[simp] theorem State.groups_updDie (s : State) (k : Nat) (f : Die → Die) : (s.updDie k f).groups = s.groups := rfl
@[simp] theorem State.regroup_updDie (s : State) (k : Nat) (f : Die → Die) : (s.updDie k f).regroup = s.regroup := rfl
@[simp] theorem State.closes_updDie (s : State) (k : Nat) (f : Die → Die) : (s.updDie k f).closes = s.closes := rfl
@[simp] theorem State.streams_updDie (s : State) (k : Nat) (f : Die → Die) : (s.updDie k f).streams = s.streams := rfl
@[simp] theorem State.dev_updDie (s : State) (k : Nat) (f : Die → Die) : (s.updDie k f).dev = s.dev := rfl
@[simp] theorem State.vault_updDie (s : State) (k : Nat) (f : Die → Die) : (s.updDie k f).vault = s.vault := rfl
@[simp] theorem State.host_updDie (s : State) (k : Nat) (f : Die → Die) : (s.updDie k f).host = s.host := rfl
@[simp] theorem State.poison_updDie (s : State) (k : Nat) (f : Die → Die) : (s.updDie k f).poison = s.poison := rfl
@[simp] theorem State.lineKeys_updDie (s : State) (k : Nat) (f : Die → Die) : (s.updDie k f).lineKeys = s.lineKeys := rfl
@[simp] theorem State.owners_updDie (s : State) (k : Nat) (f : Die → Die) : (s.updDie k f).owners = s.owners := rfl
@[simp] theorem State.cores_updDie (s : State) (k : Nat) (f : Die → Die) : (s.updDie k f).cores = s.cores := rfl
@[simp] theorem State.dies_updDie (s : State) (k : Nat) (f : Die → Die) : (s.updDie k f).dies = s.dies.put k (f (s.die k)) := rfl
@[simp] theorem State.oos_updDie (s : State) (k : Nat) (f : Die → Die) : (s.updDie k f).oos = s.oos := rfl
@[simp] theorem State.mccnt_updDie (s : State) (k : Nat) (f : Die → Die) : (s.updDie k f).mccnt = s.mccnt := rfl
@[simp] theorem State.pwr_updDie (s : State) (k : Nat) (f : Die → Die) : (s.updDie k f).pwr = s.pwr := rfl
@[simp] theorem State.tmax_updDie (s : State) (k : Nat) (f : Die → Die) : (s.updDie k f).tmax = s.tmax := rfl
@[simp] theorem State.level_updDie (s : State) (k : Nat) (f : Die → Die) : (s.updDie k f).level = s.level := rfl
@[simp] theorem State.plim_updDie (s : State) (k : Nat) (f : Die → Die) : (s.updDie k f).plim = s.plim := rfl
@[simp] theorem State.copyA_updDie (s : State) (k : Nat) (f : Die → Die) : (s.updDie k f).copyA = s.copyA := rfl
@[simp] theorem State.copyB_updDie (s : State) (k : Nat) (f : Die → Die) : (s.updDie k f).copyB = s.copyB := rfl
@[simp] theorem State.image_updDie (s : State) (k : Nat) (f : Die → Die) : (s.updDie k f).image = s.image := rfl
@[simp] theorem State.fwA_updDie (s : State) (k : Nat) (f : Die → Die) : (s.updDie k f).fwA = s.fwA := rfl
@[simp] theorem State.fwB_updDie (s : State) (k : Nat) (f : Die → Die) : (s.updDie k f).fwB = s.fwB := rfl
@[simp] theorem State.fwFused_updDie (s : State) (k : Nat) (f : Die → Die) : (s.updDie k f).fwFused = s.fwFused := rfl
@[simp] theorem State.bootFailed_updDie (s : State) (k : Nat) (f : Die → Die) : (s.updDie k f).bootFailed = s.bootFailed := rfl
@[simp] theorem State.spdm_updDie (s : State) (k : Nat) (f : Die → Die) : (s.updDie k f).spdm = s.spdm := rfl
@[simp] theorem State.hostReply_updDie (s : State) (k : Nat) (f : Die → Die) : (s.updDie k f).hostReply = s.hostReply := rfl
@[simp] theorem State.cal_updDie (s : State) (k : Nat) (f : Die → Die) : (s.updDie k f).cal = s.cal := rfl
@[simp] theorem State.ports_updDie (s : State) (k : Nat) (f : Die → Die) : (s.updDie k f).ports = s.ports := rfl
@[simp] theorem State.peers_updDie (s : State) (k : Nat) (f : Die → Die) : (s.updDie k f).peers = s.peers := rfl
@[simp] theorem State.inbound_updDie (s : State) (k : Nat) (f : Die → Die) : (s.updDie k f).inbound = s.inbound := rfl
@[simp] theorem State.sent_updDie (s : State) (k : Nat) (f : Die → Die) : (s.updDie k f).sent = s.sent := rfl
@[simp] theorem State.preambles_updDie (s : State) (k : Nat) (f : Die → Die) : (s.updDie k f).preambles = s.preambles := rfl
@[simp] theorem State.arrived_updDie (s : State) (k : Nat) (f : Die → Die) : (s.updDie k f).arrived = s.arrived := rfl

/-! ### updOp -/

@[simp] theorem State.cycle_updOp (s : State) (k : Nat) (f : Op → Op) : (s.updOp k f).cycle = s.cycle := rfl
@[simp] theorem State.cur_updOp (s : State) (k : Nat) (f : Op → Op) : (s.updOp k f).cur = s.cur := rfl
@[simp] theorem State.grant_updOp (s : State) (k : Nat) (f : Op → Op) : (s.updOp k f).grant = s.grant := rfl
@[simp] theorem State.rot_updOp (s : State) (k : Nat) (f : Op → Op) : (s.updOp k f).rot = s.rot := rfl
@[simp] theorem State.agenda_updOp (s : State) (k : Nat) (f : Op → Op) : (s.updOp k f).agenda = s.agenda := rfl
@[simp] theorem State.turn_updOp (s : State) (k : Nat) (f : Op → Op) : (s.updOp k f).turn = s.turn := rfl
@[simp] theorem State.spent_updOp (s : State) (k : Nat) (f : Op → Op) : (s.updOp k f).spent = s.spent := rfl
@[simp] theorem State.free_updOp (s : State) (k : Nat) (f : Op → Op) : (s.updOp k f).free = s.free := rfl
@[simp] theorem State.nextId_updOp (s : State) (k : Nat) (f : Op → Op) : (s.updOp k f).nextId = s.nextId := rfl
@[simp] theorem State.held_updOp (s : State) (k : Nat) (f : Op → Op) : (s.updOp k f).held = s.held := rfl
@[simp] theorem State.waves_updOp (s : State) (k : Nat) (f : Op → Op) : (s.updOp k f).waves = s.waves := rfl
@[simp] theorem State.teams_updOp (s : State) (k : Nat) (f : Op → Op) : (s.updOp k f).teams = s.teams := rfl
@[simp] theorem State.launches_updOp (s : State) (k : Nat) (f : Op → Op) : (s.updOp k f).launches = s.launches := rfl
@[simp] theorem State.launchTags_updOp (s : State) (k : Nat) (f : Op → Op) : (s.updOp k f).launchTags = s.launchTags := rfl
@[simp] theorem State.contexts_updOp (s : State) (k : Nat) (f : Op → Op) : (s.updOp k f).contexts = s.contexts := rfl
@[simp] theorem State.ops_updOp (s : State) (k : Nat) (f : Op → Op) : (s.updOp k f).ops = s.ops.upd k f := rfl
@[simp] theorem State.groups_updOp (s : State) (k : Nat) (f : Op → Op) : (s.updOp k f).groups = s.groups := rfl
@[simp] theorem State.regroup_updOp (s : State) (k : Nat) (f : Op → Op) : (s.updOp k f).regroup = s.regroup := rfl
@[simp] theorem State.closes_updOp (s : State) (k : Nat) (f : Op → Op) : (s.updOp k f).closes = s.closes := rfl
@[simp] theorem State.streams_updOp (s : State) (k : Nat) (f : Op → Op) : (s.updOp k f).streams = s.streams := rfl
@[simp] theorem State.dev_updOp (s : State) (k : Nat) (f : Op → Op) : (s.updOp k f).dev = s.dev := rfl
@[simp] theorem State.vault_updOp (s : State) (k : Nat) (f : Op → Op) : (s.updOp k f).vault = s.vault := rfl
@[simp] theorem State.host_updOp (s : State) (k : Nat) (f : Op → Op) : (s.updOp k f).host = s.host := rfl
@[simp] theorem State.poison_updOp (s : State) (k : Nat) (f : Op → Op) : (s.updOp k f).poison = s.poison := rfl
@[simp] theorem State.lineKeys_updOp (s : State) (k : Nat) (f : Op → Op) : (s.updOp k f).lineKeys = s.lineKeys := rfl
@[simp] theorem State.owners_updOp (s : State) (k : Nat) (f : Op → Op) : (s.updOp k f).owners = s.owners := rfl
@[simp] theorem State.cores_updOp (s : State) (k : Nat) (f : Op → Op) : (s.updOp k f).cores = s.cores := rfl
@[simp] theorem State.dies_updOp (s : State) (k : Nat) (f : Op → Op) : (s.updOp k f).dies = s.dies := rfl
@[simp] theorem State.oos_updOp (s : State) (k : Nat) (f : Op → Op) : (s.updOp k f).oos = s.oos := rfl
@[simp] theorem State.mccnt_updOp (s : State) (k : Nat) (f : Op → Op) : (s.updOp k f).mccnt = s.mccnt := rfl
@[simp] theorem State.pwr_updOp (s : State) (k : Nat) (f : Op → Op) : (s.updOp k f).pwr = s.pwr := rfl
@[simp] theorem State.tmax_updOp (s : State) (k : Nat) (f : Op → Op) : (s.updOp k f).tmax = s.tmax := rfl
@[simp] theorem State.level_updOp (s : State) (k : Nat) (f : Op → Op) : (s.updOp k f).level = s.level := rfl
@[simp] theorem State.plim_updOp (s : State) (k : Nat) (f : Op → Op) : (s.updOp k f).plim = s.plim := rfl
@[simp] theorem State.copyA_updOp (s : State) (k : Nat) (f : Op → Op) : (s.updOp k f).copyA = s.copyA := rfl
@[simp] theorem State.copyB_updOp (s : State) (k : Nat) (f : Op → Op) : (s.updOp k f).copyB = s.copyB := rfl
@[simp] theorem State.image_updOp (s : State) (k : Nat) (f : Op → Op) : (s.updOp k f).image = s.image := rfl
@[simp] theorem State.fwA_updOp (s : State) (k : Nat) (f : Op → Op) : (s.updOp k f).fwA = s.fwA := rfl
@[simp] theorem State.fwB_updOp (s : State) (k : Nat) (f : Op → Op) : (s.updOp k f).fwB = s.fwB := rfl
@[simp] theorem State.fwFused_updOp (s : State) (k : Nat) (f : Op → Op) : (s.updOp k f).fwFused = s.fwFused := rfl
@[simp] theorem State.bootFailed_updOp (s : State) (k : Nat) (f : Op → Op) : (s.updOp k f).bootFailed = s.bootFailed := rfl
@[simp] theorem State.spdm_updOp (s : State) (k : Nat) (f : Op → Op) : (s.updOp k f).spdm = s.spdm := rfl
@[simp] theorem State.hostReply_updOp (s : State) (k : Nat) (f : Op → Op) : (s.updOp k f).hostReply = s.hostReply := rfl
@[simp] theorem State.cal_updOp (s : State) (k : Nat) (f : Op → Op) : (s.updOp k f).cal = s.cal := rfl
@[simp] theorem State.ports_updOp (s : State) (k : Nat) (f : Op → Op) : (s.updOp k f).ports = s.ports := rfl
@[simp] theorem State.peers_updOp (s : State) (k : Nat) (f : Op → Op) : (s.updOp k f).peers = s.peers := rfl
@[simp] theorem State.inbound_updOp (s : State) (k : Nat) (f : Op → Op) : (s.updOp k f).inbound = s.inbound := rfl
@[simp] theorem State.sent_updOp (s : State) (k : Nat) (f : Op → Op) : (s.updOp k f).sent = s.sent := rfl
@[simp] theorem State.preambles_updOp (s : State) (k : Nat) (f : Op → Op) : (s.updOp k f).preambles = s.preambles := rfl
@[simp] theorem State.arrived_updOp (s : State) (k : Nat) (f : Op → Op) : (s.updOp k f).arrived = s.arrived := rfl

/-! ### pushOp -/

@[simp] theorem State.cycle_pushOp (s : State) (o : Op) : (s.pushOp o).cycle = s.cycle := rfl
@[simp] theorem State.cur_pushOp (s : State) (o : Op) : (s.pushOp o).cur = s.cur := rfl
@[simp] theorem State.grant_pushOp (s : State) (o : Op) : (s.pushOp o).grant = s.grant := rfl
@[simp] theorem State.rot_pushOp (s : State) (o : Op) : (s.pushOp o).rot = s.rot := rfl
@[simp] theorem State.agenda_pushOp (s : State) (o : Op) : (s.pushOp o).agenda = s.agenda := rfl
@[simp] theorem State.turn_pushOp (s : State) (o : Op) : (s.pushOp o).turn = s.turn := rfl
@[simp] theorem State.spent_pushOp (s : State) (o : Op) : (s.pushOp o).spent = s.spent := rfl
@[simp] theorem State.free_pushOp (s : State) (o : Op) : (s.pushOp o).free = s.free := rfl
@[simp] theorem State.nextId_pushOp (s : State) (o : Op) : (s.pushOp o).nextId = s.nextId + 1 := rfl
@[simp] theorem State.held_pushOp (s : State) (o : Op) : (s.pushOp o).held = s.held := rfl
@[simp] theorem State.waves_pushOp (s : State) (o : Op) : (s.pushOp o).waves = s.waves := rfl
@[simp] theorem State.teams_pushOp (s : State) (o : Op) : (s.pushOp o).teams = s.teams := rfl
@[simp] theorem State.launches_pushOp (s : State) (o : Op) : (s.pushOp o).launches = s.launches := rfl
@[simp] theorem State.launchTags_pushOp (s : State) (o : Op) : (s.pushOp o).launchTags = s.launchTags := rfl
@[simp] theorem State.contexts_pushOp (s : State) (o : Op) : (s.pushOp o).contexts = s.contexts := rfl
@[simp] theorem State.ops_pushOp (s : State) (o : Op) : (s.pushOp o).ops = s.ops.put s.nextId o := rfl
@[simp] theorem State.groups_pushOp (s : State) (o : Op) : (s.pushOp o).groups = s.groups := rfl
@[simp] theorem State.regroup_pushOp (s : State) (o : Op) : (s.pushOp o).regroup = s.regroup := rfl
@[simp] theorem State.closes_pushOp (s : State) (o : Op) : (s.pushOp o).closes = s.closes := rfl
@[simp] theorem State.streams_pushOp (s : State) (o : Op) : (s.pushOp o).streams = s.streams := rfl
@[simp] theorem State.dev_pushOp (s : State) (o : Op) : (s.pushOp o).dev = s.dev := rfl
@[simp] theorem State.vault_pushOp (s : State) (o : Op) : (s.pushOp o).vault = s.vault := rfl
@[simp] theorem State.host_pushOp (s : State) (o : Op) : (s.pushOp o).host = s.host := rfl
@[simp] theorem State.poison_pushOp (s : State) (o : Op) : (s.pushOp o).poison = s.poison := rfl
@[simp] theorem State.lineKeys_pushOp (s : State) (o : Op) : (s.pushOp o).lineKeys = s.lineKeys := rfl
@[simp] theorem State.owners_pushOp (s : State) (o : Op) : (s.pushOp o).owners = s.owners := rfl
@[simp] theorem State.cores_pushOp (s : State) (o : Op) : (s.pushOp o).cores = s.cores := rfl
@[simp] theorem State.dies_pushOp (s : State) (o : Op) : (s.pushOp o).dies = s.dies := rfl
@[simp] theorem State.oos_pushOp (s : State) (o : Op) : (s.pushOp o).oos = s.oos := rfl
@[simp] theorem State.mccnt_pushOp (s : State) (o : Op) : (s.pushOp o).mccnt = s.mccnt := rfl
@[simp] theorem State.pwr_pushOp (s : State) (o : Op) : (s.pushOp o).pwr = s.pwr := rfl
@[simp] theorem State.tmax_pushOp (s : State) (o : Op) : (s.pushOp o).tmax = s.tmax := rfl
@[simp] theorem State.level_pushOp (s : State) (o : Op) : (s.pushOp o).level = s.level := rfl
@[simp] theorem State.plim_pushOp (s : State) (o : Op) : (s.pushOp o).plim = s.plim := rfl
@[simp] theorem State.copyA_pushOp (s : State) (o : Op) : (s.pushOp o).copyA = s.copyA := rfl
@[simp] theorem State.copyB_pushOp (s : State) (o : Op) : (s.pushOp o).copyB = s.copyB := rfl
@[simp] theorem State.image_pushOp (s : State) (o : Op) : (s.pushOp o).image = s.image := rfl
@[simp] theorem State.fwA_pushOp (s : State) (o : Op) : (s.pushOp o).fwA = s.fwA := rfl
@[simp] theorem State.fwB_pushOp (s : State) (o : Op) : (s.pushOp o).fwB = s.fwB := rfl
@[simp] theorem State.fwFused_pushOp (s : State) (o : Op) : (s.pushOp o).fwFused = s.fwFused := rfl
@[simp] theorem State.bootFailed_pushOp (s : State) (o : Op) : (s.pushOp o).bootFailed = s.bootFailed := rfl
@[simp] theorem State.spdm_pushOp (s : State) (o : Op) : (s.pushOp o).spdm = s.spdm := rfl
@[simp] theorem State.hostReply_pushOp (s : State) (o : Op) : (s.pushOp o).hostReply = s.hostReply := rfl
@[simp] theorem State.cal_pushOp (s : State) (o : Op) : (s.pushOp o).cal = s.cal := rfl
@[simp] theorem State.ports_pushOp (s : State) (o : Op) : (s.pushOp o).ports = s.ports := rfl
@[simp] theorem State.peers_pushOp (s : State) (o : Op) : (s.pushOp o).peers = s.peers := rfl
@[simp] theorem State.inbound_pushOp (s : State) (o : Op) : (s.pushOp o).inbound = s.inbound := rfl
@[simp] theorem State.sent_pushOp (s : State) (o : Op) : (s.pushOp o).sent = s.sent := rfl
@[simp] theorem State.preambles_pushOp (s : State) (o : Op) : (s.pushOp o).preambles = s.preambles := rfl
@[simp] theorem State.arrived_pushOp (s : State) (o : Op) : (s.pushOp o).arrived = s.arrived := rfl

/-! ### updPort -/

@[simp] theorem State.cycle_updPort (s : State) (k : Nat) (f : Port → Port) : (s.updPort k f).cycle = s.cycle := rfl
@[simp] theorem State.cur_updPort (s : State) (k : Nat) (f : Port → Port) : (s.updPort k f).cur = s.cur := rfl
@[simp] theorem State.grant_updPort (s : State) (k : Nat) (f : Port → Port) : (s.updPort k f).grant = s.grant := rfl
@[simp] theorem State.rot_updPort (s : State) (k : Nat) (f : Port → Port) : (s.updPort k f).rot = s.rot := rfl
@[simp] theorem State.agenda_updPort (s : State) (k : Nat) (f : Port → Port) : (s.updPort k f).agenda = s.agenda := rfl
@[simp] theorem State.turn_updPort (s : State) (k : Nat) (f : Port → Port) : (s.updPort k f).turn = s.turn := rfl
@[simp] theorem State.spent_updPort (s : State) (k : Nat) (f : Port → Port) : (s.updPort k f).spent = s.spent := rfl
@[simp] theorem State.free_updPort (s : State) (k : Nat) (f : Port → Port) : (s.updPort k f).free = s.free := rfl
@[simp] theorem State.nextId_updPort (s : State) (k : Nat) (f : Port → Port) : (s.updPort k f).nextId = s.nextId := rfl
@[simp] theorem State.held_updPort (s : State) (k : Nat) (f : Port → Port) : (s.updPort k f).held = s.held := rfl
@[simp] theorem State.waves_updPort (s : State) (k : Nat) (f : Port → Port) : (s.updPort k f).waves = s.waves := rfl
@[simp] theorem State.teams_updPort (s : State) (k : Nat) (f : Port → Port) : (s.updPort k f).teams = s.teams := rfl
@[simp] theorem State.launches_updPort (s : State) (k : Nat) (f : Port → Port) : (s.updPort k f).launches = s.launches := rfl
@[simp] theorem State.launchTags_updPort (s : State) (k : Nat) (f : Port → Port) : (s.updPort k f).launchTags = s.launchTags := rfl
@[simp] theorem State.contexts_updPort (s : State) (k : Nat) (f : Port → Port) : (s.updPort k f).contexts = s.contexts := rfl
@[simp] theorem State.ops_updPort (s : State) (k : Nat) (f : Port → Port) : (s.updPort k f).ops = s.ops := rfl
@[simp] theorem State.groups_updPort (s : State) (k : Nat) (f : Port → Port) : (s.updPort k f).groups = s.groups := rfl
@[simp] theorem State.regroup_updPort (s : State) (k : Nat) (f : Port → Port) : (s.updPort k f).regroup = s.regroup := rfl
@[simp] theorem State.closes_updPort (s : State) (k : Nat) (f : Port → Port) : (s.updPort k f).closes = s.closes := rfl
@[simp] theorem State.streams_updPort (s : State) (k : Nat) (f : Port → Port) : (s.updPort k f).streams = s.streams := rfl
@[simp] theorem State.dev_updPort (s : State) (k : Nat) (f : Port → Port) : (s.updPort k f).dev = s.dev := rfl
@[simp] theorem State.vault_updPort (s : State) (k : Nat) (f : Port → Port) : (s.updPort k f).vault = s.vault := rfl
@[simp] theorem State.host_updPort (s : State) (k : Nat) (f : Port → Port) : (s.updPort k f).host = s.host := rfl
@[simp] theorem State.poison_updPort (s : State) (k : Nat) (f : Port → Port) : (s.updPort k f).poison = s.poison := rfl
@[simp] theorem State.lineKeys_updPort (s : State) (k : Nat) (f : Port → Port) : (s.updPort k f).lineKeys = s.lineKeys := rfl
@[simp] theorem State.owners_updPort (s : State) (k : Nat) (f : Port → Port) : (s.updPort k f).owners = s.owners := rfl
@[simp] theorem State.cores_updPort (s : State) (k : Nat) (f : Port → Port) : (s.updPort k f).cores = s.cores := rfl
@[simp] theorem State.dies_updPort (s : State) (k : Nat) (f : Port → Port) : (s.updPort k f).dies = s.dies := rfl
@[simp] theorem State.oos_updPort (s : State) (k : Nat) (f : Port → Port) : (s.updPort k f).oos = s.oos := rfl
@[simp] theorem State.mccnt_updPort (s : State) (k : Nat) (f : Port → Port) : (s.updPort k f).mccnt = s.mccnt := rfl
@[simp] theorem State.pwr_updPort (s : State) (k : Nat) (f : Port → Port) : (s.updPort k f).pwr = s.pwr := rfl
@[simp] theorem State.tmax_updPort (s : State) (k : Nat) (f : Port → Port) : (s.updPort k f).tmax = s.tmax := rfl
@[simp] theorem State.level_updPort (s : State) (k : Nat) (f : Port → Port) : (s.updPort k f).level = s.level := rfl
@[simp] theorem State.plim_updPort (s : State) (k : Nat) (f : Port → Port) : (s.updPort k f).plim = s.plim := rfl
@[simp] theorem State.copyA_updPort (s : State) (k : Nat) (f : Port → Port) : (s.updPort k f).copyA = s.copyA := rfl
@[simp] theorem State.copyB_updPort (s : State) (k : Nat) (f : Port → Port) : (s.updPort k f).copyB = s.copyB := rfl
@[simp] theorem State.image_updPort (s : State) (k : Nat) (f : Port → Port) : (s.updPort k f).image = s.image := rfl
@[simp] theorem State.fwA_updPort (s : State) (k : Nat) (f : Port → Port) : (s.updPort k f).fwA = s.fwA := rfl
@[simp] theorem State.fwB_updPort (s : State) (k : Nat) (f : Port → Port) : (s.updPort k f).fwB = s.fwB := rfl
@[simp] theorem State.fwFused_updPort (s : State) (k : Nat) (f : Port → Port) : (s.updPort k f).fwFused = s.fwFused := rfl
@[simp] theorem State.bootFailed_updPort (s : State) (k : Nat) (f : Port → Port) : (s.updPort k f).bootFailed = s.bootFailed := rfl
@[simp] theorem State.spdm_updPort (s : State) (k : Nat) (f : Port → Port) : (s.updPort k f).spdm = s.spdm := rfl
@[simp] theorem State.hostReply_updPort (s : State) (k : Nat) (f : Port → Port) : (s.updPort k f).hostReply = s.hostReply := rfl
@[simp] theorem State.cal_updPort (s : State) (k : Nat) (f : Port → Port) : (s.updPort k f).cal = s.cal := rfl
@[simp] theorem State.peers_updPort (s : State) (k : Nat) (f : Port → Port) : (s.updPort k f).peers = s.peers := rfl
@[simp] theorem State.inbound_updPort (s : State) (k : Nat) (f : Port → Port) : (s.updPort k f).inbound = s.inbound := rfl
@[simp] theorem State.sent_updPort (s : State) (k : Nat) (f : Port → Port) : (s.updPort k f).sent = s.sent := rfl
@[simp] theorem State.preambles_updPort (s : State) (k : Nat) (f : Port → Port) : (s.updPort k f).preambles = s.preambles := rfl
@[simp] theorem State.arrived_updPort (s : State) (k : Nat) (f : Port → Port) : (s.updPort k f).arrived = s.arrived := rfl

/-! ### updPeer -/

@[simp] theorem State.cycle_updPeer (s : State) (k : Nat) (f : Peer → Peer) : (s.updPeer k f).cycle = s.cycle := rfl
@[simp] theorem State.cur_updPeer (s : State) (k : Nat) (f : Peer → Peer) : (s.updPeer k f).cur = s.cur := rfl
@[simp] theorem State.grant_updPeer (s : State) (k : Nat) (f : Peer → Peer) : (s.updPeer k f).grant = s.grant := rfl
@[simp] theorem State.rot_updPeer (s : State) (k : Nat) (f : Peer → Peer) : (s.updPeer k f).rot = s.rot := rfl
@[simp] theorem State.agenda_updPeer (s : State) (k : Nat) (f : Peer → Peer) : (s.updPeer k f).agenda = s.agenda := rfl
@[simp] theorem State.turn_updPeer (s : State) (k : Nat) (f : Peer → Peer) : (s.updPeer k f).turn = s.turn := rfl
@[simp] theorem State.spent_updPeer (s : State) (k : Nat) (f : Peer → Peer) : (s.updPeer k f).spent = s.spent := rfl
@[simp] theorem State.free_updPeer (s : State) (k : Nat) (f : Peer → Peer) : (s.updPeer k f).free = s.free := rfl
@[simp] theorem State.nextId_updPeer (s : State) (k : Nat) (f : Peer → Peer) : (s.updPeer k f).nextId = s.nextId := rfl
@[simp] theorem State.held_updPeer (s : State) (k : Nat) (f : Peer → Peer) : (s.updPeer k f).held = s.held := rfl
@[simp] theorem State.waves_updPeer (s : State) (k : Nat) (f : Peer → Peer) : (s.updPeer k f).waves = s.waves := rfl
@[simp] theorem State.teams_updPeer (s : State) (k : Nat) (f : Peer → Peer) : (s.updPeer k f).teams = s.teams := rfl
@[simp] theorem State.launches_updPeer (s : State) (k : Nat) (f : Peer → Peer) : (s.updPeer k f).launches = s.launches := rfl
@[simp] theorem State.launchTags_updPeer (s : State) (k : Nat) (f : Peer → Peer) : (s.updPeer k f).launchTags = s.launchTags := rfl
@[simp] theorem State.contexts_updPeer (s : State) (k : Nat) (f : Peer → Peer) : (s.updPeer k f).contexts = s.contexts := rfl
@[simp] theorem State.ops_updPeer (s : State) (k : Nat) (f : Peer → Peer) : (s.updPeer k f).ops = s.ops := rfl
@[simp] theorem State.groups_updPeer (s : State) (k : Nat) (f : Peer → Peer) : (s.updPeer k f).groups = s.groups := rfl
@[simp] theorem State.regroup_updPeer (s : State) (k : Nat) (f : Peer → Peer) : (s.updPeer k f).regroup = s.regroup := rfl
@[simp] theorem State.closes_updPeer (s : State) (k : Nat) (f : Peer → Peer) : (s.updPeer k f).closes = s.closes := rfl
@[simp] theorem State.streams_updPeer (s : State) (k : Nat) (f : Peer → Peer) : (s.updPeer k f).streams = s.streams := rfl
@[simp] theorem State.dev_updPeer (s : State) (k : Nat) (f : Peer → Peer) : (s.updPeer k f).dev = s.dev := rfl
@[simp] theorem State.vault_updPeer (s : State) (k : Nat) (f : Peer → Peer) : (s.updPeer k f).vault = s.vault := rfl
@[simp] theorem State.host_updPeer (s : State) (k : Nat) (f : Peer → Peer) : (s.updPeer k f).host = s.host := rfl
@[simp] theorem State.poison_updPeer (s : State) (k : Nat) (f : Peer → Peer) : (s.updPeer k f).poison = s.poison := rfl
@[simp] theorem State.lineKeys_updPeer (s : State) (k : Nat) (f : Peer → Peer) : (s.updPeer k f).lineKeys = s.lineKeys := rfl
@[simp] theorem State.owners_updPeer (s : State) (k : Nat) (f : Peer → Peer) : (s.updPeer k f).owners = s.owners := rfl
@[simp] theorem State.cores_updPeer (s : State) (k : Nat) (f : Peer → Peer) : (s.updPeer k f).cores = s.cores := rfl
@[simp] theorem State.dies_updPeer (s : State) (k : Nat) (f : Peer → Peer) : (s.updPeer k f).dies = s.dies := rfl
@[simp] theorem State.oos_updPeer (s : State) (k : Nat) (f : Peer → Peer) : (s.updPeer k f).oos = s.oos := rfl
@[simp] theorem State.mccnt_updPeer (s : State) (k : Nat) (f : Peer → Peer) : (s.updPeer k f).mccnt = s.mccnt := rfl
@[simp] theorem State.pwr_updPeer (s : State) (k : Nat) (f : Peer → Peer) : (s.updPeer k f).pwr = s.pwr := rfl
@[simp] theorem State.tmax_updPeer (s : State) (k : Nat) (f : Peer → Peer) : (s.updPeer k f).tmax = s.tmax := rfl
@[simp] theorem State.level_updPeer (s : State) (k : Nat) (f : Peer → Peer) : (s.updPeer k f).level = s.level := rfl
@[simp] theorem State.plim_updPeer (s : State) (k : Nat) (f : Peer → Peer) : (s.updPeer k f).plim = s.plim := rfl
@[simp] theorem State.copyA_updPeer (s : State) (k : Nat) (f : Peer → Peer) : (s.updPeer k f).copyA = s.copyA := rfl
@[simp] theorem State.copyB_updPeer (s : State) (k : Nat) (f : Peer → Peer) : (s.updPeer k f).copyB = s.copyB := rfl
@[simp] theorem State.image_updPeer (s : State) (k : Nat) (f : Peer → Peer) : (s.updPeer k f).image = s.image := rfl
@[simp] theorem State.fwA_updPeer (s : State) (k : Nat) (f : Peer → Peer) : (s.updPeer k f).fwA = s.fwA := rfl
@[simp] theorem State.fwB_updPeer (s : State) (k : Nat) (f : Peer → Peer) : (s.updPeer k f).fwB = s.fwB := rfl
@[simp] theorem State.fwFused_updPeer (s : State) (k : Nat) (f : Peer → Peer) : (s.updPeer k f).fwFused = s.fwFused := rfl
@[simp] theorem State.bootFailed_updPeer (s : State) (k : Nat) (f : Peer → Peer) : (s.updPeer k f).bootFailed = s.bootFailed := rfl
@[simp] theorem State.spdm_updPeer (s : State) (k : Nat) (f : Peer → Peer) : (s.updPeer k f).spdm = s.spdm := rfl
@[simp] theorem State.hostReply_updPeer (s : State) (k : Nat) (f : Peer → Peer) : (s.updPeer k f).hostReply = s.hostReply := rfl
@[simp] theorem State.cal_updPeer (s : State) (k : Nat) (f : Peer → Peer) : (s.updPeer k f).cal = s.cal := rfl
@[simp] theorem State.ports_updPeer (s : State) (k : Nat) (f : Peer → Peer) : (s.updPeer k f).ports = s.ports := rfl
@[simp] theorem State.peers_updPeer (s : State) (k : Nat) (f : Peer → Peer) : (s.updPeer k f).peers = s.peers.put k (f (s.peer k)) := rfl
@[simp] theorem State.inbound_updPeer (s : State) (k : Nat) (f : Peer → Peer) : (s.updPeer k f).inbound = s.inbound := rfl
@[simp] theorem State.sent_updPeer (s : State) (k : Nat) (f : Peer → Peer) : (s.updPeer k f).sent = s.sent := rfl
@[simp] theorem State.preambles_updPeer (s : State) (k : Nat) (f : Peer → Peer) : (s.updPeer k f).preambles = s.preambles := rfl
@[simp] theorem State.arrived_updPeer (s : State) (k : Nat) (f : Peer → Peer) : (s.updPeer k f).arrived = s.arrived := rfl

/-! ### hold -/

@[simp] theorem State.cycle_hold (s : State) (c : Nat) : (s.hold c).cycle = s.cycle := rfl
@[simp] theorem State.cur_hold (s : State) (c : Nat) : (s.hold c).cur = s.cur := rfl
@[simp] theorem State.grant_hold (s : State) (c : Nat) : (s.hold c).grant = s.grant := rfl
@[simp] theorem State.rot_hold (s : State) (c : Nat) : (s.hold c).rot = s.rot := rfl
@[simp] theorem State.agenda_hold (s : State) (c : Nat) : (s.hold c).agenda = s.agenda := rfl
@[simp] theorem State.turn_hold (s : State) (c : Nat) : (s.hold c).turn = s.turn := rfl
@[simp] theorem State.spent_hold (s : State) (c : Nat) : (s.hold c).spent = s.spent := rfl
@[simp] theorem State.free_hold (s : State) (c : Nat) : (s.hold c).free = s.free := rfl
@[simp] theorem State.nextId_hold (s : State) (c : Nat) : (s.hold c).nextId = s.nextId := rfl
@[simp] theorem State.held_hold (s : State) (c : Nat) : (s.hold c).held = some c := rfl
@[simp] theorem State.waves_hold (s : State) (c : Nat) : (s.hold c).waves = s.waves := rfl
@[simp] theorem State.teams_hold (s : State) (c : Nat) : (s.hold c).teams = s.teams := rfl
@[simp] theorem State.launches_hold (s : State) (c : Nat) : (s.hold c).launches = s.launches := rfl
@[simp] theorem State.launchTags_hold (s : State) (c : Nat) : (s.hold c).launchTags = s.launchTags := rfl
@[simp] theorem State.contexts_hold (s : State) (c : Nat) : (s.hold c).contexts = s.contexts := rfl
@[simp] theorem State.ops_hold (s : State) (c : Nat) : (s.hold c).ops = s.ops := rfl
@[simp] theorem State.groups_hold (s : State) (c : Nat) : (s.hold c).groups = s.groups := rfl
@[simp] theorem State.regroup_hold (s : State) (c : Nat) : (s.hold c).regroup = s.regroup := rfl
@[simp] theorem State.closes_hold (s : State) (c : Nat) : (s.hold c).closes = s.closes := rfl
@[simp] theorem State.streams_hold (s : State) (c : Nat) : (s.hold c).streams = s.streams := rfl
@[simp] theorem State.dev_hold (s : State) (c : Nat) : (s.hold c).dev = s.dev := rfl
@[simp] theorem State.vault_hold (s : State) (c : Nat) : (s.hold c).vault = s.vault := rfl
@[simp] theorem State.host_hold (s : State) (c : Nat) : (s.hold c).host = s.host := rfl
@[simp] theorem State.poison_hold (s : State) (c : Nat) : (s.hold c).poison = s.poison := rfl
@[simp] theorem State.lineKeys_hold (s : State) (c : Nat) : (s.hold c).lineKeys = s.lineKeys := rfl
@[simp] theorem State.owners_hold (s : State) (c : Nat) : (s.hold c).owners = s.owners := rfl
@[simp] theorem State.cores_hold (s : State) (c : Nat) : (s.hold c).cores = s.cores := rfl
@[simp] theorem State.dies_hold (s : State) (c : Nat) : (s.hold c).dies = s.dies := rfl
@[simp] theorem State.oos_hold (s : State) (c : Nat) : (s.hold c).oos = s.oos := rfl
@[simp] theorem State.mccnt_hold (s : State) (c : Nat) : (s.hold c).mccnt = s.mccnt := rfl
@[simp] theorem State.pwr_hold (s : State) (c : Nat) : (s.hold c).pwr = s.pwr := rfl
@[simp] theorem State.tmax_hold (s : State) (c : Nat) : (s.hold c).tmax = s.tmax := rfl
@[simp] theorem State.level_hold (s : State) (c : Nat) : (s.hold c).level = s.level := rfl
@[simp] theorem State.plim_hold (s : State) (c : Nat) : (s.hold c).plim = s.plim := rfl
@[simp] theorem State.copyA_hold (s : State) (c : Nat) : (s.hold c).copyA = s.copyA := rfl
@[simp] theorem State.copyB_hold (s : State) (c : Nat) : (s.hold c).copyB = s.copyB := rfl
@[simp] theorem State.image_hold (s : State) (c : Nat) : (s.hold c).image = s.image := rfl
@[simp] theorem State.fwA_hold (s : State) (c : Nat) : (s.hold c).fwA = s.fwA := rfl
@[simp] theorem State.fwB_hold (s : State) (c : Nat) : (s.hold c).fwB = s.fwB := rfl
@[simp] theorem State.fwFused_hold (s : State) (c : Nat) : (s.hold c).fwFused = s.fwFused := rfl
@[simp] theorem State.bootFailed_hold (s : State) (c : Nat) : (s.hold c).bootFailed = s.bootFailed := rfl
@[simp] theorem State.spdm_hold (s : State) (c : Nat) : (s.hold c).spdm = s.spdm := rfl
@[simp] theorem State.hostReply_hold (s : State) (c : Nat) : (s.hold c).hostReply = s.hostReply := rfl
@[simp] theorem State.cal_hold (s : State) (c : Nat) : (s.hold c).cal = s.cal := rfl
@[simp] theorem State.ports_hold (s : State) (c : Nat) : (s.hold c).ports = s.ports := rfl
@[simp] theorem State.peers_hold (s : State) (c : Nat) : (s.hold c).peers = s.peers := rfl
@[simp] theorem State.inbound_hold (s : State) (c : Nat) : (s.hold c).inbound = s.inbound := rfl
@[simp] theorem State.sent_hold (s : State) (c : Nat) : (s.hold c).sent = s.sent := rfl
@[simp] theorem State.preambles_hold (s : State) (c : Nat) : (s.hold c).preambles = s.preambles := rfl
@[simp] theorem State.arrived_hold (s : State) (c : Nat) : (s.hold c).arrived = s.arrived := rfl

/-! ### updLeaf -/

@[simp] theorem State.cycle_updLeaf (s : State) (p : PathRef) (f : Leaf → Leaf) : (s.updLeaf p f).cycle = s.cycle := rfl
@[simp] theorem State.cur_updLeaf (s : State) (p : PathRef) (f : Leaf → Leaf) : (s.updLeaf p f).cur = s.cur := rfl
@[simp] theorem State.grant_updLeaf (s : State) (p : PathRef) (f : Leaf → Leaf) : (s.updLeaf p f).grant = s.grant := rfl
@[simp] theorem State.rot_updLeaf (s : State) (p : PathRef) (f : Leaf → Leaf) : (s.updLeaf p f).rot = s.rot := rfl
@[simp] theorem State.agenda_updLeaf (s : State) (p : PathRef) (f : Leaf → Leaf) : (s.updLeaf p f).agenda = s.agenda := rfl
@[simp] theorem State.turn_updLeaf (s : State) (p : PathRef) (f : Leaf → Leaf) : (s.updLeaf p f).turn = s.turn := rfl
@[simp] theorem State.spent_updLeaf (s : State) (p : PathRef) (f : Leaf → Leaf) : (s.updLeaf p f).spent = s.spent := rfl
@[simp] theorem State.free_updLeaf (s : State) (p : PathRef) (f : Leaf → Leaf) : (s.updLeaf p f).free = s.free := rfl
@[simp] theorem State.nextId_updLeaf (s : State) (p : PathRef) (f : Leaf → Leaf) : (s.updLeaf p f).nextId = s.nextId := rfl
@[simp] theorem State.held_updLeaf (s : State) (p : PathRef) (f : Leaf → Leaf) : (s.updLeaf p f).held = s.held := rfl
@[simp] theorem State.teams_updLeaf (s : State) (p : PathRef) (f : Leaf → Leaf) : (s.updLeaf p f).teams = s.teams := rfl
@[simp] theorem State.launches_updLeaf (s : State) (p : PathRef) (f : Leaf → Leaf) : (s.updLeaf p f).launches = s.launches := rfl
@[simp] theorem State.launchTags_updLeaf (s : State) (p : PathRef) (f : Leaf → Leaf) : (s.updLeaf p f).launchTags = s.launchTags := rfl
@[simp] theorem State.contexts_updLeaf (s : State) (p : PathRef) (f : Leaf → Leaf) : (s.updLeaf p f).contexts = s.contexts := rfl
@[simp] theorem State.ops_updLeaf (s : State) (p : PathRef) (f : Leaf → Leaf) : (s.updLeaf p f).ops = s.ops := rfl
@[simp] theorem State.groups_updLeaf (s : State) (p : PathRef) (f : Leaf → Leaf) : (s.updLeaf p f).groups = s.groups := rfl
@[simp] theorem State.regroup_updLeaf (s : State) (p : PathRef) (f : Leaf → Leaf) : (s.updLeaf p f).regroup = s.regroup := rfl
@[simp] theorem State.closes_updLeaf (s : State) (p : PathRef) (f : Leaf → Leaf) : (s.updLeaf p f).closes = s.closes := rfl
@[simp] theorem State.streams_updLeaf (s : State) (p : PathRef) (f : Leaf → Leaf) : (s.updLeaf p f).streams = s.streams := rfl
@[simp] theorem State.dev_updLeaf (s : State) (p : PathRef) (f : Leaf → Leaf) : (s.updLeaf p f).dev = s.dev := rfl
@[simp] theorem State.vault_updLeaf (s : State) (p : PathRef) (f : Leaf → Leaf) : (s.updLeaf p f).vault = s.vault := rfl
@[simp] theorem State.host_updLeaf (s : State) (p : PathRef) (f : Leaf → Leaf) : (s.updLeaf p f).host = s.host := rfl
@[simp] theorem State.poison_updLeaf (s : State) (p : PathRef) (f : Leaf → Leaf) : (s.updLeaf p f).poison = s.poison := rfl
@[simp] theorem State.lineKeys_updLeaf (s : State) (p : PathRef) (f : Leaf → Leaf) : (s.updLeaf p f).lineKeys = s.lineKeys := rfl
@[simp] theorem State.owners_updLeaf (s : State) (p : PathRef) (f : Leaf → Leaf) : (s.updLeaf p f).owners = s.owners := rfl
@[simp] theorem State.cores_updLeaf (s : State) (p : PathRef) (f : Leaf → Leaf) : (s.updLeaf p f).cores = s.cores := rfl
@[simp] theorem State.dies_updLeaf (s : State) (p : PathRef) (f : Leaf → Leaf) : (s.updLeaf p f).dies = s.dies := rfl
@[simp] theorem State.oos_updLeaf (s : State) (p : PathRef) (f : Leaf → Leaf) : (s.updLeaf p f).oos = s.oos := rfl
@[simp] theorem State.mccnt_updLeaf (s : State) (p : PathRef) (f : Leaf → Leaf) : (s.updLeaf p f).mccnt = s.mccnt := rfl
@[simp] theorem State.pwr_updLeaf (s : State) (p : PathRef) (f : Leaf → Leaf) : (s.updLeaf p f).pwr = s.pwr := rfl
@[simp] theorem State.tmax_updLeaf (s : State) (p : PathRef) (f : Leaf → Leaf) : (s.updLeaf p f).tmax = s.tmax := rfl
@[simp] theorem State.level_updLeaf (s : State) (p : PathRef) (f : Leaf → Leaf) : (s.updLeaf p f).level = s.level := rfl
@[simp] theorem State.plim_updLeaf (s : State) (p : PathRef) (f : Leaf → Leaf) : (s.updLeaf p f).plim = s.plim := rfl
@[simp] theorem State.copyA_updLeaf (s : State) (p : PathRef) (f : Leaf → Leaf) : (s.updLeaf p f).copyA = s.copyA := rfl
@[simp] theorem State.copyB_updLeaf (s : State) (p : PathRef) (f : Leaf → Leaf) : (s.updLeaf p f).copyB = s.copyB := rfl
@[simp] theorem State.image_updLeaf (s : State) (p : PathRef) (f : Leaf → Leaf) : (s.updLeaf p f).image = s.image := rfl
@[simp] theorem State.fwA_updLeaf (s : State) (p : PathRef) (f : Leaf → Leaf) : (s.updLeaf p f).fwA = s.fwA := rfl
@[simp] theorem State.fwB_updLeaf (s : State) (p : PathRef) (f : Leaf → Leaf) : (s.updLeaf p f).fwB = s.fwB := rfl
@[simp] theorem State.fwFused_updLeaf (s : State) (p : PathRef) (f : Leaf → Leaf) : (s.updLeaf p f).fwFused = s.fwFused := rfl
@[simp] theorem State.bootFailed_updLeaf (s : State) (p : PathRef) (f : Leaf → Leaf) : (s.updLeaf p f).bootFailed = s.bootFailed := rfl
@[simp] theorem State.spdm_updLeaf (s : State) (p : PathRef) (f : Leaf → Leaf) : (s.updLeaf p f).spdm = s.spdm := rfl
@[simp] theorem State.hostReply_updLeaf (s : State) (p : PathRef) (f : Leaf → Leaf) : (s.updLeaf p f).hostReply = s.hostReply := rfl
@[simp] theorem State.cal_updLeaf (s : State) (p : PathRef) (f : Leaf → Leaf) : (s.updLeaf p f).cal = s.cal := rfl
@[simp] theorem State.ports_updLeaf (s : State) (p : PathRef) (f : Leaf → Leaf) : (s.updLeaf p f).ports = s.ports := rfl
@[simp] theorem State.peers_updLeaf (s : State) (p : PathRef) (f : Leaf → Leaf) : (s.updLeaf p f).peers = s.peers := rfl
@[simp] theorem State.inbound_updLeaf (s : State) (p : PathRef) (f : Leaf → Leaf) : (s.updLeaf p f).inbound = s.inbound := rfl
@[simp] theorem State.sent_updLeaf (s : State) (p : PathRef) (f : Leaf → Leaf) : (s.updLeaf p f).sent = s.sent := rfl
@[simp] theorem State.preambles_updLeaf (s : State) (p : PathRef) (f : Leaf → Leaf) : (s.updLeaf p f).preambles = s.preambles := rfl
@[simp] theorem State.arrived_updLeaf (s : State) (p : PathRef) (f : Leaf → Leaf) : (s.updLeaf p f).arrived = s.arrived := rfl

/-! ### advance -/

@[simp] theorem State.cycle_advance (s : State) (p : PathRef) (i : Instr) : (s.advance p i).cycle = s.cycle := rfl
@[simp] theorem State.cur_advance (s : State) (p : PathRef) (i : Instr) : (s.advance p i).cur = s.cur := rfl
@[simp] theorem State.grant_advance (s : State) (p : PathRef) (i : Instr) : (s.advance p i).grant = s.grant := rfl
@[simp] theorem State.rot_advance (s : State) (p : PathRef) (i : Instr) : (s.advance p i).rot = s.rot := rfl
@[simp] theorem State.agenda_advance (s : State) (p : PathRef) (i : Instr) : (s.advance p i).agenda = s.agenda := rfl
@[simp] theorem State.turn_advance (s : State) (p : PathRef) (i : Instr) : (s.advance p i).turn = s.turn := rfl
@[simp] theorem State.spent_advance (s : State) (p : PathRef) (i : Instr) : (s.advance p i).spent = s.spent := rfl
@[simp] theorem State.free_advance (s : State) (p : PathRef) (i : Instr) : (s.advance p i).free = s.free := rfl
@[simp] theorem State.nextId_advance (s : State) (p : PathRef) (i : Instr) : (s.advance p i).nextId = s.nextId := rfl
@[simp] theorem State.held_advance (s : State) (p : PathRef) (i : Instr) : (s.advance p i).held = s.held := rfl
@[simp] theorem State.teams_advance (s : State) (p : PathRef) (i : Instr) : (s.advance p i).teams = s.teams := rfl
@[simp] theorem State.launches_advance (s : State) (p : PathRef) (i : Instr) : (s.advance p i).launches = s.launches := rfl
@[simp] theorem State.launchTags_advance (s : State) (p : PathRef) (i : Instr) : (s.advance p i).launchTags = s.launchTags := rfl
@[simp] theorem State.contexts_advance (s : State) (p : PathRef) (i : Instr) : (s.advance p i).contexts = s.contexts := rfl
@[simp] theorem State.ops_advance (s : State) (p : PathRef) (i : Instr) : (s.advance p i).ops = s.ops := rfl
@[simp] theorem State.groups_advance (s : State) (p : PathRef) (i : Instr) : (s.advance p i).groups = s.groups := rfl
@[simp] theorem State.regroup_advance (s : State) (p : PathRef) (i : Instr) : (s.advance p i).regroup = s.regroup := rfl
@[simp] theorem State.closes_advance (s : State) (p : PathRef) (i : Instr) : (s.advance p i).closes = s.closes := rfl
@[simp] theorem State.streams_advance (s : State) (p : PathRef) (i : Instr) : (s.advance p i).streams = s.streams := rfl
@[simp] theorem State.dev_advance (s : State) (p : PathRef) (i : Instr) : (s.advance p i).dev = s.dev := rfl
@[simp] theorem State.vault_advance (s : State) (p : PathRef) (i : Instr) : (s.advance p i).vault = s.vault := rfl
@[simp] theorem State.host_advance (s : State) (p : PathRef) (i : Instr) : (s.advance p i).host = s.host := rfl
@[simp] theorem State.poison_advance (s : State) (p : PathRef) (i : Instr) : (s.advance p i).poison = s.poison := rfl
@[simp] theorem State.lineKeys_advance (s : State) (p : PathRef) (i : Instr) : (s.advance p i).lineKeys = s.lineKeys := rfl
@[simp] theorem State.owners_advance (s : State) (p : PathRef) (i : Instr) : (s.advance p i).owners = s.owners := rfl
@[simp] theorem State.cores_advance (s : State) (p : PathRef) (i : Instr) : (s.advance p i).cores = s.cores := rfl
@[simp] theorem State.dies_advance (s : State) (p : PathRef) (i : Instr) : (s.advance p i).dies = s.dies := rfl
@[simp] theorem State.oos_advance (s : State) (p : PathRef) (i : Instr) : (s.advance p i).oos = s.oos := rfl
@[simp] theorem State.mccnt_advance (s : State) (p : PathRef) (i : Instr) : (s.advance p i).mccnt = s.mccnt := rfl
@[simp] theorem State.pwr_advance (s : State) (p : PathRef) (i : Instr) : (s.advance p i).pwr = s.pwr := rfl
@[simp] theorem State.tmax_advance (s : State) (p : PathRef) (i : Instr) : (s.advance p i).tmax = s.tmax := rfl
@[simp] theorem State.level_advance (s : State) (p : PathRef) (i : Instr) : (s.advance p i).level = s.level := rfl
@[simp] theorem State.plim_advance (s : State) (p : PathRef) (i : Instr) : (s.advance p i).plim = s.plim := rfl
@[simp] theorem State.copyA_advance (s : State) (p : PathRef) (i : Instr) : (s.advance p i).copyA = s.copyA := rfl
@[simp] theorem State.copyB_advance (s : State) (p : PathRef) (i : Instr) : (s.advance p i).copyB = s.copyB := rfl
@[simp] theorem State.image_advance (s : State) (p : PathRef) (i : Instr) : (s.advance p i).image = s.image := rfl
@[simp] theorem State.fwA_advance (s : State) (p : PathRef) (i : Instr) : (s.advance p i).fwA = s.fwA := rfl
@[simp] theorem State.fwB_advance (s : State) (p : PathRef) (i : Instr) : (s.advance p i).fwB = s.fwB := rfl
@[simp] theorem State.fwFused_advance (s : State) (p : PathRef) (i : Instr) : (s.advance p i).fwFused = s.fwFused := rfl
@[simp] theorem State.bootFailed_advance (s : State) (p : PathRef) (i : Instr) : (s.advance p i).bootFailed = s.bootFailed := rfl
@[simp] theorem State.spdm_advance (s : State) (p : PathRef) (i : Instr) : (s.advance p i).spdm = s.spdm := rfl
@[simp] theorem State.hostReply_advance (s : State) (p : PathRef) (i : Instr) : (s.advance p i).hostReply = s.hostReply := rfl
@[simp] theorem State.cal_advance (s : State) (p : PathRef) (i : Instr) : (s.advance p i).cal = s.cal := rfl
@[simp] theorem State.ports_advance (s : State) (p : PathRef) (i : Instr) : (s.advance p i).ports = s.ports := rfl
@[simp] theorem State.peers_advance (s : State) (p : PathRef) (i : Instr) : (s.advance p i).peers = s.peers := rfl
@[simp] theorem State.inbound_advance (s : State) (p : PathRef) (i : Instr) : (s.advance p i).inbound = s.inbound := rfl
@[simp] theorem State.sent_advance (s : State) (p : PathRef) (i : Instr) : (s.advance p i).sent = s.sent := rfl
@[simp] theorem State.preambles_advance (s : State) (p : PathRef) (i : Instr) : (s.advance p i).preambles = s.preambles := rfl
@[simp] theorem State.arrived_advance (s : State) (p : PathRef) (i : Instr) : (s.advance p i).arrived = s.arrived := rfl

/-! ### jump -/

@[simp] theorem State.cycle_jump (s : State) (p : PathRef) (a : DWord) : (s.jump p a).cycle = s.cycle := rfl
@[simp] theorem State.cur_jump (s : State) (p : PathRef) (a : DWord) : (s.jump p a).cur = s.cur := rfl
@[simp] theorem State.grant_jump (s : State) (p : PathRef) (a : DWord) : (s.jump p a).grant = s.grant := rfl
@[simp] theorem State.rot_jump (s : State) (p : PathRef) (a : DWord) : (s.jump p a).rot = s.rot := rfl
@[simp] theorem State.agenda_jump (s : State) (p : PathRef) (a : DWord) : (s.jump p a).agenda = s.agenda := rfl
@[simp] theorem State.turn_jump (s : State) (p : PathRef) (a : DWord) : (s.jump p a).turn = s.turn := rfl
@[simp] theorem State.spent_jump (s : State) (p : PathRef) (a : DWord) : (s.jump p a).spent = s.spent := rfl
@[simp] theorem State.free_jump (s : State) (p : PathRef) (a : DWord) : (s.jump p a).free = s.free := rfl
@[simp] theorem State.nextId_jump (s : State) (p : PathRef) (a : DWord) : (s.jump p a).nextId = s.nextId := rfl
@[simp] theorem State.held_jump (s : State) (p : PathRef) (a : DWord) : (s.jump p a).held = s.held := rfl
@[simp] theorem State.teams_jump (s : State) (p : PathRef) (a : DWord) : (s.jump p a).teams = s.teams := rfl
@[simp] theorem State.launches_jump (s : State) (p : PathRef) (a : DWord) : (s.jump p a).launches = s.launches := rfl
@[simp] theorem State.launchTags_jump (s : State) (p : PathRef) (a : DWord) : (s.jump p a).launchTags = s.launchTags := rfl
@[simp] theorem State.contexts_jump (s : State) (p : PathRef) (a : DWord) : (s.jump p a).contexts = s.contexts := rfl
@[simp] theorem State.ops_jump (s : State) (p : PathRef) (a : DWord) : (s.jump p a).ops = s.ops := rfl
@[simp] theorem State.groups_jump (s : State) (p : PathRef) (a : DWord) : (s.jump p a).groups = s.groups := rfl
@[simp] theorem State.regroup_jump (s : State) (p : PathRef) (a : DWord) : (s.jump p a).regroup = s.regroup := rfl
@[simp] theorem State.closes_jump (s : State) (p : PathRef) (a : DWord) : (s.jump p a).closes = s.closes := rfl
@[simp] theorem State.streams_jump (s : State) (p : PathRef) (a : DWord) : (s.jump p a).streams = s.streams := rfl
@[simp] theorem State.dev_jump (s : State) (p : PathRef) (a : DWord) : (s.jump p a).dev = s.dev := rfl
@[simp] theorem State.vault_jump (s : State) (p : PathRef) (a : DWord) : (s.jump p a).vault = s.vault := rfl
@[simp] theorem State.host_jump (s : State) (p : PathRef) (a : DWord) : (s.jump p a).host = s.host := rfl
@[simp] theorem State.poison_jump (s : State) (p : PathRef) (a : DWord) : (s.jump p a).poison = s.poison := rfl
@[simp] theorem State.lineKeys_jump (s : State) (p : PathRef) (a : DWord) : (s.jump p a).lineKeys = s.lineKeys := rfl
@[simp] theorem State.owners_jump (s : State) (p : PathRef) (a : DWord) : (s.jump p a).owners = s.owners := rfl
@[simp] theorem State.cores_jump (s : State) (p : PathRef) (a : DWord) : (s.jump p a).cores = s.cores := rfl
@[simp] theorem State.dies_jump (s : State) (p : PathRef) (a : DWord) : (s.jump p a).dies = s.dies := rfl
@[simp] theorem State.oos_jump (s : State) (p : PathRef) (a : DWord) : (s.jump p a).oos = s.oos := rfl
@[simp] theorem State.mccnt_jump (s : State) (p : PathRef) (a : DWord) : (s.jump p a).mccnt = s.mccnt := rfl
@[simp] theorem State.pwr_jump (s : State) (p : PathRef) (a : DWord) : (s.jump p a).pwr = s.pwr := rfl
@[simp] theorem State.tmax_jump (s : State) (p : PathRef) (a : DWord) : (s.jump p a).tmax = s.tmax := rfl
@[simp] theorem State.level_jump (s : State) (p : PathRef) (a : DWord) : (s.jump p a).level = s.level := rfl
@[simp] theorem State.plim_jump (s : State) (p : PathRef) (a : DWord) : (s.jump p a).plim = s.plim := rfl
@[simp] theorem State.copyA_jump (s : State) (p : PathRef) (a : DWord) : (s.jump p a).copyA = s.copyA := rfl
@[simp] theorem State.copyB_jump (s : State) (p : PathRef) (a : DWord) : (s.jump p a).copyB = s.copyB := rfl
@[simp] theorem State.image_jump (s : State) (p : PathRef) (a : DWord) : (s.jump p a).image = s.image := rfl
@[simp] theorem State.fwA_jump (s : State) (p : PathRef) (a : DWord) : (s.jump p a).fwA = s.fwA := rfl
@[simp] theorem State.fwB_jump (s : State) (p : PathRef) (a : DWord) : (s.jump p a).fwB = s.fwB := rfl
@[simp] theorem State.fwFused_jump (s : State) (p : PathRef) (a : DWord) : (s.jump p a).fwFused = s.fwFused := rfl
@[simp] theorem State.bootFailed_jump (s : State) (p : PathRef) (a : DWord) : (s.jump p a).bootFailed = s.bootFailed := rfl
@[simp] theorem State.spdm_jump (s : State) (p : PathRef) (a : DWord) : (s.jump p a).spdm = s.spdm := rfl
@[simp] theorem State.hostReply_jump (s : State) (p : PathRef) (a : DWord) : (s.jump p a).hostReply = s.hostReply := rfl
@[simp] theorem State.cal_jump (s : State) (p : PathRef) (a : DWord) : (s.jump p a).cal = s.cal := rfl
@[simp] theorem State.ports_jump (s : State) (p : PathRef) (a : DWord) : (s.jump p a).ports = s.ports := rfl
@[simp] theorem State.peers_jump (s : State) (p : PathRef) (a : DWord) : (s.jump p a).peers = s.peers := rfl
@[simp] theorem State.inbound_jump (s : State) (p : PathRef) (a : DWord) : (s.jump p a).inbound = s.inbound := rfl
@[simp] theorem State.sent_jump (s : State) (p : PathRef) (a : DWord) : (s.jump p a).sent = s.sent := rfl
@[simp] theorem State.preambles_jump (s : State) (p : PathRef) (a : DWord) : (s.jump p a).preambles = s.preambles := rfl
@[simp] theorem State.arrived_jump (s : State) (p : PathRef) (a : DWord) : (s.jump p a).arrived = s.arrived := rfl

/-! ### Wave.setV -/

@[simp] theorem Wave.team_setV (w : Wave) (n l : Nat) (x : Word) : (w.setV n l x).team = w.team := rfl
@[simp] theorem Wave.ixw_setV (w : Wave) (n l : Nat) (x : Word) : (w.setV n l x).ixw = w.ixw := rfl
@[simp] theorem Wave.part_setV (w : Wave) (n l : Nat) (x : Word) : (w.setV n l x).part = w.part := rfl
@[simp] theorem Wave.slot_setV (w : Wave) (n l : Nat) (x : Word) : (w.setV n l x).slot = w.slot := rfl
@[simp] theorem Wave.cond_setV (w : Wave) (n l : Nat) (x : Word) : (w.setV n l x).cond = w.cond := rfl
@[simp] theorem Wave.started_setV (w : Wave) (n l : Nat) (x : Word) : (w.setV n l x).started = w.started := rfl
@[simp] theorem Wave.v_setV (w : Wave) (n l : Nat) (x : Word) : (w.setV n l x).v = Sparse.wr w.v (n * 32 + l) x := rfl
@[simp] theorem Wave.s_setV (w : Wave) (n l : Nat) (x : Word) : (w.setV n l x).s = w.s := rfl
@[simp] theorem Wave.p_setV (w : Wave) (n l : Nat) (x : Word) : (w.setV n l x).p = w.p := rfl
@[simp] theorem Wave.t_setV (w : Wave) (n l : Nat) (x : Word) : (w.setV n l x).t = w.t := rfl
@[simp] theorem Wave.a_setV (w : Wave) (n l : Nat) (x : Word) : (w.setV n l x).a = w.a := rfl
@[simp] theorem Wave.partial_setV (w : Wave) (n l : Nat) (x : Word) : (w.setV n l x).partial_ = w.partial_ := rfl
@[simp] theorem Wave.tstat_setV (w : Wave) (n l : Nat) (x : Word) : (w.setV n l x).tstat = w.tstat := rfl
@[simp] theorem Wave.acc_setV (w : Wave) (n l : Nat) (x : Word) : (w.setV n l x).acc = w.acc := rfl
@[simp] theorem Wave.unfold_setV (w : Wave) (n l : Nat) (x : Word) : (w.setV n l x).unfold = w.unfold := rfl
@[simp] theorem Wave.mxkoff_setV (w : Wave) (n l : Nat) (x : Word) : (w.setV n l x).mxkoff = w.mxkoff := rfl
@[simp] theorem Wave.mxscl_setV (w : Wave) (n l : Nat) (x : Word) : (w.setV n l x).mxscl = w.mxscl := rfl
@[simp] theorem Wave.flags_setV (w : Wave) (n l : Nat) (x : Word) : (w.setV n l x).flags = w.flags := rfl
@[simp] theorem Wave.recCount_setV (w : Wave) (n l : Nat) (x : Word) : (w.setV n l x).recCount = w.recCount := rfl
@[simp] theorem Wave.tcause_setV (w : Wave) (n l : Nat) (x : Word) : (w.setV n l x).tcause = w.tcause := rfl
@[simp] theorem Wave.tpc_setV (w : Wave) (n l : Nat) (x : Word) : (w.setV n l x).tpc = w.tpc := rfl
@[simp] theorem Wave.tval_setV (w : Wave) (n l : Nat) (x : Word) : (w.setV n l x).tval = w.tval := rfl
@[simp] theorem Wave.tpcWritten_setV (w : Wave) (n l : Nat) (x : Word) : (w.setV n l x).tpcWritten = w.tpcWritten := rfl
@[simp] theorem Wave.savedHdr_setV (w : Wave) (n l : Nat) (x : Word) : (w.setV n l x).savedHdr = w.savedHdr := rfl
@[simp] theorem Wave.savedPos_setV (w : Wave) (n l : Nat) (x : Word) : (w.setV n l x).savedPos = w.savedPos := rfl
@[simp] theorem Wave.savedArr_setV (w : Wave) (n l : Nat) (x : Word) : (w.setV n l x).savedArr = w.savedArr := rfl
@[simp] theorem Wave.nest_setV (w : Wave) (n l : Nat) (x : Word) : (w.setV n l x).nest = w.nest := rfl
@[simp] theorem Wave.trapSlot_setV (w : Wave) (n l : Nat) (x : Word) : (w.setV n l x).trapSlot = w.trapSlot := rfl
@[simp] theorem Wave.trapMask_setV (w : Wave) (n l : Nat) (x : Word) : (w.setV n l x).trapMask = w.trapMask := rfl
@[simp] theorem Wave.boundary_setV (w : Wave) (n l : Nat) (x : Word) : (w.setV n l x).boundary = w.boundary := rfl
@[simp] theorem Wave.starvArmed_setV (w : Wave) (n l : Nat) (x : Word) : (w.setV n l x).starvArmed = w.starvArmed := rfl
@[simp] theorem Wave.starvLeft_setV (w : Wave) (n l : Nat) (x : Word) : (w.setV n l x).starvLeft = w.starvLeft := rfl
@[simp] theorem Wave.starvExp_setV (w : Wave) (n l : Nat) (x : Word) : (w.setV n l x).starvExp = w.starvExp := rfl
@[simp] theorem Wave.starvOp_setV (w : Wave) (n l : Nat) (x : Word) : (w.setV n l x).starvOp = w.starvOp := rfl
@[simp] theorem Wave.root_setV (w : Wave) (n l : Nat) (x : Word) : (w.setV n l x).root = w.root := rfl
@[simp] theorem Wave.slotA_setV (w : Wave) (n l : Nat) (x : Word) : (w.setV n l x).slotA = w.slotA := rfl
@[simp] theorem Wave.slotB_setV (w : Wave) (n l : Nat) (x : Word) : (w.setV n l x).slotB = w.slotB := rfl
@[simp] theorem Wave.fairA_setV (w : Wave) (n l : Nat) (x : Word) : (w.setV n l x).fairA = w.fairA := rfl
@[simp] theorem Wave.fairB_setV (w : Wave) (n l : Nat) (x : Word) : (w.setV n l x).fairB = w.fairB := rfl
@[simp] theorem Wave.deferA_setV (w : Wave) (n l : Nat) (x : Word) : (w.setV n l x).deferA = w.deferA := rfl
@[simp] theorem Wave.deferB_setV (w : Wave) (n l : Nat) (x : Word) : (w.setV n l x).deferB = w.deferB := rfl
@[simp] theorem Wave.region_setV (w : Wave) (n l : Nat) (x : Word) : (w.setV n l x).region = w.region := rfl
@[simp] theorem Wave.resv_setV (w : Wave) (n l : Nat) (x : Word) : (w.setV n l x).resv = w.resv := rfl
@[simp] theorem Wave.ldres_setV (w : Wave) (n l : Nat) (x : Word) : (w.setV n l x).ldres = w.ldres := rfl
@[simp] theorem Wave.collAct_setV (w : Wave) (n l : Nat) (x : Word) : (w.setV n l x).collAct = w.collAct := rfl
@[simp] theorem Wave.collEntry_setV (w : Wave) (n l : Nat) (x : Word) : (w.setV n l x).collEntry = w.collEntry := rfl
@[simp] theorem Wave.collReg_setV (w : Wave) (n l : Nat) (x : Word) : (w.setV n l x).collReg = w.collReg := rfl
@[simp] theorem Wave.apos_setV (w : Wave) (n l : Nat) (x : Word) : (w.setV n l x).apos = w.apos := rfl
@[simp] theorem Wave.eapp_setV (w : Wave) (n l : Nat) (x : Word) : (w.setV n l x).eapp = w.eapp := rfl
@[simp] theorem Wave.age_setV (w : Wave) (n l : Nat) (x : Word) : (w.setV n l x).age = w.age := rfl
@[simp] theorem Wave.stall_setV (w : Wave) (n l : Nat) (x : Word) : (w.setV n l x).stall = w.stall := rfl
@[simp] theorem Wave.lastSlot_setV (w : Wave) (n l : Nat) (x : Word) : (w.setV n l x).lastSlot = w.lastSlot := rfl
@[simp] theorem Wave.yieldedAt_setV (w : Wave) (n l : Nat) (x : Word) : (w.setV n l x).yieldedAt = w.yieldedAt := rfl
@[simp] theorem Wave.issuedAt_setV (w : Wave) (n l : Nat) (x : Word) : (w.setV n l x).issuedAt = w.issuedAt := rfl
@[simp] theorem Wave.readyAt_setV (w : Wave) (n l : Nat) (x : Word) : (w.setV n l x).readyAt = w.readyAt := rfl
@[simp] theorem Wave.stableAt_setV (w : Wave) (n l : Nat) (x : Word) : (w.setV n l x).stableAt = w.stableAt := rfl
@[simp] theorem Wave.residentAt_setV (w : Wave) (n l : Nat) (x : Word) : (w.setV n l x).residentAt = w.residentAt := rfl
@[simp] theorem Wave.promoted_setV (w : Wave) (n l : Nat) (x : Word) : (w.setV n l x).promoted = w.promoted := rfl
@[simp] theorem Wave.moving_setV (w : Wave) (n l : Nat) (x : Word) : (w.setV n l x).moving = w.moving := rfl
@[simp] theorem Wave.paddockA_setV (w : Wave) (n l : Nat) (x : Word) : (w.setV n l x).paddockA = w.paddockA := rfl
@[simp] theorem Wave.paddockB_setV (w : Wave) (n l : Nat) (x : Word) : (w.setV n l x).paddockB = w.paddockB := rfl
@[simp] theorem Wave.stallc_setV (w : Wave) (n l : Nat) (x : Word) : (w.setV n l x).stallc = w.stallc := rfl
@[simp] theorem Wave.upset_setV (w : Wave) (n l : Nat) (x : Word) : (w.setV n l x).upset = w.upsetBut (.v n) l := rfl
@[simp] theorem Wave.faded_setV (w : Wave) (n l : Nat) (x : Word) : (w.setV n l x).faded = w.faded := rfl
@[simp] theorem Wave.mmt_setV (w : Wave) (n l : Nat) (x : Word) : (w.setV n l x).mmt = w.mmt := rfl
@[simp] theorem Wave.slots_setV (w : Wave) (n l : Nat) (x : Word) : (w.setV n l x).slots = w.slots := rfl
@[simp] theorem Wave.residuals_setV (w : Wave) (n l : Nat) (x : Word) : (w.setV n l x).residuals = w.residuals := rfl

/-! ### Wave.setS -/

@[simp] theorem Wave.team_setS (w : Wave) (n : Nat) (x : DWord) : (w.setS n x).team = w.team := rfl
@[simp] theorem Wave.ixw_setS (w : Wave) (n : Nat) (x : DWord) : (w.setS n x).ixw = w.ixw := rfl
@[simp] theorem Wave.part_setS (w : Wave) (n : Nat) (x : DWord) : (w.setS n x).part = w.part := rfl
@[simp] theorem Wave.slot_setS (w : Wave) (n : Nat) (x : DWord) : (w.setS n x).slot = w.slot := rfl
@[simp] theorem Wave.cond_setS (w : Wave) (n : Nat) (x : DWord) : (w.setS n x).cond = w.cond := rfl
@[simp] theorem Wave.started_setS (w : Wave) (n : Nat) (x : DWord) : (w.setS n x).started = w.started := rfl
@[simp] theorem Wave.v_setS (w : Wave) (n : Nat) (x : DWord) : (w.setS n x).v = w.v := rfl
@[simp] theorem Wave.s_setS (w : Wave) (n : Nat) (x : DWord) : (w.setS n x).s = Sparse.wr w.s n x := rfl
@[simp] theorem Wave.p_setS (w : Wave) (n : Nat) (x : DWord) : (w.setS n x).p = w.p := rfl
@[simp] theorem Wave.t_setS (w : Wave) (n : Nat) (x : DWord) : (w.setS n x).t = w.t := rfl
@[simp] theorem Wave.a_setS (w : Wave) (n : Nat) (x : DWord) : (w.setS n x).a = w.a := rfl
@[simp] theorem Wave.partial_setS (w : Wave) (n : Nat) (x : DWord) : (w.setS n x).partial_ = w.partial_ := rfl
@[simp] theorem Wave.tstat_setS (w : Wave) (n : Nat) (x : DWord) : (w.setS n x).tstat = w.tstat := rfl
@[simp] theorem Wave.acc_setS (w : Wave) (n : Nat) (x : DWord) : (w.setS n x).acc = w.acc := rfl
@[simp] theorem Wave.unfold_setS (w : Wave) (n : Nat) (x : DWord) : (w.setS n x).unfold = w.unfold := rfl
@[simp] theorem Wave.mxkoff_setS (w : Wave) (n : Nat) (x : DWord) : (w.setS n x).mxkoff = w.mxkoff := rfl
@[simp] theorem Wave.mxscl_setS (w : Wave) (n : Nat) (x : DWord) : (w.setS n x).mxscl = w.mxscl := rfl
@[simp] theorem Wave.flags_setS (w : Wave) (n : Nat) (x : DWord) : (w.setS n x).flags = w.flags := rfl
@[simp] theorem Wave.recCount_setS (w : Wave) (n : Nat) (x : DWord) : (w.setS n x).recCount = w.recCount := rfl
@[simp] theorem Wave.tcause_setS (w : Wave) (n : Nat) (x : DWord) : (w.setS n x).tcause = w.tcause := rfl
@[simp] theorem Wave.tpc_setS (w : Wave) (n : Nat) (x : DWord) : (w.setS n x).tpc = w.tpc := rfl
@[simp] theorem Wave.tval_setS (w : Wave) (n : Nat) (x : DWord) : (w.setS n x).tval = w.tval := rfl
@[simp] theorem Wave.tpcWritten_setS (w : Wave) (n : Nat) (x : DWord) : (w.setS n x).tpcWritten = w.tpcWritten := rfl
@[simp] theorem Wave.savedHdr_setS (w : Wave) (n : Nat) (x : DWord) : (w.setS n x).savedHdr = w.savedHdr := rfl
@[simp] theorem Wave.savedPos_setS (w : Wave) (n : Nat) (x : DWord) : (w.setS n x).savedPos = w.savedPos := rfl
@[simp] theorem Wave.savedArr_setS (w : Wave) (n : Nat) (x : DWord) : (w.setS n x).savedArr = w.savedArr := rfl
@[simp] theorem Wave.nest_setS (w : Wave) (n : Nat) (x : DWord) : (w.setS n x).nest = w.nest := rfl
@[simp] theorem Wave.trapSlot_setS (w : Wave) (n : Nat) (x : DWord) : (w.setS n x).trapSlot = w.trapSlot := rfl
@[simp] theorem Wave.trapMask_setS (w : Wave) (n : Nat) (x : DWord) : (w.setS n x).trapMask = w.trapMask := rfl
@[simp] theorem Wave.boundary_setS (w : Wave) (n : Nat) (x : DWord) : (w.setS n x).boundary = w.boundary := rfl
@[simp] theorem Wave.starvArmed_setS (w : Wave) (n : Nat) (x : DWord) : (w.setS n x).starvArmed = w.starvArmed := rfl
@[simp] theorem Wave.starvLeft_setS (w : Wave) (n : Nat) (x : DWord) : (w.setS n x).starvLeft = w.starvLeft := rfl
@[simp] theorem Wave.starvExp_setS (w : Wave) (n : Nat) (x : DWord) : (w.setS n x).starvExp = w.starvExp := rfl
@[simp] theorem Wave.starvOp_setS (w : Wave) (n : Nat) (x : DWord) : (w.setS n x).starvOp = w.starvOp := rfl
@[simp] theorem Wave.root_setS (w : Wave) (n : Nat) (x : DWord) : (w.setS n x).root = w.root := rfl
@[simp] theorem Wave.slotA_setS (w : Wave) (n : Nat) (x : DWord) : (w.setS n x).slotA = w.slotA := rfl
@[simp] theorem Wave.slotB_setS (w : Wave) (n : Nat) (x : DWord) : (w.setS n x).slotB = w.slotB := rfl
@[simp] theorem Wave.fairA_setS (w : Wave) (n : Nat) (x : DWord) : (w.setS n x).fairA = w.fairA := rfl
@[simp] theorem Wave.fairB_setS (w : Wave) (n : Nat) (x : DWord) : (w.setS n x).fairB = w.fairB := rfl
@[simp] theorem Wave.deferA_setS (w : Wave) (n : Nat) (x : DWord) : (w.setS n x).deferA = w.deferA := rfl
@[simp] theorem Wave.deferB_setS (w : Wave) (n : Nat) (x : DWord) : (w.setS n x).deferB = w.deferB := rfl
@[simp] theorem Wave.region_setS (w : Wave) (n : Nat) (x : DWord) : (w.setS n x).region = w.region := rfl
@[simp] theorem Wave.resv_setS (w : Wave) (n : Nat) (x : DWord) : (w.setS n x).resv = w.resv := rfl
@[simp] theorem Wave.ldres_setS (w : Wave) (n : Nat) (x : DWord) : (w.setS n x).ldres = w.ldres := rfl
@[simp] theorem Wave.collAct_setS (w : Wave) (n : Nat) (x : DWord) : (w.setS n x).collAct = w.collAct := rfl
@[simp] theorem Wave.collEntry_setS (w : Wave) (n : Nat) (x : DWord) : (w.setS n x).collEntry = w.collEntry := rfl
@[simp] theorem Wave.collReg_setS (w : Wave) (n : Nat) (x : DWord) : (w.setS n x).collReg = w.collReg := rfl
@[simp] theorem Wave.apos_setS (w : Wave) (n : Nat) (x : DWord) : (w.setS n x).apos = w.apos := rfl
@[simp] theorem Wave.eapp_setS (w : Wave) (n : Nat) (x : DWord) : (w.setS n x).eapp = w.eapp := rfl
@[simp] theorem Wave.age_setS (w : Wave) (n : Nat) (x : DWord) : (w.setS n x).age = w.age := rfl
@[simp] theorem Wave.stall_setS (w : Wave) (n : Nat) (x : DWord) : (w.setS n x).stall = w.stall := rfl
@[simp] theorem Wave.lastSlot_setS (w : Wave) (n : Nat) (x : DWord) : (w.setS n x).lastSlot = w.lastSlot := rfl
@[simp] theorem Wave.yieldedAt_setS (w : Wave) (n : Nat) (x : DWord) : (w.setS n x).yieldedAt = w.yieldedAt := rfl
@[simp] theorem Wave.issuedAt_setS (w : Wave) (n : Nat) (x : DWord) : (w.setS n x).issuedAt = w.issuedAt := rfl
@[simp] theorem Wave.readyAt_setS (w : Wave) (n : Nat) (x : DWord) : (w.setS n x).readyAt = w.readyAt := rfl
@[simp] theorem Wave.stableAt_setS (w : Wave) (n : Nat) (x : DWord) : (w.setS n x).stableAt = w.stableAt := rfl
@[simp] theorem Wave.residentAt_setS (w : Wave) (n : Nat) (x : DWord) : (w.setS n x).residentAt = w.residentAt := rfl
@[simp] theorem Wave.promoted_setS (w : Wave) (n : Nat) (x : DWord) : (w.setS n x).promoted = w.promoted := rfl
@[simp] theorem Wave.moving_setS (w : Wave) (n : Nat) (x : DWord) : (w.setS n x).moving = w.moving := rfl
@[simp] theorem Wave.paddockA_setS (w : Wave) (n : Nat) (x : DWord) : (w.setS n x).paddockA = w.paddockA := rfl
@[simp] theorem Wave.paddockB_setS (w : Wave) (n : Nat) (x : DWord) : (w.setS n x).paddockB = w.paddockB := rfl
@[simp] theorem Wave.stallc_setS (w : Wave) (n : Nat) (x : DWord) : (w.setS n x).stallc = w.stallc := rfl
@[simp] theorem Wave.upset_setS (w : Wave) (n : Nat) (x : DWord) : (w.setS n x).upset = w.upsetBut (.s n) 0 := rfl
@[simp] theorem Wave.faded_setS (w : Wave) (n : Nat) (x : DWord) : (w.setS n x).faded = w.faded := rfl
@[simp] theorem Wave.mmt_setS (w : Wave) (n : Nat) (x : DWord) : (w.setS n x).mmt = w.mmt := rfl
@[simp] theorem Wave.slots_setS (w : Wave) (n : Nat) (x : DWord) : (w.setS n x).slots = w.slots := rfl
@[simp] theorem Wave.residuals_setS (w : Wave) (n : Nat) (x : DWord) : (w.setS n x).residuals = w.residuals := rfl

/-! ### Wave.setP -/

@[simp] theorem Wave.team_setP (w : Wave) (n : Nat) (x : Mask) : (w.setP n x).team = w.team := by unfold Wave.setP; split <;> rfl
@[simp] theorem Wave.ixw_setP (w : Wave) (n : Nat) (x : Mask) : (w.setP n x).ixw = w.ixw := by unfold Wave.setP; split <;> rfl
@[simp] theorem Wave.part_setP (w : Wave) (n : Nat) (x : Mask) : (w.setP n x).part = w.part := by unfold Wave.setP; split <;> rfl
@[simp] theorem Wave.slot_setP (w : Wave) (n : Nat) (x : Mask) : (w.setP n x).slot = w.slot := by unfold Wave.setP; split <;> rfl
@[simp] theorem Wave.cond_setP (w : Wave) (n : Nat) (x : Mask) : (w.setP n x).cond = w.cond := by unfold Wave.setP; split <;> rfl
@[simp] theorem Wave.started_setP (w : Wave) (n : Nat) (x : Mask) : (w.setP n x).started = w.started := by unfold Wave.setP; split <;> rfl
@[simp] theorem Wave.v_setP (w : Wave) (n : Nat) (x : Mask) : (w.setP n x).v = w.v := by unfold Wave.setP; split <;> rfl
@[simp] theorem Wave.s_setP (w : Wave) (n : Nat) (x : Mask) : (w.setP n x).s = w.s := by unfold Wave.setP; split <;> rfl
@[simp] theorem Wave.t_setP (w : Wave) (n : Nat) (x : Mask) : (w.setP n x).t = w.t := by unfold Wave.setP; split <;> rfl
@[simp] theorem Wave.a_setP (w : Wave) (n : Nat) (x : Mask) : (w.setP n x).a = w.a := by unfold Wave.setP; split <;> rfl
@[simp] theorem Wave.partial_setP (w : Wave) (n : Nat) (x : Mask) : (w.setP n x).partial_ = w.partial_ := by unfold Wave.setP; split <;> rfl
@[simp] theorem Wave.tstat_setP (w : Wave) (n : Nat) (x : Mask) : (w.setP n x).tstat = w.tstat := by unfold Wave.setP; split <;> rfl
@[simp] theorem Wave.acc_setP (w : Wave) (n : Nat) (x : Mask) : (w.setP n x).acc = w.acc := by unfold Wave.setP; split <;> rfl
@[simp] theorem Wave.unfold_setP (w : Wave) (n : Nat) (x : Mask) : (w.setP n x).unfold = w.unfold := by unfold Wave.setP; split <;> rfl
@[simp] theorem Wave.mxkoff_setP (w : Wave) (n : Nat) (x : Mask) : (w.setP n x).mxkoff = w.mxkoff := by unfold Wave.setP; split <;> rfl
@[simp] theorem Wave.mxscl_setP (w : Wave) (n : Nat) (x : Mask) : (w.setP n x).mxscl = w.mxscl := by unfold Wave.setP; split <;> rfl
@[simp] theorem Wave.flags_setP (w : Wave) (n : Nat) (x : Mask) : (w.setP n x).flags = w.flags := by unfold Wave.setP; split <;> rfl
@[simp] theorem Wave.recCount_setP (w : Wave) (n : Nat) (x : Mask) : (w.setP n x).recCount = w.recCount := by unfold Wave.setP; split <;> rfl
@[simp] theorem Wave.tcause_setP (w : Wave) (n : Nat) (x : Mask) : (w.setP n x).tcause = w.tcause := by unfold Wave.setP; split <;> rfl
@[simp] theorem Wave.tpc_setP (w : Wave) (n : Nat) (x : Mask) : (w.setP n x).tpc = w.tpc := by unfold Wave.setP; split <;> rfl
@[simp] theorem Wave.tval_setP (w : Wave) (n : Nat) (x : Mask) : (w.setP n x).tval = w.tval := by unfold Wave.setP; split <;> rfl
@[simp] theorem Wave.tpcWritten_setP (w : Wave) (n : Nat) (x : Mask) : (w.setP n x).tpcWritten = w.tpcWritten := by unfold Wave.setP; split <;> rfl
@[simp] theorem Wave.savedHdr_setP (w : Wave) (n : Nat) (x : Mask) : (w.setP n x).savedHdr = w.savedHdr := by unfold Wave.setP; split <;> rfl
@[simp] theorem Wave.savedPos_setP (w : Wave) (n : Nat) (x : Mask) : (w.setP n x).savedPos = w.savedPos := by unfold Wave.setP; split <;> rfl
@[simp] theorem Wave.savedArr_setP (w : Wave) (n : Nat) (x : Mask) : (w.setP n x).savedArr = w.savedArr := by unfold Wave.setP; split <;> rfl
@[simp] theorem Wave.nest_setP (w : Wave) (n : Nat) (x : Mask) : (w.setP n x).nest = w.nest := by unfold Wave.setP; split <;> rfl
@[simp] theorem Wave.trapSlot_setP (w : Wave) (n : Nat) (x : Mask) : (w.setP n x).trapSlot = w.trapSlot := by unfold Wave.setP; split <;> rfl
@[simp] theorem Wave.trapMask_setP (w : Wave) (n : Nat) (x : Mask) : (w.setP n x).trapMask = w.trapMask := by unfold Wave.setP; split <;> rfl
@[simp] theorem Wave.boundary_setP (w : Wave) (n : Nat) (x : Mask) : (w.setP n x).boundary = w.boundary := by unfold Wave.setP; split <;> rfl
@[simp] theorem Wave.starvArmed_setP (w : Wave) (n : Nat) (x : Mask) : (w.setP n x).starvArmed = w.starvArmed := by unfold Wave.setP; split <;> rfl
@[simp] theorem Wave.starvLeft_setP (w : Wave) (n : Nat) (x : Mask) : (w.setP n x).starvLeft = w.starvLeft := by unfold Wave.setP; split <;> rfl
@[simp] theorem Wave.starvExp_setP (w : Wave) (n : Nat) (x : Mask) : (w.setP n x).starvExp = w.starvExp := by unfold Wave.setP; split <;> rfl
@[simp] theorem Wave.starvOp_setP (w : Wave) (n : Nat) (x : Mask) : (w.setP n x).starvOp = w.starvOp := by unfold Wave.setP; split <;> rfl
@[simp] theorem Wave.root_setP (w : Wave) (n : Nat) (x : Mask) : (w.setP n x).root = w.root := by unfold Wave.setP; split <;> rfl
@[simp] theorem Wave.slotA_setP (w : Wave) (n : Nat) (x : Mask) : (w.setP n x).slotA = w.slotA := by unfold Wave.setP; split <;> rfl
@[simp] theorem Wave.slotB_setP (w : Wave) (n : Nat) (x : Mask) : (w.setP n x).slotB = w.slotB := by unfold Wave.setP; split <;> rfl
@[simp] theorem Wave.fairA_setP (w : Wave) (n : Nat) (x : Mask) : (w.setP n x).fairA = w.fairA := by unfold Wave.setP; split <;> rfl
@[simp] theorem Wave.fairB_setP (w : Wave) (n : Nat) (x : Mask) : (w.setP n x).fairB = w.fairB := by unfold Wave.setP; split <;> rfl
@[simp] theorem Wave.deferA_setP (w : Wave) (n : Nat) (x : Mask) : (w.setP n x).deferA = w.deferA := by unfold Wave.setP; split <;> rfl
@[simp] theorem Wave.deferB_setP (w : Wave) (n : Nat) (x : Mask) : (w.setP n x).deferB = w.deferB := by unfold Wave.setP; split <;> rfl
@[simp] theorem Wave.region_setP (w : Wave) (n : Nat) (x : Mask) : (w.setP n x).region = w.region := by unfold Wave.setP; split <;> rfl
@[simp] theorem Wave.resv_setP (w : Wave) (n : Nat) (x : Mask) : (w.setP n x).resv = w.resv := by unfold Wave.setP; split <;> rfl
@[simp] theorem Wave.ldres_setP (w : Wave) (n : Nat) (x : Mask) : (w.setP n x).ldres = w.ldres := by unfold Wave.setP; split <;> rfl
@[simp] theorem Wave.collAct_setP (w : Wave) (n : Nat) (x : Mask) : (w.setP n x).collAct = w.collAct := by unfold Wave.setP; split <;> rfl
@[simp] theorem Wave.collEntry_setP (w : Wave) (n : Nat) (x : Mask) : (w.setP n x).collEntry = w.collEntry := by unfold Wave.setP; split <;> rfl
@[simp] theorem Wave.collReg_setP (w : Wave) (n : Nat) (x : Mask) : (w.setP n x).collReg = w.collReg := by unfold Wave.setP; split <;> rfl
@[simp] theorem Wave.apos_setP (w : Wave) (n : Nat) (x : Mask) : (w.setP n x).apos = w.apos := by unfold Wave.setP; split <;> rfl
@[simp] theorem Wave.eapp_setP (w : Wave) (n : Nat) (x : Mask) : (w.setP n x).eapp = w.eapp := by unfold Wave.setP; split <;> rfl
@[simp] theorem Wave.age_setP (w : Wave) (n : Nat) (x : Mask) : (w.setP n x).age = w.age := by unfold Wave.setP; split <;> rfl
@[simp] theorem Wave.stall_setP (w : Wave) (n : Nat) (x : Mask) : (w.setP n x).stall = w.stall := by unfold Wave.setP; split <;> rfl
@[simp] theorem Wave.lastSlot_setP (w : Wave) (n : Nat) (x : Mask) : (w.setP n x).lastSlot = w.lastSlot := by unfold Wave.setP; split <;> rfl
@[simp] theorem Wave.yieldedAt_setP (w : Wave) (n : Nat) (x : Mask) : (w.setP n x).yieldedAt = w.yieldedAt := by unfold Wave.setP; split <;> rfl
@[simp] theorem Wave.issuedAt_setP (w : Wave) (n : Nat) (x : Mask) : (w.setP n x).issuedAt = w.issuedAt := by unfold Wave.setP; split <;> rfl
@[simp] theorem Wave.readyAt_setP (w : Wave) (n : Nat) (x : Mask) : (w.setP n x).readyAt = w.readyAt := by unfold Wave.setP; split <;> rfl
@[simp] theorem Wave.stableAt_setP (w : Wave) (n : Nat) (x : Mask) : (w.setP n x).stableAt = w.stableAt := by unfold Wave.setP; split <;> rfl
@[simp] theorem Wave.residentAt_setP (w : Wave) (n : Nat) (x : Mask) : (w.setP n x).residentAt = w.residentAt := by unfold Wave.setP; split <;> rfl
@[simp] theorem Wave.promoted_setP (w : Wave) (n : Nat) (x : Mask) : (w.setP n x).promoted = w.promoted := by unfold Wave.setP; split <;> rfl
@[simp] theorem Wave.moving_setP (w : Wave) (n : Nat) (x : Mask) : (w.setP n x).moving = w.moving := by unfold Wave.setP; split <;> rfl
@[simp] theorem Wave.paddockA_setP (w : Wave) (n : Nat) (x : Mask) : (w.setP n x).paddockA = w.paddockA := by unfold Wave.setP; split <;> rfl
@[simp] theorem Wave.paddockB_setP (w : Wave) (n : Nat) (x : Mask) : (w.setP n x).paddockB = w.paddockB := by unfold Wave.setP; split <;> rfl
@[simp] theorem Wave.stallc_setP (w : Wave) (n : Nat) (x : Mask) : (w.setP n x).stallc = w.stallc := by unfold Wave.setP; split <;> rfl
@[simp] theorem Wave.faded_setP (w : Wave) (n : Nat) (x : Mask) : (w.setP n x).faded = w.faded := by unfold Wave.setP; split <;> rfl
@[simp] theorem Wave.mmt_setP (w : Wave) (n : Nat) (x : Mask) : (w.setP n x).mmt = w.mmt := by unfold Wave.setP; split <;> rfl
@[simp] theorem Wave.slots_setP (w : Wave) (n : Nat) (x : Mask) : (w.setP n x).slots = w.slots := by unfold Wave.setP; split <;> rfl
@[simp] theorem Wave.residuals_setP (w : Wave) (n : Nat) (x : Mask) : (w.setP n x).residuals = w.residuals := by unfold Wave.setP; split <;> rfl

/-! ### Wave.orFlags -/

@[simp] theorem Wave.team_orFlags (w : Wave) (f : Fl) : (w.orFlags f).team = w.team := rfl
@[simp] theorem Wave.ixw_orFlags (w : Wave) (f : Fl) : (w.orFlags f).ixw = w.ixw := rfl
@[simp] theorem Wave.part_orFlags (w : Wave) (f : Fl) : (w.orFlags f).part = w.part := rfl
@[simp] theorem Wave.slot_orFlags (w : Wave) (f : Fl) : (w.orFlags f).slot = w.slot := rfl
@[simp] theorem Wave.cond_orFlags (w : Wave) (f : Fl) : (w.orFlags f).cond = w.cond := rfl
@[simp] theorem Wave.started_orFlags (w : Wave) (f : Fl) : (w.orFlags f).started = w.started := rfl
@[simp] theorem Wave.v_orFlags (w : Wave) (f : Fl) : (w.orFlags f).v = w.v := rfl
@[simp] theorem Wave.s_orFlags (w : Wave) (f : Fl) : (w.orFlags f).s = w.s := rfl
@[simp] theorem Wave.p_orFlags (w : Wave) (f : Fl) : (w.orFlags f).p = w.p := rfl
@[simp] theorem Wave.t_orFlags (w : Wave) (f : Fl) : (w.orFlags f).t = w.t := rfl
@[simp] theorem Wave.a_orFlags (w : Wave) (f : Fl) : (w.orFlags f).a = w.a := rfl
@[simp] theorem Wave.partial_orFlags (w : Wave) (f : Fl) : (w.orFlags f).partial_ = w.partial_ := rfl
@[simp] theorem Wave.tstat_orFlags (w : Wave) (f : Fl) : (w.orFlags f).tstat = w.tstat := rfl
@[simp] theorem Wave.acc_orFlags (w : Wave) (f : Fl) : (w.orFlags f).acc = w.acc := rfl
@[simp] theorem Wave.unfold_orFlags (w : Wave) (f : Fl) : (w.orFlags f).unfold = w.unfold := rfl
@[simp] theorem Wave.mxkoff_orFlags (w : Wave) (f : Fl) : (w.orFlags f).mxkoff = w.mxkoff := rfl
@[simp] theorem Wave.mxscl_orFlags (w : Wave) (f : Fl) : (w.orFlags f).mxscl = w.mxscl := rfl
@[simp] theorem Wave.flags_orFlags (w : Wave) (f : Fl) : (w.orFlags f).flags = w.flags ||| f := rfl
@[simp] theorem Wave.recCount_orFlags (w : Wave) (f : Fl) : (w.orFlags f).recCount = w.recCount := rfl
@[simp] theorem Wave.tcause_orFlags (w : Wave) (f : Fl) : (w.orFlags f).tcause = w.tcause := rfl
@[simp] theorem Wave.tpc_orFlags (w : Wave) (f : Fl) : (w.orFlags f).tpc = w.tpc := rfl
@[simp] theorem Wave.tval_orFlags (w : Wave) (f : Fl) : (w.orFlags f).tval = w.tval := rfl
@[simp] theorem Wave.tpcWritten_orFlags (w : Wave) (f : Fl) : (w.orFlags f).tpcWritten = w.tpcWritten := rfl
@[simp] theorem Wave.savedHdr_orFlags (w : Wave) (f : Fl) : (w.orFlags f).savedHdr = w.savedHdr := rfl
@[simp] theorem Wave.savedPos_orFlags (w : Wave) (f : Fl) : (w.orFlags f).savedPos = w.savedPos := rfl
@[simp] theorem Wave.savedArr_orFlags (w : Wave) (f : Fl) : (w.orFlags f).savedArr = w.savedArr := rfl
@[simp] theorem Wave.nest_orFlags (w : Wave) (f : Fl) : (w.orFlags f).nest = w.nest := rfl
@[simp] theorem Wave.trapSlot_orFlags (w : Wave) (f : Fl) : (w.orFlags f).trapSlot = w.trapSlot := rfl
@[simp] theorem Wave.trapMask_orFlags (w : Wave) (f : Fl) : (w.orFlags f).trapMask = w.trapMask := rfl
@[simp] theorem Wave.boundary_orFlags (w : Wave) (f : Fl) : (w.orFlags f).boundary = w.boundary := rfl
@[simp] theorem Wave.starvArmed_orFlags (w : Wave) (f : Fl) : (w.orFlags f).starvArmed = w.starvArmed := rfl
@[simp] theorem Wave.starvLeft_orFlags (w : Wave) (f : Fl) : (w.orFlags f).starvLeft = w.starvLeft := rfl
@[simp] theorem Wave.starvExp_orFlags (w : Wave) (f : Fl) : (w.orFlags f).starvExp = w.starvExp := rfl
@[simp] theorem Wave.starvOp_orFlags (w : Wave) (f : Fl) : (w.orFlags f).starvOp = w.starvOp := rfl
@[simp] theorem Wave.root_orFlags (w : Wave) (f : Fl) : (w.orFlags f).root = w.root := rfl
@[simp] theorem Wave.slotA_orFlags (w : Wave) (f : Fl) : (w.orFlags f).slotA = w.slotA := rfl
@[simp] theorem Wave.slotB_orFlags (w : Wave) (f : Fl) : (w.orFlags f).slotB = w.slotB := rfl
@[simp] theorem Wave.fairA_orFlags (w : Wave) (f : Fl) : (w.orFlags f).fairA = w.fairA := rfl
@[simp] theorem Wave.fairB_orFlags (w : Wave) (f : Fl) : (w.orFlags f).fairB = w.fairB := rfl
@[simp] theorem Wave.deferA_orFlags (w : Wave) (f : Fl) : (w.orFlags f).deferA = w.deferA := rfl
@[simp] theorem Wave.deferB_orFlags (w : Wave) (f : Fl) : (w.orFlags f).deferB = w.deferB := rfl
@[simp] theorem Wave.region_orFlags (w : Wave) (f : Fl) : (w.orFlags f).region = w.region := rfl
@[simp] theorem Wave.resv_orFlags (w : Wave) (f : Fl) : (w.orFlags f).resv = w.resv := rfl
@[simp] theorem Wave.ldres_orFlags (w : Wave) (f : Fl) : (w.orFlags f).ldres = w.ldres := rfl
@[simp] theorem Wave.collAct_orFlags (w : Wave) (f : Fl) : (w.orFlags f).collAct = w.collAct := rfl
@[simp] theorem Wave.collEntry_orFlags (w : Wave) (f : Fl) : (w.orFlags f).collEntry = w.collEntry := rfl
@[simp] theorem Wave.collReg_orFlags (w : Wave) (f : Fl) : (w.orFlags f).collReg = w.collReg := rfl
@[simp] theorem Wave.apos_orFlags (w : Wave) (f : Fl) : (w.orFlags f).apos = w.apos := rfl
@[simp] theorem Wave.eapp_orFlags (w : Wave) (f : Fl) : (w.orFlags f).eapp = w.eapp := rfl
@[simp] theorem Wave.age_orFlags (w : Wave) (f : Fl) : (w.orFlags f).age = w.age := rfl
@[simp] theorem Wave.stall_orFlags (w : Wave) (f : Fl) : (w.orFlags f).stall = w.stall := rfl
@[simp] theorem Wave.lastSlot_orFlags (w : Wave) (f : Fl) : (w.orFlags f).lastSlot = w.lastSlot := rfl
@[simp] theorem Wave.yieldedAt_orFlags (w : Wave) (f : Fl) : (w.orFlags f).yieldedAt = w.yieldedAt := rfl
@[simp] theorem Wave.issuedAt_orFlags (w : Wave) (f : Fl) : (w.orFlags f).issuedAt = w.issuedAt := rfl
@[simp] theorem Wave.readyAt_orFlags (w : Wave) (f : Fl) : (w.orFlags f).readyAt = w.readyAt := rfl
@[simp] theorem Wave.stableAt_orFlags (w : Wave) (f : Fl) : (w.orFlags f).stableAt = w.stableAt := rfl
@[simp] theorem Wave.residentAt_orFlags (w : Wave) (f : Fl) : (w.orFlags f).residentAt = w.residentAt := rfl
@[simp] theorem Wave.promoted_orFlags (w : Wave) (f : Fl) : (w.orFlags f).promoted = w.promoted := rfl
@[simp] theorem Wave.moving_orFlags (w : Wave) (f : Fl) : (w.orFlags f).moving = w.moving := rfl
@[simp] theorem Wave.paddockA_orFlags (w : Wave) (f : Fl) : (w.orFlags f).paddockA = w.paddockA := rfl
@[simp] theorem Wave.paddockB_orFlags (w : Wave) (f : Fl) : (w.orFlags f).paddockB = w.paddockB := rfl
@[simp] theorem Wave.stallc_orFlags (w : Wave) (f : Fl) : (w.orFlags f).stallc = w.stallc := rfl
@[simp] theorem Wave.upset_orFlags (w : Wave) (f : Fl) : (w.orFlags f).upset = w.upset := rfl
@[simp] theorem Wave.faded_orFlags (w : Wave) (f : Fl) : (w.orFlags f).faded = w.faded := rfl
@[simp] theorem Wave.mmt_orFlags (w : Wave) (f : Fl) : (w.orFlags f).mmt = w.mmt := rfl
@[simp] theorem Wave.slots_orFlags (w : Wave) (f : Fl) : (w.orFlags f).slots = w.slots := rfl
@[simp] theorem Wave.residuals_orFlags (w : Wave) (f : Fl) : (w.orFlags f).residuals = w.residuals := rfl

/-! ### Wave.setTree -/

@[simp] theorem Wave.team_setTree (w : Wave) (k : Slot) (t : PTree) : (w.setTree k t).team = w.team := by cases k <;> rfl
@[simp] theorem Wave.ixw_setTree (w : Wave) (k : Slot) (t : PTree) : (w.setTree k t).ixw = w.ixw := by cases k <;> rfl
@[simp] theorem Wave.part_setTree (w : Wave) (k : Slot) (t : PTree) : (w.setTree k t).part = w.part := by cases k <;> rfl
@[simp] theorem Wave.slot_setTree (w : Wave) (k : Slot) (t : PTree) : (w.setTree k t).slot = w.slot := by cases k <;> rfl
@[simp] theorem Wave.cond_setTree (w : Wave) (k : Slot) (t : PTree) : (w.setTree k t).cond = w.cond := by cases k <;> rfl
@[simp] theorem Wave.started_setTree (w : Wave) (k : Slot) (t : PTree) : (w.setTree k t).started = w.started := by cases k <;> rfl
@[simp] theorem Wave.v_setTree (w : Wave) (k : Slot) (t : PTree) : (w.setTree k t).v = w.v := by cases k <;> rfl
@[simp] theorem Wave.s_setTree (w : Wave) (k : Slot) (t : PTree) : (w.setTree k t).s = w.s := by cases k <;> rfl
@[simp] theorem Wave.p_setTree (w : Wave) (k : Slot) (t : PTree) : (w.setTree k t).p = w.p := by cases k <;> rfl
@[simp] theorem Wave.t_setTree (w : Wave) (k : Slot) (t : PTree) : (w.setTree k t).t = w.t := by cases k <;> rfl
@[simp] theorem Wave.a_setTree (w : Wave) (k : Slot) (t : PTree) : (w.setTree k t).a = w.a := by cases k <;> rfl
@[simp] theorem Wave.partial_setTree (w : Wave) (k : Slot) (t : PTree) : (w.setTree k t).partial_ = w.partial_ := by cases k <;> rfl
@[simp] theorem Wave.tstat_setTree (w : Wave) (k : Slot) (t : PTree) : (w.setTree k t).tstat = w.tstat := by cases k <;> rfl
@[simp] theorem Wave.acc_setTree (w : Wave) (k : Slot) (t : PTree) : (w.setTree k t).acc = w.acc := by cases k <;> rfl
@[simp] theorem Wave.unfold_setTree (w : Wave) (k : Slot) (t : PTree) : (w.setTree k t).unfold = w.unfold := by cases k <;> rfl
@[simp] theorem Wave.mxkoff_setTree (w : Wave) (k : Slot) (t : PTree) : (w.setTree k t).mxkoff = w.mxkoff := by cases k <;> rfl
@[simp] theorem Wave.mxscl_setTree (w : Wave) (k : Slot) (t : PTree) : (w.setTree k t).mxscl = w.mxscl := by cases k <;> rfl
@[simp] theorem Wave.flags_setTree (w : Wave) (k : Slot) (t : PTree) : (w.setTree k t).flags = w.flags := by cases k <;> rfl
@[simp] theorem Wave.recCount_setTree (w : Wave) (k : Slot) (t : PTree) : (w.setTree k t).recCount = w.recCount := by cases k <;> rfl
@[simp] theorem Wave.tcause_setTree (w : Wave) (k : Slot) (t : PTree) : (w.setTree k t).tcause = w.tcause := by cases k <;> rfl
@[simp] theorem Wave.tpc_setTree (w : Wave) (k : Slot) (t : PTree) : (w.setTree k t).tpc = w.tpc := by cases k <;> rfl
@[simp] theorem Wave.tval_setTree (w : Wave) (k : Slot) (t : PTree) : (w.setTree k t).tval = w.tval := by cases k <;> rfl
@[simp] theorem Wave.tpcWritten_setTree (w : Wave) (k : Slot) (t : PTree) : (w.setTree k t).tpcWritten = w.tpcWritten := by cases k <;> rfl
@[simp] theorem Wave.savedHdr_setTree (w : Wave) (k : Slot) (t : PTree) : (w.setTree k t).savedHdr = w.savedHdr := by cases k <;> rfl
@[simp] theorem Wave.savedPos_setTree (w : Wave) (k : Slot) (t : PTree) : (w.setTree k t).savedPos = w.savedPos := by cases k <;> rfl
@[simp] theorem Wave.savedArr_setTree (w : Wave) (k : Slot) (t : PTree) : (w.setTree k t).savedArr = w.savedArr := by cases k <;> rfl
@[simp] theorem Wave.nest_setTree (w : Wave) (k : Slot) (t : PTree) : (w.setTree k t).nest = w.nest := by cases k <;> rfl
@[simp] theorem Wave.trapSlot_setTree (w : Wave) (k : Slot) (t : PTree) : (w.setTree k t).trapSlot = w.trapSlot := by cases k <;> rfl
@[simp] theorem Wave.trapMask_setTree (w : Wave) (k : Slot) (t : PTree) : (w.setTree k t).trapMask = w.trapMask := by cases k <;> rfl
@[simp] theorem Wave.boundary_setTree (w : Wave) (k : Slot) (t : PTree) : (w.setTree k t).boundary = w.boundary := by cases k <;> rfl
@[simp] theorem Wave.starvArmed_setTree (w : Wave) (k : Slot) (t : PTree) : (w.setTree k t).starvArmed = w.starvArmed := by cases k <;> rfl
@[simp] theorem Wave.starvLeft_setTree (w : Wave) (k : Slot) (t : PTree) : (w.setTree k t).starvLeft = w.starvLeft := by cases k <;> rfl
@[simp] theorem Wave.starvExp_setTree (w : Wave) (k : Slot) (t : PTree) : (w.setTree k t).starvExp = w.starvExp := by cases k <;> rfl
@[simp] theorem Wave.starvOp_setTree (w : Wave) (k : Slot) (t : PTree) : (w.setTree k t).starvOp = w.starvOp := by cases k <;> rfl
@[simp] theorem Wave.root_setTree (w : Wave) (k : Slot) (t : PTree) : (w.setTree k t).root = w.root := by cases k <;> rfl
@[simp] theorem Wave.fairA_setTree (w : Wave) (k : Slot) (t : PTree) : (w.setTree k t).fairA = w.fairA := by cases k <;> rfl
@[simp] theorem Wave.fairB_setTree (w : Wave) (k : Slot) (t : PTree) : (w.setTree k t).fairB = w.fairB := by cases k <;> rfl
@[simp] theorem Wave.deferA_setTree (w : Wave) (k : Slot) (t : PTree) : (w.setTree k t).deferA = w.deferA := by cases k <;> rfl
@[simp] theorem Wave.deferB_setTree (w : Wave) (k : Slot) (t : PTree) : (w.setTree k t).deferB = w.deferB := by cases k <;> rfl
@[simp] theorem Wave.region_setTree (w : Wave) (k : Slot) (t : PTree) : (w.setTree k t).region = w.region := by cases k <;> rfl
@[simp] theorem Wave.resv_setTree (w : Wave) (k : Slot) (t : PTree) : (w.setTree k t).resv = w.resv := by cases k <;> rfl
@[simp] theorem Wave.ldres_setTree (w : Wave) (k : Slot) (t : PTree) : (w.setTree k t).ldres = w.ldres := by cases k <;> rfl
@[simp] theorem Wave.collAct_setTree (w : Wave) (k : Slot) (t : PTree) : (w.setTree k t).collAct = w.collAct := by cases k <;> rfl
@[simp] theorem Wave.collEntry_setTree (w : Wave) (k : Slot) (t : PTree) : (w.setTree k t).collEntry = w.collEntry := by cases k <;> rfl
@[simp] theorem Wave.collReg_setTree (w : Wave) (k : Slot) (t : PTree) : (w.setTree k t).collReg = w.collReg := by cases k <;> rfl
@[simp] theorem Wave.apos_setTree (w : Wave) (k : Slot) (t : PTree) : (w.setTree k t).apos = w.apos := by cases k <;> rfl
@[simp] theorem Wave.eapp_setTree (w : Wave) (k : Slot) (t : PTree) : (w.setTree k t).eapp = w.eapp := by cases k <;> rfl
@[simp] theorem Wave.age_setTree (w : Wave) (k : Slot) (t : PTree) : (w.setTree k t).age = w.age := by cases k <;> rfl
@[simp] theorem Wave.stall_setTree (w : Wave) (k : Slot) (t : PTree) : (w.setTree k t).stall = w.stall := by cases k <;> rfl
@[simp] theorem Wave.lastSlot_setTree (w : Wave) (k : Slot) (t : PTree) : (w.setTree k t).lastSlot = w.lastSlot := by cases k <;> rfl
@[simp] theorem Wave.yieldedAt_setTree (w : Wave) (k : Slot) (t : PTree) : (w.setTree k t).yieldedAt = w.yieldedAt := by cases k <;> rfl
@[simp] theorem Wave.issuedAt_setTree (w : Wave) (k : Slot) (t : PTree) : (w.setTree k t).issuedAt = w.issuedAt := by cases k <;> rfl
@[simp] theorem Wave.readyAt_setTree (w : Wave) (k : Slot) (t : PTree) : (w.setTree k t).readyAt = w.readyAt := by cases k <;> rfl
@[simp] theorem Wave.stableAt_setTree (w : Wave) (k : Slot) (t : PTree) : (w.setTree k t).stableAt = w.stableAt := by cases k <;> rfl
@[simp] theorem Wave.residentAt_setTree (w : Wave) (k : Slot) (t : PTree) : (w.setTree k t).residentAt = w.residentAt := by cases k <;> rfl
@[simp] theorem Wave.promoted_setTree (w : Wave) (k : Slot) (t : PTree) : (w.setTree k t).promoted = w.promoted := by cases k <;> rfl
@[simp] theorem Wave.moving_setTree (w : Wave) (k : Slot) (t : PTree) : (w.setTree k t).moving = w.moving := by cases k <;> rfl
@[simp] theorem Wave.paddockA_setTree (w : Wave) (k : Slot) (t : PTree) : (w.setTree k t).paddockA = w.paddockA := by cases k <;> rfl
@[simp] theorem Wave.paddockB_setTree (w : Wave) (k : Slot) (t : PTree) : (w.setTree k t).paddockB = w.paddockB := by cases k <;> rfl
@[simp] theorem Wave.stallc_setTree (w : Wave) (k : Slot) (t : PTree) : (w.setTree k t).stallc = w.stallc := by cases k <;> rfl
@[simp] theorem Wave.upset_setTree (w : Wave) (k : Slot) (t : PTree) : (w.setTree k t).upset = w.upset := by cases k <;> rfl
@[simp] theorem Wave.faded_setTree (w : Wave) (k : Slot) (t : PTree) : (w.setTree k t).faded = w.faded := by cases k <;> rfl
@[simp] theorem Wave.mmt_setTree (w : Wave) (k : Slot) (t : PTree) : (w.setTree k t).mmt = w.mmt := by cases k <;> rfl
@[simp] theorem Wave.slots_setTree (w : Wave) (k : Slot) (t : PTree) : (w.setTree k t).slots = w.slots := by cases k <;> rfl
@[simp] theorem Wave.residuals_setTree (w : Wave) (k : Slot) (t : PTree) : (w.setTree k t).residuals = w.residuals := by cases k <;> rfl

/-! ### The leaf and the paths that an update makes -/

@[simp] theorem Wave.tree_setTree (w : Wave) (k : Slot) (t : PTree) : (w.setTree k t).tree k = t := by cases k <;> rfl

theorem Wave.tree_setTree_other (w : Wave) {j k : Slot} (t : PTree) (h : j ≠ k) : (w.setTree k t).tree j = w.tree j := by
  cases j <;> cases k <;> simp_all [Wave.tree, Wave.setTree]

@[simp] theorem Wave.preg_zero (w : Wave) : w.preg 0 = BitVec.allOnes 32 := rfl

@[simp] theorem Wave.setP_zero (w : Wave) (x : Mask) : w.setP 0 x = w := rfl

@[simp] theorem Wave.vreg_setS (w : Wave) (n : Nat) (x : DWord) (r l : Nat) : (w.setS n x).vreg r l = w.vreg r l := rfl

@[simp] theorem Wave.sreg_setV (w : Wave) (n l : Nat) (x : Word) (k : Nat) : (w.setV n l x).sreg k = w.sreg k := rfl

end Sys2Proof.Machine
end

