-- ==== Sys2Proof/Laws/Ops.lean ====
section
/-!
SUPPORT. What the shared issue operation can answer: it stops only when no path issues; a clear instruction raises the causes of its
checks, else waits, else has its effect (`issueWith_clear`).
-/

namespace Sys2Proof.Machine

/-- THE ISSUE never refuses, and faults only when no path is issuing. -/
theorem issueWith_answers (i : Instr) (g : Guard) (b : Bool) (chk : Env → State → List Cause) (wait : Env → State → Option Nat)
    (act : PathRef → List Env → State → State) (after : Env → State → List Cause) (s : State) :
    (s.issuing = none ∧ issueWith i g b chk wait act after s = .fault .noIssuingPath) ∨
      ∃ t, issueWith i g b chk wait act after s = .next t := by
  unfold issueWith
  cases h : s.issuing with
  | none => exact .inl ⟨rfl, rfl⟩
  | some x =>
    refine .inr ?_
    dsimp only
    repeat' first
      | exact ⟨_, rfl⟩
      | split

/-- What a clear instruction has done before its checks: nothing, since no home wave holds an upset register. -/
theorem State.clear_reads {s : State} {p : PathRef} {l : Leaf} {i : Instr} {g : Guard} {b : Bool} (h : s.clear p l i g b = true) :
    (s.acting p l i g b).foldl (fun s e => s.readErrors i e.wave) s = s := by
  obtain ⟨-, -, -, -, h5, -⟩ := State.clear_parts h
  exact foldl_readErrors i fun e he => by
    obtain ⟨x, hx, hex⟩ := State.acting_home he; rw [hex]; exact (h5 x hx).2

/-- A clear instruction whose checks raise causes raises them and does nothing else. -/
theorem issueWith_causes {i : Instr} {g : Guard} {b : Bool} {chk : Env → State → List Cause} {wait : Env → State → Option Nat}
    {act : PathRef → List Env → State → State} {after : Env → State → List Cause} {s : State} {p : PathRef} {l : Leaf}
    (h : s.clear p l i g b = true) (hc : (s.acting p l i g b).flatMap (fun e => chk e s) ≠ []) :
    issueWith i g b chk wait act after s = .next (s.raiseOrHold p ((s.acting p l i g b).flatMap fun e => chk e s)) := by
  obtain ⟨h1, h2, h3, -, -, -⟩ := State.clear_parts h
  have hr := State.clear_reads h
  have hne : (s.acting p l i g b).isEmpty = false := by
    cases hx : s.acting p l i g b with
    | nil => rw [hx] at hc; exact absurd rfl hc
    | cons _ _ => rfl
  have hi : ((s.acting p l i g b).flatMap fun e => chk e s).isEmpty = false := List.isEmpty_eq_false_iff.mpr hc
  unfold issueWith
  simp only [h1, h2]
  cases b <;> simp only [State.acting, ite_true, Bool.false_eq_true, ite_false] at h3 hr hne hi ⊢ <;>
    simp only [h3, hr, hne, hi, Bool.not_true, Bool.not_false, Bool.false_and, Bool.and_false, Bool.false_eq_true, ite_true,
      ite_false]

/-- A clear instruction whose checks pass and which has to wait is held, and nothing else changes. -/
theorem issueWith_waits {i : Instr} {g : Guard} {b : Bool} {chk : Env → State → List Cause} {wait : Env → State → Option Nat}
    {act : PathRef → List Env → State → State} {after : Env → State → List Cause} {s : State} {p : PathRef} {l : Leaf} {c : Nat}
    (h : s.clear p l i g b = true) (hc : ∀ e ∈ s.acting p l i g b, chk e s = [])
    (hw : (s.acting p l i g b).findSome? (fun e => wait e s) = some c) :
    issueWith i g b chk wait act after s = .next (s.hold c) := by
  obtain ⟨h1, h2, h3, -, -, -⟩ := State.clear_parts h
  have hr := State.clear_reads h
  have hcs : (s.acting p l i g b).flatMap (fun e => chk e s) = [] := List.flatMap_eq_nil_iff.mpr hc
  have hne : (s.acting p l i g b).isEmpty = false := by
    cases hx : s.acting p l i g b with
    | nil => rw [hx] at hw; exact absurd hw (by simp)
    | cons _ _ => rfl
  unfold issueWith
  simp only [h1, h2]
  cases b <;> simp only [State.acting, ite_true, Bool.false_eq_true, ite_false] at h3 hr hne hcs hw ⊢ <;>
    simp only [h3, hr, hne, hcs, hw, Bool.not_true, Bool.not_false, Bool.false_and, Bool.and_false, Bool.false_eq_true,
      ite_false, List.isEmpty_nil]

end Sys2Proof.Machine
end

