-- ==== Sys2Proof/Tests/Slice0.lean ====
section
/-!
SUPPORT. Tests of the model against words and results that the spec gives or that follow from its rules by hand, and, for each
statement, concrete states and operands that meet its hypotheses.
-/

set_option maxRecDepth 100000
set_option Elab.async false

namespace Sys2Proof.Tests

open Sys2Proof.Machine Sys2Proof.Claims

/-! ## Small states -/

def always : Guard := ⟨0, false⟩
def one1 : Block := ⟨.one, .one⟩
def path : PathRef := ⟨1, .a⟩

/-- The words of `i` in device memory, and a wave of context 0 (the privileged context) that issues it, changed by `f`. -/
def issuing (i : Instr) (f : Wave → Wave := id) : State :=
  let ws := match encode i with
    | some (w, x) => [w, x.getD 0]
    | none => []
  ({ State.reset.placeProgram ws with cur := some path, grant := none } : State).updWave path.wave f

def leaf (s : State) : Leaf := (s.leafAt path).getD (Leaf.atHeader 0 0 .running 0)

/-- What the wave's 32 active lanes see. -/
def env (s : State) (i : Instr) : Env := ⟨path, 1, BitVec.allOnes 32, BitVec.allOnes 32, leaf s, instrWord i⟩

theorem only {l : List Env} {e : Env} {P : Env → Prop} (h : l = [e]) (hp : P e) : ∀ x ∈ l, P x := by
  subst h; intro x hx; cases List.mem_singleton.mp hx; exact hp

theorem ok_of {ε α : Type} {x : Except ε α} {y : α} (h : x.toOption = some y) : x = .ok y := by
  cases x with
  | ok a => exact congrArg Except.ok (Option.some.inj h)
  | error _ => cases h

theorem error_of {ε α : Type} [DecidableEq ε] {x : Except ε α} {y : ε} (h : (match x with | .error z => z == y | .ok _ => false) = true) : x = .error y := by
  cases x with
  | ok _ => cases h
  | error z => exact congrArg Except.error (by simpa using h)

/-- Every one of these goes through, with all lanes active. -/
def allClear (is : List Instr) (f : Wave → Wave := id) : Bool :=
  is.all fun i => let s := issuing i f; s.clear path (leaf s) i always false && s.acting path (leaf s) i always false == [env s i]

theorem enter {s : State} {w : Nat} {a H : DWord}
    (h : (a.toNat % 8 == 0 && (s.fetch w a).toOption == some H && s.headerOk w H) = true) : mayEnter s w a := by
  simp only [Bool.and_eq_true, beq_iff_eq] at h
  refine ⟨h.1.1, fun x hx => ?_⟩
  have := h.1.2
  rw [hx] at this
  cases Option.some.inj this
  exact h.2

/-- `i` answers a next state. -/
def Goes (i : Instr) (s : State) : Prop := ∃ t, exec i s = .next t

/-- The completion of `i` in `s`, where all lanes are active and `ok` holds. -/
theorem goes {i : Instr} {b : Bool} {ok : Env → State → Prop} {act : PathRef → Leaf → List Env → State → State}
    (h : completes i always b ok act) (s : State)
    (hc : (s.clear path (leaf s) i always b && s.acting path (leaf s) i always b == [env s i]) = true) (hok : ok (env s i) s) : Goes i s := by
  simp only [Bool.and_eq_true, beq_iff_eq] at hc
  exact ⟨_, h s path (leaf s) hc.1 (by rw [hc.2]; exact List.cons_ne_nil _ _) (only hc.2 hok)⟩

/-- `i` meets the hypotheses of a statement that speaks of clear instructions. -/
def clearAt (i : Instr) (b : Bool) (s : State) : Bool :=
  s.clear path (leaf s) i always b && s.acting path (leaf s) i always b == [env s i]

theorem clearAt_clear {i : Instr} {b : Bool} {s : State} (h : clearAt i b s = true) : s.clear path (leaf s) i always b = true := by
  simp only [clearAt, Bool.and_eq_true] at h; exact h.1

theorem clearAt_acting {i : Instr} {b : Bool} {s : State} (h : clearAt i b s = true) : s.acting path (leaf s) i always b = [env s i] := by
  simp only [clearAt, Bool.and_eq_true, beq_iff_eq] at h; exact h.2

/-! ## Hypotheses that are met: arithmetic and registers -/

def vv (n : VReg) : Src := .v n false

/-- Vector and uniform forms, and each form of operand B, go through. -/
theorem wit_IntegerArithmetic : allClear
    [.iadd .wrap ⟨always, .v 1, vv 2, .reg (vv 3), one1⟩, .isub .ss ⟨always, .s 1, .s 2, .imm 3, one1⟩, .imul .us ⟨always, .v 1, vv 2, .lit 3, one1⟩,
      .imulh true ⟨always, .v 1, vv 2, .reg (.s 3), one1⟩, .rotl ⟨always, .v 1, vv 2, .imm 3, one1⟩, .lea 4 ⟨always, .s 1, .s 2, .imm 3, one1⟩,
      .ineg true ⟨always, .v 1, vv 2, one1⟩, .brev ⟨always, .s 1, .s 2, one1⟩, .imad .ss ⟨always, .v 1, vv 2, .reg (vv 3), vv 4, one1⟩,
      .bfx true ⟨always, .v 1, vv 2, .reg (vv 3), vv 4, one1⟩, .bfi ⟨always, .s 1, .s 2, .reg (.s 3), .s 4, one1⟩,
      .imadw true ⟨always, .v 2, vv 4, .reg (vv 5), vv 6, one1⟩, .imadw false ⟨always, .s 2, .s 4, .reg (.s 5), .s 6, one1⟩,
      .iaddc ⟨always, .v 1, vv 2, .reg (vv 3), 1, one1⟩] = true := by decide +kernel

theorem wit_FloatArithmetic : allClear
    [.fadd .f32 ⟨always, .v 1, vv 2, .reg (vv 3), one1⟩, .fsub .f16x2 ⟨always, .v 1, vv 2, .imm 3, one1⟩, .fmul .f64 ⟨always, .v 2, vv 4, .reg (vv 6), one1⟩,
      .fmin .bf16x2 ⟨always, .s 1, .s 2, .reg (.s 3), one1⟩, .fscale .f64 ⟨always, .v 2, vv 4, .reg (vv 6), one1⟩,
      .ffma .f32 ⟨always, .v 1, vv 2, .reg (vv 3), vv 4, one1⟩, .frcp .f32 ⟨always, .v 1, vv 2, one1⟩, .ftanh ⟨always, .s 1, .s 2, one1⟩,
      .fcmp .f32 .lt ⟨always, 1, vv 2, .reg (vv 3)⟩, .fcmp .f64 .un ⟨always, 1, .s 2, .reg (.s 3)⟩] = true := by decide +kernel

theorem wit_Conversions : allClear
    [.cvt .int8 .f32 ⟨always, .v 1, vv 2, one1⟩, .cvt .f64 .int ⟨always, .s 1, .s 2, one1⟩, .cvts .f64 .f32 ⟨always, .v 2, vv 4, .reg (vv 6), one1⟩,
      .pack .int4x8 always (.v 1) (vv 2) (vv 3) one1, .unpack .dp8x4 3 ⟨always, .v 1, vv 2, one1⟩,
      .qmass true ⟨always, .v 1, vv 2, .imm 24, one1⟩] = true := by decide +kernel

theorem wit_CompareSelectPredicates : allClear
    [.icmp .lt ⟨always, 1, vv 2, .reg (vv 3)⟩, .icmp .leu ⟨always, 1, .s 2, .imm 3⟩, .sel ⟨always, .v 1, vv 2, .reg (vv 3), 4, one1⟩,
      .movi always (.s 1) (.lit 5) one1, .pand always 1 2 3, .pnot always 1 2, .pmov always (.pp 1 2), .pmov always (.sp 1 2),
      .pmov always (.ps 1 2)] = true := by decide +kernel

theorem wit_LaneExchange : allClear
    [.pcnt always 1 2, .rfl always 1 2 false, .vote always (.any 1) 2, .vote always (.all 1) 2, .vote always (.bal 1) 2, .matchw always 1 2 false,
      .shfl .xor ⟨always, .v 1, vv 2, .imm 1, one1⟩, .bcast ⟨always, .v 1, vv 2, .reg (.s 3), one1⟩] = true := by decide +kernel

theorem wit_ReductionsAndScans : allClear
    [.redw .fadd always 1 2 false, .redw .umin always 1 2 false, .scanw .iadd ⟨always, .v 1, vv 2, one1⟩] = true := by decide +kernel

/-- A regrouped group of waves 1 and 9 issues `i` on path A of wave 1: lanes 0 to 15 are the first's, 16 to 31 the second's. -/
def grouped (i : Instr) : State :=
  let s := issuing i
  let w := s.wave 1
  { s with
    waves := s.waves.put 9 { w with ixw := 1 }
    groups := [⟨1, 1, .a, BitVec.ofNat 64 probeAddr, [(1, 0xFFFF), (9, 0xFFFF0000)]⟩] }

/-- A group meets the hypotheses of the clause about groups. -/
theorem wit_group : (let i : Instr := .pcnt always 1 2; let s := grouped i
    s.clear path (leaf s) i always false && (s.groupOf path).isSome && (s.acting path (leaf s) i always false).map Env.wave == [1, 9]) = true := by
  decide +kernel

theorem wit_RegisterWrites : (let w := (((Wave.blank 0 0 0).setV 3 4 5).setP 2 1).setS 6 7
    Sparse.wf w.v && Sparse.wf w.p && Sparse.wf w.s) = true := by decide +kernel

/-! ## Control -/

def stepping (s : State) : State := s.updCtx 0 fun c => { c with stepOn := true }

theorem wit_EndOfIssue (h : Obligations.EndOfIssue) :
    (let s := issuing (.nop always); (s.advance path (.nop always)).leafAt path ≠ none ∧ (s.moved path 0).leafAt path = s.leafAt path ∧
      s.finishIssue path 0 (.nop always) [] = s.moved path 0) ∧
      let s := stepping (issuing (.nop always))
      s.finishIssue path 0 (.nop always) [] =
        (s.updLeaf path fun l => { l with wait := .idle }).raise path ((s.homes path).map fun h => ⟨h.1, 0x52, (leaf s).mask &&& h.2, 0⟩) false :=
  ⟨⟨by rw [(h (issuing (.nop always)) path 0 (.nop always)).1 (leaf (issuing (.nop always))) (by decide +kernel)]; exact Option.some_ne_none _,
      (h (issuing (.nop always)) path 0 (.nop always)).2.1 (by decide +kernel) (by decide +kernel) (by decide +kernel),
      (h _ path 0 (.nop always)).2.2.1 (by decide +kernel)⟩,
    (h _ path 0 (.nop always)).2.2.2 (leaf (stepping (issuing (.nop always)))) (by decide +kernel) (by decide +kernel)
      (fun _ _ => ⟨nofun, nofun⟩) (by decide +kernel) (by decide +kernel) (by decide +kernel) (by decide +kernel) (by decide +kernel)⟩

theorem wit_NoActiveLane (h : Obligations.NoActiveLane) : (let i : Instr := .pcnt ⟨0, true⟩ 1 2; let s := issuing i
    exec i s = .next (((s.issued path (leaf s)).advance path i).moved path (s.place path))) :=
  h (.pcnt ⟨0, true⟩ 1 2) (encF 0x4C ⟨0, true⟩ (minor := 0x20) (dst := 1) (a := 2)) none (by decide +kernel) (fun _ _ => ⟨nofun, nofun⟩)
    _ path (leaf (issuing (.pcnt ⟨0, true⟩ 1 2))) (by decide +kernel) (by decide +kernel)

/-- The header of the placed block, one word behind the instruction. -/
def back : Target := .imm 0xFFFF

def header (n : Nat) : DWord := BitVec.ofNat 64 (probeHeader n)

/-- The header of the placed block may be entered. -/
theorem toHead {i : Instr} {f : Wave → Wave} {a : DWord} (h : (a == 0x1000 && ((issuing i f).fetch 1 0x1000).toOption == some (header 2) &&
    (issuing i f).headerOk 1 (header 2)) = true) : mayEnter (issuing i f) 1 a := by
  simp only [Bool.and_eq_true, beq_iff_eq] at h
  refine enter (H := header 2) ?_
  rw [h.1.1]; simp only [h.1.2, h.2]; rfl

/-- Waves 1 and 9 of a group name the headers at 0x1000 and 0x1018 in s5. -/
def parted (i : Instr) : State :=
  ((grouped i).updWave 1 fun w => w.setS 5 0x1000).updWave 9 (fun w => w.setS 5 0x1018) |>.homeWrite (devPlace 0x1018) (bytesOfWord (header 2))

theorem wit_BadTargets (h : Obligations.Branches) :
    (Goes (.bra always (.imm 7)) (issuing (.bra always (.imm 7))) ∧ Goes (.bru always (.imm 7)) (issuing (.bru always (.imm 7))) ∧
      Goes (.call always 9 (.imm 7)) (issuing (.call always 9 (.imm 7)))) ∧
    (Goes (.brx always 5) (issuing (.brx always 5) fun w => w.setS 5 0x1004) ∧ Goes (.ret always 5) (issuing (.ret always 5) fun w => w.setS 5 0x1004)) ∧
    Goes (.brx always 5) (parted (.brx always 5)) := by
  have T := h.2 always (.imm 7) 9 5
  refine ⟨⟨⟨_, T.2.1 (issuing (.bra always (.imm 7))) path (leaf (issuing (.bra always (.imm 7)))) ?_ (fun _ _ => trivial) ?_⟩,
      ⟨_, T.2.2.1 (issuing (.bru always (.imm 7))) path (leaf (issuing (.bru always (.imm 7)))) ?_ ?_ ?_⟩,
      ⟨_, T.2.2.2.2 (issuing (.call always 9 (.imm 7))) path (leaf (issuing (.call always 9 (.imm 7)))) ?_ (fun _ _ => trivial) ?_⟩⟩,
    ⟨⟨_, (T.2.2.2.1 (.brx always 5) (.inl rfl)).1 (issuing (.brx always 5) fun w => w.setS 5 0x1004) path
        (leaf (issuing (.brx always 5) fun w => w.setS 5 0x1004)) ?_ ?_ ?_⟩,
      ⟨_, (T.2.2.2.1 (.ret always 5) (.inr rfl)).1 (issuing (.ret always 5) fun w => w.setS 5 0x1004) path
        (leaf (issuing (.ret always 5) fun w => w.setS 5 0x1004)) ?_ ?_ ?_⟩⟩,
    ⟨_, (T.2.2.2.1 (.brx always 5) (.inl rfl)).2 (parted (.brx always 5)) path (leaf (parted (.brx always 5))) ?_ ?enters ?_⟩⟩
  case enters =>
    intro e he
    have : (((parted (.brx always 5)).acting path (leaf (parted (.brx always 5))) (.brx always 5) always false).all fun e =>
      !((parted (.brx always 5)).targetBad e.wave (((parted (.brx always 5)).wave e.wave).sreg 5))) = true := by decide +kernel
    exact (T.1 _ _ _).mp (by simpa using List.all_eq_true.mp this e he)
  all_goals decide +kernel

theorem wit_Branches (h : Obligations.Branches) :
    Goes (.bra always back) (issuing (.bra always back)) ∧ Goes (.bru always back) (issuing (.bru always back)) ∧
    Goes (.bru ⟨1, false⟩ back) (issuing (.bru ⟨1, false⟩ back)) ∧ Goes (.brx always 5) (issuing (.brx always 5) fun w => w.setS 5 0x1000) ∧
    Goes (.ret always 5) (issuing (.ret always 5) fun w => w.setS 5 0x1000) ∧ Goes (.call always 9 back) (issuing (.call always 9 back)) :=
  ⟨goes (h.1 always back 5 9).1 _ (by decide +kernel) (toHead (by decide +kernel)),
    goes (h.1 always back 5 9).2.1 _ (by decide +kernel) ⟨by decide +kernel, toHead (by decide +kernel)⟩,
    ⟨_, (h.1 ⟨1, false⟩ back 5 9).2.2.1 (issuing (.bru ⟨1, false⟩ back)) path (leaf (issuing (.bru ⟨1, false⟩ back))) (by decide +kernel)
      (by decide +kernel) (by decide +kernel)⟩,
    goes ((h.1 always back 5 9).2.2.2.1 _ (.inl rfl)) _ (by decide +kernel) ⟨toHead (by decide +kernel), by decide +kernel⟩,
    goes ((h.1 always back 5 9).2.2.2.1 _ (.inr rfl)) _ (by decide +kernel) ⟨toHead (by decide +kernel), by decide +kernel⟩,
    goes (h.1 always back 5 9).2.2.2.2 _ (by decide +kernel) (toHead (by decide +kernel))⟩

/-! ## Hypotheses that are met: divergence, waits, exceptions -/

/-- A BRD whose block names the header at 0x1018, where one stands, as its reconvergence header. -/
def brdAt (g : Guard) (f : Wave → Wave := id) : State :=
  let s := issuing (.brd g back) f
  (s.homeWrite (devPlace 0x1018) (bytesOfWord (header 2))).updLeaf path fun l => { l with hdr := header 2 + 3 * 2 ^ 16 }

/-- Lanes 0 to 15 satisfy p1. -/
def half (w : Wave) : Wave := w.setP 1 0xFFFF

theorem wit_DivergentBranch (h : Obligations.DivergentBranch) :
    Goes (.brd always back) (brdAt always) ∧ Goes (.brd ⟨0, true⟩ back) (brdAt ⟨0, true⟩) ∧
    Goes (.brd ⟨1, false⟩ back) (brdAt ⟨1, false⟩ half) ∧
    (let s := brdAt always; ∃ l, ((s.divergePath path (leaf s) 1 2 0 0).wave 1).slotB = .leaf l) ∧
    ((PTree.leaf (leaf (brdAt always))).split 1 2 0 0 0).leaves.length = 2 := by
  have e1 : ∀ (g : Guard) (f : Wave → Wave) (a : DWord), (a == 0x1000 && ((brdAt g f).fetch 1 0x1000).toOption == some (header 2) &&
      (brdAt g f).headerOk 1 (header 2)) = true → mayEnter (brdAt g f) 1 a := by
    intro g f a hh
    simp only [Bool.and_eq_true, beq_iff_eq] at hh
    refine enter (H := header 2) ?_
    rw [hh.1.1]; simp only [hh.1.2, hh.2]; rfl
  have e2 : ∀ (g : Guard) (f : Wave → Wave) (a : DWord), (a == 0x1018 && ((brdAt g f).fetch 1 0x1018).toOption == some (header 2) &&
      (brdAt g f).headerOk 1 (header 2)) = true → mayEnter (brdAt g f) 1 a := by
    intro g f a hh
    simp only [Bool.and_eq_true, beq_iff_eq] at hh
    refine enter (H := header 2) ?_
    rw [hh.1.1]; simp only [hh.1.2, hh.2]; rfl
  refine ⟨?_, ?_, ?_, ?_, ?_⟩
  · exact ⟨_, (h.1 always back (brdAt always) path (leaf (brdAt always)) (by decide +kernel) (by decide +kernel)
      (only (e := env (brdAt always) (.brd always back)) (by decide +kernel) (e1 _ _ _ (by decide +kernel)))).1 (by decide +kernel) (by decide +kernel)⟩
  · exact ⟨_, (h.1 ⟨0, true⟩ back (brdAt ⟨0, true⟩) path (leaf (brdAt ⟨0, true⟩)) (by decide +kernel) (by decide +kernel)
      (only (e := { env (brdAt ⟨0, true⟩) (.brd ⟨0, true⟩ back) with act := 0 }) (by decide +kernel) (e1 _ _ _ (by decide +kernel)))).2.1
        (by decide +kernel) (by decide +kernel) (by decide +kernel)⟩
  · exact ⟨_, (h.1 ⟨1, false⟩ back (brdAt ⟨1, false⟩ half) path (leaf (brdAt ⟨1, false⟩ half)) (by decide +kernel) (by decide +kernel)
      (only (e := { env (brdAt ⟨1, false⟩ half) (.brd ⟨1, false⟩ back) with act := 0xFFFF }) (by decide +kernel) (e1 _ _ _ (by decide +kernel)))).2.2
        (by decide +kernel) (by decide +kernel) (by decide +kernel) (by decide +kernel) (by decide +kernel)
        (only (e := { env (brdAt ⟨1, false⟩ half) (.brd ⟨1, false⟩ back) with act := 0xFFFF }) (by decide +kernel) (e2 _ _ _ (by decide +kernel)))⟩
  · exact ⟨_, (h.2.2.2.1 (brdAt always) path (leaf (brdAt always)) 1 2 0 0 (by decide +kernel) (by decide +kernel)).2.2.1⟩
  · rw [h.2.2.2.2 (.leaf (leaf (brdAt always))) 0 (leaf (brdAt always)) 1 2 0 0 0 (by decide +kernel) (by decide +kernel)]; decide +kernel

/-- A splitting BRD of wave 1, whose block names a reconvergence header `rcv` words from its own; slot B holds `n` entries. -/
def splitting (rcv : Nat) (n : Nat) : State :=
  ((brdAt ⟨1, false⟩ half).updLeaf path fun l => { l with hdr := header 2 + BitVec.ofNat 64 (rcv * 2 ^ 16) }).updWave 1 fun w =>
    { w with slotB := (List.range n).foldl (fun t _ => .node ⟨1, 0, 0x1000, false⟩ t .empty) PTree.empty }

theorem wit_BrdTraps (h : Obligations.DivergentBranch) :
    Goes (.brd always (.imm 7)) (issuing (.brd always (.imm 7))) ∧ Goes (.brd ⟨1, false⟩ back) (splitting 0 0) ∧
    Goes (.brd ⟨1, false⟩ back) (splitting 5 0) ∧ Goes (.brd ⟨1, false⟩ back) (splitting 3 254) := by
  have ok : ∀ (s : State) (l : Leaf) (a : DWord), ((s.acting path l (.brd ⟨1, false⟩ back) ⟨1, false⟩ true).all fun e =>
      a.toNat % 8 == 0 && (s.fetch e.wave a).toOption == some (header 2) && s.headerOk e.wave (header 2)) = true →
      ∀ e ∈ s.acting path l (.brd ⟨1, false⟩ back) ⟨1, false⟩ true, mayEnter s e.wave a :=
    fun s l a hh e he => enter (H := header 2) (List.all_eq_true.mp hh e he)
  have B := fun n k => h.2.1 ⟨1, false⟩ back (splitting n k) path (leaf (splitting n k))
  refine ⟨⟨_, (h.2.1 always (.imm 7) (issuing (.brd always (.imm 7))) path (leaf (issuing (.brd always (.imm 7)))) ?_).1 (.inl ?_) ?_⟩,
    ⟨_, (B 0 0 ?_).2.1 ⟨?_, ?_⟩ ?_ (ok _ _ _ ?_) ?_⟩, ⟨_, (B 5 0 ?_).2.2.1 ⟨?_, ?_⟩ ?_ (ok _ _ _ ?_) ?_ ?_⟩,
    ⟨_, (B 3 254 ?_).2.2.2 ⟨?_, ?_⟩ ?_ (ok _ _ _ ?_) ⟨?_, ok _ _ _ ?_⟩⟩⟩
  all_goals decide +kernel

theorem wit_ExitYieldNop (h : Obligations.ExitYieldNop) :
    Goes (.exit always) (issuing (.exit always)) ∧ Goes (.yield always) (issuing (.yield always)) ∧ clearAt (.nop always) false (issuing (.nop always)) = true ∧
    clearAt (.hint always 5) false (issuing (.hint always 5)) = true ∧
    ∃ l' ∈ ((PTree.leaf (Leaf.atHeader 3 0 .running 8)).exit 1).leaves, l'.mask.getLsbD 1 = true ∧ l'.pc = 8 :=
  ⟨goes (h.1 always 0).1 _ (by decide +kernel) trivial, goes (h.1 always 0).2.1 _ (by decide +kernel) trivial, by decide +kernel, by decide +kernel,
    (h.2 (.leaf (Leaf.atHeader 3 0 .running 8)) 1).2 (Leaf.atHeader 3 0 .running 8) (by decide) 1 (by decide) (by decide) trivial⟩

/-- One load outstanding. -/
def loading (s : State) : State :=
  s.pushOp ⟨1, BitVec.allOnes 32, 0, .load, false, false, [.v 7], false, .load .w false false .none [⟨0, 7, devPlace 0x2000, 0x2000, 0, 0⟩], false⟩

def waitI : Instr := .waitc always 0 63 63 63
def genI (c : BitVec 2) : Instr := .waitw always c 5 6
def genAt (c : BitVec 2) (g : DWord) : State := issuing (genI c) fun w => (w.setS 5 0x2000).setS 6 g
def at2000 (_ : Nat) : Place := devPlace 0x2000
/-- An older store of the wave has yet to reach the arrival word. -/
def wordLate : State :=
  (genAt 2 1).pushOp ⟨1, BitVec.allOnes 32, 0, .store, false, false, [], false, .store .w .none [⟨0, 0, devPlace 0x2000, 0x2000, 5, 0⟩], false⟩
def waiting (x : Wait) (s : State) : State := { s.updLeaf path fun l => { l with wait := x } with cur := none }

theorem wit_Waits (h : Obligations.Waits) :
    Goes waitI (issuing waitI) ∧ Goes waitI (loading (issuing waitI)) ∧
    Goes (.waitcComplete path) (waiting (.counters [1] 0 63 63 63) (issuing waitI)) ∧
    exec (.waitcComplete path) (waiting (.counters [1] 0 63 63 63) (loading (issuing waitI))) = .next (waiting (.counters [1] 0 63 63 63) (loading (issuing waitI))) ∧
    Goes (genI 2) (genAt 2 1) ∧ Goes (genI 2) (genAt 2 0) ∧ exec (genI 2) wordLate = .next (wordLate.hold 9) ∧
    (genAt 2 1).genErrs [(1, devPlace 0x2000, 1)] = (genAt 2 1).touch (devPlace 0x2000) 16 ∧ Goes (genI 0) (genAt 0 1) ∧
    Goes (.waitwComplete path) (waiting (.word [(1, devPlace 0x2000, 1)]) (genAt 2 1)) ∧
    exec (.waitwComplete path) (waiting (.word [(1, devPlace 0x2000, 0)]) (genAt 2 1)) = .next (waiting (.word [(1, devPlace 0x2000, 0)]) (genAt 2 1)) :=
  ⟨goes (h.1 always 0 63 63 63).1 _ (by decide +kernel) (by unfold within; decide +kernel),
    ⟨_, (h.1 always 0 63 63 63).2.1 (loading (issuing waitI)) path (leaf (loading (issuing waitI))) (by decide +kernel)
      ⟨env (loading (issuing waitI)) waitI, by decide +kernel, by unfold within; decide +kernel⟩⟩,
    ⟨_, ((h.1 always 0 63 63 63).2.2 (waiting (.counters [1] 0 63 63 63) (issuing waitI)) path (leaf (waiting (.counters [1] 0 63 63 63) (issuing waitI)))
      [1] 0 63 63 63 (by decide +kernel) (by decide +kernel)).1 (by unfold within; decide +kernel)⟩,
    ((h.1 always 0 63 63 63).2.2 (waiting (.counters [1] 0 63 63 63) (loading (issuing waitI))) path
      (leaf (waiting (.counters [1] 0 63 63 63) (loading (issuing waitI)))) [1] 0 63 63 63 (by decide +kernel) (by decide +kernel)).2
      (by unfold within; decide +kernel),
    goes ((h.2 always 2 5 6).1 (by decide) at2000).1 (genAt 2 1) (by decide +kernel) ⟨ok_of (by decide +kernel), by decide +kernel⟩,
    goes ((h.2 always 2 5 6).1 (by decide) at2000).1 (genAt 2 0) (by decide +kernel) ⟨ok_of (by decide +kernel), by decide +kernel⟩,
    ((h.2 always 2 5 6).1 (by decide) at2000).2 wordLate path (leaf wordLate) (by decide +kernel)
      (only (e := env wordLate (genI 2)) (by decide +kernel) (ok_of (by decide +kernel)))
      ⟨env wordLate (genI 2), by decide +kernel, by decide +kernel⟩,
    (h.2 always 2 5 6).2.1 (genAt 2 1) [(1, devPlace 0x2000, 1)] (by decide +kernel),
    ⟨_, (h.2 always 0 5 6).2.2.1 rfl (genAt 0 1) path (leaf (genAt 0 1)) (by decide +kernel) (by decide +kernel)
      (only (e := env (genAt 0 1) (genI 0)) (by decide +kernel) ⟨devPlace 0x2000, ok_of (by decide +kernel)⟩)⟩,
    ⟨_, ((h.2 always 2 5 6).2.2.2 (waiting (.word [(1, devPlace 0x2000, 1)]) (genAt 2 1)) path
      (leaf (waiting (.word [(1, devPlace 0x2000, 1)]) (genAt 2 1))) [(1, devPlace 0x2000, 1)] (by decide +kernel) (by decide +kernel)).1 (by decide +kernel)⟩,
    ((h.2 always 2 5 6).2.2.2 (waiting (.word [(1, devPlace 0x2000, 0)]) (genAt 2 1)) path
      (leaf (waiting (.word [(1, devPlace 0x2000, 0)]) (genAt 2 1))) [(1, devPlace 0x2000, 0)] (by decide +kernel) (by decide +kernel)).2 (by decide +kernel)⟩

/-- FLAGS.SAT set and enabled in FMT. -/
def flagged (i : Instr) : State := (issuing i fun w => w.orFlags 0x3F).updLeaf path fun l => { l with fmt := 0x3F00 }

/-- An atomic FADD of the wave has yet to reply. -/
def adding (i : Instr) : State :=
  (issuing i).pushOp ⟨1, BitVec.allOnes 32, 0, .load, false, false, [.v 7], false, .atomic .fadd false [⟨0, 7, devPlace 0x2000, 0x2000, 5, 0⟩], false⟩

theorem wit_FlagsHold (h : Obligations.FormatAndFlags) : ∀ i ∈ [Instr.tfence always, .setf always true (.reg 5), .getf always true 5],
    exec i (adding i) = .next ((adding i).hold 15) := by
  intro i hi
  refine (h always 5 (.reg 5)).1 i hi (adding i) path (leaf (adding i)) ?_ ⟨env (adding i) i, ?_, ?_⟩ <;>
    · revert i; decide +kernel

theorem wit_FormatAndFlags (h : Obligations.FormatAndFlags) :
    Goes (.tfence always) (issuing (.tfence always)) ∧ Goes (.tfence always) (flagged (.tfence always)) ∧
    Goes (.setf always false (.imm 3)) (issuing (.setf always false (.imm 3))) ∧ Goes (.setf always true (.reg 5)) (issuing (.setf always true (.reg 5))) ∧
    clearAt (.getf always false 5) false (issuing (.getf always false 5)) = true ∧ Goes (.getf always true 5) (issuing (.getf always true 5)) :=
  ⟨goes (h always 5 (.imm 3)).2.1 _ (by decide +kernel) ⟨by decide +kernel, by decide +kernel⟩,
    ⟨_, (h always 5 (.imm 3)).2.2.1 (flagged (.tfence always)) path (leaf (flagged (.tfence always))) (by decide +kernel)
      (only (e := env (flagged (.tfence always)) (.tfence always)) (by decide +kernel) (by decide +kernel))
      ⟨env (flagged (.tfence always)) (.tfence always), by decide +kernel, by decide +kernel⟩⟩,
    goes (h always 5 (.imm 3)).2.2.2.1 _ (by decide +kernel) trivial, goes (h always 5 (.reg 5)).2.2.2.2.1 _ (by decide +kernel) (by decide +kernel),
    by decide +kernel, goes (h always 5 (.imm 3)).2.2.2.2.2.2 _ (by decide +kernel) (by decide +kernel)⟩

/-- A handler stands at 0x1000. -/
def handled (s : State) : State := s.updCtx 0 fun c => { c with ctxvec := 0x1000 }

theorem wit_ExceptionEntry (h : Obligations.ExceptionEntry) :
    (let s := handled (issuing (.nop always)); ((s.deliver path 0x34 1 7 false false).wave 1).tpc = (leaf s).pc) ∧
    (let s := issuing (.nop always); ((s.deliver path 0x34 1 7 false false).launch 0).st = 0x20) :=
  ⟨((h (handled (issuing (.nop always))) path (leaf (handled (issuing (.nop always)))) 0x34 1 7 false false (by decide +kernel) (by decide)
      (by decide) (.inl (by decide))).1 (by decide +kernel) (by decide +kernel)).1,
    (h (issuing (.nop always)) path (leaf (issuing (.nop always))) 0x34 1 7 false false (by decide +kernel) (by decide)
      (by decide) (.inl (by decide))).2 (by decide +kernel) probeLaunch (by decide +kernel) (by decide +kernel)⟩

theorem wit_SoftwareTraps (h : Obligations.SoftwareTraps) :
    Goes (.trapi always 7) (issuing (.trapi always 7)) ∧ Goes (.bkpt always 7) (issuing (.bkpt always 7)) :=
  ⟨⟨_, (h always 7 (issuing (.trapi always 7)) path (leaf (issuing (.trapi always 7)))).1 (by decide +kernel) (by decide +kernel)
      (only (e := env (issuing (.trapi always 7)) (.trapi always 7)) (by decide +kernel) (.inl (by decide)))⟩,
    ⟨_, (h always 7 (issuing (.bkpt always 7)) path (leaf (issuing (.bkpt always 7)))).2 (by decide +kernel) (by decide +kernel)⟩⟩

/-- In a handler that returns to 0x1000: the saved block, or a TPC that has been written. -/
def inHandler (b : Bool) (w : Wave) : Wave := { w with tcause := 0x10000, tpc := 0x1000, tpcWritten := b, savedHdr := header 2, savedPos := 1 }

theorem wit_ExceptionReturn (h : Obligations.ExceptionReturn) :
    Goes (.trapi always 0xFFFF) (issuing (.trapi always 0xFFFF) (inHandler false)) ∧ Goes (.trapi always 0xFFFF) (issuing (.trapi always 0xFFFF) (inHandler true)) ∧
    Goes (.eret always) (issuing (.eret always) (inHandler false)) ∧ Goes (.eret always) (issuing (.eret always) (inHandler true)) :=
  ⟨goes (h always).1 _ (by decide +kernel) ⟨rfl, by decide +kernel, by decide +kernel⟩,
    goes (h always).2.1 _ (by decide +kernel) ⟨rfl, by decide +kernel, by decide +kernel, toHead (by decide +kernel)⟩,
    goes (h always).2.2.1 _ (by decide +kernel) ⟨rfl, by decide +kernel⟩,
    goes (h always).2.2.2 _ (by decide +kernel) ⟨rfl, by decide +kernel, toHead (by decide +kernel)⟩⟩

def bounded : State := { issuing (.nop always) (fun w => { w with boundary := [(0x41, 5), (0x40, 6)] }) with cur := none, grant := some path }

theorem wit_BoundaryDelivery (h : Obligations.BoundaryDelivery) :
    Goes (.boundaryCauseDelivery path) bounded ∧
    step bounded = settleOutcome (exec (.boundaryCauseDelivery path) { bounded with grant := none }) :=
  ⟨⟨_, by refine h.1 bounded path (leaf bounded) 0x40 6 ?_ ?_ ?_ ?_ ?_ ?_ <;> decide +kernel⟩,
    by refine h.2 bounded path (leaf bounded) ?_ ?_ ?_ ?_ ?_ <;> decide +kernel⟩

/-- The wave's launch is of context 1, with classes WEAK. -/
def unprivileged (s : State) : State :=
  { s with contexts := s.contexts.put 1 Context.fresh }.updLaunch 0 fun l =>
    { l with recd := { l.recd with ctx := 1, laneClass := 0, waveClass := 0, teamClass := 0 } }

theorem wit_PrivilegedInstructionsTrap (h : Obligations.PrivilegedInstructionsTrap) :
    Goes (.halt always) (unprivileged (issuing (.halt always))) ∧ Goes (.launch always 7 5) (unprivileged (issuing (.launch always 7 5))) ∧
      Goes (.tlbi always (.addr 5)) (unprivileged (issuing (.tlbi always (.addr 5)))) :=
  ⟨⟨_, h always 7 5 .all (.halt always) (by decide) (unprivileged (issuing (.halt always))) path
      (leaf (unprivileged (issuing (.halt always)))) (by decide +kernel) (by decide +kernel) (by rintro (h | h) <;> cases h) (by rintro _ (h | h) <;> cases h)⟩,
    ⟨_, h always 7 5 .all (.launch always 7 5) (by decide) (unprivileged (issuing (.launch always 7 5))) path
      (leaf (unprivileged (issuing (.launch always 7 5)))) (by decide +kernel) (by decide +kernel) (fun _ => by decide +kernel) (by rintro _ (h | h) <;> cases h)⟩,
    ⟨_, h always 7 5 (.addr 5) (.tlbi always (.addr 5)) (by decide) (unprivileged (issuing (.tlbi always (.addr 5)))) path
      (leaf (unprivileged (issuing (.tlbi always (.addr 5))))) (by decide +kernel) (by decide +kernel) (by rintro (h | h) <;> cases h)
      (by rintro r (h | h) <;> cases h; decide +kernel)⟩⟩

/-! ## Hypotheses that are met: memory -/

def idle : State := { issuing (.nop always) with cur := none }

/-- Bank 0 of vault 0 is retired. -/
def vaultless : State := idle.updDie 0 fun d => { d with vbret := [0] }

theorem wit_AddressChecks (h : Obligations.AddressChecks) :
    0x30 ∈ (idle.access 1 .gen .read 4 (2 ^ 56) 0).1 ∧ 0x32 ∈ (idle.access 1 .spad .read 4 2 0).1 ∧ 0x33 ∈ (idle.access 1 .spad .read 4 0x10000 0).1 ∧
    idle.access 1 .spad .read 4 0xFFFC 0 = ([], ⟨.spad 1, 0xFFFC, 0, false⟩) ∧
    idle.access 1 .gen .read 4 (spadBase + 0xFFFC) 0 = ([], ⟨.spad 1, 0xFFFC, 0, false⟩) ∧
    (0x33 ∈ (idle.access 1 .gen .read 4 (spadBase + 0x10000) 0).1 ∧ 0x34 ∈ (idle.access 1 .vault .read 4 0x2000 0).1 ∧
      0x30 ∈ (idle.access 1 .vault .read 4 (2 ^ 56) 0).1) ∧
    0x34 ∈ (vaultless.access 1 .vault .read 4 (vaultBase + 0) 0).1 ∧ idle.access 1 .gen .read 4 (vaultBase + 4) 0 = ([], ⟨.vault, 4, 0, false⟩) ∧
    idle.access 1 .gen .read 4 0x2000 0 = ([], devPlace 0x2000) ∧ (idle.access 1 .gen .read 4 (2 ^ 50) 0).1 = [0x30] :=
  ⟨(h idle 1 4 (2 ^ 56) 0 .read).1 (by decide), (h idle 1 4 2 0 .read).2.1 (by decide) .spad, (h idle 1 4 0x10000 0 .read).2.2.1 (by decide +kernel),
    (h idle 1 4 0xFFFC 0 .read).2.2.2.1 (by decide +kernel) (by decide),
    (h idle 1 4 0xFFFC 0 .read).2.2.2.2.1 (by decide +kernel) (by decide +kernel) (by decide) (by decide +kernel) (by decide +kernel),
    ⟨(h idle 1 4 0x10000 0 .read).2.2.2.2.2.1 (by decide +kernel) (by decide +kernel), (h idle 1 4 0x2000 0 .read).2.2.2.2.2.2.1 (by decide +kernel),
      (h idle 1 4 (2 ^ 56) 0 .read).2.2.2.2.2.2.2.1 (by decide)⟩,
    ((h vaultless 1 4 0 0 .read).2.2.2.2.2.2.2.2.1 .vault (by decide) (by decide +kernel)).1 (by decide +kernel),
    ((h idle 1 4 4 0 .read).2.2.2.2.2.2.2.2.1 .gen (by decide) (by decide +kernel)).2 (by decide +kernel) (by decide +kernel),
    ((h idle 1 4 0x2000 0 .read).2.2.2.2.2.2.2.2.2 (by decide +kernel) (by decide +kernel) (by decide)).1 _ (ok_of (by decide +kernel)),
    ((h idle 1 4 (2 ^ 50) 0 .read).2.2.2.2.2.2.2.2.2 (by decide +kernel) (by decide +kernel) (by decide)).2 _ (error_of (by decide +kernel))⟩

def ldI : Access := .ld ⟨always, .w, false, false, .none, 7, 5, 9, one1⟩
def stI : Access := .st ⟨always, .d, true, .none, 5, 9, 8, one1⟩
def resI : Access := .ldres always 7 5 9
def condI : Access := .stcond always 2 5 9 8
def casI : Access := .atom ⟨always, .cas, .ar, false, 7, 5, 9, 8⟩
def lduI : Access := .ldu ⟨always, .w, false, false, .none, 7, 5, 8⟩
def at5 (a : DWord) (k : Access) : State := issuing k.instr fun w => w.setS 5 a

theorem wit_AccessesIssue (h : Obligations.AccessesIssue) :
    (Goes ldI.instr (at5 0x2000 ldI) ∧ Goes stI.instr (at5 0x2000 stI) ∧ Goes resI.instr (at5 0x2000 resI)) ∧
    (Goes condI.instr (at5 0x2000 condI) ∧ Goes casI.instr (at5 0x2000 casI) ∧ Goes lduI.instr (at5 0x2000 lduI)) ∧
    ∃ t, exec ldI.instr (at5 0x2000 ldI) = .next t ∧ keepsData (at5 0x2000 ldI) t := by
  have a : ∀ k, ((k.ok (env (at5 0x2000 k) k.instr) (at5 0x2000 k)) → clearAt k.instr false (at5 0x2000 k) = true →
      ((at5 0x2000 k).wave 1).collecting = false → k.guard = always → Goes k.instr (at5 0x2000 k)) := by
    intro k hk hc hn hg
    have hx := h.1 k
    rw [hg] at hx
    exact goes hx (at5 0x2000 k) hc ⟨hn, hk⟩
  refine ⟨⟨a ldI ?_ ?_ ?_ rfl, a stI ?_ ?_ ?_ rfl, a resI ?_ ?_ ?_ rfl⟩, ⟨a condI ?_ ?_ ?_ rfl, a casI ?_ ?_ ?_ rfl, a lduI ?_ ?_ ?_ rfl⟩, ?_⟩
  rotate_right
  · obtain ⟨t, h1, h2, -⟩ := h.2 ldI (at5 0x2000 ldI) path (leaf (at5 0x2000 ldI)) (by decide +kernel)
      (only (e := env (at5 0x2000 ldI) ldI.instr) (by decide +kernel) ⟨by decide +kernel, by decide +kernel, by decide +kernel⟩)
    exact ⟨t, h1, h2⟩
  all_goals first
    | exact ⟨by decide +kernel, by decide +kernel⟩
    | decide +kernel

/-- The wave is collecting into entry 1 of its team. -/
def collecting (s : State) : State :=
  ((s.updTeam 1 fun t => { t with dir := t.dir.upd 1 fun e => { e with list := some [] } }).updWave 1 fun w =>
    { w with collAct := true, collEntry := 1, collReg := 3 })

theorem wit_FailingAccessTraps (h : Obligations.FailingAccessTraps) :
    (Goes ldI.instr (at5 0x2001 ldI) ∧ Goes lduI.instr (at5 0x2001 lduI) ∧ Goes ldI.instr (collecting (at5 0x2001 ldI))) ∧
    Goes stI.instr (collecting (at5 0x2001 stI)) ∧ Goes casI.instr (collecting (at5 0x2000 casI)) :=
  ⟨⟨⟨_, h ldI (at5 0x2001 ldI) path (leaf (at5 0x2001 ldI)) (by decide +kernel) (by decide +kernel)⟩,
      ⟨_, h lduI (at5 0x2001 lduI) path (leaf (at5 0x2001 lduI)) (by decide +kernel) (by decide +kernel)⟩,
      ⟨_, h ldI (collecting (at5 0x2001 ldI)) path (leaf (collecting (at5 0x2001 ldI))) (by decide +kernel) (by decide +kernel)⟩⟩,
    ⟨_, h stI (collecting (at5 0x2001 stI)) path (leaf (collecting (at5 0x2001 stI))) (by decide +kernel) (by decide +kernel)⟩,
    ⟨_, h casI (collecting (at5 0x2000 casI)) path (leaf (collecting (at5 0x2000 casI))) (by decide +kernel) (by decide +kernel)⟩⟩

def arrvI : Instr := .arrv always 5 6

theorem wit_CollectingRecords (h : Obligations.CollectingRecords) :
    Goes stI.instr (collecting (at5 0x2000 stI)) ∧ Goes arrvI (collecting (issuing arrvI fun w => w.setS 5 0x2000)) :=
  ⟨goes (h.1 ⟨always, .d, true, .none, 5, 9, 8, one1⟩ stI.instr .gen (by decide +kernel)) (collecting (at5 0x2000 stI)) (by decide +kernel)
      ⟨by decide +kernel, by decide +kernel, by decide +kernel, by decide +kernel⟩,
    goes (h.2 always 5 6) (collecting (issuing arrvI fun w => w.setS 5 0x2000)) (by decide +kernel)
      ⟨by decide +kernel, by decide +kernel, devPlace 0x2000, ok_of (by decide +kernel)⟩⟩

/-- Operation number 2 of the wave, outstanding. -/
def outstanding (cls : OpClass) (b : OpBody) (s : State := idle) : State := s.pushOp ⟨1, BitVec.allOnes 32, 0, cls, false, false, [], false, b, false⟩

def acc (a : Nat) : Acc := ⟨0, 7, devPlace a, BitVec.ofNat 64 a, 5, 0⟩

/-- An older atomic of the same wave on the same word holds the load back. -/
def heldBack : State := { idle with
  ops := [(2, ⟨1, BitVec.allOnes 32, 0, .store, false, false, [], false, .atomic .add true [acc 0x2000], false⟩),
    (3, ⟨1, BitVec.allOnes 32, 0, .load, false, false, [], false, .load .w false false .none [acc 0x2000], false⟩)], nextId := 4 }

/-- Lane 1 too. -/
def acc1 (a : Nat) : Acc := { acc a with lane := 1 }

/-- What `n` is in `s`. -/
def opOf (s : State) (n : Nat) : Op := (s.ops.look n).getD ⟨0, 0, 0, .load, false, false, [], false, .tree 0, true⟩

theorem wit_LoadReturn (h : Obligations.LoadReturn) :
    (exec (.loadReturn 2) (outstanding .load (.load .w false false .none [acc 0x2000])) =
      .next ((outstanding .load (.load .w false false .none [acc 0x2000])).bind 2 (opOf (outstanding .load (.load .w false false .none [acc 0x2000])) 2))) ∧
    exec (.loadReturn 3) heldBack = .next heldBack ∧
    exec (.loadReturn 2) (outstanding .store (.arrive (devPlace 0x2000) 3)) = .next (outstanding .store (.arrive (devPlace 0x2000) 3)) ∧
    (∃ t, exec (.loadReturn 2) (outstanding .load (.load .w false false .none [acc 0x2000])) = .next t ∧ t.wave 9 = idle.wave 9) ∧
    (∃ t, exec (.loadReturn 2) (outstanding .load (.reserve [acc 0x2000])) = .next t ∧
      ((t.wave 1).resv.look 0).map (fun r => (r.virt, r.place)) = some (0x2000, devPlace 0x2000)) ∧
    Goes (.loadReturn 2) (outstanding .load (.atomic .add false [acc 0x2000])) ∧ Goes (.loadReturn 2) (outstanding .load (.atomic .add false [acc 0x2000, acc1 0x2000])) ∧
    Goes (.loadReturn 2) (outstanding .load (.cond 2 [acc 0x2000])) ∧ Goes (.loadReturn 2) (outstanding .load (.cond 2 [acc 0x2000, acc1 0x2000])) ∧
    extendTo64 1 true 0x80 = (BitVec.ofNat (8 * 1) 0x80).signExtend 64 := by
  refine ⟨?_, ?_, ?_, ?_, ?_, ?_, ?_, ?_, ?_, (h.2 1 0x80 (by decide) (by decide)).2.1⟩
  · exact ((h.1 _ 2 _ rfl rfl).1 _ rfl).1 (by decide +kernel)
  · exact ((h.1 heldBack 3 _ rfl rfl).1 _ rfl).2 (by decide +kernel)
  · exact (h.1 _ 2 _ rfl rfl).2.1 rfl
  · obtain ⟨t, ht, -, -, h9, -⟩ := ((h.1 (outstanding .load (.load .w false false .none [acc 0x2000])) 2 _ rfl rfl).2.2 (by decide +kernel)).1
      .w false false .none [acc 0x2000] rfl (by decide +kernel) (by decide +kernel)
    exact ⟨t, ht, h9 9 (by decide)⟩
  · obtain ⟨t, ht, -, -, -, hr⟩ := ((h.1 (outstanding .load (.reserve [acc 0x2000])) 2 _ rfl rfl).2.2 (by decide +kernel)).2.1
      [acc 0x2000] rfl (by decide +kernel) (by decide +kernel)
    exact ⟨t, ht, hr (acc 0x2000) rfl rfl⟩
  · exact ⟨_, ((h.1 (outstanding .load (.atomic .add false [acc 0x2000])) 2 _ rfl rfl).2.2 (by decide +kernel)).2.2.1 .add (acc 0x2000) [] rfl (by decide +kernel)⟩
  · exact ⟨_, ((h.1 (outstanding .load (.atomic .add false [acc 0x2000, acc1 0x2000])) 2 _ rfl rfl).2.2 (by decide +kernel)).2.2.1
      .add (acc 0x2000) [acc1 0x2000] rfl (by decide +kernel)⟩
  · exact ⟨_, ((h.1 (outstanding .load (.cond 2 [acc 0x2000])) 2 _ rfl rfl).2.2 (by decide +kernel)).2.2.2 2 (acc 0x2000) [] rfl (by decide +kernel)⟩
  · exact ⟨_, ((h.1 (outstanding .load (.cond 2 [acc 0x2000, acc1 0x2000])) 2 _ rfl rfl).2.2 (by decide +kernel)).2.2.2
      2 (acc 0x2000) [acc1 0x2000] rfl (by decide +kernel)⟩

theorem writable_of {s : State} {p : Place} {n : Nat} (h : (s.memOk && Table.wf s.lineKeys && p.tier == .dev) = true) : writable s p n := by
  simp only [Bool.and_eq_true, beq_iff_eq] at h
  exact ⟨h.1.1, h.1.2, by rw [h.2]; trivial⟩

theorem writable_idle (a n : Nat) : writable idle (devPlace a) n := ⟨by decide +kernel, by decide +kernel, trivial⟩

/-- No byte of `s` is in error, and the lines from `p` on bear its key. -/
theorem sound_of {s : State} {p : Place} {n : Nat}
    (h : ((List.range n).all fun i => !s.upsetAt (p.at_ i) && s.lineKeys.lookD ((p.addr + i) / 64) 0 == p.key) = true) : sound s p n := by
  intro i hi
  have := List.all_eq_true.mp h i (List.mem_range.mpr hi)
  simp only [Bool.and_eq_true, Bool.not_eq_true', beq_iff_eq] at this
  exact ⟨this.1, fun _ => this.2⟩

theorem sound_idle : sound idle (devPlace 0x2000) 16 := sound_of (by decide +kernel)

theorem sound_less {s : State} {p : Place} {m n : Nat} (h : sound s p n) (hm : m ≤ n) : sound s p m := fun i hi => h i (Nat.lt_of_lt_of_le hi hm)

/-- Lane 0 holds a reservation on the word that `acc 0x2000` names. -/
def reserved : State := idle.updWave 1 fun w => { w with resv := [(0, ⟨0x2000, devPlace 0x2000, 1, 0⟩)] }
/-- The operation of a STCOND of wave 1. -/
def condOp : Op := ⟨1, BitVec.allOnes 32, 0, .load, false, false, [], false, .cond 2 [acc 0x2000], false⟩

theorem wit_AtomicSteps (h : Obligations.AtomicSteps) :
    (idle.atomicStep (devPlace 0x2000) .add 5 0).2.1 = BitVec.ofNat 32 (idle.placeRead (devPlace 0x2000) 4) ∧
    (∀ q : Place, (idle.condStep condOp (acc 0x2000)).1.placeByte q = idle.placeByte q) ∧
    (reserved.condStep condOp (acc 0x2000)).1.placeRead (devPlace 0x2000) 4 = 5 ∧
    ((reserved.condStep condOp (acc 0x2000)).1.wave 1).resv.look 0 = none :=
  have hr := h.2 reserved condOp (acc 0x2000) (writable_of (by decide +kernel)) (sound_of (by decide +kernel))
  ⟨(h.1 idle (devPlace 0x2000) .add 5 0 (writable_idle _ _) (sound_less sound_idle (by decide)) (by decide +kernel)).1,
    (h.2 idle condOp (acc 0x2000) (writable_idle _ _) (sound_less sound_idle (by decide))).2.1 (by decide +kernel),
    (hr.2.2.1 (by decide +kernel)).1, hr.2.2.2 (by decide +kernel)⟩

/-- The last byte of wave 1's scratchpad, and the first above it. -/
def spadEnd (k : Nat) : Place := ⟨.spad 1, (idle.team 1).spadLen - 1 + k, 0, false⟩

theorem wit_WriteThenRead (h : Obligations.WriteThenRead) :
    (idle.homeWrite (devPlace 0x2000) [7]).placeByte ((devPlace 0x2000).at_ 0) = 7 ∧
    (idle.homeWrite (devPlace 0x2000) [7]).placeByte (devPlace 0x2001) = idle.placeByte (devPlace 0x2001) ∧
    (idle.homeWrite (spadEnd 0) [7]).placeByte ((spadEnd 0).at_ 0) = 7 ∧
    (idle.homeWrite (spadEnd 1) [7]).placeByte (spadEnd 1) = idle.placeByte (spadEnd 1) ∧
    (idle.homeWrite (devPlace 0x2000) [7]).memOk = true :=
  ⟨(h.1 idle (devPlace 0x2000) [7] (writable_idle _ _)).1 (fun _ _ => rfl) 0 (by decide),
    (h.1 idle (devPlace 0x2000) [7] (writable_idle _ _)).2.1 (sound_less sound_idle (by decide)) (devPlace 0x2001) (by unfold apart; decide),
    (h.1 idle (spadEnd 0) [7] ⟨by decide +kernel, by decide +kernel, idle.team 1, by decide +kernel, by decide +kernel⟩).1 (by decide +kernel) 0 (by decide),
    h.2.1 idle (spadEnd 1) [7] 1 (idle.team 1) rfl (by decide +kernel) (by decide +kernel) (sound_of (by decide +kernel)) _,
    (h.2.2 idle (by decide +kernel)).1 _ _⟩

def storing (p : Place) : State := outstanding .store (.store .w .none [⟨0, 0, p, 0x2000, 5, 0⟩])

/-- A store to a TSO host page stands before one to a TSO device page. -/
def tsoPair : List Acc := [⟨0, 0, ⟨.host, 0x2000, 0, true⟩, 0x2000, 5, 0⟩, ⟨1, 0, ⟨.dev, 0x2000, 0, true⟩, 0x2000, 5, 0⟩]

theorem wit_StoresArrive (h : Obligations.StoresArrive) :
    Goes (.ownershipAck 2) (storing (devPlace 0x2000)) ∧ ownerOf (idle.store 0 .none (devPlace 0x2000) [7]).owners ((0x2000 + 0) / 4) = some 0 ∧
    Goes (.ownershipRevoke 0x800) { storing (devPlace 0x2000) with owners := [(0x800, 3)] } ∧
    tsoReady true false tsoPair = tsoReady true false [tsoPair.headD (acc 0)] ∧
    Goes (.writePerformed 2) (storing ⟨.vault, 0, 0, false⟩) ∧ Goes (.writePerformed 2) (outstanding .store (.atomic .add true [acc 0x2000])) ∧
    Goes (.writePerformed 2) (outstanding .store (.arrive (devPlace 0x2000) 3)) :=
  ⟨⟨_, h.1.1 (storing (devPlace 0x2000)) 2 _ .w .none [⟨0, 0, devPlace 0x2000, 0x2000, 5, 0⟩] rfl rfl rfl (by decide +kernel) (by decide +kernel)
      (by decide +kernel)⟩,
    ((h.1.2.1 idle 0 .none (devPlace 0x2000) [7] rfl (writable_idle _ _) (by decide)).1 0 (by decide)).2,
    ⟨_, (h.1.2.2.1 { storing (devPlace 0x2000) with owners := [(0x800, 3)] } 0x800 3 2
      ⟨1, BitVec.allOnes 32, 0, .store, false, false, [], false, .store .w .none [⟨0, 0, devPlace 0x2000, 0x2000, 5, 0⟩], false⟩ .w .none
      [⟨0, 0, devPlace 0x2000, 0x2000, 5, 0⟩] ⟨0, 0, devPlace 0x2000, 0x2000, 5, 0⟩ (by decide +kernel) (by decide +kernel) rfl (by decide) rfl
      (by decide) rfl (by decide +kernel)).1⟩,
    (h.1.2.2.2 true tsoPair).2.2 [tsoPair.headD (acc 0)] [] ⟨1, 0, ⟨.dev, 0x2000, 0, true⟩, 0x2000, 5, 0⟩ (tsoPair.headD (acc 0)) rfl rfl (by decide) rfl (by decide),
    ⟨_, (h.2 (storing ⟨.vault, 0, 0, false⟩) 2 _ rfl rfl).1 .w .none _ rfl (by decide +kernel) (by decide +kernel)⟩,
    ⟨_, (h.2 (outstanding .store (.atomic .add true [acc 0x2000])) 2 _ rfl rfl).2.1 .add (acc 0x2000) [] rfl (by decide +kernel)⟩,
    ⟨_, (h.2 (outstanding .store (.arrive (devPlace 0x2000) 3)) 2 _ rfl rfl).2.2 (devPlace 0x2000) 3 rfl (by decide +kernel)⟩⟩

/-- TARGET 4 at 0x2000. -/
def target4 : State := idle.homeWrite (devPlace 0x2000) [4]

theorem wit_Arrivals (h : Obligations.Arrivals) :
    (idle.arrive (devPlace 0x2000) 3).placeRead ((devPlace 0x2000).at_ 8) 6 = (idle.placeRead ((devPlace 0x2000).at_ 8) 6 + 3) % 2 ^ 48 ∧
    ((target4.arrive (devPlace 0x2000) 5).placeRead ((devPlace 0x2000).at_ 8) 6 = (target4.placeRead ((devPlace 0x2000).at_ 8) 6 + 5) %
      Nat.min (target4.placeRead (devPlace 0x2000) 8) (2 ^ 48)) ∧ Goes arrvI (issuing arrvI fun w => w.setS 5 0x2000) :=
  ⟨((h.1 idle (devPlace 0x2000) 3 (writable_idle _ _) sound_idle (by decide) (by decide +kernel)).1 (by decide +kernel)).1,
    ((h.1 target4 (devPlace 0x2000) 5 (writable_of (by decide +kernel)) (sound_of (by decide +kernel)) (by decide) (by decide +kernel)).2.1 (by decide +kernel)).1,
    goes (h.2 always 5 6) (issuing arrvI fun w => w.setS 5 0x2000) (by decide +kernel) ⟨by decide +kernel, devPlace 0x2000, ok_of (by decide +kernel)⟩⟩

def fence (k : FenceKind) : Instr := .fence always k

theorem wit_Fences (h : Obligations.Fences) :
    Goes (fence .acq) (issuing (fence .acq)) ∧ Goes (fence .full) (issuing (fence .full)) ∧
    Goes (fence .acq) (outstanding .load (.load .w false false .none [acc 0x2000]) (issuing (fence .acq))) ∧
    (let s := idle.updCore 0 fun c => { c with l1 := [(0x800, ⟨1, false, 0⟩)] }; ((s.dropUnowned 0).core 0).l1.look 0x800 = none) := by
  refine ⟨goes (h.1 always .acq).1 _ (by decide +kernel) (by decide +kernel), goes (h.1 always .full).1 _ (by decide +kernel) (by decide +kernel), ?_, ?_⟩
  · exact ⟨_, (h.1 always .acq).2 (outstanding .load (.load .w false false .none [acc 0x2000]) (issuing (fence .acq))) path
      (leaf (outstanding .load (.load .w false false .none [acc 0x2000]) (issuing (fence .acq)))) (by decide +kernel)
      ⟨env (outstanding .load (.load .w false false .none [acc 0x2000]) (issuing (fence .acq))) (fence .acq), by decide +kernel, by decide +kernel⟩⟩
  · have := h.2 (idle.updCore 0 fun c => { c with l1 := [(0x800, ⟨1, false, 0⟩)] }) 0 0x800 (by decide +kernel) (by decide +kernel)
    exact this.trans (by decide +kernel)

def pinI : Instr := .pin always 3 5 6
def pinAt : State := issuing pinI fun w => (w.setS 5 0x10000).setS 6 0x10000
def windowed (t : Bool) (n : Nat) : State := idle.updDie 0 fun d => { d with win := [(0, ⟨0, 0x10000, 0x10000, n, t⟩)] }
def allTaken : State := idle.updDie 0 fun d => { d with win := (List.range 16).map fun k => (k, ⟨0, 0x10000, 0x10000, 9, true⟩) }

theorem wit_CacheAndWindows (h : Obligations.CacheAndWindows) :
    (Goes (.pref always .none 5 9) (issuing (.pref always .none 5 9) fun w => w.setS 5 0x2000) ∧ Goes (.cinv always 5 6) (issuing (.cinv always 5 6)) ∧
      Goes (.cflsh always 5 6) (issuing (.cflsh always 5 6)) ∧
      (let s := idle.updCore 0 fun c => { c with l1 := [(0x800, ⟨1, false, 0⟩)] }; ((s.dropLines 0 [(0x2000, 1)]).core 0).l1.look 0x800 = none) ∧
      Goes pinI pinAt ∧ Goes (.unpin always 5) (issuing (.unpin always 5))) ∧
    (allTaken.pin 1 0x10000 0x10000 false).2 = BitVec.ofNat 64 (2 ^ 63 + 1) ∧ (idle.pin 1 0x10000 (2 ^ 31) false).2 = BitVec.ofNat 64 (2 ^ 63 + 2) ∧
    (idle.pin 1 0x10000 (2 ^ 28) false).2 = BitVec.ofNat 64 (2 ^ 63 + 3) ∧
    (∃ x, (idle.pin 1 0x10000 0x10000 false).2 = x) ∧ Goes (.windowFadeTick 0) (windowed false 1) ∧
    (((windowed true 1).updDie 0 Die.fadeTick).die 0).win.look 0 = some ⟨0, 0x10000, 0x10000, 1, false⟩ := by
  have H := h.1 always .none 5 6 3 9
  refine ⟨⟨goes H.1 _ ?_ trivial, goes H.2.1.1 _ ?_ trivial, goes H.2.1.2 _ ?_ trivial,
      (H.2.2.1 (idle.updCore 0 fun c => { c with l1 := [(0x800, ⟨1, false, 0⟩)] }) 0 [(0x2000, 1)] 0x800 ?_ ?_).trans ?_,
      goes H.2.2.2.1 pinAt ?_ ⟨?_, ?_, ?_, ?_⟩, goes H.2.2.2.2 _ ?_ trivial⟩,
    ((h.2.1 allTaken 1 0x10000 0x10000 0).2.2 ?_).1 ?_, (h.2.1 idle 1 0x10000 (2 ^ 31) 0).2.1 ?_,
    ((h.2.1 idle 1 0x10000 (2 ^ 28) 0).2.2 ?_).2.1 ?_ ?_, ⟨_, (((h.2.1 idle 1 0x10000 0x10000 0).2.2 ?_).2.2 ?_ ?_).1⟩,
    ⟨_, (h.2.2.2 (windowed false 1) 0 ?_).1⟩, (((h.2.2.2 (windowed true 1) 0 ?_).2 0 _ rfl).1).trans ((h.2.2.1 _).1 rfl)⟩ <;> decide +kernel

def queued : State := idle.updDie 0 fun d => { d with chq := [(0, [⟨1, 5, 0x80, 1, 0⟩, ⟨1, 6, 0x84, 1, 0⟩])] }
/-- Nine symbols are in error, which is no codeword: a codeword has 17. -/
def nineBad : LineErr := ⟨[(0, 1), (1, 1), (2, 1), (3, 1), (4, 1), (5, 1), (6, 1), (7, 1), (8, 1)]⟩

theorem wit_HbmServes (h : Obligations.HbmServes) :
    Goes (.hbmRequestServe 0 0 none .clean) queued ∧ serveTag 9 none (some 6) [⟨1, 5, 0x80, 1, 0⟩, ⟨1, 6, 0x84, 1, 0⟩] = some 6 ∧
    serveTag 4096 none (some 6) [⟨1, 5, 0x80, 1, 0⟩, ⟨1, 6, 0x84, 1, 0⟩] = some 5 ∧ 0x80 ∈ (idle.readLine 0x80 nineBad).poison :=
  ⟨⟨_, h.1 queued 0 0 5 none .clean ⟨1, 5, 0x80, 1, 0⟩ (by decide +kernel) (by decide +kernel)⟩,
    (h.2.1 ⟨1, 5, 0x80, 1, 0⟩ [⟨1, 6, 0x84, 1, 0⟩] 9 6).2.2.2 (by decide) (by decide),
    (h.2.1 ⟨1, 5, 0x80, 1, 0⟩ [⟨1, 6, 0x84, 1, 0⟩] 4096 6).2.2.1 (by decide) (by decide),
    (h.2.2 idle 0x80).2 nineBad (by decide +kernel) 0x80 (.inl rfl) (.inl (by decide +kernel))⟩

/-- A line code word made of data is one, and one with a symbol changed is none (R365). -/
theorem test_line_code : (let d : List Gf := (List.range 64).map fun k => BitVec.ofNat 8 (k + 1)
    isLineWord (lineWord d) && !(isLineWord (lineWord (d.set 5 0)|>.set 3 1))) = true := by decide +kernel

/-! ## Hypotheses that are met: barriers, copies, the fabric -/

def weakOne (s : State) : State := { s with contexts := s.contexts.put 1 Context.fresh }.updLaunch 0 fun l =>
  { l with recd := { l.recd with ctx := 1, waveClass := 0, teamClass := 0 } }

def barred : State := idle.updTeam 1 fun t => { t with barArr := 1, bardArr := 1, barpArr := 1, bardIn := true, barpIn := true }

/-- A phased launch with two schedules. -/
def phasedLaunch : Launch := { probeLaunch with recd := { probeRecord with phased := true, ns := 2, n := 100, scheds := [0x01010101, 0x01] } }

theorem wit_Barriers (h : Obligations.Barriers) :
    (Goes (.bar always) (issuing (.bar always)) ∧ Goes (.bard always) (issuing (.bard always)) ∧ Goes (.barp always) (issuing (.barp always))) ∧
    Goes (.bar always) (outstanding .load (.load .w false false .none [acc 0x2000]) (issuing (.bar always))) ∧
    Goes (.bar always) (weakOne (issuing (.bar always))) ∧
    (Goes (.barRelease 1) barred ∧ Goes (.bardRelease 0 0) barred ∧ Goes (.barpRelease 0) barred) ∧
    (itemRange 100 0x01010101 3).1 + (itemRange 100 0x01010101 3).2 = 100 ∧ (phasedLaunch.nextPhase 5).phase = (phasedLaunch.phase + 1) % 2 ^ 16 ∧
    phaseChoice [0x01010101, 0x01] 0 [5, 6, 7, 8] < 2 :=
  ⟨⟨goes (h.1.1 .team always).1 _ (by decide +kernel) ⟨by decide +kernel, by decide +kernel⟩,
      goes (h.1.1 .die always).1 _ (by decide +kernel) ⟨by decide +kernel, by decide +kernel⟩,
      goes (h.1.1 .package always).1 _ (by decide +kernel) ⟨by decide +kernel, by decide +kernel⟩⟩,
    ⟨_, (h.1.1 .team always).2.1 (outstanding .load (.load .w false false .none [acc 0x2000]) (issuing (.bar always))) path
      (leaf (outstanding .load (.load .w false false .none [acc 0x2000]) (issuing (.bar always)))) (by decide +kernel) (by decide +kernel)
      (by decide +kernel)⟩,
    ⟨_, (h.1.1 .team always).2.2 (weakOne (issuing (.bar always))) path (leaf (weakOne (issuing (.bar always)))) (by decide +kernel)
      (fun _ _ => trivial) ⟨env (weakOne (issuing (.bar always))) (.bar always), by decide +kernel, by decide +kernel⟩⟩,
    ⟨⟨_, (h.1.2 barred 1 0 0).2.1 (by decide +kernel)⟩, ⟨_, (h.1.2 barred 1 0 0).2.2.1 (by decide +kernel)⟩, ⟨_, (h.1.2 barred 1 0 0).2.2.2 (by decide +kernel)⟩⟩,
    (h.2.1 100 0x01010101 (by decide +kernel)).2.2, (h.2.2.1 phasedLaunch 5 rfl).1, (h.2.2.2 [0x01010101, 0x01] 0 [5, 6, 7, 8] (by decide)).1⟩

def cpyO : U4 := ⟨always, 2, 5, 6, 7⟩
/-- A copy of 64 bytes from 0x2000 to 0x3000 with the arrival word at 0x4000. -/
def cpyRegs (w : Wave) : Wave := (((w.setS 2 0x4000).setS 5 0x3000).setS 6 0x2000).setS 7 64
def cpysRegs (w : Wave) : Wave := (cpyRegs w).setS 5 0x100
def cpygI : Instr := .cpyg always 2 5 8 7
def run1 : Run := ⟨0, 0, devPlace 0x2000, devPlace 0x3000, 0x2000, 0x3000, 64⟩
def copying : State := outstanding .copy (.copy none [run1])
def copyingTo : State := outstanding .copy (.copy (some (0x4000, devPlace 0x4000)) [run1, { run1 with chunk := 1 }])
/-- An older release of the same wave stands before the copy. -/
def copyingLate : State := { idle with ops := [(2, ⟨1, BitVec.allOnes 32, 0, .store, false, false, [], false, .store .w .none [⟨0, 0, devPlace 0x3000, 0x3000, 5, 0⟩], false⟩),
    (3, ⟨1, BitVec.allOnes 32, 0, .copy, false, false, [], false, .copy none [run1], false⟩)], nextId := 4 }

theorem wit_Copies (h : Obligations.Copies) :
    Goes (.cpy cpyO) (issuing (.cpy cpyO) cpyRegs) ∧ Goes (.cpys cpyO) (issuing (.cpys cpyO) cpysRegs) ∧
    Goes cpygI (issuing cpygI fun w => (cpyRegs w).setS 7 4) ∧ ((idle.segRuns 1 .gen 0 (chunksOf ⟨0x3000, 0x2000, 600⟩) 0 ⟨0x3000, 0x2000, 600⟩).map Run.len).sum = 600 ∧
    Goes (.copyChunk 2 0) copying ∧ Goes (.copyChunk 2 0) copyingTo ∧ exec (.copyChunk 3 0) copyingLate = .next copyingLate ∧
    ∃ t, exec (.copyChunk 2 0) copying = .next t ∧ t.placeByte (devPlace 0x3005) = copying.placeByte (devPlace 0x2005) := by
  refine ⟨goes (h.1.1 cpyO _ .gen (by decide +kernel)) (issuing (.cpy cpyO) cpyRegs) (by decide +kernel)
      ⟨⟨by decide +kernel, by decide +kernel, .inr ⟨devPlace 0x4000, ok_of (by decide +kernel)⟩⟩, by unfold rangeOk; decide +kernel, by unfold rangeOk; decide +kernel⟩,
    goes (h.1.1 cpyO _ .spad (by decide +kernel)) (issuing (.cpys cpyO) cpysRegs) (by decide +kernel)
      ⟨⟨by decide +kernel, by decide +kernel, .inr ⟨devPlace 0x4000, ok_of (by decide +kernel)⟩⟩, by unfold rangeOk; decide +kernel, by unfold rangeOk; decide +kernel⟩,
    goes (h.1.2.1 always 2 5 8 7) (issuing cpygI fun w => (cpyRegs w).setS 7 4) (by decide +kernel)
      ⟨by decide +kernel, ⟨by decide +kernel, by decide +kernel, .inr ⟨devPlace 0x4000, ok_of (by decide +kernel)⟩⟩, by unfold rangeOk; decide +kernel⟩,
    (h.1.2.2.2 idle 1 0 0 ⟨0x3000, 0x2000, 600⟩ (by decide)).1, ?_, ?_, ?_, ?_⟩
  · exact ⟨_, (h.2 copying 2 0 _ none [run1] rfl rfl rfl (by decide)).2.1 (by decide +kernel)⟩
  · exact ⟨_, (h.2 copyingTo 2 0 _ (some (0x4000, devPlace 0x4000)) [run1, { run1 with chunk := 1 }] rfl rfl rfl (by decide)).2.1 (by decide +kernel)⟩
  · exact (h.2 copyingLate 3 0 _ none [run1] rfl rfl rfl (by decide)).1 (by decide +kernel)
  · obtain ⟨t, h1, h2, -, -⟩ := (h.2 copying 2 0 _ none [run1] rfl rfl rfl (by decide)).2.2 run1 (by decide) rfl (by decide +kernel) (by decide +kernel)
      (by decide +kernel) (writable_of (by decide +kernel)) (sound_of (by decide +kernel)) (fun i _ => ⟨rfl, rfl⟩)
    exact ⟨t, h1, h2 5 (by decide)⟩

/-- A domain of four packages with one port, this one of index 0. -/
def domain (s : State) : State := { s with cal := { s.cal with n := 4, index := 0, psel := 1, en := true, phase := .data } }

/-- `a` at package 1, and 0x2000 here. -/
def putRegs (w : Wave) : Wave := (((w.setS 2 0x4000).setS 5 (2 ^ 53 + 0x3000)).setS 6 0x2000).setS 7 64
def put : U4 := ⟨always, 2, 5, 6, 7⟩
/-- The set record at 0x5000 names one destination. -/
def withSet (s : State) : State := s.homeWrite (devPlace 0x5000) (bytesOfWord 1 ++ bytesOfWord (2 ^ 53 + 0x3000) ++ bytesOfWord 0)
def setRegs (w : Wave) : Wave := ((((w.setS 2 0).setS 5 0x5000).setS 6 0x2000)).setS 7 64
def ratomO : AtomArgs := ⟨always, .add, .none, false, 1, 5, 3, 4⟩

theorem wit_RemoteIssue (h : Obligations.RemoteIssue) :
    Goes (.rput .d put) (domain (issuing (.rput .d put) putRegs)) ∧ Goes (.rred .msv .d put) (domain (issuing (.rred .msv .d put) putRegs)) ∧
    Goes (.rputM .d put) (withSet (domain (issuing (.rputM .d put) setRegs))) ∧ Goes (.rputM .d put) (domain (issuing (.rputM .d put) setRegs)) ∧
    Goes (.rget .d put) (domain (issuing (.rget .d put) putRegs)) ∧ Goes (.ratom .d ratomO) (domain (issuing (.ratom .d ratomO) putRegs)) ∧
    Goes (.rarrv .d always 5 6) (domain (issuing (.rarrv .d always 5 6) putRegs)) := by
  have hd := h .d put
  refine ⟨goes (hd.1 _ .rput 0 (by decide +kernel)) (domain (issuing (.rput .d put) putRegs)) (by decide +kernel)
      ⟨⟨by decide +kernel, by decide +kernel⟩, by unfold rangeOk; decide +kernel, by decide +kernel, by decide +kernel⟩,
    goes (hd.1 _ .rred 2 (by decide +kernel)) (domain (issuing (.rred .msv .d put) putRegs)) (by decide +kernel)
      ⟨⟨by decide +kernel, by decide +kernel⟩, by unfold rangeOk; decide +kernel, by decide +kernel, by decide +kernel⟩,
    goes hd.2.1 (withSet (domain (issuing (.rputM .d put) setRegs))) (by decide +kernel)
      ⟨⟨by decide +kernel, by decide +kernel⟩, by decide +kernel, by decide +kernel, by decide +kernel, by unfold rangeOk; decide +kernel,
        by decide +kernel, ?_, by decide +kernel⟩,
    goes hd.2.1 (domain (issuing (.rputM .d put) setRegs)) (by decide +kernel)
      ⟨⟨by decide +kernel, by decide +kernel⟩, by decide +kernel, by decide +kernel, by decide +kernel, by unfold rangeOk; decide +kernel,
        by decide +kernel, ?_, by decide +kernel⟩,
    goes hd.2.2.2.1 (domain (issuing (.rget .d put) putRegs)) (by decide +kernel)
      ⟨⟨by decide +kernel, by decide +kernel, .inr ⟨devPlace 0x4000, ok_of (by decide +kernel)⟩⟩, by unfold rangeOk; decide +kernel⟩,
    goes (hd.2.2.2.2.1 ratomO) (domain (issuing (.ratom .d ratomO) putRegs)) (by decide +kernel) ⟨⟨by decide +kernel, by decide +kernel⟩, by decide +kernel, by decide +kernel⟩,
    goes (hd.2.2.2.2.2 always 5 6) (domain (issuing (.rarrv .d always 5 6) putRegs)) (by decide +kernel) ⟨⟨by decide +kernel, by decide +kernel⟩, by decide +kernel⟩⟩
  · intro _ _; exact ⟨by decide +kernel, by decide +kernel⟩
  · intro hn; exact absurd hn (by decide +kernel)

def ownE (s : State) (i : Instr) : Env := env s i
def far : Dest := ⟨2 ^ 53 + 0x3000, 0⟩
def near : Dest := ⟨0x3000, 0⟩
def outside : Dest := ⟨7 * 2 ^ 53, 0⟩

theorem wit_YardEntry (h : Obligations.YardEntry) :
    (let s := domain idle; ∃ it, ((s.enterYard (env s (.nop always)) .copy false [] .d Remote.blank [far]).peer 1).direct = [it]) ∧
    (let s := domain idle; ∃ it, ((s.enterYard (env s (.nop always)) .copy false [] .d Remote.blank [near]).peer 0).direct = [it]) ∧
    (let s := domain idle; ((s.enterYard (env s (.nop always)) .copy false [] .d Remote.blank [outside]).wave 1).boundary = [(0x41, 7 * 2 ^ 53)]) ∧
    (∃ k, (domain idle).routeOf .v 1 5 = .via k) ∧
    Goes (.rfence always 5) (issuing (.rfence always 5)) ∧ Goes (.vqst always 6 5) (issuing (.vqst always 6 5)) := by
  refine ⟨?_, ?_, ?_, ?_, ?_, ?_⟩
  · exact ⟨_, (((h.1 (domain idle) (env (domain idle) (.nop always)) .copy false [] .d Remote.blank far (by decide +kernel) (by decide +kernel)).2.1 1 (by decide +kernel)).1).trans rfl⟩
  · exact ⟨_, ((h.1 (domain idle) (env (domain idle) (.nop always)) .copy false [] .d Remote.blank near (by decide +kernel) (by decide +kernel)).2.2.1 (by decide +kernel)).trans rfl⟩
  · exact ((h.1 (domain idle) (env (domain idle) (.nop always)) .copy false [] .d Remote.blank outside (by decide +kernel) (by decide +kernel)).2.2.2.2 (by decide +kernel) rfl rfl).trans
      (by decide +kernel)
  · obtain ⟨k, -, hk⟩ := (h.2.1 (domain idle) 1 5).2.2.2 (by decide +kernel) (by decide +kernel) (by decide +kernel)
    exact ⟨k, hk⟩
  · exact goes (h.2.2 always 6 5).1 _ (by decide +kernel) ⟨⟨by decide +kernel, by decide +kernel⟩, .inl (by decide +kernel)⟩
  · exact goes (h.2.2 always 6 5).2.2.1 _ (by decide +kernel) ⟨by decide +kernel, by decide +kernel⟩

/-- A header from package 1. -/
def hdr (k : RKind) : RHeader := ⟨k, 1, false, false, false, 1, 0, 0, 128, 0x3000, 0, 4, 0, 0, 0, [], []⟩
def came (h : RHeader) (more : List (Nat × Payload) := []) (inb : List Inbound := []) (s : State := idle) : State :=
  { domain s with arrived := (1, .header h) :: more, inbound := inb }
/-- The operation that `h` opened: its range of device memory, its word, and the place of each lane. -/
def inb (h : RHeader) (word : Option Place := none) (lanes : List (LaneRec × Place) := []) : Inbound :=
  ⟨h, 0, [], 0, none, [], ⟨[(devPlace 0x3000, h.length)], word, lanes⟩⟩
def puts : State := { came (hdr .rput) [] [inb (hdr .rput)] with arrived := [(1, .chunk 1 128 0 [1, 2, 3, 4])] }
def opened (x : Inbound) : State := { came x.header [] [x] with arrived := [] }
def lane1 : LaneRec × Place := (⟨0, 0x3000, 5, 0⟩, devPlace 0x3000)
def atomIn : Inbound := inb { hdr .ratom with lanes := [lane1.1] } none [lane1]
def arrIn : Inbound := inb (hdr .rarrv) (some (devPlace 0x3000))
/-- A remote operation of this package awaits its one copy. -/
def awaiting : State := domain (outstanding .copy (.remote { Remote.blank with copies := [(0, 0x3000)], targets := [1] }))
def loopHdr : RHeader := { hdr .rput with origin := 0 }
def loopItem : YardItem := ⟨some (2, 0), loopHdr, [1, 2, 3, 4], 0, false, 0, none⟩
def looping (it : YardItem := loopItem) : State := awaiting.updPeer 0 fun p => { p with direct := [it] }
def loopAcc : Accepted := ⟨[(devPlace 0x3000, 4)], none, []⟩

theorem wit_RemoteTargetAndOrigin (h : Obligations.RemoteTargetAndOrigin) :
    (Goes (.remoteHeaderArrival (hdr .rput)) (came (hdr .rput)) ∧ Goes (.remoteHeaderArrival { hdr .rput with cont := true }) (came { hdr .rput with cont := true }) ∧
      Goes (.remoteHeaderArrival { hdr .rput with context := 9 }) (came { hdr .rput with context := 9 }) ∧
      Goes (.relayEnqueue { hdr .rput with target := 2 } []) (came { hdr .rput with target := 2 })) ∧
    (Goes (.remoteChunkPerform 1 128 0 [1, 2, 3, 4]) puts ∧ Goes (.remoteGetServe 1 128) (opened (inb (hdr .rgetReq))) ∧
      Goes (.remoteAtomPerform 1 128) (opened atomIn) ∧ Goes (.remoteArrival 1 128) (opened arrIn)) ∧
    (Goes (.remoteAckReceive (hdr .ack)) (came (hdr .ack)) ∧
      Goes (.remoteReplyReceive (hdr .rgetData) [1, 2, 3, 4]) (came (hdr .rgetData) [(1, .chunk 1 128 0 [1, 2, 3, 4])]) ∧
      Goes (.remoteRefusal (hdr .refusal)) (came (hdr .refusal) [] [] awaiting)) ∧
    (∃ x, ((awaiting.copyAcked 2 0 1).wave 1).flags = x) ∧ Goes (.loopbackPerform 2) (looping { loopItem with acc := some loopAcc }) ∧
    Goes (.loopbackPerform 2) looping := by
  have hg := h.1 (opened (inb (hdr .rgetReq))) 1 (hdr .rgetReq)
  have ha := h.1 (opened atomIn) 1 atomIn.header
  have hv := h.1 (opened arrIn) 1 arrIn.header
  refine ⟨⟨⟨_, ((h.1 (came (hdr .rput)) 1 (hdr .rput)).1 ?_ rfl ?_).2.1 ⟨[(devPlace 0x3000, 4)], none, []⟩ (.inl rfl) ?_⟩,
      ⟨_, ((h.1 (came { hdr .rput with cont := true }) 1 { hdr .rput with cont := true }).1 ?_ rfl ?_).1 rfl nofun⟩,
      ⟨_, ((h.1 (came { hdr .rput with context := 9 }) 1 { hdr .rput with context := 9 }).1 ?_ rfl ?_).2.2 (.inl rfl) ?_⟩,
      ⟨_, (h.1 (came { hdr .rput with target := 2 }) 1 { hdr .rput with target := 2 }).2.1 ?_ rfl ?_ ?_ (.inl rfl)⟩⟩,
    ⟨⟨_, ((h.1 puts 1 (hdr .rput)).2.2 (inb (hdr .rput)) [(devPlace 0x3000, 4)] ?_ rfl).1 [1, 2, 3, 4] 0 (.inl rfl) ?_ ?_ ?_ nofun ?_ ?_ nofun⟩,
      ⟨_, (hg.2.2 (inb (hdr .rgetReq)) [(devPlace 0x3000, 4)] ?_ rfl).2.1 rfl ?_ ?_⟩,
      ⟨_, (ha.2.2 atomIn [] ?_ rfl).2.2.1 lane1 rfl rfl ?_⟩,
      ⟨_, (hv.2.2 arrIn [] ?_ rfl).2.2.2.2.1 (devPlace 0x3000) rfl rfl ?_ ?_⟩⟩,
    ⟨⟨_, (h.2.1 (came (hdr .ack)) 1 (hdr .ack) ?_).1 rfl⟩,
      ⟨_, (h.2.1 (came (hdr .rgetData) [(1, .chunk 1 128 0 [1, 2, 3, 4])]) 1 (hdr .rgetData) ?_).2.1 [1, 2, 3, 4] (.inl rfl) ?_ ?_⟩, ?refused⟩,
    ⟨_, (h.2.2.1 awaiting 2 0 _ _ 1 rfl rfl rfl ?_ ?_ ?_).1⟩,
    ⟨_, (h.2.2.2 (looping { loopItem with acc := some loopAcc }) 2 0 _ _ { loopItem with acc := some loopAcc } [] rfl rfl rfl rfl).1 loopAcc rfl⟩,
    ⟨_, (h.2.2.2 looping 2 0 _ _ loopItem [] rfl rfl rfl rfl).2.1 loopAcc rfl ?_⟩⟩
  case refused =>
    obtain ⟨t, ht, -⟩ := (h.2.1 (came (hdr .refusal) [] [] awaiting) 1 (hdr .refusal) (by decide +kernel)).2.2 _ _ 0x3000 rfl rfl rfl rfl rfl rfl rfl
      (by decide +kernel) (by decide +kernel)
    exact ⟨t, ht⟩
  all_goals decide +kernel

def msv : RHeader := { hdr .rred with opcode := 2, length := 8 }
def msvState : State := { opened (inb msv) with arrived := [(1, .chunk 1 128 0 [0, 0, 128, 63, 0, 0, 128, 63])] }
/-- A reduction of three words, of which the first has been performed. -/
def reduces : State :=
  let h := { hdr .rred with length := 12 }
  { came h [] [{ inb h with part := some (0, 1) }] with arrived := [(1, .chunk 1 128 0 (List.replicate 12 1))] }
/-- The loopback operation names a context that does not exist. -/
def badItem : YardItem := { loopItem with header := { loopHdr with context := 9 } }
def loopBad : State := looping badItem

theorem wit_RemoteMore (h : Obligations.RemoteTargetAndOrigin) :
    Goes (.remoteMsvCombine 1 128) msvState ∧ Goes (.remoteChunkPerform 1 128 0 (List.replicate 12 1)) reduces ∧ Goes (.loopbackPerform 2) loopBad := by
  refine ⟨⟨_, ((h.1 msvState 1 msv).2.2 (inb msv) [(devPlace 0x3000, 8)] ?_ rfl).2.2.2.2.2 [0, 0, 128, 63, 0, 0, 128, 63] rfl rfl ?_ rfl ?_ ?_ ?_⟩,
    ⟨_, ((h.1 reduces 1 { hdr .rred with length := 12 }).2.2 { inb { hdr .rred with length := 12 } with part := some (0, 1) } [(devPlace 0x3000, 12)]
      ?_ rfl).1 (List.replicate 12 1) 0 (.inr ⟨rfl, by decide⟩) ?_ ?_ ?_ (fun c hc => by cases hc; rfl) ?_ ?_ ?_⟩,
    ⟨_, (h.2.2.2 loopBad 2 0 _ _ badItem [] rfl rfl rfl rfl).2.2 rfl ?_⟩⟩ <;>
    decide +kernel

/-! ## Hypotheses that are met: matrix engine, sum trees, effect lists, system -/

/-- Tile 5 and accumulator 2 are valid; the accumulator is I32 when `int`. -/
def loaded (int : Bool) (w : Wave) : Wave :=
  { w with tstat := [(5, ⟨true, true, false⟩)], acc := [(2, ⟨true, true, false, int, false, [0, 0, 0, 0], [0, 0, 0, 0]⟩)] }

def mi (i : Instr) (int : Bool := true) (f : Wave → Wave := id) : State := issuing i fun w => f (loaded int w)

theorem wit_MatrixIssue (h : Obligations.MatrixIssue) :
    allClear [.munf always 16, .mscl always 4 5] = true ∧
    (Goes (.mza always true 2) (mi (.mza always true 2)) ∧ Goes (.mldt always 5 4) (mi (.mldt always 5 4)) ∧ Goes (.msta always false 2 4) (mi (.msta always false 2 4)) ∧
      Goes (.mcvt always .int8 5 2 1) (mi (.mcvt always .int8 5 2 1))) ∧
    (Goes (.mmq always .i8 false 2 5) (mi (.mmq always .i8 false 2 5)) ∧ Goes (.mmw always .i8 false 2 5) (mi (.mmw always .i8 false 2 5)) ∧
      Goes (.mmg always .i8 false 4 9 5) (mi (.mmg always .i8 false 4 9 5))) ∧
    (Goes (.mtrn always .i8 2 5 3) (mi (.mtrn always .i8 2 5 3)) ∧ Goes (.mprm always .i8 2 9 5) (mi (.mprm always .i8 2 9 5)) ∧
      Goes (.mred always .i8 2 5) (mi (.mred always .i8 2 5))) ∧
    Goes (.mmt always .i8 false 20 16) (issuing (.mmt always .i8 false 20 16)) ∧ Goes (.mmts always .i8 false 20 16) (issuing (.mmts always .i8 false 20 16) fun w => w.setS 19 0x4000) := by
  have H := h always .i8 false 2 5 5 4 4 9
  refine ⟨by decide +kernel, ⟨?_, ?_, ?_, ?_⟩, ⟨?_, ?_, ?_⟩, ⟨?_, ?_, ?_⟩, ?_, ?_⟩
  · exact goes (H.2.2.1 true) _ (by decide +kernel) (by decide +kernel)
  · exact goes H.2.2.2.1 _ (by decide +kernel) (by decide +kernel)
  · exact goes (H.2.2.2.2.1 false) _ (by decide +kernel) ⟨by decide +kernel, by decide +kernel, by decide +kernel, by decide +kernel, by decide +kernel, by unfold scalesOk; decide +kernel⟩
  · exact goes (H.2.2.2.2.2.1 .int8 1) _ (by decide +kernel) ⟨by decide +kernel, by decide +kernel, by unfold scalesOk; decide +kernel⟩
  · exact goes (H.2.2.2.2.2.2.1 _ (.inl rfl)) _ (by decide +kernel)
      ⟨by unfold quartersOk; decide +kernel, nofun, ⟨by unfold tileHolds; decide +kernel, by unfold accHolds; decide +kernel, by unfold rowsOk; decide +kernel, nofun⟩⟩
  · exact goes (H.2.2.2.2.2.2.1 _ (.inr rfl)) _ (by decide +kernel)
      ⟨by unfold quartersOk; decide +kernel, fun _ => by decide +kernel, ⟨by unfold tileHolds; decide +kernel, by unfold accHolds; decide +kernel, by unfold rowsOk; decide +kernel, nofun⟩⟩
  · exact goes H.2.2.2.2.2.2.2.1 _ (by decide +kernel)
      ⟨by unfold quartersOk; decide +kernel, by decide +kernel, by decide +kernel, ⟨by unfold tileHolds; decide +kernel, by decide +kernel, by decide +kernel, by decide +kernel, by unfold rowsOk; decide +kernel, nofun⟩⟩
  · exact goes (H.2.2.2.2.2.2.2.2.1 _ _ (.inl ⟨3, rfl, rfl⟩)) _ (by decide +kernel)
      ⟨by unfold quartersOk; decide +kernel, by unfold tileHolds; decide +kernel, by unfold accHolds; decide +kernel⟩
  · exact goes (H.2.2.2.2.2.2.2.2.1 _ _ (.inr (.inl ⟨rfl, rfl⟩))) _ (by decide +kernel)
      ⟨by unfold quartersOk; decide +kernel, by unfold tileHolds; decide +kernel, by unfold accHolds; decide +kernel⟩
  · exact goes (H.2.2.2.2.2.2.2.2.1 _ _ (.inr (.inr ⟨rfl, rfl⟩))) _ (by decide +kernel)
      ⟨by unfold quartersOk; decide +kernel, by unfold tileHolds; decide +kernel, by unfold accHolds; decide +kernel⟩
  · exact goes ((h always .i8 false 2 5 5 20 16 9).2.2.2.2.2.2.2.2.2 _ false (by decide +kernel)) _ (by decide +kernel) (by decide +kernel)
  · exact goes ((h always .i8 false 2 5 5 20 16 9).2.2.2.2.2.2.2.2.2 _ true (by decide +kernel)) _ (by decide +kernel) (by decide +kernel)

def entry (b : MBody) (started : Bool) : MEntry := ⟨1, 2, b, [], 0, none, none, true, [], started, 0, 0, [], []⟩
/-- `es` in the queue, eight cycles on. -/
def queue (es : List MEntry) (s : State := idle) : State := { s with cycle := 8 }.setMq 0 0 es
def macro1 (n steps : Nat) (ds : List DWord := [0, 0, 0, 0]) : Macro := ⟨.a, BitVec.allOnes 32, false, .i8, false, 20, ds, 0, n, steps, false⟩
def running (m : Macro) (s : State := idle) : State := s.updWave 1 fun w => { w with mmt := some m }
/-- Its one K step reads B at `b`. -/
def kStep (b : Nat) : Macro := macro1 1 3 [BitVec.ofNat 64 vaultBase, BitVec.ofNat 64 b, 1, 0]

def made (b : MBody) : MDone := (entry b false).compute (fun _ => 7) (Wave.blank 0 0 0)

theorem wit_MatrixArithmetic (h : Obligations.MatrixArithmetic) :
    ((made (.mza true 2)).wave.accWord 2 31 31 = 0 ∧ ((made (.mmq .i8 false 2 5 3 0)).wave.accTag 2).scl = false ∧ (made (.mmq .i8 true 2 5 3 0)).adds = [] ∧
      ((made (.mprm .i8 2 5 3 [1, 2])).wave.accTag 2).scl = false ∧ (made (.mmg .i8 true 5 3 0 [1] [2 ^ 32 - 1])).adds = [] ∧
      (made (.mldt 5 0)).wave.tileByte 5 6143 = 7) ∧
    ((made (.msta true 2 64 false)).wave.accWord 3 0 0 = 0 ∧ ((made (.mcvt .int8 5 2 1 false)).wave.tileStat 5).valid = true) ∧
    (accPlain .i8 5 [.int 2] [.int 3]).1 = 11 ∧ groupSum [(.nan false, 0), (.inf true, 0)] = (fp32.cnan, 0) ∧
    (groupSum [(.fin false 3 0, 0), (.fin true 1 1, 0)]).1 = 0x3F800000 := by
  have H := fun b => h.1 (entry b false) (fun _ => 7) (Wave.blank 0 0 0) rfl rfl rfl rfl
  refine ⟨⟨(H (.mza true 2)).1 true 2 rfl |>.1 2 31 31 (by decide) (by decide), ((H (.mmq .i8 false 2 5 3 0)).2.1 .i8 2 5 3 0 rfl (by decide)).2.1,
      ((H (.mmq .i8 true 2 5 3 0)).2.2.1 .i8 2 5 3 0 rfl (by decide) (by decide) (by decide) rfl rfl).1.2.2.2.2.2.2,
      ((H (.mprm .i8 2 5 3 [1, 2])).2.2.2.1 .i8 2 5 3 _ (.inr (.inl ⟨[1, 2], rfl, rfl⟩)) (by decide)).2,
      ((H (.mmg .i8 true 5 3 0 [1] [2 ^ 32 - 1])).2.2.2.2.1 .i8 true 5 3 0 [1] [2 ^ 32 - 1] rfl (by decide)).2.2.trans (by decide),
      ((H (.mldt 5 0)).2.2.2.2.2.1 5 0 6143 rfl (by decide)).1⟩,
    ⟨((H (.msta true 2 64 false)).2.2.2.2.2.2.1 true 2 64 false rfl).1 3 0 0 (by decide) (by decide),
      ((H (.mcvt .int8 5 2 1 false)).2.2.2.2.2.2.2 .int8 5 2 1 false rfl (by decide)).2.2.1⟩,
    congrArg Prod.fst ((h.2.1 .i8 5 [.int 2] [.int 3] rfl (by decide)).1 rfl) |>.trans (by decide),
    ((h.2.2.1 [(.nan false, 0), (.inf true, 0)]).1 ⟨.nan false, by decide, rfl⟩).trans (by decide), ?_⟩
  exact (congrArg Prod.fst (((h.2.2.1 [(.fin false 3 0, 0), (.fin true 1 1, 0)]).2.2.2 [(false, 3, 0), (true, 1, 1)] 0 rfl (by decide) (by decide)).2 (by decide))).trans
    (by decide +kernel)

theorem wit_MatrixQueue (h : Obligations.MatrixQueue) :
    ((idle.enterQueue (env idle (.nop always)) [] 0 none none [.mza true 2]).mqAt 0 0).length = 1 ∧
    exec (.matrixEntryStart ⟨0, 0⟩ 0) (queue [{ entry (.mza true 3) true with ends := 9 }, entry (.mza true 2) false]) =
      .next (queue [{ entry (.mza true 3) true with ends := 9 }, entry (.mza true 2) false]) ∧
    (Goes (.matrixEntryStart ⟨0, 0⟩ 0) (queue [entry (.mza true 2) false]) ∧ Goes (.matrixEntryStart ⟨0, 0⟩ 0) (queue [entry (.mldt 5 0) false])) ∧
    exec (.matrixWriteComplete ⟨0, 0⟩ 0) (queue [{ entry (.mza true 2) true with ends := 1 }]) = .next (queue [{ entry (.mza true 2) true with ends := 1 }]) ∧
    (Goes (.matrixWriteComplete ⟨0, 0⟩ 0) (queue [{ entry (.mza true 2) true with adds := [(0, 5)] }]) ∧
      Goes (.matrixWriteComplete ⟨0, 0⟩ 0) (queue [{ entry (.mza true 2) true with adds := [(0, 5)], sOp := some 9 }, { entry (.mza true 2) false with sOp := some 9 }]) ∧
      Goes (.matrixWriteComplete ⟨0, 0⟩ 0) (queue [entry (.mza true 2) true])) := by
  have hs := fun b hb => (h.1 (queue [entry b false])).2.1 ⟨0, 0⟩ 0 0 (entry b false) hb |>.2
  have hw := fun m rest hq => (h.1 (queue (m :: rest))).2.2.2 ⟨0, 0⟩ 0 m rest hq
  refine ⟨?_, ((h.1 (queue [{ entry (.mza true 3) true with ends := 9 }, entry (.mza true 2) false])).2.1 ⟨0, 0⟩ 0 1 (entry (.mza true 2) false) ?_).1 ?_,
    ⟨⟨_, (hs (.mza true 2) ?_ ?_ ?_).2 ?_⟩, ?loads⟩, (hw { entry (.mza true 2) true with ends := 1 } [] ?_).1 ?_,
    ⟨_, ((hw { entry (.mza true 2) true with adds := [(0, 5)] } [] ?_).2 rfl ?_).1 (0, 5) [] rfl ?_⟩,
    ⟨_, ((hw { entry (.mza true 2) true with adds := [(0, 5)], sOp := some 9 } [{ entry (.mza true 2) false with sOp := some 9 }] ?_).2 rfl ?_).2.1 ?_ ?_⟩,
    ⟨_, ((hw (entry (.mza true 2) true) [] ?_).2 rfl ?_).2.2 rfl⟩⟩
  case loads =>
    have hl := hs (.mldt 5 0) (by decide +kernel) (by decide +kernel) (by decide +kernel)
    rcases Nat.lt_or_ge (1 + Config.pick ((queue [entry (.mldt 5 0) false]).draw 0) % max 1
      ((entry (.mldt 5 0) false).toRead ((queue [entry (.mldt 5 0) false]).wave 1)).length)
      ((entry (.mldt 5 0) false).toRead ((queue [entry (.mldt 5 0) false]).wave 1)).length with hn | hn
    · exact ⟨_, hl.1 hn⟩
    · exact ⟨_, hl.2 hn⟩
  all_goals decide +kernel

theorem wit_MacroSteps (h : Obligations.MatrixQueue) :
    (Goes (.mmtStep path false) (running (macro1 0 2)) ∧ Goes (.mmtStep path true) (running (macro1 0 2)) ∧ Goes (.mmtStep path false) (running (macro1 0 1))) ∧
    Goes (.mmtStep path false) ((running (kStep 0x2000)).updWave 1 fun w => { w with upset := [(.a 0, 2)] }) ∧
    exec (.mmtStep path false) (running (kStep 0x2000) (storing (devPlace 0x2000))) = .next (running (kStep 0x2000) (storing (devPlace 0x2000))) ∧
    (Goes (.mmtStep path false) (running (kStep vaultBase)) ∧ Goes (.mmtStep path false) (running (kStep 0x2000) { idle with poison := [0x80] })) ∧
    ((idle.macroEnd 1 20 3).wave 1).sreg 20 = BitVec.ofNat 64 3 := by
  have d0 := h.2 (running (macro1 0 2)) path (macro1 0 2) false rfl rfl rfl
  have d1 := h.2 (running (macro1 0 2)) path (macro1 0 2) true rfl rfl rfl
  have d2 := h.2 (running (macro1 0 1)) path (macro1 0 1) false rfl rfl rfl
  obtain ⟨x, hx, -⟩ := d0.2.2.2.2.2.1 rfl
  obtain ⟨y, hy, -⟩ := d2.2.2.2.2.2.1 rfl
  have hk := fun s hm hr => h.2 s path (kStep 0x2000) false hm rfl hr
  refine ⟨⟨⟨_, (d0.2.2.2.2.1 x 0 [] [] rfl hx).2.2 (by decide) rfl ?stays⟩, ⟨_, (d1.2.2.2.2.1 x 0 [] [] rfl hx).2.1 (by decide) rfl⟩,
      ⟨_, (d2.2.2.2.2.1 y 0 [] [] rfl hy).1 (by decide)⟩⟩,
    ⟨_, (hk ((running (kStep 0x2000)).updWave 1 fun w => { w with upset := [(.a 0, 2)] }) rfl rfl).1 ?_⟩,
    (hk (running (kStep 0x2000) (storing (devPlace 0x2000))) rfl rfl).2.1 ?_ ?_,
    ⟨⟨_, (h.2 (running (kStep vaultBase)) path (kStep vaultBase) false rfl rfl rfl).2.2.1 ?_ ?_⟩,
      ⟨_, (hk (running (kStep 0x2000) { idle with poison := [0x80] }) rfl rfl).2.2.2.1 (4, idle.lineUnit 0x80, 0x2000) ?_ ?_⟩⟩,
    ((h.2 (running (macro1 0 2)) path (macro1 0 2) true rfl rfl rfl).2.2.2.2.2.2 ?_ ?_ 3).2.trans rfl⟩
  case stays =>
    have hd : x = ((upto 8).foldl (fun w a => w.zeroAcc a true) ((running (macro1 0 2)).wave 1)) := (MStep.done.inj hx).1.symm
    rw [hd]; decide +kernel
  all_goals decide +kernel

/-! ## Hypotheses that are met: sum trees, effect lists, system instructions, control registers -/

def treeIs : List (Instr × (Env → Wave → TreeDo)) :=
  [((.hset always 1 3 4 : Instr), fun e w => TreeDo.set (lanePairs e w 3 4)), (.hadd always 1 3 4, fun e w => .add (lanePairs e w 3 4)),
   (.hpfx always 1 (.vec 3 4), fun e w => .pfxV 3 (laneVals e w 4)), (.hpfx always 1 (.uni 5 6), fun _ w => .pfxS 5 (w.sreg 6).toNat),
   (.hfind always 1 (.vec 3 4), fun e w => .findV 3 (laneVals e w 4)), (.hfind always 1 (.uni 5 6), fun _ w => .findS 5 (w.sreg 6).toNat),
   (.hcut always 5 1 6, fun _ w => .cut 5 (w.sreg 6).toNat), (.htot always 5 1, fun _ _ => .tot 5),
   (.hlenRead always 5 1, fun _ _ => .lenRead 5), (.hlenSet always 1 6, fun _ w => .lenSet (w.sreg 6).toNat)]

def tcmd (b : TreeDo) (op : Option Nat := none) : TreeCmd := ⟨1, 2, BitVec.allOnes 32, 1, 1, op, b⟩
def treeQ (c : TreeCmd) (s : State := idle) : State := s.updCore 0 fun x => { x with treeQ := [c] }
/-- The unit's entry reads the scratchpad behind an older store. -/
def treeHeld : State := treeQ (tcmd (.stl 0 none) (some 9)) (storing ⟨.spad 1, 0, 0, false⟩)

theorem wit_SumTreeIssue (h : Obligations.SumTreeIssue) :
    (∀ x ∈ treeIs, Goes x.1 (issuing x.1)) ∧
    (Goes (.hbld always false 1 (.vec 3) 6) (issuing (.hbld always false 1 (.vec 3) 6) fun w => w.setS 6 8) ∧
      Goes (.hbld always true 1 (.sp 5) 6) (issuing (.hbld always true 1 (.sp 5) 6) fun w => w.setS 6 8) ∧
      Goes (.hstl always 1 5) (issuing (.hstl always 1 5))) ∧
    Goes (.treeUnitExecute ⟨0, 0⟩ none) treeHeld ∧ Goes (.treeUnitExecute ⟨0, 0⟩ none) (treeQ (tcmd (.tot 20))) ∧
    (tcmd (.pfxS 20 9)).apply [] (fun _ => 0) ⟨false, 4, [(1, 7)]⟩ (Wave.blank 0 0 0) = (⟨false, 4, [(1, 7)]⟩, (Wave.blank 0 0 0).setS 20 7, 0) := by
  have H := fun m => h.1 always 1 3 4 5 6 m
  refine ⟨fun x hx => ?_, ⟨?_, ?_, ?_⟩, ⟨_, (h.2 treeHeld ⟨0, 0⟩ (tcmd (.stl 0 none) (some 9)) [] (by decide +kernel)).1 (by decide +kernel) none⟩,
    ⟨_, (h.2 (treeQ (tcmd (.tot 20))) ⟨0, 0⟩ (tcmd (.tot 20)) [] (by decide +kernel)).2.1 (by decide +kernel) (by decide +kernel)⟩,
    (h.2 (treeQ (tcmd (.pfxS 20 9))) ⟨0, 0⟩ (tcmd (.pfxS 20 9)) [] (by decide +kernel)).2.2.2.2.2.2 [] (fun _ => 0) ⟨false, 4, [(1, 7)]⟩ (Wave.blank 0 0 0) |>.1 20 9 (by rfl)⟩
  · have hc : treeIs.all (fun x => clearAt x.1 false (issuing x.1) && (issuing x.1).groupOf path == none) = true := by decide +kernel
    have h1 := List.all_eq_true.mp hc x hx
    simp only [Bool.and_eq_true, beq_iff_eq] at h1
    exact goes ((H false).1 x.1 x.2 hx) _ (by simpa [clearAt] using h1.1) h1.2
  · exact goes (H false).2.1 _ (by decide +kernel) ⟨by decide +kernel, .inr (by decide +kernel), by decide +kernel⟩
  · exact goes (H true).2.2.1 _ (by decide +kernel) ⟨by decide +kernel, by decide +kernel, by decide +kernel⟩
  · exact goes (H false).2.2.2 _ (by decide +kernel) ⟨by decide +kernel, by decide +kernel, by decide +kernel, by decide +kernel⟩

theorem wit_SumTreeQueries (h : Obligations.SumTreeQueries) :
    let t : Tree := ⟨false, 4, [(1, 7), (3, 2)]⟩
    t.find 6 < 4 ∧ t.find 9 = 4 ∧ massBelow t (t.cut 8).1 < 8 ∧ t.cut 10 = (4, t) ∧ (t.set [(0, 1, 5), (3, 1, 6)]).1.leaf 1 = 6 ∧
      (t.add [(0, 1, 0xFFFFFFFF)]).1.leaf 1 = 6 := by
  have H := h ⟨false, 4, [(1, 7), (3, 2)]⟩ ⟨by decide, by decide⟩
  exact ⟨(H.2.2.1 6 (by decide)).1, H.2.2.2.1 9 (by decide), (H.2.2.2.2.1 8 (by decide) (by decide)).1, H.2.2.2.2.2.1 10 (by decide),
    H.2.2.2.2.2.2.1 [(0, 1, 5), (3, 1, 6)] 1 (by decide) (by decide), H.2.2.2.2.2.2.2.1 [(0, 1, 0xFFFFFFFF)] 1 (by decide)⟩

/-- The wave's first list holds two records, and its handle stands in s5. -/
def rec1 : Effect := .store false 0x2000 4 7
def rec2 : Effect := .store false 0x2004 4 8
def listed (i : Instr) (f : Wave → Wave := id) : State :=
  let s := issuing i f
  (s.newList 1 [rec1, rec2]).1.updWave 1 fun w => w.setS 5 (s.newList 1 [rec1, rec2]).2
def collectingIn (s : State) : State := collecting s
def applying : State :=
  let s := listed (.eapp always 5)
  let e := env s (.eapp always 5)
  s.eappStep 5 (.eapp always 5) e

theorem wit_EffectLists (h : Obligations.EffectLists) :
    (Goes (.callc always 7 back) (issuing (.callc always 7 back)) ∧ Goes (.retc always 7) (issuing (.retc always 7) fun w => w.setS 7 0x1000) ∧
      Goes (.retc always 7) (collecting (issuing (.retc always 7) fun w => w.setS 7 0x1000))) ∧
    (Goes (.ecat always 7 5 5) (listed (.ecat always 7 5 5)) ∧ Goes (.eflt always true 7 5 5 5) (listed (.eflt always true 7 5 5 5)) ∧
      Goes (.erbs always 7 5 5 5 9) (listed (.erbs always 7 5 5 5 9)) ∧ Goes (.edrp always 5) (listed (.edrp always 5)) ∧ Goes (.elen always 7 5) (listed (.elen always 7 5))) ∧
    (idle.newList 1 [rec1]).1.listOf 1 (idle.newList 1 [rec1]).2.toNat = some [rec1] ∧
    (Goes (.eapp always 5) (listed (.eapp always 5)) ∧ Goes (.eapp always 7) (listed (.eapp always 7)) ∧ Goes (.eapp always 5) applying ∧
      Goes (.eapp always 5) (collecting (listed (.eapp always 5)))) ∧
    Goes (.eareaWrite 1 1) idle ∧ Goes (.eareaWrite 1 256) idle := by
  have H := fun i => h.1 always 7 5 5 5 i 9 true
  have A := h.2.1 always
  refine ⟨⟨?_, ?_, ?_⟩, ⟨?_, ?_, ?_, ?_, ?_⟩, ?_, ⟨?_, ?_, ?_, ?_⟩, ⟨_, (h.2.2 idle 1 1 (by decide +kernel) (by decide +kernel)).1 (.inl (by decide))⟩, ?_⟩
  · exact goes (H back).1 _ (by decide +kernel) ⟨toHead (by decide +kernel), by decide +kernel, by decide +kernel, by decide +kernel⟩
  · exact goes (h.1 always 7 7 5 5 back 9 true).2.1 _ (by decide +kernel) ⟨toHead (by decide +kernel), by decide +kernel, by decide +kernel⟩
  · exact goes (h.1 always 7 7 5 5 back 9 true).2.1 _ (by decide +kernel) ⟨enter (H := header 2) (by decide +kernel), by decide +kernel, by decide +kernel⟩
  · exact goes ((H back).2.2.1 _ _ (List.mem_cons_self ..)) _ (by decide +kernel) ⟨by decide +kernel, by decide +kernel⟩
  · exact goes ((H back).2.2.1 _ _ (List.mem_cons_of_mem _ (List.mem_cons_self ..))) _ (by decide +kernel) ⟨by decide +kernel, by decide +kernel⟩
  · exact goes ((H back).2.2.1 _ _ (List.mem_cons_of_mem _ (List.mem_cons_of_mem _ (List.mem_cons_self ..)))) _ (by decide +kernel) ⟨by decide +kernel, by decide +kernel⟩
  · exact goes (H back).2.2.2.1 _ (by decide +kernel) (by decide +kernel)
  · exact goes (H back).2.2.2.2.1 _ (by decide +kernel) (by decide +kernel)
  · exact ((H back).2.2.2.2.2 idle 1 [rec1] (by decide +kernel) (by decide +kernel) (by decide +kernel) (by decide) (by decide +kernel)).1
  · exact goes (A 5).1 _ (by decide +kernel) ⟨by decide +kernel, .inl (by decide +kernel), by decide +kernel, by decide +kernel⟩
  · exact goes (A 7).1 _ (by decide +kernel) ⟨by decide +kernel, .inl (by decide +kernel), by decide +kernel, by decide +kernel⟩
  · exact goes (A 5).1 _ (by decide +kernel) ⟨by decide +kernel, .inr (by decide +kernel), by decide +kernel, by decide +kernel⟩
  · exact goes (A 5).1 _ (by decide +kernel) ⟨by decide +kernel, .inl (by decide +kernel), by decide +kernel, by decide +kernel⟩
  · obtain ⟨u, hu, -⟩ := (h.2.2 idle 1 256 (by decide +kernel) (by decide +kernel)).2 (by decide) (by decide +kernel) (by decide +kernel)
    exact ⟨u, hu⟩

/-- The launch is the Ostler's of the bootstrap stream. -/
def ostlerRuns : State := idle.updLaunch 0 fun l => { l with ostler := some 0 }

theorem wit_SystemInstructions (h : Obligations.SystemInstructions) :
    (Goes (.csrr always 7 0x020) (issuing (.csrr always 7 0x020)) ∧ Goes (.csrr always 7 0x009) (issuing (.csrr always 7 0x009)) ∧
      Goes (.csrw always 5 0x020) (issuing (.csrw always 5 0x020)) ∧ Goes (.launch always 7 5) (issuing (.launch always 7 5) fun w => w.setS 5 0x2000)) ∧
    (Goes (.lstat always 7 5) (issuing (.lstat always 7 5)) ∧ Goes (.tlbi always .all) (issuing (.tlbi always .all)) ∧
      Goes (.hint always 1) (issuing (.hint always 1)) ∧ Goes (.halt always) (issuing (.halt always))) ∧
    (ostlerRuns.haltStream 0).nextRecord { Stream.boot with halted := true } = none := by
  have H := fun n => h always 7 5 n .all
  refine ⟨⟨goes (H 0x020).1 _ (by decide +kernel) nofun, goes (H 0x009).1 _ (by decide +kernel) (by decide +kernel), goes (H 0x020).2.1 _ (by decide +kernel) trivial, ?_⟩,
    ⟨goes (H 0).2.2.2.1 _ (by decide +kernel) trivial, goes (H 0).2.2.2.2.1 _ (by decide +kernel) (by decide +kernel),
      goes (H 0).2.2.2.2.2.1 _ (by decide +kernel) trivial, goes (H 0).2.2.2.2.2.2.1 _ (by decide +kernel) trivial⟩,
    (H 0).2.2.2.2.2.2.2 ostlerRuns 0 0 (by decide +kernel) { Stream.boot with halted := true } (by decide +kernel) rfl⟩
  exact goes (H 0).2.2.1 _ (by decide +kernel) ⟨by decide +kernel, by decide +kernel, by decide +kernel, by decide +kernel, devPlace 0x2000,
    ok_of (by decide +kernel), nofun⟩

/-- The wave's context is not privileged. -/
def weak : State := weakOne idle

theorem wit_ControlRegisters (h : Obligations.ControlRegisters) :
    (idle.csrWrite (env idle (.nop always)) 0x020 7).csrRead (env idle (.nop always)) 0x020 = 7 ∧
    (idle.csrWrite (env idle (.nop always)) 0x07A 0xFFFF).csrRead (env idle (.nop always)) 0x07A = 0xFFF ∧
    weak.csrWrite (env weak (.nop always)) 0x020 7 = weak ∧ weak.csrWrite (env weak (.nop always)) 0x004 7 = weak ∧
    (∃ t, step (State.reset.placeProgram [Claims.wordOf 0xB0 0 9 0 0 0x0A 0]) = .next t) ∧ idle.csrRead (env idle (.nop always)) 0x040 = 0 ∧
    ({ idle with cal := { idle.cal with en := true } }).csrWrite (env idle (.nop always)) 0x044 3 = { idle with cal := { idle.cal with en := true } } := by
  have H := h idle (env idle (.nop always))
  have W := h weak (env weak (.nop always)) 7
  have noSuch := (h (State.reset.placeProgram [Claims.wordOf 0xB0 0 9 0 0 0x0A 0]) (env idle (.nop always)) 7).2.2.2.1 path
    ⟨BitVec.allOnes 32, 0, .running, 0x1008, 1, header 1, .idle, false, 2, none, none, false⟩ (Claims.wordOf 0xB0 0 9 0 0 0x0A 0)
    (by decide +kernel) (by decide +kernel) (by decide +kernel) nofun (by decide) (by decide +kernel) (by decide +kernel) nofun nofun (by decide)
    (ok_of (by decide +kernel)) (.inl (by decide)) (by unfold csrNumber; decide)
  exact ⟨((H 7).1 0x020 0xFFFFFFFF (by decide) (by decide +kernel) (by decide +kernel) (by decide +kernel) (by decide +kernel)).trans (by decide),
    ((H 0xFFFF).1 0x07A 0xFFF (by decide) (by decide +kernel) (by decide +kernel) (by decide +kernel) (by decide +kernel)).trans (by decide),
    W.2.1 0x020 (by decide +kernel) (by decide), W.2.2.1 (by decide +kernel) (by decide +kernel), ⟨_, noSuch⟩,
    ((H 7).2.2.2.2.1 (by decide +kernel)).1,
    (h { idle with cal := { idle.cal with en := true } } (env idle (.nop always)) 3).2.2.2.2.2.2.1 rfl 0x044 (by decide)⟩

/-! ## Hypotheses that are met: waves and paths between instructions -/

def leafOf (m : Mask) (pc : DWord) (k : LeafKind := .running) : Leaf := ⟨m, 0, k, pc, 1, header 1, .idle, false, 0, none, none, false⟩
/-- Slot A holds a node of two leaves; no timer runs. -/
def forked (s : State := idle) : State := s.updWave 1 fun w =>
  { w with slotA := .node ⟨BitVec.allOnes 32, 0, 0x1000, false⟩ (.leaf (leafOf 0xFFFF 0x1008)) (.leaf (leafOf 0xFFFF0000 0x1008 .pending)) }
def youngResv (n : Nat) (s : State := forked) : State := s.updWave 1 fun w => { w with resv := [(3, ⟨0x2000, devPlace 0x2000, 5, n⟩)], ldres := [(3, n)] }
def deferred : State := forked.updWave 1 fun w => { w with deferA := true }
def paddocked : State := idle.updWave 1 fun w => { w with paddockA := true }
def lastOf64 : State := { idle with cycle := 63 }
/-- A partition stands on its rotation cycle; one candidate of it is at a word. -/
def picking : State := { State.reset.placeProgram [instrWord (.nop always)] with grant := none, rot := [0] }
/-- The wave's part in a region is over. -/
def regioned : State := idle.updWave 1 fun w => { w with slotA := .empty, region := some ⟨0x1000, 0xFF, 0, 0xFF, 0⟩ }
def rwin : RWindow := ⟨1, 0, 0, 0x1008, 0x1000, 0, [(1, 0xFFFF, 0xFFFF0000)], 0x1000, 0x1000⟩
def windowOpen : State := { idle with regroup := [rwin] }
def two (s : State) : State := { s with waves := s.waves.put 2 { s.wave 1 with ixw := 1, slot := some 1 } }
/-- A second wave, with another 16 lanes at the same header. -/
def merging : State :=
  let at_ := fun (m : Mask) => PTree.leaf (Leaf.atHeader m 0 .running 0x1000)
  let s := (two idle).updLaunch 0 fun l => { l with recd := { l.recd with merge := true } }
  ((s.updWave 1 fun w => { w with slotA := at_ 0xFF }).updWave 2 fun w => { w with slotA := at_ 0xFF00, v := [(0, 5)] }).updCtx 0 fun c => { c with mthr := 20 }

theorem wit_PathEvents (h : Obligations.PathEvents) :
    (Goes (.fairnessTimerExpiry path) (youngResv 63) ∧ Goes (.fairnessTimerExpiry path) (youngResv 64) ∧ Goes (.fairnessDeferredSwitch path) deferred ∧
      Goes (.paddockLeave path) paddocked ∧ Goes (.rotationCycle ⟨0, 0⟩ 0) lastOf64) ∧
    (∃ t, step picking = .next t) ∧
    (Goes (.regionResume 1) regioned ∧ Goes (.regionResume 1) idle ∧ Goes (.regroupWindowClose 1 0 0x1008) windowOpen ∧
      Goes (.regroupWindowClose 1 0 0x1008) ((two windowOpen).updCtx 0 fun c => { c with rgwin := 9 })) ∧
    ∃ t, exec (.waveMerge 1 2) merging = .next t ∧ (t.wave 2).cond = .ended ∧ (t.wave 1).vreg 0 8 = (merging.wave 2).vreg 0 8 := by
  refine ⟨⟨⟨_, ((h.1 (youngResv 63) path).1 ?_ ?_ ?_).1 ?_⟩, ⟨_, ((h.1 (youngResv 64) path).1 ?_ ?_ ?_).2 ?_⟩, ⟨_, (h.1 deferred path).2.1 ?_ ?_ ?_⟩,
      ?paddock, ⟨_, ((h.1 lastOf64 path).2.2.2.1 ⟨0, 0⟩ 0 ?_ ?_ ?_ ?_).1⟩⟩,
    ?picked, ⟨?region, ⟨_, (h.1 idle path).2.2.2.2.2.2.1 1 ?_⟩, ⟨_, ((h.1 windowOpen path).2.2.2.2.2.2.2 1 0 0x1008 rwin ?_).1 (.inl ?_)⟩,
      ⟨_, ((h.1 ((two windowOpen).updCtx 0 fun c => { c with rgwin := 9 }) path).2.2.2.2.2.2.2 1 0 0x1008 rwin ?_).2 ?_ ?_⟩⟩, ?merge⟩
  case paddock =>
    obtain ⟨t, ht, -⟩ := (h.1 paddocked path).2.2.1 (by decide +kernel) (by decide +kernel)
    exact ⟨t, ht⟩
  case picked =>
    have hx : (match picking.runPath path with | .next t => t.held == none | _ => false) = true := by decide +kernel
    obtain ⟨v, hv, hh⟩ : ∃ v, picking.runPath path = .next v ∧ v.held = none := by
      revert hx; generalize picking.runPath path = o; intro hx
      cases o with
      | next t => exact ⟨t, rfl, by simpa using hx⟩
      | fault _ => cases hx
      | refused _ => cases hx
    have hc : picking.candidates 0 0 = [⟨path, 0, 0, 0, false⟩] := by decide +kernel
    have := ((h.1 picking path).2.2.2.2.1 0 [] rfl rfl rfl).1 ⟨path, 0, 0, 0, false⟩ v (by rw [hc]; exact .head _) hv hh
      (fun y hy hn => by rw [hc] at hy; exact absurd (List.mem_singleton.mp hy) hn)
    exact ⟨_, this⟩
  case region =>
    obtain ⟨t, ht, -⟩ := (h.1 regioned path).2.2.2.2.2.1 1 ⟨0x1000, 0xFF, 0, 0xFF, 0⟩ (by decide +kernel) (by decide +kernel) (by decide)
    exact ⟨t, ht⟩
  case merge =>
    have hc : (merging.recdOf 1).merge = true ∧ (merging.wave 1).team = (merging.wave 2).team ∧ (merging.wave 1).part = (merging.wave 2).part ∧
        (merging.wave 1).ixw < (merging.wave 2).ixw ∧ merging.mergeable 1 = true ∧ merging.mergeable 2 = true := by decide +kernel
    have both := h.2 merging 1 2 (Leaf.atHeader 0xFF 0 .running 0x1000) (Leaf.atHeader 0xFF00 0 .running 0x1000) (by decide +kernel) (by decide +kernel)
      hc.1 hc.2.1 hc.2.2.1 hc.2.2.2.1 hc.2.2.2.2.1 hc.2.2.2.2.2 (by decide +kernel)
    obtain ⟨t, ht, -, -, he, -, -, hv, -⟩ := both rfl rfl (by decide +kernel) (by decide +kernel) (by decide +kernel) (by decide +kernel)
    exact ⟨t, ht, he, hv (by decide +kernel) (8, 8) (by decide +kernel) 0 (by decide +kernel)⟩
  all_goals decide +kernel

def starving (n : Nat) : State := idle.updWave 1 fun w => { w with starvArmed := true, starvExp := n }
def starvedTwice : State := (starving 1).updLaunch 0 fun l => { l with promoted := true }
def starvedOut : State := idle.updTeam 1 fun t => { t with starvedOut := true, out := true, placed := false, returning := false }
def ending : State := idle.updWave 1 fun w => { w with slotA := .empty, cond := .ended }

theorem wit_StarvationAndEnds (h : Obligations.StarvationAndEnds) :
    Goes (.starvationExpiry 1) (starving 0) ∧ Goes (.starvationExpiry 1) starvedTwice ∧ Goes (.starvationTeamReturn 1) starvedOut ∧ Goes (.waveEnd 1) ending := by
  have back := h.2.1 starvedOut 1
  have ends := h.2.2 ending 1
  refine ⟨⟨_, (h.1 (starving 0) 1 ?_ ?_ ?_).1 (.inl ?_)⟩, ⟨_, (h.1 starvedTwice 1 ?_ ?_ ?_).2 ?_ ?_⟩,
    (back ?_ ?_ ?_ ?_ ?_ ?_).imp fun _ ht => ht.1, (ends ?_ ?_ ?_ ?_ ?_).imp fun _ ht => ht.1⟩ <;> decide +kernel

/-! ## Hypotheses that are met: cores, teams and launches -/

def three (s : State) : State := { two s with waves := (two s).waves.put 3 { s.wave 1 with ixw := 2, slot := some 2, cond := .new, readyAt := some 0 } }
/-- Two resident waves fill a partition's accumulators; a third is ready to come in. -/
def crowd (cls : Nat := 0) : State :=
  let s := (weakOne (three idle)).updLaunch 0 fun l => { l with recd := { l.recd with waveClass := cls } }
  { (s.updWave 1 fun w => { w with stall := 9999 }).updWave 2 fun w => { w with stall := 9998 } with cycle := 99999 }
def movingOut (c : Nat) : State := { idle.updWave 1 fun w => { w with cond := .stable, moving := true } with cycle := c }
def queuedL (f : Launch → Launch := id) (s : State := State.reset) : State :=
  { s with launches := [(0, f { probeLaunch with st := 1, dies := [], clusters := [], nextTeam := [] })] }
def otherSplit (l : Launch) : Launch := { l with recd := { l.recd with split := ⟨9, 6, 1⟩ } }
def coreIs (c : CoreState) (s : State := State.reset) : State := s.updCore 0 fun x => { x with st := c, nextSplit := some ⟨9, 6, 1⟩ }

theorem wit_ResidenceAndPool (h : Obligations.ResidenceAndPool) :
    (Goes (.waveComeIn ⟨0, 0⟩ 0) (three idle) ∧ exec (.waveComeIn ⟨0, 0⟩ 0) crowd = .next (crowd.swapOut 1) ∧ Goes (.waveComeIn ⟨0, 0⟩ 0) idle ∧
      Goes (.stableImageMoved 1) (movingOut 999) ∧ Goes (.stableImageMoved 1) (movingOut 9) ∧ Goes (.stableDisplace ⟨0, 0⟩ 0) (crowd 2)) ∧
    (Goes (.coreDrainSelect 0 0 0) (queuedL otherSplit) ∧ Goes (.coreDrainEnd ⟨0, 0⟩) (coreIs .draining) ∧ Goes (.coreDrainEnd ⟨0, 0⟩) (coreIs .draining idle) ∧
      Goes (.repartitionDone ⟨0, 0⟩) (coreIs .repartitioning)) ∧
    ∃ t, exec (.coreFence ⟨0, 0⟩ .scoreboard) idle = .next t ∧ (t.launch 0).st = 0x21 := by
  refine ⟨⟨⟨_, (h.1 (three idle) ⟨0, 0⟩ 0 3).1 [] (by decide +kernel) (.inl (by decide +kernel))⟩,
      (h.1 crowd ⟨0, 0⟩ 0 3).2.1 [] 1 (crowd.wave 1) [(2, crowd.wave 2)] (by decide +kernel) (by decide +kernel) (by decide +kernel) (.inl (by decide +kernel))
        (by decide +kernel) (by decide +kernel), ⟨_, (h.1 idle ⟨0, 0⟩ 0 1).2.2.1 (by decide +kernel)⟩,
      ⟨_, ((h.1 (movingOut 999) ⟨0, 0⟩ 0 1).2.2.2.2.1 (by decide +kernel)).1 (by decide +kernel)⟩,
      ⟨_, ((h.1 (movingOut 9) ⟨0, 0⟩ 0 1).2.2.2.2.1 (by decide +kernel)).2 (by decide +kernel)⟩,
      ⟨_, (h.1 (crowd 2) ⟨0, 0⟩ 0 3).2.2.2.2.2.1 1 (by decide +kernel) (by decide +kernel)⟩⟩,
    ⟨⟨_, (h.2 (queuedL otherSplit) ⟨0, 0⟩).1 0 0 0 (by decide +kernel) (by decide +kernel) (by decide +kernel) (by decide +kernel)⟩,
      ⟨_, (h.2 (coreIs .draining) ⟨0, 0⟩).2.1 (by decide +kernel) (by decide +kernel)⟩,
      ⟨_, (h.2 (coreIs .draining idle) ⟨0, 0⟩).2.2.1 (by decide +kernel) (by decide +kernel)⟩, ?_⟩, ?_⟩
  · obtain ⟨t, ht, -⟩ := (h.2 (coreIs .repartitioning) ⟨0, 0⟩).2.2.2.1 (by decide +kernel) (by decide +kernel)
    exact ⟨t, ht⟩
  · obtain ⟨t, ht, -, hl, -⟩ := (h.2 idle ⟨0, 0⟩).2.2.2.2.1 .scoreboard (by decide) (by decide) (by decide +kernel) nofun
    exact ⟨t, ht, hl 1 (idle.team 1) (by decide +kernel) (by decide +kernel) (by decide +kernel) (by decide +kernel) (by decide +kernel)⟩

/-- A launch record of one wave, with the class byte and W given. -/
def recordOf (classes w : Nat) : List Byte :=
  bytesLE 2 0x0100 ++ bytesLE 5 0 ++ bytesLE 1 classes ++ bytesLE 8 0x1000 ++ bytesLE 1 w ++ [1, 1, 0, 1, 0, 1, 0, 1, 1, 0, 0, 0, 0] ++ bytesLE 2 0x862 ++
    bytesLE 4 0x1000 ++ List.replicate 220 0
def preempted : State := queuedL fun l => { l with st := 4 }
def running0 (f : Launch → Launch := id) : State := queuedL fun l => f { l with st := 2, dies := [0], clusters := [[0]] }

/-- A concurrent launch at the head of its queue. -/
def conc : State := queuedL fun l => { l with recd := { l.recd with teamClass := 2 } }

theorem wit_LaunchLife (h : Obligations.LaunchLife) :
    (Goes (.launchDependenceMet 0) (queuedL fun l => { l with st := 0 }) ∧
      Goes (.launchDependenceMet 0) (queuedL fun l => { l with st := 0, recd := { l.recd with deps := [(0x2000, 5)] } }) ∧
      Goes (.queueAgePromotion 0) { queuedL with cycle := 2 ^ 25 } ∧ Goes (.launchStart 0) queuedL ∧ Goes (.launchStart 0) (running0) ∧ Goes (.teamPlace 0) running0 ∧
      Goes (.launchEntryRelease 0) (queuedL fun l => { l with st := 5, readIt := true })) ∧
    (∃ t, (conc.begun 0).placeAll 0 ((conc.launch 0).unplaced + ((conc.begun 0).backTeams 0).length) = some t) ∧
    (State.reset.refusal (List.replicate 256 0) (parseRecord (List.replicate 256 0)) = 0x13 ∧ State.reset.refusal (recordOf 3 1) (parseRecord (recordOf 3 1)) = 0x11 ∧
      State.reset.refusal (recordOf 0 0) (parseRecord (recordOf 0 0)) = 0x10 ∧ State.reset.refusal (recordOf 0 17) (parseRecord (recordOf 0 17)) = 0x10 ∧
      ((State.reset.makeLaunch (recordOf 0 16)).1.launch 0).image = recordOf 0 16 ∧
      ({ State.reset with oos := true } : State).refusal (recordOf 3 1) (parseRecord (recordOf 3 1)) = 0x21) := by
  have L := fun s x e => h.1 s 0 x e
  refine ⟨⟨?_, ⟨_, (L (queuedL fun l => { l with st := 0, recd := { l.recd with deps := [(0x2000, 5)] } }) _ rfl).2.1 rfl ⟨(0x2000, 5), List.mem_cons_self .., by decide +kernel⟩⟩, ?_, ?_,
      ⟨_, (L running0 _ rfl).2.2.2.2.1 (by decide +kernel)⟩, ?_,
      ⟨_, (L (queuedL fun l => { l with st := 5, readIt := true }) _ rfl).2.2.2.2.2.2.2.1 (by decide) (.inl rfl) (by decide +kernel)⟩⟩, ?conc,
    ⟨(h.2 _ _).2.2.2.2.1 rfl (.inl (by decide +kernel)), (h.2 _ _).2.2.1 rfl (by decide +kernel) (.inl (by decide +kernel)),
      (h.2 _ _).2.2.2.1 rfl (by decide +kernel) (by decide +kernel) (.inl (by decide +kernel)),
      (h.2 _ _).2.2.2.1 rfl (by decide +kernel) (by decide +kernel) (.inr (.inl (by decide +kernel))), ?_,
      (h.2 { State.reset with oos := true } _).1 rfl⟩⟩
  case conc =>
    obtain ⟨t, ht⟩ := Option.isSome_iff_exists.mp (show (conc.started 0).isSome = true by decide +kernel)
    exact ⟨t, (L conc _ rfl).2.2.2.2.2.1 (by decide +kernel) rfl (by decide +kernel) t ht⟩
  · obtain ⟨t, ht, -⟩ := (L (queuedL fun l => { l with st := 0 }) _ rfl).1 rfl (by decide +kernel)
    exact ⟨t, ht⟩
  · obtain ⟨t, ht, -⟩ := (L { queuedL with cycle := 2 ^ 25 } _ rfl).2.2.1 rfl (by decide) (by decide)
    exact ⟨t, ht⟩
  · obtain ⟨t, ht⟩ := Option.isSome_iff_exists.mp (show (queuedL.started 0).isSome = true by decide +kernel)
    exact ⟨t, (L queuedL _ rfl).2.2.2.1 t ht (by decide +kernel)⟩
  · obtain ⟨p, hp⟩ := Option.isSome_iff_exists.mp (show (running0.placing 0 (running0.launch 0)).isSome = true by decide +kernel)
    exact ⟨_, (L running0 _ rfl).2.2.2.2.2.2.1 p rfl (by decide +kernel) (by decide +kernel) hp⟩
  · exact (congrArg Launch.image ((h.2 State.reset (recordOf 0 16)).2.2.2.2.2.1 (by decide +kernel) (by decide +kernel)).2.1)

def saving (st save : Nat) (s : State := idle) : State := s.updLaunch 0 fun l => { l with st := st, recd := { l.recd with save := save } }
/-- A load is outstanding. -/
def loadOut : State := outstanding .load (.load .w false false .none [acc 0x2000])

theorem wit_Preemption (h : Obligations.Preemption) :
    (Goes (.prectlPreempt 0) idle ∧ Goes (.prectlResume 0) idle ∧ Goes (.prectlCancel 0) idle ∧ (((saving 2 0x4000).preempt 0).launch 0).st = 3 ∧ (saving 2 0).preempt 0 = saving 2 0 ∧
      (((saving 4 0).resume 0).launch 0).st = 1 ∧ (saving 2 0).resume 0 = saving 2 0 ∧ (((saving 2 0).cancel 0).launch 0).st = 0x24 ∧ (saving 5 0).cancel 0 = saving 5 0 ∧
      idle.cancel 7 = idle) ∧
    (Goes (.preemptSaveComplete 0) (saving 3 0x4000 loadOut) ∧ Goes (.preemptSaveComplete 0) (saving 3 0x4000) ∧ Goes (.preemptSaveComplete 0) (saving 2 0x4000) ∧
      Goes (.resumeRestore 0) (saving 2 0) ∧ Goes (.resumeRestore 0) (saving 3 0)) ∧
    Goes (.dbgctlStop 0) idle ∧ Goes (.dbgctlResume 0) idle ∧ Goes (.dbgctlSwap 0) idle := by
  have N := fun st save => h.2.1 (saving st save) 0 0 (by unfold saving; exact (show (idle.updLaunch 0 fun l => { l with st := st, recd := { l.recd with save := save } }).launchNamed 0 = some 0 by rfl)) (by rfl)
  refine ⟨⟨⟨_, (h.1 idle 0).1⟩, ⟨_, (h.1 idle 0).2.1⟩, ⟨_, (h.1 idle 0).2.2⟩, (N 2 0x4000).1 (by decide +kernel) (by decide +kernel) rfl,
      (N 2 0).2.1 (.inr (.inl (by decide +kernel))), ((N 4 0).2.2.1 (by decide +kernel)).1, (N 2 0).2.2.2.1 (by decide +kernel), (N 2 0).2.2.2.2.1 (by decide +kernel),
      (N 5 0).2.2.2.2.2 (by decide +kernel), (h.2.2.1 idle 7 (by decide +kernel)).2.2⟩,
    ⟨⟨_, (h.2.2.2.1 (saving 3 0x4000 loadOut) 0).2.1 (by decide +kernel) ⟨1, by decide +kernel, by decide +kernel⟩⟩, ?_,
      ⟨_, (h.2.2.2.1 (saving 2 0x4000) 0).2.2.2.1 (by decide +kernel)⟩, ⟨_, (h.2.2.2.1 (saving 2 0) 0).2.2.2.2.1 (by decide +kernel)⟩,
      ⟨_, (h.2.2.2.1 (saving 3 0) 0).2.2.2.2.2 (by decide +kernel)⟩⟩,
    ⟨_, (h.2.2.2.2 idle 0).1⟩, ⟨_, (h.2.2.2.2 idle 0).2.1⟩, ⟨_, (h.2.2.2.2 idle 0).2.2.1⟩⟩
  obtain ⟨t, ht, -⟩ := (h.2.2.2.1 (saving 3 0x4000) 0).2.2.1 (by decide +kernel) (by decide +kernel) (by decide +kernel)
  exact ⟨t, ht⟩

/-! ## Hypotheses that are met: command streams, the dies' care, the host -/

/-- One record of the bootstrap stream. -/
def cmd (kind operand : Nat) (s : State := idle) : State :=
  (s.homeWrite (devPlace 14) (bytesLE 2 1)).homeWrite (devPlace 64) (bytesLE 8 kind ++ bytesLE 8 operand ++ List.replicate 48 0)
def recBytes (kind operand : Nat) : List Byte := bytesLE 8 kind ++ bytesLE 8 operand ++ List.replicate 48 0
/-- A stream with a fault log, whose entry 0 has REPLY `r`; the wave waits on it. -/
def replied (r : Nat) (wait : Wait := .fault 0 0) : State :=
  (({ idle with streams := [⟨0, 16, 4, 0x3000, false⟩] } : State).homeWrite (devPlace 0x3018) (bytesLE 8 r)).updWave 1 fun w =>
    { w with slotA := .leaf { leafOf (BitVec.allOnes 32) 0x1008 with wait := wait } }
def twoContexts : State := { idle with contexts := idle.contexts.put 1 Context.fresh }

theorem wit_CommandStreams (h : Obligations.CommandStreams) :
    (Goes (.commandLaunch 0) (cmd 1 0x4000) ∧ Goes (.commandLaunch 0) (cmd 7 0) ∧ Goes (.commandPreempt 0) (cmd 2 0) ∧ Goes (.commandResume 0) (cmd 3 0) ∧
      Goes (.commandCancel 0) (cmd 4 0) ∧ Goes .commandOpenStream (cmd 5 0x4000) ∧ Goes .commandCreateContext (cmd 6 0x4000) ∧
      ((cmd 1 0x4000).finishRecord Stream.boot 0 (commandOf (recBytes 1 0x4000)) 5).placeRead (devPlace 16) 8 = 1) ∧
    (Goes (.faultReply 0 0) (replied 0) ∧ Goes (.faultReply 0 0) (replied 1) ∧ Goes (.faultReply 0 0) (replied 2)) ∧
    Goes (.contextDestruction 1) twoContexts ∧ Goes (.contextDestruction 1) (weakOne idle) := by
  have C := fun k o (hs : (((cmd k o).streams.drop 0).head? == some Stream.boot && (cmd k o).nextRecord Stream.boot == some (0, recBytes k o)) = true) =>
    h.1 (cmd k o) 0 0 Stream.boot (recBytes k o) (by simp only [Bool.and_eq_true, beq_iff_eq] at hs; exact hs.1) (by simp only [Bool.and_eq_true, beq_iff_eq] at hs; exact hs.2)
  have F := fun r (hs : ((replied r).streams.drop 0).head? = some ⟨0, 16, 4, 0x3000, false⟩) => h.2.1 (replied r) 0 0 ⟨0, 16, 4, 0x3000, false⟩ hs rfl (by decide)
  refine ⟨⟨⟨_, (C 1 0x4000 (by decide +kernel)).1 (by decide +kernel) (by decide +kernel)⟩, ⟨_, (C 7 0 (by decide +kernel)).2.1 (.inr (.inl (by decide +kernel)))⟩,
      ⟨_, (C 2 0 (by decide +kernel)).2.2.1 (by decide +kernel)⟩, ⟨_, (C 3 0 (by decide +kernel)).2.2.2.1 (by decide +kernel)⟩,
      ⟨_, (C 4 0 (by decide +kernel)).2.2.2.2.1 (by decide +kernel)⟩, ⟨_, (C 5 0x4000 (by decide +kernel)).2.2.2.2.2.1 (by decide +kernel) (by decide +kernel)⟩,
      ⟨_, (C 6 0x4000 (by decide +kernel)).2.2.2.2.2.2.1 (by decide +kernel) (by decide +kernel)⟩, (C 1 0x4000 (by decide +kernel)).2.2.2.2.2.2.2 5 ?_⟩,
    ⟨⟨_, (F 0 (by decide +kernel)).1 (.inl (by decide +kernel))⟩, ⟨_, (F 1 (by decide +kernel)).2.1 (by decide +kernel) (by decide +kernel)⟩, ⟨_, (F 2 (by decide +kernel)).2.2 (by decide +kernel) (by decide +kernel)⟩⟩, ?_,
    ⟨_, (h.2.2 (weakOne idle) 1 (by decide)).2 (by decide +kernel)⟩⟩
  · exact ⟨by decide +kernel, by decide +kernel, trivial⟩
  · obtain ⟨t, ht, -⟩ := (h.2.2 twoContexts 1 (by decide)).1 (by decide +kernel) (by decide +kernel) (by decide +kernel)
    exact ⟨t, ht⟩

def testing : State := State.reset.updDie 0 fun d => { d with bist := [(0, ⟨0, 3⟩)] }
def noTests : State := State.reset.updDie 0 fun d => { d with bistint := 0 }

/-- Neither copy of the firmware is signed, or only the second. -/
def unsignedFw : State := { idle with fwA := { idle.fwA with signed := false }, fwB := { idle.fwB with signed := false } }
def secondFw : State := { idle with fwA := { idle.fwA with signed := false }, fwB := ⟨7, 3, true⟩, fwFused := 3 }
def oneBad : LineErr := ⟨[(16, 1), (16, 0)]⟩
/-- TSV group 0 of the line's channel is erased; the symbols of the group and four others are in error. -/
def groupBad : LineErr := ⟨[(16, 1), (24, 1), (17, 1), (18, 1), (19, 1), (79, 1)]⟩
def erasing : State := State.reset.updDie 0 fun d => { d with erased := [((State.reset.slotOfLine 5).2, 0)] }

theorem wit_DieCare (h : Obligations.DieCare) :
    (Goes (.throttleTick 2000 101) idle ∧ Goes (.throttleTick 2000 50) idle ∧ Goes (.thermalReset 0 114) idle ∧ Goes (.thermalReset 0 115) idle ∧ Goes .deviceReset idle ∧
      idle.deviceReset.image = some idle.fwA.content ∧ secondFw.deviceReset.image = some 7 ∧ unsignedFw.deviceReset.streams = [] ∧ idle.deviceReset.waves = [] ∧
      Goes (.powerLoss false) idle ∧ ∃ t, exec (.powerLoss true) { idle with copyB := ⟨7, true, [.port 3]⟩ } = .next t ∧ t.tables = [.port 3]) ∧
    (Goes (.bistStart 0 0) State.reset ∧ Goes (.bistStart 0 0) noTests ∧ Goes (.bistMarchDone 0 0 true) testing ∧ Goes (.bistMarchDone 0 0 false) testing ∧
      Goes (.patrolScrub 0 5 .clean) State.reset ∧ Goes (.patrolScrub 0 0 nineBad) State.reset ∧ State.reset.readLine 5 .clean = State.reset ∧
      5 ∈ (State.reset.readLine 5 nineBad).poison ∧ lineRead (some 0) groupBad ≠ .poisoned ∧ erasing.readLine 5 groupBad = erasing) := by
  have S := fun line e => (h.2 State.reset 0 0).2.2.2 line e (by decide +kernel)
  have R := fun s => (h.1.2.2.1 s).2.2.2.2.2.2
  have E := ((h.2 erasing 0 0).2.2.2 5 groupBad (by decide +kernel) (by decide +kernel) (by decide +kernel)).2.2.2.2.2 0
  refine ⟨⟨⟨_, (h.1.1 idle 2000 101).1 (.inr (by decide))⟩, ⟨_, (h.1.1 idle 2000 50).2 (by decide +kernel)⟩, ⟨_, (h.1.2.1 idle 0 114).1 (by decide)⟩,
      ⟨_, (h.1.2.1 idle 0 115).2 (by decide)⟩, ⟨_, (h.1.2.2.1 idle).1⟩, (R idle).1 ?_ ?_, (R secondFw).2.1 ?_ ?_ ?_, ((R unsignedFw).2.2.1 ?_).2.2,
      (R idle).2.2.2.2.2.1, ⟨_, (h.1.2.2.2 idle).1⟩, ?loss⟩,
    ⟨?start, ⟨_, (h.2 noTests 0 0).2.1 ?_⟩, ?passed, ?failed, ⟨_, (S 5 .clean ?_ ?_).1 (by decide)⟩,
      ⟨_, (S 0 nineBad ?_ ?_).2.1 (by decide)⟩, (S 5 .clean ?_ ?_).2.2.1 ?_, (S 5 nineBad ?_ ?_).2.2.2.2.1 ?_ ?_ ?_, (E ?_ ?_).1, (E ?_ ?_).2 ?_⟩⟩
  case loss =>
    obtain ⟨t, ht, hk⟩ := (h.1.2.2.2 { idle with copyB := ⟨7, true, [.port 3]⟩ }).2
    exact ⟨t, ht, (hk (by decide +kernel) rfl (by decide +kernel)).trans (by decide +kernel)⟩
  case start =>
    obtain ⟨t, ht, -⟩ := (h.2 State.reset 0 0).1 0 0 (by decide) (by decide +kernel) (by decide +kernel) (by decide +kernel)
    exact ⟨t, ht⟩
  case passed =>
    obtain ⟨⟨t, ht, -⟩, -⟩ := (h.2 testing 0 0).2.2.1 ⟨0, 3⟩ (by decide +kernel) (by decide +kernel)
    exact ⟨t, ht⟩
  case failed =>
    obtain ⟨-, ⟨t, ht, -⟩⟩ := (h.2 testing 0 0).2.2.1 ⟨0, 3⟩ (by decide +kernel) (by decide +kernel)
    exact ⟨t, ht⟩
  all_goals decide +kernel

def spdmAt (f : Spdm → Spdm) : State := { idle with spdm := f ⟨true, true, true, false, false, 0, .none⟩ }
def poisoned : State := { idle with poison := [0x80] }
/-- Context 1 maps address 0 to a confidential page at device address 0. -/
def secret : State :=
  let s := { idle with contexts := idle.contexts.put 1 { Context.fresh with ptroot := 0x100000, conf := true } }
  (s.homeWrite (devPlace 0x100000) (bytesLE 8 (2 ^ 63 + 0x110000))).homeWrite (devPlace 0x110000) (bytesLE 8 (2 ^ 63 + 2 ^ 62 + 2 ^ 60 + 2 ^ 59))

theorem inRange' (s : State) (a : Nat) (h : s.isDev a = true) : s.hostLpa (Config.hostBase + a) = some a := by
  simp [State.hostLpa, h]

theorem farOff (s : State) (h : s.isDev (2 ^ 41) = false) : s.hostLpa (Config.hostBase + 2 ^ 41) = none := by
  simp only [State.hostLpa, Nat.add_sub_cancel_left, h, Bool.and_false, Bool.false_eq_true, if_false]

theorem wit_HostAndSpdm (h : Obligations.HostAndSpdm) :
    (Goes .spdmVersion idle ∧ Goes .spdmCapabilities (spdmAt id) ∧ Goes (.spdmAlgorithms true) (spdmAt id) ∧ Goes .spdmDigests (spdmAt id) ∧
      Goes .spdmCertificate (spdmAt id) ∧ Goes (.spdmChallenge 1) (spdmAt id) ∧ Goes (.spdmMeasurements 5) (spdmAt id) ∧ Goes (.spdmKeyExchange 1) (spdmAt id)) ∧
    (Goes (.spdmFinish true) (spdmAt fun x => { x with pending := true }) ∧ Goes .spdmKeyUpdate (spdmAt fun x => { x with session := true }) ∧
      Goes .spdmEndSession (spdmAt fun x => { x with session := true }) ∧ Goes .spdmDigests idle ∧ Goes .spdmKeyUpdate (spdmAt id) ∧
      Goes (.spdmFinish true) (spdmAt id) ∧ Goes (.spdmAlgorithms true) idle ∧ Goes .spdmCapabilities idle) ∧
    (Goes (.hostMemRead (Config.hostBase + 2 ^ 41) 8) idle ∧ Goes (.hostMemWrite (Config.hostBase + 2 ^ 41) [1]) idle ∧ Goes (.hostMemRead (Config.hostBase + 0x2000) 8) idle ∧
      Goes (.hostMemRead (Config.hostBase + 0x2000) 8) poisoned ∧ Goes (.hostMemWrite (Config.hostBase + 0x203F) [1]) idle ∧
      Goes (.hostMemWrite (Config.hostBase + 0x203F) [1]) secret) := by
  have P := fun f => h.1 (spdmAt f) 1 true
  have M := fun s => h.2 s (Config.hostBase + 0x2000)
  refine ⟨⟨⟨_, (h.1 idle 1 true).1⟩, ⟨_, (P id).2.1 rfl⟩, ⟨_, (P id).2.2.1 rfl⟩, ⟨_, ((P id).2.2.2.1 rfl).1⟩, ⟨_, ((P id).2.2.2.1 rfl).2.1⟩, ⟨_, ((P id).2.2.2.1 rfl).2.2.1⟩,
      ⟨_, ((h.1 (spdmAt id) 5 true).2.2.2.1 rfl).2.2.2.1 (by decide) (by decide)⟩, ⟨_, ((P id).2.2.2.1 rfl).2.2.2.2⟩⟩,
    ⟨⟨_, (P fun x => { x with pending := true }).2.2.2.2.1 rfl⟩, ⟨_, ((P fun x => { x with session := true }).2.2.2.2.2.1 rfl).1⟩,
      ⟨_, ((P fun x => { x with session := true }).2.2.2.2.2.1 rfl).2⟩, ⟨_, (h.1 idle 1 true).2.2.2.2.2.2.1 _ (.inl ⟨rfl, List.mem_cons_self ..⟩)⟩,
      ⟨_, (P id).2.2.2.2.2.2.1 _ (.inr (.inl ⟨rfl, List.mem_cons_self ..⟩))⟩, ⟨_, (P id).2.2.2.2.2.2.1 _ (.inr (.inr (.inl ⟨rfl, rfl⟩)))⟩,
      ⟨_, (h.1 idle 1 true).2.2.2.2.2.2.1 _ (.inr (.inr (.inr (.inl ⟨rfl, rfl⟩))))⟩, ⟨_, (h.1 idle 1 true).2.2.2.2.2.2.1 _ (.inr (.inr (.inr (.inr ⟨rfl, rfl⟩))))⟩⟩,
    ⟨⟨_, ((h.2 idle _).1 (farOff idle rfl)).1 8⟩, ⟨_, ((h.2 idle _).1 (farOff idle rfl)).2 [1]⟩, ?_,
      ⟨_, ((M poisoned).2 0x2000 (inRange' _ _ (by decide +kernel))).2.1 8 ⟨0x80, by decide +kernel, .inl (by decide +kernel)⟩⟩,
      ⟨_, ((h.2 idle (Config.hostBase + 0x203F)).2 0x203F (inRange' _ _ (by decide +kernel))).2.2.1 [1] (by decide) nofun (by decide +kernel)⟩,
      ⟨_, ((h.2 secret (Config.hostBase + 0x203F)).2 0x203F (inRange' _ _ (by decide +kernel))).2.2.2 [1] (by decide) nofun (by decide +kernel)⟩⟩⟩
  obtain ⟨t, ht, -⟩ := ((M idle).2 0x2000 (inRange' _ _ (by decide +kernel))).1 8 (by decide +kernel)
  exact ⟨t, ht⟩

/-! ## Hypotheses that are met: the fabric -/

def cal (f : Cal → Cal) (s : State := State.reset) : State := { domain s with cal := f (domain s).cal }
/-- Package 3 is met at port 0, slot 0 and admitted. -/
def metQ (f : Peer → Peer := id) (s : State := domain State.reset) : State := s.updPeer 3 fun p => f { p with admitted := true }
def inBoot' (s : State := State.reset) : State := cal (fun c => { c with phase := .boot }) s
/-- Past the guard of slot 0. -/
def past (s : State) : State := { s with cal := { s.cal with ps := 20000 } }
/-- The second calendar cycle. -/
def laterC (s : State) : State := { s with cal := { s.cal with ps := 1200000 } }
def port0 (f : Port → Port) (s : State) : State := s.updPort 0 f

/-- The session of a good peer, and one whose certificate chain fails. -/
def goodPeer : PairSession := ⟨true, true, 5⟩
def badPeer : PairSession := ⟨true, false, 5⟩
/-- The preamble of the meeting at port 0 has been locked. -/
def bootGot : State := port0 (fun x => { x with gotAt := 1 }) inBoot'

theorem wit_CalendarAndLinks (h : Obligations.CalendarAndLinks) :
    ((domain State.reset).cal.partner 0 0 = 3 → (domain State.reset).cal.partner 3 0 = 0) ∧
    (Goes .calnEnable (cal fun c => { c with en := false, phase := .off }) ∧ Goes .calnEnable State.reset ∧ Goes .calnDisable (domain State.reset) ∧
      Goes .clockSteer (laterC (cal fun c => { c with stopping := true })) ∧ Goes .clockSteer (laterC (domain State.reset)) ∧ Goes .clockSteer (domain State.reset)) ∧
    (exec (.bootstrapMeeting 0 0x0100 0x0200 goodPeer 4 1 400 12) inBoot' = .next inBoot' ∧ Goes (.bootstrapMeeting 0 0x0100 0x0200 goodPeer 4 1 400 12) bootGot ∧
      Goes (.bootstrapMeeting 0 0x0200 0x0300 goodPeer 4 1 400 12) bootGot ∧ Goes (.bootstrapMeeting 0 0x0100 0x0200 badPeer 4 1 400 12) bootGot ∧
      Goes (.epochAnnounce 64) (metQ id inBoot') ∧ Goes .dataCalendarStart (cal fun c => { c with phase := .boot, announced := some 5 }) ∧
      Goes .dataCalendarStart (cal fun c => { c with phase := .boot, announced := some 0, ps := 9 * 10 ^ 10 })) := by
  have H := h.2
  have B := fun s vMin vMax x hm ha => (H s).2.2.2.2.2.2.1 0 3 vMin vMax 4 1 400 12 x hm ha
  refine ⟨?partners, ⟨?enables, ⟨_, (H State.reset).2.1 (.inr ?_)⟩, ⟨_, (H (domain State.reset)).2.2.1 ?_⟩,
      ⟨_, ((H (laterC (cal fun c => { c with stopping := true }))).2.2.2.1 ?_ ?_).1 ?_⟩, ?steers, ⟨_, (H (domain State.reset)).2.2.2.2.1 ?_⟩⟩,
    ⟨(B inBoot' 0x0100 0x0200 goodPeer ?_ ?_).1 ?_, ?good, ?old, ?bad, ⟨_, (H (metQ id inBoot')).2.2.2.2.2.2.2.1 64 ?_ ?_ ?_ (fun _ => ?_)⟩,
      ⟨_, ((H (cal fun c => { c with phase := .boot, announced := some 5 })).2.2.2.2.2.2.2.2 5 ?_ ?_ ?_).1 ?_⟩, ?late⟩⟩
  case partners =>
    intro h3
    have := (h.1 (domain State.reset).cal (by decide +kernel)).1 0 0 (by decide +kernel) (by decide +kernel)
    rw [h3] at this; exact this.2.2
  case enables =>
    obtain ⟨t, ht, -⟩ := (H (cal fun c => { c with en := false, phase := .off })).1 (by decide +kernel) (by decide +kernel)
    exact ⟨t, ht⟩
  case steers =>
    obtain ⟨t, ht, -⟩ := ((H (laterC (domain State.reset))).2.2.2.1 (by decide +kernel) (by decide +kernel)).2 (by decide +kernel)
    exact ⟨t, ht⟩
  case good =>
    obtain ⟨t, ht, -⟩ := ((B bootGot 0x0100 0x0200 goodPeer (by decide +kernel) (by decide +kernel)).2 (by decide +kernel)).1
      (by decide) (by decide) rfl rfl (by decide +kernel) rfl (by decide +kernel) rfl rfl
    exact ⟨t, ht⟩
  case old =>
    obtain ⟨x, -, ht⟩ := ((B bootGot 0x0200 0x0300 goodPeer (by decide +kernel) (by decide +kernel)).2 (by decide +kernel)).2
      (.inr (.inr (.inr (.inr (.inr (.inr (.inr (.inr (by decide)))))))))
    exact ⟨_, ht⟩
  case bad =>
    obtain ⟨x, -, ht⟩ := ((B bootGot 0x0100 0x0200 badPeer (by decide +kernel) (by decide +kernel)).2 (by decide +kernel)).2 (.inr (.inl rfl))
    exact ⟨_, ht⟩
  case late =>
    obtain ⟨t, ht, -⟩ := ((H (cal fun c => { c with phase := .boot, announced := some 0, ps := 9 * 10 ^ 10 })).2.2.2.2.2.2.2.2 0 (by decide +kernel) (by decide +kernel)
      (by decide +kernel)).2 (by decide +kernel)
    exact ⟨t, ht⟩
  all_goals decide +kernel

/-- The meeting at port 0 is fixed. -/
def fixed : State := port0 (fun x => { x with fixedAt := 1 }) metQ
/-- What package 3 sends under key bank 0, and a flit of a type that is none. -/
def flitOf (seq : Nat) : Flit := fixed.cal.flit 3 fixed.cal.index ((fixed.peer 3).keyIn false) (fixed.peer 3).gotFlits false seq (.chunk 3 1 0 [1])
def oddFlit : Flit := ⟨.chunk 3 1 0 [1], flitHdr false 2 0, 0⟩
def kindless : Flit := ⟨.noKind [10], flitHdr false 0 0, 0⟩
def gotIt (s : State) : State := port0 (fun x => { x with gotAt := 1 }) (past s)
def fencedPort (s : State) : State := port0 (fun x => { x with fenced := true }) s
def lateIn (s : State) : State := { s with cal := { s.cal with ps := 2 ^ 60 } }

theorem wit_Meetings (h : Obligations.Meetings) :
    (Goes (.preambleReceive 0 0 3 false 5) metQ ∧ Goes (.preambleReceive 0 0 3 false 5) (past metQ) ∧ Goes (.flitReceive 0 oddFlit) fixed ∧ Goes (.flitReceive 0 kindless) fixed ∧
      Goes (.flitReceive 0 (flitOf (2 ^ 29 - 1))) fixed ∧ (∃ t, exec (.flitReceive 0 (flitOf 0)) fixed = .next t ∧ (t.peer 3).recvSeq = 1) ∧
      Goes (.laneAdmit 0 4) (laterC metQ)) ∧
    (Goes (.rekey 3) metQ ∧ Goes (.rekeyDeadline 3) metQ ∧ Goes (.rekeyDeadline 3) (lateIn metQ) ∧
      (∃ t, exec (.rekeyDeadline 3) (lateIn metQ) = .next t ∧ (t.peer 3).keyInLate = true) ∧
      Goes (.portUnfence 0) (laterC (fencedPort metQ)) ∧ Goes (.portRetireTimeout 0) (lateIn (fencedPort metQ))) ∧
    (Goes (.meetingLoadFix 0) ({ inBoot' with cal := { inBoot'.cal with ps := 64000 } }) ∧ Goes (.meetingLoadFix 0) (past (metQ fun p => { p with offset := 20000 })) ∧ Goes (.meetingLoadFix 0) (past metQ) ∧
      Goes (.meetingLoadFix 0) (gotIt metQ)) ∧
    (Goes (.laserFailure 0 true) metQ ∧ Goes (.laneFlitFailures 0 3) metQ ∧ (port0 (fun x => { x with live := false }) metQ).loseLaser 0 true = port0 (fun x => { x with live := false }) metQ ∧
      Retired.waves 0 true ∈ (metQ.loseLaser 0 true).tables) := by
  have H := fun s => h s 0 3
  have L := fun s hb hm hg hx hf => (H s).2.2.2.2.2.2.2.2.1 hb hm hg hx hf
  have K := fun s ha hd hk => (H s).2.2.2.2.2.1 ha hd hk
  have F := fun seq => (H fixed).2.2.2.1 fixed.cal 3 fixed.cal.index ((fixed.peer 3).keyIn false) (fixed.peer 3).gotFlits seq false (.chunk 3 1 0 [1])
  have G := fun seq => ((H fixed).2.2.1 (flitOf seq) (by decide +kernel) (by decide +kernel) (by decide +kernel)).2
    (by rw [show (flitOf seq).type = _ from (F seq).2.2.2.1]; decide) (by rw [show (flitOf seq).kgen = false from (F seq).2.1]; exact (F seq).2.2.2.2.1)
    (fun _ => by rw [show (flitOf seq).kgen = false from (F seq).2.1]; decide +kernel)
    (fun _ bs e => by rw [show (flitOf seq).payload = _ from (F seq).1] at e; cases e)
  refine ⟨⟨?pre, ⟨_, (H (past metQ)).2.1 ?_ 0 3 false 5⟩, ⟨_, ((H fixed).2.2.1 oddFlit ?_ ?_ ?_).1 (.inl (by decide))⟩,
      ⟨_, ((H fixed).2.2.1 kindless ?_ ?_ ?_).1 (.inr (.inr (.inr ⟨by decide, [10], rfl⟩)))⟩,
      ⟨_, (G (2 ^ 29 - 1)).1 (by rw [show (flitOf (2 ^ 29 - 1)).seq = _ from (F _).2.2.1]; decide +kernel)⟩, ?taken, ?lane⟩,
    ⟨⟨_, (K metQ ?_ ?_ ?_).1⟩, ⟨_, (K metQ ?_ ?_ ?_).2.2.2 ?_ ?_⟩, ?late, ?lateIn,
      ⟨_, ((H (laterC (fencedPort metQ))).2.2.2.2.2.2.1 ?_ ?_).1 ?_ ?_⟩, ⟨_, ((H (lateIn (fencedPort metQ))).2.2.2.2.2.2.1 ?_ ?_).2 ?_⟩⟩,
    ⟨⟨_, (H ({ inBoot' with cal := { inBoot'.cal with ps := 64000 } })).2.2.2.2.2.2.2.1 ?_ ?_ ?_ ?_⟩, ⟨_, (L (past (metQ fun p => { p with offset := 20000 })) ?_ ?_ ?_ ?_ ?_).1 ?_⟩,
      ⟨_, (L (past metQ) ?_ ?_ ?_ ?_ ?_).2.1 ?_ ?_⟩, ⟨_, (L (gotIt metQ) ?_ ?_ ?_ ?_ ?_).2.2 ?_ ?_ ?_ ?_ ?_⟩⟩,
    ⟨⟨_, (H metQ).2.2.2.2.2.2.2.2.2.1 true⟩, ⟨_, (H metQ).2.2.2.2.2.2.2.2.2.2.1 3⟩,
      (H (port0 (fun x => { x with live := false }) metQ)).2.2.2.2.2.2.2.2.2.2.2.1 true ?_, (H metQ).2.2.2.2.2.2.2.2.2.2.2.2 true ?_ ?_⟩⟩
  case pre =>
    obtain ⟨t, ht, -⟩ := (H metQ).1 0 3 false 5 (by decide +kernel) (by decide +kernel) (by decide +kernel) (by decide +kernel)
    exact ⟨t, ht⟩
  case late => exact ((K (lateIn metQ) (by decide +kernel) (by decide +kernel) (by decide +kernel)).2.1 (by decide +kernel)).imp fun _ h => h.1
  case lateIn => exact (K (lateIn metQ) (by decide +kernel) (by decide +kernel) (by decide +kernel)).2.2.1 (by decide +kernel)
  case taken =>
    obtain ⟨t, ht, hr, -⟩ := (G 0).2 (by rw [show (flitOf 0).seq = _ from (F _).2.2.1]; decide +kernel)
    exact ⟨t, ht, hr.trans (by rw [show (flitOf 0).seq = _ from (F _).2.2.1] <;> decide)⟩
  case lane =>
    obtain ⟨t, ht, -⟩ := (H (laterC metQ)).2.2.2.2.1 4 2 (by decide +kernel) (by decide +kernel) (by decide +kernel) (by first | rfl | decide +kernel) (by decide +kernel) (by decide +kernel)
    exact ⟨t, ht⟩
  all_goals decide +kernel

/-! ## Hypotheses that are met: steps, encodings, invariants -/

def placed (ws : List DWord) : State := State.reset.placeProgram ws
def start : Leaf := leafOf (BitVec.allOnes 32) 0x1008
def started (n : Nat) : Leaf := { start with hdr := header n, entered := 2 }
def nopW : DWord := instrWord (.nop always)
def litI : Instr := .iadd .wrap ⟨always, .v 1, .v 2 false, .lit 77, one1⟩
def litW : DWord := instrWord litI
/-- The wave stands before the header at 0x1000, or before the word at 0x1008 as if that were one. -/
def before (a : DWord) (s : State := placed [nopW]) : State := s.updWave 1 fun w => { w with slotA := .leaf (Leaf.atHeader (BitVec.allOnes 32) 0 .running a) }
def ungranted : State := { placed [nopW] with grant := none }

theorem wit_StepRunsDecoded (h : Obligations.StepRunsDecoded) :
    step (placed [nopW]) = settleOutcome (exec (.nop always) ({ ({ placed [nopW] with grant := none } : State).fillFetch 1 0x1008 with free := 1, cur := some path } : State)) ∧
    (∃ s : State, step (placed [litW, 77]) = settleOutcome (exec litI { s with cur := some path })) ∧
    (∃ s l g, step (placed [0x1F00000000000000]) = .next (State.wordCause s path l 0x18 0x1F00000000000000 g).settled) ∧
    (∃ s l g, step (before 0x1008) = .next (State.wordCause s path l 0x1A 0x1008 g).settled) ∧
    (∃ s : State, ∃ l, step (before 0x1000) = settleOutcome (s.runWord path l) ∧ l.pos = 1) ∧
    (∃ t : State, step ungranted = .next t.settled) ∧
    step ({ State.reset with agenda := [.deviceReset] } : State) = settleOutcome (exec .deviceReset ({ State.reset with agenda := [] } : State)) ∧
    step { State.reset with agenda := [.hostMemRead 0 1], bootFailed := true } = .next ({ State.reset with agenda := [], bootFailed := true } : State).settled ∧
    step { State.reset with agenda := [] } = .next ({ State.reset with agenda := [] } : State).tick.settled := by
  have K := fun (s : State) (l : Leaf) (w : DWord) (hc : s.agenda = [] ∧ s.grant = some path ∧ s.leafAt path = some l ∧
      l.wait ≠ .stepped ∧ l.bad = false ∧ ({ s with grant := none } : State).boundaryDue path l = false ∧
      ({ s with grant := none } : State).pathHold path l = none) => h.1 s path l w hc.1 hc.2.1 hc.2.2.1 hc.2.2.2.1 hc.2.2.2.2.1 hc.2.2.2.2.2.1 hc.2.2.2.2.2.2
  refine ⟨?_, ?_, ?_, ?_, ?_, ?_, ?_, ?_, ?_⟩
  · exact (K (placed [nopW]) (started 1) nopW (by decide +kernel) nofun nofun (ok_of (by decide +kernel))).1 (.nop always) (by decide) (by decide +kernel)
      (ok_of (by decide +kernel))
  · exact ⟨_, (K (placed [litW, 77]) (started 2) litW (by decide +kernel) nofun nofun (ok_of (by decide +kernel))).2.1 litI
      (.iadd .wrap ⟨always, .v 1, .v 2 false, .lit 0, one1⟩) 77 (by decide) (by decide +kernel) (ok_of (by decide +kernel)) (by decide +kernel)
      (by decide +kernel) (ok_of (by decide +kernel)) (ok_of (by decide +kernel))⟩
  · exact ⟨_, _, _, (K (placed [0x1F00000000000000]) (started 1) 0x1F00000000000000 (by decide +kernel) nofun nofun (ok_of (by decide +kernel))).2.2.1
      .majorUnassigned (by decide) (error_of (by decide +kernel))⟩
  · exact ⟨_, _, _, (K (before 0x1008) (Leaf.atHeader (BitVec.allOnes 32) 0 .running 0x1008) nopW (by decide +kernel) nofun nofun
      (ok_of (by decide +kernel))).2.2.2.1 (by decide) (by decide +kernel)⟩
  · have := (K (before 0x1000) (Leaf.atHeader (BitVec.allOnes 32) 0 .running 0x1000) (header 1) (by decide +kernel) nofun nofun
      (ok_of (by decide +kernel))).2.2.2.2 { started 1 with entered := 2 } (by decide) (by decide +kernel) (by decide +kernel)
    exact ⟨_, _, this.1, this.2.1⟩
  · have hr : ∃ t, ({ ungranted with turn := 1 } : State).runPath path = .next t ∧ t.held = none := by
      have hx : (match ({ ungranted with turn := 1 } : State).runPath path with | .next t => t.held == none | _ => false) = true := by decide +kernel
      revert hx; generalize ({ ungranted with turn := 1 } : State).runPath path = o; intro hx
      cases o with
      | next t => exact ⟨t, rfl, by simpa using hx⟩
      | fault _ => cases hx
      | refused _ => cases hx
    obtain ⟨t, ht, hh⟩ := hr
    exact ⟨t, h.2.1 ungranted 0 ⟨path, 0, 0, 0, false⟩ [] t (by decide +kernel) (by decide +kernel) (by decide +kernel) (by first | rfl | decide +kernel) (by decide +kernel) (by decide +kernel) ht hh⟩
  · exact h.2.2.1 { State.reset with agenda := [.deviceReset] } .deviceReset [] rfl (by decide +kernel) (.inl (by decide +kernel))
  · exact h.2.2.2.1 { State.reset with agenda := [.hostMemRead 0 1], bootFailed := true } [] rfl rfl
  · exact h.2.2.2.2 { State.reset with agenda := [] } rfl rfl (by decide +kernel) (by decide +kernel)

theorem wit_DecodeEncodeAgree (h : Obligations.DecodeEncodeAgree) : decode litW (some 77) = .ok litI ∧ litI.wf = true :=
  ⟨h.1 litI litW (some 77) (by decide +kernel) (by decide +kernel), (h.2.1 litW 77 litI (ok_of (by decide +kernel))).1⟩

theorem next_of {o : Host.Outcome State Fault Refusal} (h : (match o with | .next _ => true | _ => false) = true) : ∃ t, o = .next t := by
  cases o with
  | next t => exact ⟨t, rfl⟩
  | fault _ => cases h
  | refused _ => cases h

theorem wit_Invariants (h : Obligations.MemoryStaysCanonical) (k : Obligations.StepsSettle) :
    ∃ t, step idle = .next t ∧ t.memOk = true ∧ t.between = true ∧ retire (retire idle.ops) = retire idle.ops := by
  obtain ⟨t, ht⟩ := next_of (o := step idle) (by decide +kernel)
  exact ⟨t, ht, h idle t (by decide +kernel) ht, k.1 idle t ht, (k.2 idle.ops 1 .load (by decide +kernel)).1⟩

/-- Words are fetched where `withFetchWord` puts them, and the decoder reads the table's words. -/
theorem test_withFetchWord : (match step (State.reset.withFetchWord 64 nopW.toNat) with | .next t => (leaf t).pc == 0x1010 || (leaf t).pc == 0x1018 | _ => false) = true ∧
    decodeTableWord 64 nopW.toNat = some (.nop always) ∧ decodeTableWord 128 (litW.toNat + 77 * 2 ^ 64) = some litI ∧
    decodeTableWord 64 (0xF8 * 2 ^ 56) = none := by
  decide +kernel

/-! ## Results that the spec's worked examples, tables and entries give -/

/-- What `g` reads in the wave after `i`. -/
def got {α : Type} (i : Instr) (f : Wave → Wave) (g : Wave → α) : Option α :=
  match exec i (issuing i f) with
  | .next t => some (g (t.wave 1))
  | _ => none

def o2 (b : SrcB) : Alu2 := ⟨always, .v 1, .v 2 false, b, one1⟩
def o1 : Alu1 := ⟨always, .v 1, .v 2 false, one1⟩
def rb : SrcB := .reg (.v 3 false)
def v1 (w : Wave) : Word := w.vreg 1 0
def v1f (w : Wave) : Word × BitVec 6 := (w.vreg 1 0, w.flags)
def ab (a b : Word) (w : Wave) : Wave := (w.setV 2 0 a).setV 3 0 b

/-- R136, R142 to R145: wrapping and clamping sums, shifts by the width, counts of a zero, field extraction and insertion. -/
theorem test_integers :
    got (.iadd .wrap (o2 rb)) (ab 0x7FFFFFFF 1) v1f = some (0x80000000, 0) ∧ got (.iadd .ss (o2 rb)) (ab 0x7FFFFFFF 1) v1f = some (0x7FFFFFFF, 0x20) ∧
    got (.isub .us (o2 rb)) (ab 3 5) v1f = some (0, 0x20) ∧ got (.shl (o2 rb)) (ab 1 32) v1 = some 0 ∧ got (.sar (o2 (.imm 0xFFFF))) (ab 0x80000000 0) v1 = some 0xFFFFFFFF ∧
    got (.rotl (o2 rb)) (ab 0x80000001 33) v1 = some 3 ∧ got (.clz o1) (ab 0 0) v1 = some 32 ∧ got (.brev o1) (ab 1 0) v1 = some 0x80000000 ∧
    got (.bfx true ⟨always, .v 1, .v 2 false, .lit 28, .v 3 false, one1⟩) (ab 0xF0000000 9) v1 = some 0xFFFFFFFF ∧
    got (.bfi ⟨always, .v 1, .v 2 false, .reg (.v 3 false), .v 4 false, one1⟩) (fun w => ((ab 0xFF 8 w).setV 1 0 0x12345678).setV 4 0 4) v1 = some 0x12345F78 ∧
    got (.andw (o2 (.imm 0xFFF0))) (ab 0x1234567F 0) v1 = some 0x12345670 ∧ got (.imulh false (o2 rb)) (ab 0xFFFFFFFF 0xFFFFFFFF) v1 = some 0 ∧ got (.imulh true (o2 rb)) (ab 0xFFFFFFFF 0xFFFFFFFF) v1 = some 0xFFFFFFFE ∧
    got (.lea 3 (o2 rb)) (ab 5 2) v1 = some 21 ∧ got (.movi always (.s 9) (.lit 0x123456789ABC) one1) id (fun w => w.sreg 9) = some 0x123456789ABC := by
  decide +kernel

/-- R151 to R157, Tables 2.2, 6.2: a rounded sum, an exact one, the signs of zeros, NaNs, special cases. -/
theorem test_floats :
    got (.fadd .f32 (o2 rb)) (ab 0x3F800000 0x33800000) v1f = some (0x3F800000, 0x10) ∧ got (.fmul .f32 (o2 rb)) (ab 0x7F7FFFFF 0x40000000) v1f = some (0x7F800000, 0x14) ∧
    got (.fsub .f32 (o2 rb)) (ab 0x7F800000 0x7F800000) v1f = some (0x7FC00000, 1) ∧ got (.fmin .f32 (o2 rb)) (ab 0 0x80000000) v1f = some (0x80000000, 0) ∧
    got (.fmax .f32 (o2 rb)) (ab 0x7FC00001 0x40000000) v1f = some (0x40000000, 0) ∧ got (.fclass .f32 o1) (ab 0x7F800001 0) v1f = some (0x100, 0) ∧
    got (.frcp .f32 o1) (ab 0x80000000 0) v1f = some (0xFF800000, 2) ∧ got (.fsqrt .f32 o1) (ab 0xBF800000 0) v1f = some (0x7FC00000, 1) ∧
    got (.frnd .f32 o1) (ab 0xBE99999A 0) v1f = some (0x80000000, 0) ∧ got (.frnd .f32 o1) (ab 0x40200000 0) v1f = some (0x40000000, 0) ∧
    got (.fexp2 o1) (ab 0x40400000 0) v1f = some (0x41000000, 0) ∧ got (.flog2 o1) (ab 0 0) v1f = some (0xFF800000, 2) ∧
    got (.fcos o1) (ab 0 0) v1f = some (0x3F800000, 0) ∧ got (.ftanh o1) (ab 0x41140000 0) v1f = some (0x3F800000, 0x10) ∧
    got (.fadd .f16x2 (o2 rb)) (ab 0x3C003C00 0x3C00BC00) v1f = some (0x40000000, 0) := by
  decide +kernel

/-- R160, R162, R163, Table 6.5 and the text below it, R48, Table 2.9. -/
theorem test_conversions :
    got (.cvt .int8 .f32 o1) (fun w => (((w.setV 2 0 0x40600000).setV 2 1 0xC3480000).setV 2 2 0x7F800001).setV 2 3 0x40200000)
      (fun w => ([w.vreg 1 0, w.vreg 1 1, w.vreg 1 2, w.vreg 1 3], w.flags)) = some ([4, 0xFFFFFF80, 0, 2], 0x31) ∧
    got (.cvt .int8 .dp8 o1) (ab 0x77 0) v1f = some (127, 0x20) ∧ got (.cvt .dp8 .int o1) (ab 11 0) v1f = some (0x42, 0x10) ∧ got (.cvt .dp8 .int o1) (ab 3 0) v1f = some (0x21, 0) ∧
    got (.pack .int8x4 always (.v 1) (.v 2 false) (.v 3 false) one1) (ab 5 0xFFFFFFFD) v1f = some (0xFD050000, 0) ∧
    got (.pack .int8x4 always (.v 1) (.v 2 false) (.v 3 false) one1) (fun w => (ab 200 0xFFFFFFFF w).setV 1 0 0xFD050000) v1f = some (0xFF7FFD05, 0x20) ∧
    got (.unpack .int8x4 1 o1) (ab 0xFF7FFD05 0) v1f = some (0xFFFFFFFD, 0) ∧
    got (.qmass false (o2 (.imm 24))) (ab 0x3F800000 0) v1f = some (0x01000000, 0) ∧ got (.qmass false (o2 (.imm 24))) (ab 0xBF800000 0) v1f = some (0, 1) := by
  decide +kernel

/-- The path of the worked example of Table 7.3: lanes 0 to 7, p1 = 0xF7, v8 as given. -/
def seven (w : Wave) : Wave :=
  let w := [5, 9, 5, 2, 9, 9, 7, 2].zipIdx.foldl (fun (w : Wave) x => w.setV 8 x.2 (BitVec.ofNat 32 x.1)) w
  { w with p := [(1, 0xF7)], slotA := w.slotA.map fun l => { l with mask := 0xFF } }
def g1 : Guard := ⟨1, false⟩
def lanes8 (n : Nat) (w : Wave) : List Nat := (List.range 8).map fun l => (w.vreg n l).toNat

/-- Table 7.3 and the uniform results below it. -/
theorem test_lanes :
    got (.shfl .dn ⟨g1, .v 9, .v 8 false, .imm 1, one1⟩) seven (lanes8 9) = some [9, 5, 5, 0, 9, 7, 2, 2] ∧
    got (.scanw .iadd ⟨g1, .v 10, .v 8 false, one1⟩) seven (lanes8 10) = some [5, 14, 19, 0, 28, 37, 44, 46] ∧
    got (.matchw g1 2 8 false) seven (fun w => w.preg 2) = some 0xC3 ∧ got (.redw .iadd g1 5 8 false) seven (fun w => w.sreg 5) = some 46 ∧
    got (.redw .imax g1 5 8 false) seven (fun w => w.sreg 5) = some 9 ∧ got (.rfl g1 5 8 false) seven (fun w => w.sreg 5) = some 5 ∧
    got (.vote g1 (.bal 5) 2) (fun w => { seven w with p := [(1, 0xF7), (2, 0xC3)] }) (fun w => w.sreg 5) = some 0xC3 := by
  decide +kernel

/-- The tree of Table 12.5. -/
def tree8 : Tree := Tree.ofLeaves false 8 [5, 0, 3, 8, 0, 2, 6, 0]

/-- Spec 12, worked example: queries on eight leaves. -/
theorem test_tree :
    (List.range 8).map (fun i => tree8.pre (i + 1)) = [5, 5, 8, 16, 16, 18, 24, 24] ∧ [0, 4, 5, 7, 8, 15, 16, 17, 18, 23, 24].map tree8.find = [0, 0, 2, 2, 3, 3, 5, 5, 6, 6, 8] ∧
    tree8.pre 3 = 8 ∧ (tree8.cut 18).1 = 5 ∧ (tree8.cut 18).2.total = 18 ∧ (tree8.cut 18).2.find 17 = 5 ∧
    (let r := (tree8.cut 18).2.add [(0, 3, 0xFFFFFFF6), (1, 3, 4), (2, 0, 0xFFFFFFF9), (3, 9, 1)]; r.1.total = 7 ∧ r.1.leaf 3 = 2 ∧ r.1.leaf 0 = 0 ∧ r.2 = 0x20) := by
  decide +kernel

/-- The state between steps 3 and 4 of spec 14's worked example: three records over a scratchpad word. -/
def recording (i : Instr) : State :=
  let s := collecting (issuing i fun w => w.setS 5 0x100)
  let s := s.homeWrite ⟨.spad 1, 0x100, 0, false⟩ [0x44, 0x33, 0x22, 0x11]
  (s.record 1 [.store true 0x100 4 5, .store true 0x104 4 6, .store true 0x101 1 0xAA])

/-- Spec 14, worked example, steps 3, 6, 7 and 10: what a collecting wave reads, its list, and a list derived from it. -/
theorem test_collecting :
    (let i := Instr.lds ⟨always, .w, false, false, .none, 9, 5, 0, one1⟩
      let t := match exec i (recording i) with | .next t => t | _ => State.reset
      (match exec (.loadReturn 2) t with | .next u => (u.wave 1).vreg 9 0 | _ => 0)) = 0xAA05 ∧
    (let s := (recording (.retc always 5)).closeCollection 1;
      s.listOf 1 ((s.wave 1).sreg 3).toNat) = some [.store true 0x100 4 5, .store true 0x104 4 6, .store true 0x101 1 0xAA] ∧
    (recording (.retc always 5)).placeBytes ⟨.spad 1, 0x100, 0, false⟩ 4 = [0x44, 0x33, 0x22, 0x11] ∧
    (([.store true 0x100 4 5, .store true 0x200 4 6] : List Effect).filter fun r => r.within 0x100 0x200 != true) = [.store true 0x200 4 6] := by
  decide +kernel

/-- Privilege, alignment and exception entry in one step each: TLBI in another context takes 0x19 with its saved registers, a misaligned load
takes 0x32 with its address (R374, Tables 7.4, 9.5). -/
theorem test_traps :
    (let s := weakOne (issuing (.tlbi always .all));
      (match exec (.tlbi always .all) s with | .next t => (bitsN (t.wave 1).tcause.toNat 7 0, (t.wave 1).tpc) | _ => (0, 0)) = (0x19, 0x1008)) ∧
    (match exec ldI.instr (at5 0x2001 ldI) with | .next t => (bitsN (t.wave 1).tcause.toNat 7 0, (t.wave 1).tval) | _ => (0, 0)) = (0x32, 0x2001) := by
  decide +kernel

/-! ## Ill-formed terms -/

/-- One term for each check of `Instr.wf`, which it refuses. -/
theorem test_ill_formed :
    [(.iadd .wrap ⟨always, .v 9, .v 2 true, .imm 0, ⟨.one, .eight⟩⟩ : Instr), .iadd .wrap ⟨always, .s 1, .v 2 false, .reg (.s 1), one1⟩,
      .iadd .wrap ⟨always, .s 1, .s 2, .reg (.s 1), ⟨.two, .one⟩⟩].all (fun i => !i.wf) = true ∧
    [(.imad .wrap ⟨always, .v 1, .v 2 false, .imm 3, .v 4 false, one1⟩ : Instr), .imadw true ⟨always, .v 1, .v 2 false, rb, .v 4 false, one1⟩,
      .imadw true ⟨always, .s 1, .s 2, .reg (.s 3), .s 4, one1⟩, .iaddc ⟨always, .v 1, .v 2 false, rb, 1, ⟨.two, .one⟩⟩, .lea 5 (o2 rb), .sel ⟨always, .v 1, .v 2 false, .imm 3, 1, one1⟩,
      .movi always (.v 15) (.imm 0) ⟨.one, .two⟩, .fadd .f64 ⟨always, .v 1, .v 2 false, rb, one1⟩, .frcp .f16x2 o1, .fscale .bf16x2 (o2 rb), .cvt .f32 .f32 o1, .cvts .f32 .f32 (o2 rb),
      .unpack .f16x2 2 o1, .shfl .idx ⟨always, .s 1, .s 2, .reg (.s 3), one1⟩].all (fun i => !i.wf) = true ∧
    [(.ld ⟨always, .w, true, false, .none, 1, 5, 9, one1⟩ : Instr), .ld ⟨always, .d, false, false, .none, 1, 5, 9, one1⟩, .lds ⟨always, .w, false, true, .none, 2, 5, 9, one1⟩,
      .st ⟨always, .d, false, .none, 5, 9, 7, one1⟩, .sts ⟨always, .w, true, .none, 5, 9, 8, one1⟩, .ldu ⟨always, .d, true, false, .none, 7, 5, 8⟩,
      .atom ⟨always, .cas, .none, true, 0, 5, 9, 8⟩, .atom ⟨always, .add, .none, true, 1, 5, 9, 8⟩, .waitw always 3 5 6, .cpyg always 2 5 7 7].all (fun i => !i.wf) = true ∧
    [(.munf always 57 : Instr), .mmq always .bf16 true 2 5, .mtrn always .i4 2 5 0, .mtrn always .i8 2 5 6, .mprm always .i4 2 9 5, .mcvt always .bf16 5 2 3, .mmt always .i8 false 3 61,
      .mmt always .i8 false 17 16, .csrr always 1 0x00A, .csrw always 1 0x07B].all (fun i => !i.wf) = true := by
  decide +kernel

/-! ## Words of the encoding tables -/

/-- Words of arithmetic on integers (spec/03_encoding.md and spec/06_wave_arithmetic.md: worked words, encodings and assembly forms of the entries). -/
theorem test_decode_intA :
  reads 0x0000804014018C80 none (.iadd .wrap ⟨⟨3, false⟩, .v 32, .v 16 false, .reg (.s 5), ⟨.two, .four⟩⟩) = true ∧
  reads 0x00A00C0FFFE00100 none (.iadd .wrap ⟨⟨0, false⟩, .s 3, .s 3, .imm 0xFFF8, ⟨.one, .one⟩⟩) = true ∧
  reads (wordOf 0x01 0x29 4 5 0 7 256) none (.isub .ss ⟨⟨0, false⟩, .s 4, .s 5, .imm 7, ⟨.one, .one⟩⟩) = true ∧
  reads (wordOf 0x02 0x02 4 5 6 0 0) none (.imul .us ⟨⟨0, false⟩, .v 4, .v 5 false, .reg (.v 6 false), ⟨.one, .one⟩⟩) = true ∧
  reads (wordOf 0x03 0x04 5 6 7 0 0) none (.imulh true ⟨⟨0, false⟩, .v 5, .v 6 false, .reg (.v 7 false), ⟨.one, .one⟩⟩) = true ∧
  reads (wordOf 0x04 0x01 10 12 3 20 82056) none (.imad .ss ⟨⟨0, false⟩, .v 10, .v 12 false, .reg (.s 3), .v 20 true, ⟨.two, .two⟩⟩) = true ∧
  reads (wordOf 0x05 0x24 10 2 3 12 448) none (.imadw true ⟨⟨0, false⟩, .s 10, .s 2, .reg (.s 3), .s 12, ⟨.one, .one⟩⟩) = true ∧
  reads (wordOf 0x06 0x20 8 8 9 6 384) none (.iaddc ⟨⟨0, false⟩, .s 8, .s 8, .reg (.s 9), 6, ⟨.one, .one⟩⟩) = true ∧
  reads (wordOf 0x07 0x01 1 2 0 0 0) none (.ineg true ⟨⟨0, false⟩, .v 1, .v 2 false, ⟨.one, .one⟩⟩) = true ∧
  reads (wordOf 0x08 0x20 1 2 0 0 256) none (.iabs false ⟨⟨0, false⟩, .s 1, .s 2, ⟨.one, .one⟩⟩) = true ∧
  reads (wordOf 0x09 0x04 1 2 3 0 0) none (.imin true ⟨⟨0, false⟩, .v 1, .v 2 false, .reg (.v 3 false), ⟨.one, .one⟩⟩) = true ∧
  reads (wordOf 0x0a 0x08 1 2 0 9 0) none (.imax false ⟨⟨0, false⟩, .v 1, .v 2 false, .imm 9, ⟨.one, .one⟩⟩) = true := by decide +kernel

/-- Words of bit-wise, shift, compare and move instructions (spec/06_wave_arithmetic.md; spec/13_program_sampling.md and spec/24_program_decode.md for LEA and MOVI). -/
theorem test_decode_intB :
  reads (wordOf 0x0b 0x00 1 2 3 0 0) none (.andw ⟨⟨0, false⟩, .v 1, .v 2 false, .reg (.v 3 false), ⟨.one, .one⟩⟩) = true ∧
  reads (wordOf 0x0c 0x00 1 2 3 0 0) none (.orw ⟨⟨0, false⟩, .v 1, .v 2 false, .reg (.v 3 false), ⟨.one, .one⟩⟩) = true ∧
  reads (wordOf 0x0d 0x00 1 2 3 0 0) none (.xorw ⟨⟨0, false⟩, .v 1, .v 2 false, .reg (.v 3 false), ⟨.one, .one⟩⟩) = true ∧
  reads (wordOf 0x0e 0x00 1 2 3 0 0) none (.andn ⟨⟨0, false⟩, .v 1, .v 2 false, .reg (.v 3 false), ⟨.one, .one⟩⟩) = true ∧
  reads (wordOf 0x0f 0x20 2 2 0 0 256) none (.notw ⟨⟨0, false⟩, .s 2, .s 2, ⟨.one, .one⟩⟩) = true ∧
  reads (wordOf 0x10 0x08 4 4 0 3 0) none (.shl ⟨⟨0, false⟩, .v 4, .v 4 false, .imm 3, ⟨.one, .one⟩⟩) = true ∧
  reads (wordOf 0x11 0x08 4 4 0 3 0) none (.shr ⟨⟨0, false⟩, .v 4, .v 4 false, .imm 3, ⟨.one, .one⟩⟩) = true ∧
  reads (wordOf 0x12 0x08 4 4 0 3 0) none (.sar ⟨⟨0, false⟩, .v 4, .v 4 false, .imm 3, ⟨.one, .one⟩⟩) = true ∧
  reads (wordOf 0x13 0x08 4 4 0 3 0) none (.rotl ⟨⟨0, false⟩, .v 4, .v 4 false, .imm 3, ⟨.one, .one⟩⟩) = true ∧
  reads (wordOf 0x14 0x20 3 4 0 0 256) none (.popc ⟨⟨0, false⟩, .s 3, .s 4, ⟨.one, .one⟩⟩) = true ∧
  reads (wordOf 0x15 0x20 3 4 0 0 256) none (.clz ⟨⟨0, false⟩, .s 3, .s 4, ⟨.one, .one⟩⟩) = true ∧
  reads (wordOf 0x16 0x20 3 4 0 0 256) none (.ctz ⟨⟨0, false⟩, .s 3, .s 4, ⟨.one, .one⟩⟩) = true ∧
  reads (wordOf 0x17 0x20 3 4 0 0 256) none (.brev ⟨⟨0, false⟩, .s 3, .s 4, ⟨.one, .one⟩⟩) = true ∧
  reads (wordOf 0x18 0x11 7 3 0 9 0) (some 12) (.bfx true ⟨⟨0, false⟩, .v 7, .v 3 false, .lit 12, .v 9 false, ⟨.one, .one⟩⟩) = true ∧
  reads (wordOf 0x19 0x00 7 3 4 5 0) none (.bfi ⟨⟨0, false⟩, .v 7, .v 3 false, .reg (.v 4 false), .v 5 false, ⟨.one, .one⟩⟩) = true ∧
  reads (wordOf 0x1a 0x02 2 4 5 0 0) none (.icmp .lt ⟨⟨0, false⟩, 2, .v 4 false, .reg (.v 5 false)⟩) = true ∧
  reads 0x1BA8040000400100 none (.lea 2 ⟨⟨0, false⟩, .s 1, .s 0, .imm 16, ⟨.one, .one⟩⟩) = true ∧
  reads (wordOf 0x1c 0x00 40 2 0 0 49408) none (.mov ⟨⟨0, false⟩, .v 40, .s 2, ⟨.one, .eight⟩⟩) = true ∧
  reads 0x1DC0840000000000 (some 0x00C000010020) (.movi ⟨0, false⟩ (.s 33) (.lit 0x00C000010020) ⟨.one, .one⟩) = true ∧
  reads (wordOf 0x1e 0x10 6 8 0 4 65536) (some 0) (.sel ⟨⟨0, false⟩, .v 6, .v 8 false, .lit 0, 4, ⟨.two, .one⟩⟩) = true := by decide +kernel

/-- Words of floating point and conversions (spec/06_wave_arithmetic.md, with its worked word of CVT; spec/13_program_sampling.md for QMASS and FEXP2). -/
theorem test_decode_float :
  reads (wordOf 0x20 0x00 1 2 3 0 0) none (.fadd .f32 ⟨⟨0, false⟩, .v 1, .v 2 false, .reg (.v 3 false), ⟨.one, .one⟩⟩) = true ∧
  reads (wordOf 0x21 0x02 1 2 3 0 0) none (.fsub .f16x2 ⟨⟨0, false⟩, .v 1, .v 2 false, .reg (.v 3 false), ⟨.one, .one⟩⟩) = true ∧
  reads (wordOf 0x22 0x03 1 2 3 0 0) none (.fmul .bf16x2 ⟨⟨0, false⟩, .v 1, .v 2 false, .reg (.v 3 false), ⟨.one, .one⟩⟩) = true ∧
  reads (wordOf 0x24 0x00 1 2 3 0 0) none (.fmin .f32 ⟨⟨0, false⟩, .v 1, .v 2 false, .reg (.v 3 false), ⟨.one, .one⟩⟩) = true ∧
  reads (wordOf 0x25 0x02 1 2 3 0 0) none (.fmax .f16x2 ⟨⟨0, false⟩, .v 1, .v 2 false, .reg (.v 3 false), ⟨.one, .one⟩⟩) = true ∧
  reads (wordOf 0x23 0x00 8 0 4 2 16464) none (.ffma .f32 ⟨⟨0, false⟩, .v 8, .v 0 false, .reg (.v 4 true), .s 2, ⟨.one, .two⟩⟩) = true ∧
  reads (wordOf 0x26 0x00 3 5 6 0 2) none (.fcmp .f32 .lt ⟨⟨0, false⟩, 3, .v 5 false, .reg (.v 6 false)⟩) = true ∧
  reads (wordOf 0x27 0x00 9 2 0 0 0) none (.fclass .f32 ⟨⟨0, false⟩, .v 9, .v 2 false, ⟨.one, .one⟩⟩) = true ∧
  reads (wordOf 0x28 0x01 12 14 0 0 0) none (.frcp .f64 ⟨⟨0, false⟩, .v 12, .v 14 false, ⟨.one, .one⟩⟩) = true ∧
  reads (wordOf 0x29 0x01 12 14 0 0 0) none (.frsq .f64 ⟨⟨0, false⟩, .v 12, .v 14 false, ⟨.one, .one⟩⟩) = true ∧
  reads (wordOf 0x2a 0x01 12 14 0 0 0) none (.fsqrt .f64 ⟨⟨0, false⟩, .v 12, .v 14 false, ⟨.one, .one⟩⟩) = true ∧
  reads 0x2B00202000000C00 none (.fexp2 ⟨⟨3, false⟩, .v 8, .v 8 false, ⟨.one, .one⟩⟩) = true ∧
  reads (wordOf 0x2c 0x00 3 3 0 0 0) none (.flog2 ⟨⟨0, false⟩, .v 3, .v 3 false, ⟨.one, .one⟩⟩) = true ∧
  reads (wordOf 0x2d 0x00 3 3 0 0 0) none (.fsin ⟨⟨0, false⟩, .v 3, .v 3 false, ⟨.one, .one⟩⟩) = true ∧
  reads (wordOf 0x2e 0x00 3 3 0 0 0) none (.fcos ⟨⟨0, false⟩, .v 3, .v 3 false, ⟨.one, .one⟩⟩) = true ∧
  reads (wordOf 0x2f 0x00 3 3 0 0 0) none (.ftanh ⟨⟨0, false⟩, .v 3, .v 3 false, ⟨.one, .one⟩⟩) = true ∧
  reads (wordOf 0x30 0x00 5 5 0 0 0) none (.frnd .f32 ⟨⟨0, false⟩, .v 5, .v 5 false, ⟨.one, .one⟩⟩) = true ∧
  reads (wordOf 0x31 0x01 20 20 7 0 0) none (.fscale .f64 ⟨⟨0, false⟩, .v 20, .v 20 false, .reg (.v 7 false), ⟨.one, .one⟩⟩) = true ∧
  reads 0x3818281000001400 none (.cvt .int8 .f32 ⟨⟨5, false⟩, .v 10, .v 4 false, ⟨.one, .one⟩⟩) = true ∧
  reads (wordOf 0x39 0x0e 10 4 0 7 0) none (.cvts .int8 .f32 ⟨⟨0, false⟩, .v 10, .v 4 false, .imm 7, ⟨.one, .one⟩⟩) = true ∧
  reads (wordOf 0x3a 0x02 6 1 2 0 0) none (.pack .int8x4 ⟨0, false⟩ (.v 6) (.v 1 false) (.v 2 false) ⟨.one, .one⟩) = true ∧
  reads (wordOf 0x3b 0x03 9 6 0 0 5) none (.unpack .int4x8 5 ⟨⟨0, false⟩, .v 9, .v 6 false, ⟨.one, .one⟩⟩) = true ∧
  reads 0x3C20080000605400 none (.qmass false ⟨⟨5, false⟩, .v 2, .v 0 false, .imm 24, ⟨.one, .two⟩⟩) = true := by decide +kernel

/-- Words of predicates and lanes (spec/06_wave_arithmetic.md and spec/07_wave_control.md, the entries and Table 7.2). -/
theorem test_decode_lane :
  reads (wordOf 0x47 0x00 2 3 4 0 0) none (.pand ⟨0, false⟩ 2 3 4) = true ∧
  reads (wordOf 0x48 0x00 2 3 4 0 0) none (.por ⟨0, false⟩ 2 3 4) = true ∧
  reads (wordOf 0x49 0x00 2 3 4 0 0) none (.pxor ⟨0, false⟩ 2 3 4) = true ∧
  reads (wordOf 0x4a 0x00 2 3 0 0 0) none (.pnot ⟨0, false⟩ 2 3) = true ∧
  reads (wordOf 0x4b 0x22 4 3 0 0 0) none (.pmov ⟨0, false⟩ (.ps 4 3)) = true ∧
  reads (wordOf 0x4c 0x20 4 2 0 0 0) none (.pcnt ⟨0, false⟩ 4 2) = true ∧
  reads (wordOf 0x40 0x08 1 2 0 5 0) none (.shfl .idx ⟨⟨0, false⟩, .v 1, .v 2 false, .imm 5, ⟨.one, .one⟩⟩) = true ∧
  reads (wordOf 0x41 0x00 1 2 3 0 128) none (.bcast ⟨⟨0, false⟩, .v 1, .v 2 false, .reg (.s 3), ⟨.one, .one⟩⟩) = true ∧
  reads 0x4280182400000000 none (.rfl ⟨0, false⟩ 6 9 false) = true ∧
  reads (wordOf 0x43 0x22 6 2 0 0 0) none (.vote ⟨0, false⟩ (.bal 6) 2) = true ∧
  reads 0x449C281C00000C00 none (.redw .fmax ⟨3, false⟩ 10 7 false) = true ∧
  reads (wordOf 0x45 0x00 1 2 0 0 0) none (.scanw .iadd ⟨⟨0, false⟩, .v 1, .v 2 false, ⟨.one, .one⟩⟩) = true ∧
  reads (wordOf 0x46 0x00 3 2 0 0 0) none (.matchw ⟨0, false⟩ 3 2 false) = true := by decide +kernel

/-- Words of control and waits (spec/07_wave_control.md, the entries and worked words). -/
theorem test_decode_ctl :
  reads (wordOf 0x50 0x10 0 0 0 0 0) (some 4096) (.bra ⟨0, false⟩ (.lit 4096)) = true ∧
  reads 0x51200003FFF00600 none (.bru ⟨1, true⟩ (.imm 0xFFFC)) = true ∧
  reads 0x5220000000300800 none (.brd ⟨2, false⟩ (.imm 12)) = true ∧
  reads (wordOf 0x53 0x00 0 9 0 0 256) none (.brx ⟨0, false⟩ 9) = true ∧
  reads (wordOf 0x54 0x08 62 0 0 6 0) none (.call ⟨0, false⟩ 62 (.imm 6)) = true ∧
  reads (wordOf 0x55 0x00 0 62 0 0 256) none (.ret ⟨0, false⟩ 62) = true ∧
  reads (wordOf 0x56 0x00 0 0 0 0 0) none (.exit ⟨0, false⟩) = true ∧
  reads (wordOf 0x57 0x00 0 0 0 0 0) none (.yield ⟨0, false⟩) = true ∧
  reads (wordOf 0x58 0x00 0 0 0 0 0) none (.nop ⟨0, false⟩) = true ∧
  reads 0x5900000FFF080000 none (.waitc ⟨0, false⟩ 0 63 63 2) = true ∧
  reads 0x5A0800080C000180 none (.waitw ⟨0, false⟩ 2 2 3) = true ∧
  reads (wordOf 0x5b 0x00 0 0 0 0 0) none (.tfence ⟨0, false⟩) = true ∧
  reads (wordOf 0x5c 0x08 0 0 0 7 0) none (.trapi ⟨0, false⟩ 7) = true ∧
  reads (wordOf 0x5d 0x09 0 0 0 3 0) none (.setf ⟨0, false⟩ true (.imm 3)) = true ∧
  reads (wordOf 0x5e 0x01 8 0 0 0 0) none (.getf ⟨0, false⟩ true 8) = true := by decide +kernel

/-- Words of memory (spec/09_core_memory.md, the entries and worked words). -/
theorem test_decode_mem :
  reads 0x6180000804100100 none (.st ⟨⟨0, false⟩, .w, false, .none, 2, 1, 4, ⟨.one, .one⟩⟩) = true ∧
  reads 0x66C40C0800200100 none (.ldu ⟨⟨0, false⟩, .d, false, true, .none, 3, 2, 8⟩) = true ∧
  reads 0x6280147034000D00 none (.lds ⟨⟨3, false⟩, .w, false, false, .none, 5, 28, 13, ⟨.one, .one⟩⟩) = true ∧
  reads (wordOf 0x60 0x08 7 5 9 0 257) none (.ld ⟨⟨0, false⟩, .b, true, false, .ef, 7, 5, 9, ⟨.one, .one⟩⟩) = true ∧
  reads (wordOf 0x63 0x10 0 5 9 3 256) none (.sts ⟨⟨0, false⟩, .h, false, .none, 5, 9, 3, ⟨.one, .one⟩⟩) = true ∧
  reads (wordOf 0x64 0x20 7 5 9 0 256) none (.ldv ⟨⟨0, false⟩, .w, false, false, .none, 7, 5, 9, ⟨.one, .one⟩⟩) = true ∧
  reads (wordOf 0x65 0x20 0 5 9 3 256) none (.stv ⟨⟨0, false⟩, .w, false, .none, 5, 9, 3, ⟨.one, .one⟩⟩) = true ∧
  reads (wordOf 0x67 0x03 8 5 9 10 256) none (.atom ⟨⟨0, false⟩, .add, .ar, false, 8, 5, 9, 10⟩) = true ∧
  reads (wordOf 0x68 0x00 0 5 9 10 260) none (.atoms ⟨⟨0, false⟩, .add, .none, true, 0, 5, 9, 10⟩) = true ∧
  reads (wordOf 0x69 0x20 7 5 9 0 256) none (.ldres ⟨0, false⟩ 7 5 9) = true ∧
  reads (wordOf 0x6a 0x20 2 5 9 10 256) none (.stcond ⟨0, false⟩ 2 5 9 10) = true ∧
  reads (wordOf 0x6b 0x02 0 0 0 0 0) none (.fence ⟨0, false⟩ .rel) = true ∧
  reads (wordOf 0x6c 0x00 0 5 9 0 256) none (.pref ⟨0, false⟩ .none 5 9) = true ∧
  reads (wordOf 0x6d 0x00 0 5 6 0 384) none (.arrv ⟨0, false⟩ 5 6) = true ∧
  reads 0x6E00000000000000 none (.bar ⟨0, false⟩) = true ∧
  reads 0x6F00000000000000 none (.bard ⟨0, false⟩) = true ∧
  reads 0x7000000000000000 none (.barp ⟨0, false⟩) = true ∧
  reads (wordOf 0x71 0x00 0 5 6 0 384) none (.cinv ⟨0, false⟩ 5 6) = true ∧
  reads (wordOf 0x72 0x00 0 5 6 0 384) none (.cflsh ⟨0, false⟩ 5 6) = true ∧
  reads 0x73000C1014000180 none (.pin ⟨0, false⟩ 3 4 5) = true ∧
  reads 0x7400000C00000100 none (.unpin ⟨0, false⟩ 3) = true := by decide +kernel

/-- Words of copies and remote operations (spec/09_core_memory.md and spec/21_fabric_transfers.md, the entries and worked words). -/
theorem test_decode_fab :
  reads (wordOf 0x80 0x00 2 5 6 7 448) none (.cpy ⟨⟨0, false⟩, 2, 5, 6, 7⟩) = true ∧
  reads 0x81000814181C01C0 none (.cpys ⟨⟨0, false⟩, 2, 5, 6, 7⟩) = true ∧
  reads (wordOf 0x82 0x00 2 5 6 7 320) none (.cpyg ⟨0, false⟩ 2 5 6 7) = true ∧
  reads 0x83000810182001C1 none (.rput .d ⟨⟨0, false⟩, 2, 4, 6, 8⟩) = true ∧
  reads 0x83047C10141C05C1 none (.rputM .d ⟨⟨1, false⟩, 31, 4, 5, 7⟩) = true ∧
  reads 0x84000810182001C2 none (.rget .v ⟨⟨0, false⟩, 2, 4, 6, 8⟩) = true ∧
  reads 0x850004080C100101 none (.ratom .d ⟨⟨0, false⟩, .add, .none, false, 1, 2, 3, 4⟩) = true ∧
  reads 0x86084044244801C1 none (.rred .msv .d ⟨⟨0, false⟩, 16, 17, 9, 18⟩) = true ∧
  reads 0x870000080C000181 none (.rarrv .d ⟨0, false⟩ 2 3) = true ∧
  reads 0x8800001400000100 none (.rfence ⟨0, false⟩ 5) = true ∧
  reads 0x8900181400000100 none (.vqst ⟨0, false⟩ 6 5) = true := by decide +kernel

/-- Words of matrix (spec/11_matrix_instructions.md and spec/15_cluster.md, the entries and worked words). -/
theorem test_decode_mat :
  reads 0x9000004000000100 none (.munf ⟨0, false⟩ 16) = true ∧
  reads (wordOf 0x91 0x00 0 4 5 0 384) none (.mscl ⟨0, false⟩ 4 5) = true ∧
  reads 0x9200041000000100 none (.mldt ⟨0, false⟩ 1 4) = true ∧
  reads 0x9300000014000080 none (.msta ⟨0, false⟩ false 0 5) = true ∧
  reads 0x9404080000000000 none (.mza ⟨0, false⟩ true 2) = true ∧
  reads 0x9504080014000000 none (.mmq ⟨0, false⟩ .i8d8 false 2 5) = true ∧
  reads (wordOf 0x96 0x0a 2 0 5 0 0) none (.mmw ⟨0, false⟩ .i4 true 2 5) = true ∧
  reads (wordOf 0x97 0x03 6 7 5 0 0) none (.mmg ⟨0, false⟩ .bf16 false 6 7 5) = true ∧
  reads (wordOf 0x98 0x00 2 0 5 0 3) none (.mtrn ⟨0, false⟩ .i8 2 5 3) = true ∧
  reads (wordOf 0x99 0x03 2 7 5 0 0) none (.mprm ⟨0, false⟩ .bf16 2 7 5) = true ∧
  reads (wordOf 0x9a 0x04 2 0 5 0 0) none (.mred ⟨0, false⟩ .f16 2 5) = true ∧
  reads 0x9B00180800000001 none (.mcvt ⟨0, false⟩ .int8 6 2 1) = true ∧
  reads 0x9C20504000000100 none (.mmt ⟨0, false⟩ .i8 true 20 16) = true ∧
  reads 0x9D00504000000100 none (.mmts ⟨0, false⟩ .i8 false 20 16) = true := by decide +kernel

/-- Words of sum trees and effect lists (spec/12_sum_tree.md and spec/14_collecting_mode.md, worked words). -/
theorem test_decode_tree :
  reads 0xA000010010000080 none (.hbld ⟨0, false⟩ false 0 (.vec 64) 4) = true ∧
  reads 0xA00C081014000180 none (.hbld ⟨0, false⟩ true 2 (.sp 4) 5) = true ∧
  reads 0xA10004080C000000 none (.hset ⟨0, false⟩ 1 2 3) = true ∧
  reads (wordOf 0xa2 0x00 1 2 3 0 0) none (.hadd ⟨0, false⟩ 1 2 3) = true ∧
  reads (wordOf 0xa3 0x00 7 0 8 0 128) none (.hpfx ⟨0, false⟩ 0 (.uni 7 8)) = true ∧
  reads 0xA400240028000000 none (.hfind ⟨0, false⟩ 0 (.vec 9 10)) = true ∧
  reads 0xA500140018000080 none (.hcut ⟨0, false⟩ 5 0 6) = true ∧
  reads 0xA600040000000000 none (.htot ⟨0, false⟩ 1 0) = true ∧
  reads 0xA604040000000000 none (.hlenRead ⟨0, false⟩ 1 0) = true ∧
  reads 0xA608000400000100 none (.hlenSet ⟨0, false⟩ 0 1) = true ∧
  reads 0xA700000010000080 none (.hstl ⟨0, false⟩ 0 4) = true ∧
  reads 0xA820F80000500000 none (.callc ⟨0, false⟩ 62 (.imm 20)) = true ∧
  reads 0xA90000F800000100 none (.retc ⟨0, false⟩ 62) = true ∧
  reads 0xAA000C1014000180 none (.ecat ⟨0, false⟩ 3 4 5) = true ∧
  reads 0xAB040C0C181C01C0 none (.eflt ⟨0, false⟩ true 3 3 6 7) = true ∧
  reads 0xAC000C0C182001C0 (some 0x9000) (.erbs ⟨0, false⟩ 3 3 6 8 0x9000) = true ∧
  reads 0xAD00000C00000100 none (.eapp ⟨0, false⟩ 3) = true ∧
  reads 0xAE00000C00000100 none (.edrp ⟨0, false⟩ 3) = true ∧
  reads 0xAF00100C00000100 none (.elen ⟨0, false⟩ 4 3) = true := by decide +kernel

/-- Words of system (spec/16_die.md, spec/17_package.md and spec/19_observation_and_service.md, worked words). -/
theorem test_decode_sys :
  reads 0xB000140000400000 none (.csrr ⟨0, false⟩ 5 0x010) = true ∧
  reads 0xB100001000AC0100 none (.csrw ⟨0, false⟩ 4 0x02B) = true ∧
  reads (wordOf 0xb2 0x00 0 0 0 0 0) none (.eret ⟨0, false⟩) = true ∧
  reads 0xB300101400000100 none (.launch ⟨0, false⟩ 4 5) = true ∧
  reads 0xB400181000000100 none (.lstat ⟨0, false⟩ 6 4) = true ∧
  reads 0xB504001000000100 none (.tlbi ⟨0, false⟩ (.ctx 4)) = true ∧
  reads 0xB600000000140000 none (.bkpt ⟨0, false⟩ 5) = true ∧
  reads 0xB700000000040000 none (.hint ⟨0, false⟩ 1) = true ∧
  reads 0xB800000000000000 none (.halt ⟨0, false⟩) = true := by decide +kernel

end Sys2Proof.Tests
end

section
/-!
Effects on the registers of a wave (`RegEffect`): every write acts alike with and without the wave's control, so an effect put together
of writes is one of those whose issue `issue_registers` describes; and from that the forms of claim for register and cross-lane instructions.
-/

namespace Sys2Proof.Machine

/-! ## Writes and the wave's control -/

@[simp] theorem Wave.regs_setV (w : Wave) (n l : Nat) (x : Word) : (w.setV n l x).regs = w.regs.setV n l x := rfl

@[simp] theorem Wave.regs_setS (w : Wave) (n : Nat) (x : DWord) : (w.setS n x).regs = w.regs.setS n x := rfl

@[simp] theorem Wave.regs_orFlags (w : Wave) (f : Fl) : (w.orFlags f).regs = w.regs.orFlags f := rfl

@[simp] theorem Wave.regs_setP (w : Wave) (n : Nat) (x : Mask) : (w.setP n x).regs = w.regs.setP n x := by
  unfold Wave.setP; split <;> rfl

@[simp] theorem Wave.regs_setLanes (w : Wave) (xs : List (Nat × Nat × Word)) : (w.setLanes xs).regs = w.regs.setLanes xs := by
  induction xs generalizing w with
  | nil => rfl
  | cons x r ih => exact ih _

@[simp] theorem Wave.regs_vecEff (w : Wave) (act : Mask) (n : VReg) (blk : Block) (f : Nat × Nat → Nat → Word × Fl) :
    (w.vecEff act n blk f).regs = w.regs.vecEff act n blk f := by simp [Wave.vecEff]

@[simp] theorem Wave.regs_pairEff (w : Wave) (act : Mask) (n : VReg) (blk : Block) (f : Nat × Nat → Nat → DWord × Fl) :
    (w.pairEff act n blk f).regs = w.regs.pairEff act n blk f := by simp [Wave.pairEff]

@[simp] theorem Wave.regs_uniEff (w : Wave) (n : SReg) (x : DWord × Fl) : (w.uniEff n x).regs = w.regs.uniEff n x := rfl

@[simp] theorem Wave.preg_regs (w : Wave) (n : Nat) : w.regs.preg n = w.preg n := rfl

@[simp] theorem Wave.regs_predEff (w : Wave) (act : Mask) (n : Nat) (f : Nat → Bool) :
    (w.predEff act n f).regs = w.regs.predEff act n f := by simp [Wave.predEff]

@[simp] theorem Wave.team_setLanes (w : Wave) (xs : List (Nat × Nat × Word)) : (w.setLanes xs).team = w.team := by
  induction xs generalizing w with
  | nil => rfl
  | cons x r ih => exact ih _

@[simp] theorem Wave.team_vecEff (w : Wave) (act : Mask) (n : VReg) (blk : Block) (f : Nat × Nat → Nat → Word × Fl) :
    (w.vecEff act n blk f).team = w.team := by simp [Wave.vecEff]

@[simp] theorem Wave.team_pairEff (w : Wave) (act : Mask) (n : VReg) (blk : Block) (f : Nat × Nat → Nat → DWord × Fl) :
    (w.pairEff act n blk f).team = w.team := by simp [Wave.pairEff]

@[simp] theorem Wave.team_uniEff (w : Wave) (n : SReg) (x : DWord × Fl) : (w.uniEff n x).team = w.team := rfl

@[simp] theorem Wave.team_predEff (w : Wave) (act : Mask) (n : Nat) (f : Nat → Bool) : (w.predEff act n f).team = w.team := by
  simp [Wave.predEff]

/-! ## Effects put together of writes -/

/-- An effect that does the same to the registers alone. -/
theorem RegEffect.of_regs {f : Wave → Wave} (hr : ∀ w, (f w).regs = f w.regs) (ht : ∀ w, (f w).team = w.team) : RegEffect f where
  cong w w' h := by rw [hr, hr, h]
  team := ht

theorem regEffect_vecEff (act : Mask) (n : VReg) (blk : Block) {f : Wave → Nat × Nat → Nat → Word × Fl} (hf : ∀ w, f w.regs = f w) :
    RegEffect fun w => w.vecEff act n blk (f w) :=
  .of_regs (fun w => by simp [hf]) fun w => by simp

theorem regEffect_pairEff (act : Mask) (n : VReg) (blk : Block) {f : Wave → Nat × Nat → Nat → DWord × Fl} (hf : ∀ w, f w.regs = f w) :
    RegEffect fun w => w.pairEff act n blk (f w) :=
  .of_regs (fun w => by simp [hf]) fun w => by simp

theorem regEffect_uniEff (n : SReg) {x : Wave → DWord × Fl} (hx : ∀ w, x w.regs = x w) : RegEffect fun w => w.uniEff n (x w) :=
  .of_regs (fun w => by simp [hx]) fun w => by simp

theorem regEffect_setS (n : Nat) {x : Wave → DWord} (hx : ∀ w, x w.regs = x w) : RegEffect fun w => w.setS n (x w) :=
  .of_regs (fun w => by simp [hx]) fun w => by simp

theorem regEffect_predEff (act : Mask) (n : Nat) {f : Wave → Nat → Bool} (hf : ∀ w, f w.regs = f w) :
    RegEffect fun w => w.predEff act n (f w) :=
  .of_regs (fun w => by simp [hf]) fun w => by simp

/-- IADDC: a result and a carry out, both from the registers before. -/
theorem regEffect_vecEff_predEff (act : Mask) (n : VReg) (blk : Block) (c : Nat) {f : Wave → Nat × Nat → Nat → Word × Fl}
    {q : Wave → Nat → Bool} (hf : ∀ w, f w.regs = f w) (hq : ∀ w, q w.regs = q w) :
    RegEffect fun w => (w.vecEff act n blk (f w)).predEff act c (q w) :=
  .of_regs (fun w => by simp [hf, hq]) fun w => by simp

theorem regEffect_uniEff_predEff (act : Mask) (n : SReg) (c : Nat) {x : Wave → DWord × Fl} {q : Wave → Nat → Bool}
    (hx : ∀ w, x w.regs = x w) (hq : ∀ w, q w.regs = q w) : RegEffect fun w => (w.uniEff n (x w)).predEff act c (q w) :=
  .of_regs (fun w => by simp [hx, hq]) fun w => by simp

/-! ## What acts -/

/-- What an instruction acts on belongs to its path and carries its word. -/
theorem State.acting_ref {s : State} {p : PathRef} {l : Leaf} {i : Instr} {g : Guard} {b : Bool} {e : Env}
    (h : e ∈ s.acting p l i g b) : e.ref = p ∧ e.word = instrWord i := by
  have key : ∀ e ∈ s.envs p l g (instrWord i), e.ref = p ∧ e.word = instrWord i := fun e he => by
    obtain ⟨x, -, rfl⟩ := List.mem_map.mp he; exact ⟨rfl, rfl⟩
  unfold State.acting at h
  dsimp only at h
  split at h
  · exact key e h
  · exact key e (List.mem_filter.mp h).1

/-- R129: a group's cross-lane operation raises 0x21 in each wave it acts on, and any other path's none. -/
theorem flatMap_groupCause (s : State) (p : PathRef) (l : Leaf) (i : Instr) (g : Guard) :
    (s.acting p l i g false).flatMap (fun e => groupCause e s) =
      if (s.groupOf p).isSome then (s.acting p l i g false).map fun e => ⟨e.wave, 0x21, e.act, instrWord i⟩ else [] := by
  have each : ∀ e ∈ s.acting p l i g false,
      groupCause e s = if (s.groupOf p).isSome then [⟨e.wave, 0x21, e.act, instrWord i⟩] else [] := fun e he => by
    obtain ⟨href, hword⟩ := State.acting_ref he
    simp [groupCause, causeIf, whole, href, hword]
  rw [List.flatMap_def, List.map_congr_left each, ← List.flatMap_def]
  by_cases hg : (s.groupOf p).isSome = true
  · simp only [if_pos hg]
    exact List.map_eq_flatMap.symm
  · simp only [if_neg hg]
    exact List.flatMap_eq_nil_iff.mpr fun _ _ => rfl

end Sys2Proof.Machine

namespace Sys2Proof.Claims

open Sys2Proof.Machine

theorem regEffect_deliver (d : Dst) (blk : Block) (e : Env) {lane : Wave → Nat × Nat → Nat → Word × Fl} {uni : Wave → DWord × Fl}
    (hl : ∀ w, lane w.regs = lane w) (hu : ∀ w, uni w.regs = uni w) : RegEffect (deliver d blk lane uni e) := by
  cases d with
  | v n => exact regEffect_vecEff e.act n blk hl
  | s n => exact regEffect_uniEff n hu

/-- An instruction that issues with an effect `f` on registers, equal to what is claimed, and raises no cause of its own. -/
theorem onRegisters_of_issue {i : Instr} {g : Guard} {chk : Env → State → List Cause} {f f' : Env → Wave → Wave}
    (hx : ∀ s, exec i s = issue i g chk (onWave f) s) (hc : ∀ e s, chk e s = []) (hf : ∀ e w, f e w = f' e w)
    (hr : ∀ e, RegEffect (f' e)) : onRegisters i g f' := by
  obtain rfl : f = f' := funext fun e => funext (hf e)
  intro s p l h
  obtain ⟨t, ht, hb, rfl⟩ := issue_registers h (fun e _ => hc e s) hr
  exact ⟨(hx s).trans ht, hb⟩

/-- An instruction that issues with an effect `f` on registers, equal to what is claimed, and the cause of a group (R129). -/
theorem acrossLanes_of_issue {i : Instr} {g : Guard} {f f' : Env → Wave → Wave}
    (hx : ∀ s, exec i s = issue i g groupCause (onWave f) s) (hf : ∀ e w, f e w = f' e w) (hr : ∀ e, RegEffect (f' e)) :
    acrossLanes i g f' := by
  obtain rfl : f = f' := funext fun e => funext (hf e)
  refine ⟨fun s p l h hg => ?_, fun s p l h hg hne => ?_⟩
  · have hc := flatMap_groupCause s p l i g
    rw [hg, Option.isSome_none, if_neg Bool.false_ne_true, List.flatMap_eq_nil_iff] at hc
    obtain ⟨t, ht, hb, rfl⟩ := issue_registers h hc hr
    exact ⟨(hx s).trans ht, hb⟩
  · have hc := flatMap_groupCause s p l i g
    rw [if_pos hg] at hc
    rw [hx, issue, issueWith_causes h (by simpa [hc] using hne), hc]

end Sys2Proof.Claims
end

section
/-!
Integer arithmetic (spec/06_wave_arithmetic.md R133 to R145, R147, R148): the model computes on the numbers that words stand for, the
claims on the words; here the two agree, at every width.
-/

namespace Sys2Proof.Claims

open Sys2Proof.Machine

/-! ## Words of whole numbers -/

theorem ofInt_toNat_cast {n m : Nat} (x : BitVec n) : BitVec.ofInt m (x.toNat : Int) = x.setWidth m :=
  BitVec.eq_of_toNat_eq (by simp)

/-- The word of the number that an operand stands for is the operand itself, extended. -/
theorem ofInt_rdSigned (u : Bool) {n : Nat} (x : BitVec n) (m : Nat) :
    BitVec.ofInt m (rdSigned u x) = if u then x.setWidth m else x.signExtend m := by
  cases u with
  | false => rfl
  | true => exact ofInt_toNat_cast x

theorem ofNat_mul_two_pow {n : Nat} (x : BitVec n) (k : Nat) : BitVec.ofNat n (x.toNat * 2 ^ k) = x <<< k :=
  BitVec.eq_of_toNat_eq (by simp [Nat.shiftLeft_eq])

theorem ofNat_div_two_pow {n : Nat} (x : BitVec n) (k : Nat) : BitVec.ofNat n (x.toNat / 2 ^ k) = x >>> k :=
  BitVec.eq_of_toNat_eq (by simp [Nat.shiftRight_eq_div_pow, Nat.mod_eq_of_lt (Nat.lt_of_le_of_lt (Nat.div_le_self ..) x.isLt)])

theorem ofInt_div_two_pow {n : Nat} (x : BitVec n) (k : Nat) : BitVec.ofInt n (x.toInt / 2 ^ k) = x.sshiftRight k := by
  rw [← BitVec.ofInt_toInt (x := x.sshiftRight k), BitVec.toInt_sshiftRight, Int.shiftRight_eq_div_pow]
  norm_cast

/-! ## Clamps (R136) -/

theorem satS_eq_clampS (n : Nat) (r : Int) : satS n r = clampS n r := by
  have hp : (0 : Int) < 2 ^ (n - 1) := Int.pow_pos (by decide)
  unfold satS clampS
  dsimp only
  generalize (2 : Int) ^ (n - 1) = p at hp
  by_cases hi : r > p - 1
  · rw [if_pos hi, show max (-p) (min (p - 1) r) = p - 1 by omega, if_neg (by omega)]
  · by_cases lo : r < -p
    · rw [if_neg hi, if_pos lo, show max (-p) (min (p - 1) r) = -p by omega, if_neg (by omega)]
    · rw [if_neg hi, if_neg lo, show max (-p) (min (p - 1) r) = r by omega, if_pos rfl]

theorem satU_eq_clampU (n : Nat) (r : Int) : satU n r = clampU n r := by
  have hp : (0 : Int) < 2 ^ n := Int.pow_pos (by decide)
  unfold satU clampU
  dsimp only
  generalize (2 : Int) ^ n = p at hp
  by_cases hi : r > p - 1
  · rw [if_pos hi, show max 0 (min (p - 1) r) = p - 1 by omega, if_neg (by omega)]
  · by_cases lo : r < 0
    · rw [if_neg hi, if_pos lo, show max 0 (min (p - 1) r) = 0 by omega, if_neg (by omega)]; simp
    · rw [if_neg hi, if_neg lo, show max 0 (min (p - 1) r) = r by omega, if_pos rfl]

/-- The exact result `r`, read as the variant reads its operands, is delivered as the variant says; `x` is the word of the signed one. -/
theorem satOut_eq_byVar (k : Sat) {n : Nat} {x : BitVec n} {r i u : Int} (hi : k ≠ .us → r = i) (hu : k = .us → r = u)
    (hx : BitVec.ofInt n i = x) : satOut k n r = byVar k x i u := by
  cases k with
  | wrap => rw [hi (by decide), ← hx]; rfl
  | ss => rw [hi (by decide)]; exact satS_eq_clampS n i
  | us => rw [hu rfl]; exact satU_eq_clampU n u

theorem satRd_signed {k : Sat} (h : k ≠ .us) {n : Nat} (x : BitVec n) : satRd k x = x.toInt := by cases k <;> trivial

theorem satOut_add (k : Sat) {n : Nat} (x y : BitVec n) :
    satOut k n (satRd k x + satRd k y) = byVar k (x + y) (x.toInt + y.toInt) (x.toNat + y.toNat) :=
  satOut_eq_byVar k (fun h => by rw [satRd_signed h, satRd_signed h]) (by rintro rfl; rfl)
    (by rw [BitVec.ofInt_add, BitVec.ofInt_toInt, BitVec.ofInt_toInt])

theorem satOut_sub (k : Sat) {n : Nat} (x y : BitVec n) :
    satOut k n (satRd k x - satRd k y) = byVar k (x - y) (x.toInt - y.toInt) ((x.toNat : Int) - y.toNat) :=
  satOut_eq_byVar k (fun h => by rw [satRd_signed h, satRd_signed h]) (by rintro rfl; rfl)
    (by rw [Int.sub_eq_add_neg, BitVec.ofInt_add, BitVec.ofInt_neg, BitVec.ofInt_toInt, BitVec.ofInt_toInt, BitVec.sub_eq_add_neg])

theorem satOut_mul (k : Sat) {n : Nat} (x y : BitVec n) :
    satOut k n (satRd k x * satRd k y) = byVar k (x * y) (x.toInt * y.toInt) (x.toNat * y.toNat) :=
  satOut_eq_byVar k (fun h => by rw [satRd_signed h, satRd_signed h]) (by rintro rfl; rfl)
    (by rw [BitVec.ofInt_mul, BitVec.ofInt_toInt, BitVec.ofInt_toInt])

/-- R138. -/
theorem satOut_mul_add (k : Sat) {n : Nat} (x y z : BitVec n) :
    satOut k n (satRd k x * satRd k y + satRd k z) =
      byVar k (x * y + z) (x.toInt * y.toInt + z.toInt) (x.toNat * y.toNat + z.toNat) :=
  satOut_eq_byVar k (fun h => by rw [satRd_signed h, satRd_signed h, satRd_signed h]) (by rintro rfl; rfl)
    (by rw [BitVec.ofInt_add, BitVec.ofInt_mul, BitVec.ofInt_toInt, BitVec.ofInt_toInt, BitVec.ofInt_toInt])

/-! ## Products (R137, R139) -/

/-- The high half of an exact result, cut from it at twice the width. -/
theorem ofInt_div_two_pow_width (n : Nat) (z : Int) : BitVec.ofInt n (z / 2 ^ n) = ((BitVec.ofInt (2 * n) z) >>> n).setWidth n := by
  have hm : ((2 ^ n : Nat) : Int) ≠ 0 := Int.natCast_ne_zero_iff_pos.mpr (Nat.two_pow_pos n)
  have key : z / (2 ^ n : Nat) % (2 ^ n : Nat) = z % (2 ^ (2 * n) : Nat) / (2 ^ n : Nat) % (2 ^ n : Nat) := by
    rw [Nat.two_mul, Nat.pow_add, Int.natCast_mul]
    generalize ((2 ^ n : Nat) : Int) = m at hm
    conv => lhs; rw [← Int.emod_add_mul_ediv z (m * m), Int.mul_assoc m m, Int.add_mul_ediv_left _ _ hm, Int.add_mul_emod_self_left]
  have hs : 0 ≤ z % (2 ^ (2 * n) : Nat) := Int.emod_nonneg _ (Int.natCast_ne_zero_iff_pos.mpr (Nat.two_pow_pos _))
  apply BitVec.eq_of_toNat_eq
  rw [BitVec.toNat_ofInt, BitVec.toNat_setWidth, BitVec.toNat_ushiftRight, BitVec.toNat_ofInt, Nat.shiftRight_eq_div_pow]
  obtain ⟨r, hr⟩ := Int.eq_ofNat_of_zero_le hs
  rw [show z / 2 ^ n = z / (2 ^ n : Nat) by norm_cast, key, hr]
  norm_cast

theorem highProduct_eq (u : Bool) (n : Nat) (x y : BitVec n) :
    highProduct u n x y =
      ((if u then x.setWidth (2 * n) * y.setWidth (2 * n) else x.signExtend (2 * n) * y.signExtend (2 * n)) >>> n).setWidth n := by
  rw [highProduct, wrapI, ofInt_div_two_pow_width, BitVec.ofInt_mul, ofInt_rdSigned, ofInt_rdSigned]
  cases u <;> rfl

theorem wrapI_mul_add (u : Bool) (m : Nat) {n k : Nat} (x y : BitVec n) (z : BitVec k) :
    wrapI m (rdSigned u x * rdSigned u y + rdSigned u z) =
      if u then x.setWidth m * y.setWidth m + z.setWidth m else x.signExtend m * y.signExtend m + z.signExtend m := by
  rw [wrapI, BitVec.ofInt_add, BitVec.ofInt_mul, ofInt_rdSigned, ofInt_rdSigned, ofInt_rdSigned]
  cases u <;> rfl

theorem lowHalf_eq (r : BitVec 128) : r.setWidth 64 = r.extractLsb' 0 64 := BitVec.setWidth_eq_extractLsb' (by decide)

theorem highHalf_eq (r : BitVec 128) : (r >>> 64).setWidth 64 = r.extractLsb' 64 64 := BitVec.eq_of_toNat_eq (by simp)

/-! ## Shifts (R142) -/

theorem shlF_eq (n : Nat) (x y : BitVec n) : shlF n x y = x <<< y.toNat := by
  unfold shlF
  by_cases h : y.toNat < n
  · rw [if_pos h, ofNat_mul_two_pow]
  · rw [if_neg h, BitVec.shiftLeft_eq_zero (by omega)]; rfl

theorem shrF_eq (n : Nat) (x y : BitVec n) : shrF n x y = x >>> y.toNat := by
  unfold shrF
  by_cases h : y.toNat < n
  · rw [if_pos h, ofNat_div_two_pow]
  · rw [if_neg h, BitVec.ushiftRight_eq_zero (by omega)]; rfl

theorem sarF_eq (n : Nat) (x y : BitVec n) : sarF n x y = x.sshiftRight y.toNat := by
  unfold sarF
  rw [← ofInt_div_two_pow]
  by_cases h : y.toNat < n
  · rw [if_pos h]; rfl
  · have hn : 2 ^ (n - 1) ≤ 2 ^ y.toNat := Nat.pow_le_pow_right (by decide) (by omega)
    have hp : (2 : Int) ^ (n - 1) ≤ 2 ^ y.toNat := by exact_mod_cast hn
    have hlo := BitVec.le_toInt x
    have hhi := BitVec.toInt_lt (x := x)
    rw [if_neg h]
    by_cases hx : x.toInt < 0
    · rw [if_pos hx, Int.ediv_eq_neg_one_of_neg_of_le hx (by omega)]; rfl
    · rw [if_neg hx, Int.ediv_eq_zero_of_lt (by omega) (by omega)]; rfl

theorem rotlF_eq (n : Nat) (x y : BitVec n) : rotlF n x y = x.rotateLeft (y.toNat % n) := by
  rw [BitVec.rotateLeft_def, Nat.mod_mod, ← ofNat_mul_two_pow, ← ofNat_div_two_pow]
  rfl

/-! ## Minima, magnitudes, addresses -/

theorem decide_rdSigned_lt (u : Bool) {n : Nat} (x y : BitVec n) :
    decide (rdSigned u x < rdSigned u y) = if u then x.ult y else x.slt y := by
  cases u with
  | false => rfl
  | true => simp only [rdSigned, BitVec.ult, if_true, Int.ofNat_lt]

theorem minMax_min (u : Bool) (n : Nat) (x y : BitVec n) : minMax u false n x y = if (if u then x.ult y else x.slt y) then x else y := by
  rw [minMax, decide_rdSigned_lt]
  cases if u then x.ult y else x.slt y <;> rfl

theorem minMax_max (u : Bool) (n : Nat) (x y : BitVec n) : minMax u true n x y = if (if u then x.ult y else x.slt y) then y else x := by
  rw [minMax, decide_rdSigned_lt]
  cases if u then x.ult y else x.slt y <;> rfl

theorem ofInt_natAbs {n : Nat} (x : BitVec n) : BitVec.ofInt n x.toInt.natAbs = if x.msb then -x else x := by
  rw [BitVec.msb_eq_toInt]
  by_cases h : x.toInt < 0
  · rw [if_pos (by simpa using h), show (x.toInt.natAbs : Int) = -x.toInt by omega, BitVec.ofInt_neg, BitVec.ofInt_toInt]
  · rw [if_neg (by simpa using h), show (x.toInt.natAbs : Int) = x.toInt by omega, BitVec.ofInt_toInt]

theorem ofNat_add_mul_two_pow {n : Nat} (x y : BitVec n) (k : Nat) : BitVec.ofNat n (x.toNat + y.toNat * 2 ^ k) = x + y <<< k := by
  rw [BitVec.ofNat_add, ofNat_mul_two_pow, BitVec.ofNat_toNat, BitVec.setWidth_eq]

/-! ## Bit counts (R143) -/

/-- A word whose highest one is bit `k`. -/
theorem log2_toNat_eq {n k : Nat} {x : BitVec n} (hk : x.getLsbD k = true) (h : ∀ j, k < j → x.getLsbD j = false) : x.toNat.log2 = k := by
  have lo : 2 ^ k ≤ x.toNat := Nat.ge_two_pow_of_testBit hk
  have hi : x.toNat < 2 ^ (k + 1) := Nat.lt_pow_two_of_testBit _ fun j hj => h j hj
  exact (Nat.log2_eq_iff (by have := Nat.two_pow_pos k; omega)).mpr ⟨lo, hi⟩

/-- A word and its negative share the lowest one alone. -/
theorem getLsbD_and_neg {n i j : Nat} {x : BitVec n} (hi : x.getLsbD i = true) (h : ∀ k < i, x.getLsbD k = false) :
    (x &&& -x).getLsbD j = decide (j = i) := by
  rw [BitVec.getLsbD_and, BitVec.getLsbD_neg]
  obtain hj | rfl | hj := Nat.lt_trichotomy j i
  · simp [h j hj, Nat.ne_of_lt hj]
  · have hn : ¬∃ k < j, x.getLsbD k = true := fun ⟨k, hk, hx⟩ => by simp [h k hk] at hx
    simp [hi, hn]
  · have he : ∃ k < j, x.getLsbD k = true := ⟨i, hj, hi⟩
    cases hx : x.getLsbD j with
    | false => simp [Nat.ne_of_gt hj]
    | true => simp [he, BitVec.lt_of_getLsbD hx, Nat.ne_of_gt hj]

theorem eq_zero_of_getLsbD {n : Nat} {x : BitVec n} (h : ∀ i < n, x.getLsbD i = false) : x = 0 :=
  BitVec.eq_of_getLsbD_eq fun i hi => by rw [h i hi]; simp

theorem clzCount_eq (n : Nat) (x : BitVec n) : clzCount n x = if x = 0 then n else n - 1 - x.toNat.log2 := by
  unfold clzCount upto
  cases hf : (List.range n).find? fun i => x.getLsbD (n - 1 - i) with
  | none =>
    rw [List.find?_range_eq_none] at hf
    have hx : x = 0 := eq_zero_of_getLsbD fun i hi => by simpa [show n - 1 - (n - 1 - i) = i by omega] using hf (n - 1 - i) (by omega)
    rw [if_pos hx]; rfl
  | some i =>
    obtain ⟨hi, hn, hlow⟩ := List.find?_range_eq_some.mp hf
    have hn := List.mem_range.mp hn
    have hx : x ≠ 0 := by rintro rfl; simp at hi
    have hlog : x.toNat.log2 = n - 1 - i := log2_toNat_eq hi fun j hj => by
      by_cases hjn : j < n
      · simpa [show n - 1 - (n - 1 - j) = j by omega] using hlow (n - 1 - j) (by omega)
      · exact BitVec.getLsbD_of_ge _ _ (by omega)
    rw [if_neg hx, hlog, Option.getD_some]; omega

theorem ctzCount_eq (n : Nat) (x : BitVec n) : ctzCount n x = if x = 0 then n else (x &&& -x).toNat.log2 := by
  unfold ctzCount upto
  cases hf : (List.range n).find? fun i => x.getLsbD i with
  | none =>
    rw [List.find?_range_eq_none] at hf
    rw [if_pos (eq_zero_of_getLsbD fun i hi => by simpa using hf i hi)]; rfl
  | some i =>
    obtain ⟨hi, -, hlow⟩ := List.find?_range_eq_some.mp hf
    have hx : x ≠ 0 := by rintro rfl; simp at hi
    have hone (j : Nat) : (x &&& -x).getLsbD j = decide (j = i) := getLsbD_and_neg hi fun k hk => by simpa using hlow k hk
    have hlog : (x &&& -x).toNat.log2 = i :=
      log2_toNat_eq (by simp [hone]) fun j hj => by simp only [hone, decide_eq_false_iff_not]; omega
    rw [if_neg hx, hlog, Option.getD_some]

theorem popcount_eq (n : Nat) (x : BitVec n) : popcount n x = (List.range n).countP fun i => x.getLsbD i :=
  List.countP_eq_length_filter.symm

/-- The sum of the first `k` places of the reversed word is the word with its other places cleared. -/
theorem foldl_brev {n : Nat} (x : BitVec n) : ∀ k ≤ n,
    (upto k).foldl (fun a i => if x.getLsbD i then a + 2 ^ (n - 1 - i) else a) 0 = x.reverse.toNat / 2 ^ (n - k) * 2 ^ (n - k)
  | 0, _ => by simp [upto, Nat.div_eq_of_lt x.reverse.isLt]
  | k + 1, hk => by
    have hbit : x.reverse.toNat / 2 ^ (n - (k + 1)) % 2 = (x.getLsbD k).toNat := by
      have := BitVec.getLsbD_reverse (x := x) (i := n - (k + 1))
      rw [BitVec.getMsbD_eq_getLsbD, show n - 1 - (n - (k + 1)) = k by omega, decide_eq_true (by omega), Bool.true_and] at this
      rw [← this, BitVec.getLsbD, Nat.toNat_testBit]
    have ih := foldl_brev x k (by omega)
    rw [upto] at ih
    rw [upto, List.range_succ, List.foldl_append, ih, show n - k = n - (k + 1) + 1 by omega, Nat.pow_succ, ← Nat.div_div_eq_div_mul]
    simp only [List.foldl_cons, List.foldl_nil, show n - 1 - k = n - (k + 1) by omega]
    generalize x.reverse.toNat / 2 ^ (n - (k + 1)) = q at hbit ⊢
    have hq : q = q / 2 * 2 + (x.getLsbD k).toNat := by omega
    conv => rhs; rw [hq, Nat.add_mul, Nat.mul_assoc, Nat.mul_comm 2]
    cases x.getLsbD k with
    | false =>
      rw [if_neg Bool.false_ne_true, Bool.toNat_false, Nat.zero_mul]
      exact (Nat.add_zero _).symm
    | true => rw [if_pos rfl, Bool.toNat_true, Nat.one_mul]

theorem brevF_eq (n : Nat) (x : BitVec n) : brevF n x = x.reverse := by
  rw [brevF, foldl_brev x n (Nat.le_refl n)]
  simp

/-! ## Fields (R144, R145) -/

theorem fieldOf_eq_fieldAt {n : Nat} (pos len : BitVec n) : fieldOf n pos len = fieldAt pos len := by
  unfold fieldOf fieldAt
  by_cases h : pos.toNat < n ∧ len.toNat ≠ 0
  · rw [if_pos h, if_neg (by simpa using h)]
    congr 2
    split <;> omega
  · rw [if_neg h, if_pos (by simpa [Classical.or_iff_not_imp_left] using h)]

theorem fieldAt_pos {n p k : Nat} {pos len : BitVec n} (h : fieldAt pos len = some (p, k)) : 0 < k := by
  unfold fieldAt at h
  split at h
  · cases h; split <;> omega
  · cases h

/-- A field read as a signed number. -/
theorem signExtend_extractLsb' {n : Nat} (x : BitVec n) (p : Nat) {k : Nat} (hk : 0 < k) (m : Nat) :
    (x.extractLsb' p k).signExtend m =
      if x.toNat / 2 ^ p % 2 ^ k / 2 ^ (k - 1) = 1 then wrapI m ((x.toNat / 2 ^ p % 2 ^ k : Nat) - 2 ^ k)
      else BitVec.ofNat m (x.toNat / 2 ^ p % 2 ^ k) := by
  have hf : x.toNat / 2 ^ p % 2 ^ k < 2 ^ k := Nat.mod_lt _ (Nat.two_pow_pos k)
  have hk2 : 2 ^ k = 2 * 2 ^ (k - 1) := by rw [Nat.mul_comm, ← Nat.pow_succ, Nat.succ_eq_add_one, Nat.sub_add_cancel hk]
  have htop : x.toNat / 2 ^ p % 2 ^ k / 2 ^ (k - 1) = 1 ↔ ¬2 * (x.toNat / 2 ^ p % 2 ^ k) < 2 ^ k := by
    rw [Nat.div_eq_iff (Nat.two_pow_pos _)]
    omega
  rw [BitVec.signExtend, BitVec.toInt, BitVec.extractLsb'_toNat, Nat.shiftRight_eq_div_pow]
  simp only [htop, ite_not, wrapI]
  split
  · exact BitVec.ofInt_natCast ..
  · exact congrArg (fun d => BitVec.ofInt m (_ - d)) (Int.natCast_pow 2 k)

theorem bfxF_eq (sx : Bool) (n : Nat) (x pos len : BitVec n) : bfxF sx n x pos len = extract sx x pos len := by
  unfold bfxF extract
  rw [fieldOf_eq_fieldAt]
  cases h : fieldAt pos len with
  | none => rfl
  | some f =>
    obtain ⟨p, k⟩ := f
    cases sx with
    | false =>
      simp only [Bool.false_and, Bool.false_eq_true, if_false]
      exact BitVec.eq_of_toNat_eq (by simp [Nat.shiftRight_eq_div_pow])
    | true => simp only [Bool.true_and, beq_iff_eq, if_true, signExtend_extractLsb' x p (fieldAt_pos h) n]

theorem ofNat_ones_mul_two_pow (n p k : Nat) : BitVec.ofNat n ((2 ^ k - 1) * 2 ^ p) = (BitVec.allOnes k).setWidth n <<< p := by
  apply BitVec.eq_of_toNat_eq
  simp [Nat.shiftLeft_eq]

theorem bfiF_eq (n : Nat) (old x pos len : BitVec n) : bfiF n old x pos len = insert old x pos len := by
  unfold bfiF insert
  rw [fieldOf_eq_fieldAt]
  cases fieldAt pos len with
  | none => rfl
  | some f => simp only [ofNat_ones_mul_two_pow, ofNat_mul_two_pow]

/-! ## Sums with a carry (R140) -/

/-- The sum of two words and a carry, with one place for the carry out. -/
def carrySum {n : Nat} (x y : BitVec n) (c : Bool) : BitVec (n + 1) :=
  x.setWidth (n + 1) + y.setWidth (n + 1) + (BitVec.ofBool c).setWidth (n + 1)

theorem toNat_carrySum {n : Nat} (x y : BitVec n) (c : Bool) : (carrySum x y c).toNat = x.toNat + y.toNat + if c then 1 else 0 := by
  have hx := x.isLt
  have hy := y.isLt
  have h2 : 2 ^ (n + 1) = 2 ^ n * 2 := Nat.pow_succ ..
  have hc : (BitVec.ofBool c).toNat = if c then 1 else 0 := by cases c <;> rfl
  have hc1 : (if c then 1 else 0) ≤ 1 := by cases c <;> decide
  simp only [carrySum, BitVec.toNat_add, BitVec.toNat_setWidth, hc, Nat.add_mod_mod, Nat.mod_add_mod]
  exact Nat.mod_eq_of_lt (by omega)

theorem ofNat_carry {n : Nat} (x y : BitVec n) (c : Bool) :
    BitVec.ofNat n (x.toNat + y.toNat + if c then 1 else 0) = (carrySum x y c).setWidth n := by
  rw [← toNat_carrySum]
  exact BitVec.eq_of_toNat_eq (by simp)

theorem decide_carry {n : Nat} (x y : BitVec n) (c : Bool) :
    decide (2 ^ n ≤ x.toNat + y.toNat + if c then 1 else 0) = (carrySum x y c).getLsbD n := by
  rw [← toNat_carrySum]
  exact (BitVec.msb_eq_decide (carrySum x y c)).symm.trans (BitVec.msb_eq_getLsbD_last _)

/-! ## The instructions -/

/-- A two-operand instruction whose results are the claimed ones. -/
theorem Int2.onRegisters_of (k : Int2) {o : Alu2} {f : (n : Nat) → BitVec n → BitVec n → BitVec n × Fl}
    (hx : ∀ s, exec (k.instr o) s = alu2 (k.instr o) o f s) (hf : ∀ n x y, f n x y = k.result n x y) :
    onRegisters (k.instr o) o.g
      (deliver o.d o.blk (fun w pos l => k.result 32 (o.a.word w pos l) (o.b.word immInt32 w pos l))
        fun w => k.result 64 (o.a.uni w) (o.b.uni immInt64 w)) := by
  obtain rfl : f = fun n x y => k.result n x y := funext fun n => funext fun x => funext (hf n x)
  exact onRegisters_of_issue hx (fun _ _ => rfl) (fun _ _ => rfl) fun e => regEffect_deliver _ _ e (fun _ => rfl) fun _ => rfl

theorem Int2.instr_onRegisters (k : Int2) (o : Alu2) : onRegisters (k.instr o) o.g
    (deliver o.d o.blk (fun w pos l => k.result 32 (o.a.word w pos l) (o.b.word immInt32 w pos l))
      fun w => k.result 64 (o.a.uni w) (o.b.uni immInt64 w)) := by
  cases k with
  | add k => exact Int2.onRegisters_of (.add k) (fun s => show exec (.iadd k o) s = execIadd k o s from rfl) fun _ => satOut_add k
  | sub k => exact Int2.onRegisters_of (.sub k) (fun s => show exec (.isub k o) s = execIsub k o s from rfl) fun _ => satOut_sub k
  | mul k => exact Int2.onRegisters_of (.mul k) (fun s => show exec (.imul k o) s = execImul k o s from rfl) fun _ => satOut_mul k
  | mulh u =>
    refine Int2.onRegisters_of (.mulh u) (fun s => show exec (.imulh u o) s = execImulh u o s from rfl) fun n x y => ?_
    rw [highProduct_eq]; cases u <;> rfl
  | min u =>
    refine Int2.onRegisters_of (.min u) (fun s => show exec (.imin u o) s = execImin u o s from rfl) fun n x y => ?_
    rw [minMax_min]; cases u <;> rfl
  | max u =>
    refine Int2.onRegisters_of (.max u) (fun s => show exec (.imax u o) s = execImax u o s from rfl) fun n x y => ?_
    rw [minMax_max]; cases u <;> rfl
  | and => exact Int2.onRegisters_of .and (fun s => show exec (.andw o) s = execAndw o s from rfl) fun _ _ _ => rfl
  | or => exact Int2.onRegisters_of .or (fun s => show exec (.orw o) s = execOrw o s from rfl) fun _ _ _ => rfl
  | xor => exact Int2.onRegisters_of .xor (fun s => show exec (.xorw o) s = execXorw o s from rfl) fun _ _ _ => rfl
  | andn => exact Int2.onRegisters_of .andn (fun s => show exec (.andn o) s = execAndn o s from rfl) fun _ _ _ => rfl
  | shl => exact Int2.onRegisters_of .shl (fun s => show exec (.shl o) s = execShl o s from rfl) fun n x y => congrArg (·, 0) (shlF_eq n x y)
  | shr => exact Int2.onRegisters_of .shr (fun s => show exec (.shr o) s = execShr o s from rfl) fun n x y => congrArg (·, 0) (shrF_eq n x y)
  | sar => exact Int2.onRegisters_of .sar (fun s => show exec (.sar o) s = execSar o s from rfl) fun n x y => congrArg (·, 0) (sarF_eq n x y)
  | rotl => exact Int2.onRegisters_of .rotl (fun s => show exec (.rotl o) s = execRotl o s from rfl) fun n x y => congrArg (·, 0) (rotlF_eq n x y)
  | lea k =>
    exact Int2.onRegisters_of (.lea k) (fun s => show exec (.lea k o) s = execLea k o s from rfl) fun n x y =>
      congrArg (·, 0) (ofNat_add_mul_two_pow x y k.toNat)

/-- A one-operand instruction whose results are the claimed ones. -/
theorem Int1.onRegisters_of (k : Int1) {o : Alu1} {f : (n : Nat) → BitVec n → BitVec n × Fl}
    (hx : ∀ s, exec (k.instr o) s = alu1 (k.instr o) o f s) (hf : ∀ n x, f n x = k.result n x) :
    onRegisters (k.instr o) o.g
      (deliver o.d o.blk (fun w pos l => k.result 32 (o.a.word w pos l)) fun w => k.result 64 (o.a.uni w)) := by
  obtain rfl : f = fun n x => k.result n x := funext fun n => funext (hf n)
  exact onRegisters_of_issue hx (fun _ _ => rfl) (fun _ _ => rfl) fun e => regEffect_deliver _ _ e (fun _ => rfl) fun _ => rfl

theorem Int1.instr_onRegisters (k : Int1) (o : Alu1) : onRegisters (k.instr o) o.g
    (deliver o.d o.blk (fun w pos l => k.result 32 (o.a.word w pos l)) fun w => k.result 64 (o.a.uni w)) := by
  cases k with
  | neg ss =>
    refine Int1.onRegisters_of (.neg ss) (fun s => show exec (.ineg ss o) s = execIneg ss o s from rfl) fun n x => ?_
    cases ss with
    | false => exact congrArg (·, 0) ((BitVec.ofInt_neg ..).trans (congrArg (- ·) BitVec.ofInt_toInt))
    | true => exact satS_eq_clampS n _
  | abs ss =>
    refine Int1.onRegisters_of (.abs ss) (fun s => show exec (.iabs ss o) s = execIabs ss o s from rfl) fun n x => ?_
    cases ss with
    | false => exact congrArg (·, 0) (ofInt_natAbs x)
    | true => exact satS_eq_clampS n _
  | not => exact Int1.onRegisters_of .not (fun s => show exec (.notw o) s = execNotw o s from rfl) fun _ _ => rfl
  | popc =>
    exact Int1.onRegisters_of .popc (fun s => show exec (.popc o) s = execPopc o s from rfl) fun n x =>
      congrArg (BitVec.ofNat n ·, 0) (popcount_eq n x)
  | clz =>
    exact Int1.onRegisters_of .clz (fun s => show exec (.clz o) s = execClz o s from rfl) fun n x =>
      congrArg (BitVec.ofNat n ·, 0) (clzCount_eq n x)
  | ctz =>
    exact Int1.onRegisters_of .ctz (fun s => show exec (.ctz o) s = execCtz o s from rfl) fun n x =>
      congrArg (BitVec.ofNat n ·, 0) (ctzCount_eq n x)
  | brev => exact Int1.onRegisters_of .brev (fun s => show exec (.brev o) s = execBrev o s from rfl) fun n x => congrArg (·, 0) (brevF_eq n x)
  | mov => exact Int1.onRegisters_of .mov (fun s => show exec (.mov o) s = execMov o s from rfl) fun _ _ => rfl

/-- A three-operand instruction to which the old value of the destination does not count. -/
theorem alu3_onRegisters {i : Instr} {o : Alu3} {f : (n : Nat) → BitVec n → BitVec n → BitVec n → BitVec n → BitVec n × Fl}
    (f' : (n : Nat) → BitVec n → BitVec n → BitVec n → BitVec n × Fl) (hx : ∀ s, exec i s = alu3 i o f s)
    (hf : ∀ n d x y z, f n d x y z = f' n x y z) :
    onRegisters i o.g (deliver o.d o.blk
      (fun w pos l => f' 32 (o.a.word w pos l) (o.b.word immInt32 w pos l) (o.c.word w pos l))
      fun w => f' 64 (o.a.uni w) (o.b.uni immInt64 w) (o.c.uni w)) := by
  obtain rfl : f = fun n _ => f' n := funext fun n => funext fun d => funext fun x => funext fun y => funext (hf n d x y)
  exact onRegisters_of_issue hx (fun _ _ => rfl) (fun _ _ => rfl) fun e => regEffect_deliver _ _ e (fun _ => rfl) fun _ => rfl

end Sys2Proof.Claims

open Sys2Proof Sys2Proof.Machine Sys2Proof.Claims

/-- Settles O1: each instruction issues with the claimed effect, the model's arithmetic on numbers being the claim's on words at every width. -/
theorem integerArithmetic : Obligations.IntegerArithmetic := by
  unfold Obligations.IntegerArithmetic
  refine ⟨Int2.instr_onRegisters, Int1.instr_onRegisters, fun o => ⟨fun k => ?imad, fun sx => ?bfx, ?bfi⟩, fun u o => ?imadw, fun o => ?iaddc⟩
  case imad =>
    exact alu3_onRegisters (fun n x y z => byVar k (x * y + z) (x.toInt * y.toInt + z.toInt) (x.toNat * y.toNat + z.toNat))
      (fun s => show exec (.imad k o) s = execImad k o s from rfl) fun _ _ => satOut_mul_add k
  case bfx =>
    exact alu3_onRegisters (fun n x y z => (extract sx x y z, 0)) (fun s => show exec (.bfx sx o) s = execBfx sx o s from rfl)
      fun n _ x y z => congrArg (·, 0) (bfxF_eq sx n x y z)
  case bfi =>
    obtain ⟨g, d, a, b, c, blk⟩ := o
    refine onRegisters_of_issue (fun _ => rfl) (fun _ _ => rfl) (fun e w => ?_) fun e => ?_
    · cases d <;> simp only [bfiF_eq]
    · cases d with
      | v n => exact regEffect_vecEff _ _ _ fun _ => rfl
      | s n => exact regEffect_uniEff _ fun _ => rfl
  case imadw =>
    obtain ⟨g, d, a, b, c, blk⟩ := o
    refine onRegisters_of_issue (fun _ => rfl) (fun _ _ => rfl) (fun e w => ?_) fun e => ?_
    · cases d with
      | v n => simp only [wrapI_mul_add, BitVec.setWidth_eq, BitVec.signExtend_eq]
      | s n =>
        simp only [wrapI_mul_add]
        rw [highHalf_eq, lowHalf_eq]
    · cases d with
      | v n => exact regEffect_pairEff _ _ _ fun _ => rfl
      | s n => exact .of_regs (fun _ => rfl) fun _ => rfl
  case iaddc =>
    obtain ⟨g, d, a, b, c, blk⟩ := o
    refine onRegisters_of_issue (fun _ => rfl) (fun _ _ => rfl) (fun e w => ?_) fun e => ?_
    · cases d <;> (simp only [ofNat_carry, decide_carry]; rfl)
    · cases d with
      | v n => exact regEffect_vecEff_predEff _ _ _ _ (fun _ => rfl) fun _ => rfl
      | s n => exact regEffect_uniEff_predEff _ _ _ (fun _ => rfl) fun _ => rfl

end

section
/-!
Compares, selections, predicates and the exchange of lanes (spec/06_wave_arithmetic.md R146, R148, R149, R165 to R167;
spec/07_wave_control.md R188 to R196): what the model says of a set of lanes or of the lane a shuffle reads, as the claims say it.
-/

namespace Sys2Proof.Machine

/-! ## Sets of lanes -/

theorem mem_lanesOf {m : Mask} {l : Nat} : l ∈ lanesOf m ↔ m.getLsbD l = true := by
  simp only [lanesOf, upto, List.mem_filter, List.mem_range, and_iff_right_iff_imp]
  exact BitVec.lt_of_getLsbD

theorem length_lanesOf (m : Mask) : (lanesOf m).length = (List.range 32).countP fun l => m.getLsbD l :=
  List.countP_eq_length_filter.symm

/-- R193 (ANY): a lane of `q` is active. -/
theorem and_ne_zero_eq_any (act q : Mask) : (act &&& q != 0) = (lanesOf act).any fun l => q.getLsbD l := by
  rw [Bool.eq_iff_iff, bne_iff_ne, List.any_eq_true]
  constructor
  · intro h
    refine Classical.byContradiction fun hn => h (BitVec.eq_of_getLsbD_eq fun l _ => ?_)
    have hl : ¬(act.getLsbD l = true ∧ q.getLsbD l = true) := fun hl => hn ⟨l, mem_lanesOf.mpr hl.1, hl.2⟩
    simpa using hl
  · rintro ⟨l, hl, hq⟩ h
    have := congrArg (·.getLsbD l) h
    simp [mem_lanesOf.mp hl, hq] at this

/-- R193 (ALL): every active lane is in `q`. -/
theorem and_eq_self_eq_all (act q : Mask) : (act &&& q == act) = (lanesOf act).all fun l => q.getLsbD l := by
  rw [Bool.eq_iff_iff, beq_iff_eq, List.all_eq_true]
  constructor
  · intro h l hl
    have := congrArg (·.getLsbD l) h
    simpa [mem_lanesOf.mp hl] using this
  · intro h
    refine BitVec.eq_of_getLsbD_eq fun l _ => ?_
    rw [BitVec.getLsbD_and]
    cases ha : act.getLsbD l with
    | false => rfl
    | true => exact h l (mem_lanesOf.mpr ha)

/-- R196: that every lower active lane differs is that no lower active lane is equal. -/
theorem all_differ_eq_not_any_equal (act : Mask) (x : Nat → Word) (l : Nat) :
    ((lanesOf act).all fun k => !(decide (k < l)) || x k != x l) = !((lanesOf act).any fun k => decide (k < l) && x k == x l) := by
  rw [List.not_any_eq_all_not]
  simp only [Bool.not_and, bne]

end Sys2Proof.Machine

namespace Sys2Proof.Claims

open Sys2Proof.Machine

/-! ## The lane that a shuffle reads -/

/-- R190: the place that a shuffle names, which may be no lane. -/
def placeNamed (k : ShflKind) (l c : Nat) : Int :=
  match k with
  | .idx => c % 32
  | .xor => l ^^^ (c % 32)
  | .up => (l : Int) - c
  | .dn => l + c

/-- A shuffle names the lane at that place, or none. -/
theorem shflLane_eq (k : ShflKind) (l c : Nat) :
    (0 ≤ placeNamed k l c ∧ shflLane k l c = some (placeNamed k l c).toNat) ∨
      (¬(0 ≤ placeNamed k l c ∧ placeNamed k l c < 32) ∧ shflLane k l c = none) := by
  cases k with
  | idx => exact .inl ⟨by simp only [placeNamed]; omega, rfl⟩
  | xor => exact .inl ⟨by simp only [placeNamed]; omega, rfl⟩
  | up =>
    simp only [placeNamed, shflLane]
    by_cases h : c ≤ l
    · exact .inl ⟨by omega, by rw [if_pos h]; congr 1; omega⟩
    · exact .inr ⟨by omega, if_neg h⟩
  | dn =>
    simp only [placeNamed, shflLane]
    by_cases h : l + c ≤ 31
    · exact .inl ⟨by omega, by rw [if_pos h]; congr 1⟩
    · exact .inr ⟨by omega, if_neg h⟩

/-- R189: the lane named is read when it is an active one, and else the lane's own value. -/
theorem readLane_shflLane (k : ShflKind) (act : Mask) (l c : Nat) :
    readLane act l (shflLane k l c) =
      if 0 ≤ placeNamed k l c ∧ placeNamed k l c < 32 ∧ act.getLsbD (placeNamed k l c).toNat = true then (placeNamed k l c).toNat
      else l := by
  obtain ⟨h0, h⟩ | ⟨hn, h⟩ := shflLane_eq k l c
  · rw [h]
    by_cases ha : act.getLsbD (placeNamed k l c).toNat = true
    · have hlt := BitVec.lt_of_getLsbD ha
      rw [if_pos ⟨h0, by omega, ha⟩]
      exact if_pos ha
    · rw [if_neg fun hj => ha hj.2.2]
      exact if_neg ha
  · rw [h, if_neg fun hj => hn ⟨hj.1, hj.2.1⟩]
    rfl

end Sys2Proof.Claims

open Sys2Proof Sys2Proof.Machine Sys2Proof.Claims

/-- Settles O4: each instruction issues with the claimed effect, ICMP's relations and MOVI's constants being the same values in other words. -/
theorem compareSelectPredicates : Obligations.CompareSelectPredicates := by
  unfold Obligations.CompareSelectPredicates
  refine ⟨⟨fun c o => ?icmp, fun o => ?sel, fun g d x blk => ?movi⟩, fun g d a b x => ⟨?pand, ?por, ?pxor, ?pnot, ?pp, ?sp, ?ps⟩⟩
  case icmp =>
    refine onRegisters_of_issue (fun _ => rfl) (fun _ _ => rfl) (fun e w => ?_) fun e => regEffect_predEff _ _ fun _ => rfl
    cases c <;> rfl
  case sel =>
    exact onRegisters_of_issue (fun _ => rfl) (fun _ _ => rfl) (fun _ _ => rfl) fun e => regEffect_deliver _ _ e (fun _ => rfl) fun _ => rfl
  case movi =>
    refine onRegisters_of_issue (fun _ => rfl) (fun _ _ => rfl) (fun e w => ?_) fun e => regEffect_deliver _ _ e (fun _ => rfl) fun _ => rfl
    cases x with
    | imm i => rfl
    | lit y =>
      have low : y.extractLsb' 0 32 = y.setWidth 32 := (BitVec.setWidth_eq_extractLsb' (by decide)).symm
      simp only [low]
      rfl
  case pand =>
    exact onRegisters_of_issue (fun _ => rfl) (fun _ _ => rfl) (fun e w => by simp only [BitVec.getLsbD_and])
      fun e => regEffect_predEff _ _ fun _ => rfl
  case por =>
    exact onRegisters_of_issue (fun _ => rfl) (fun _ _ => rfl) (fun e w => by simp only [BitVec.getLsbD_or])
      fun e => regEffect_predEff _ _ fun _ => rfl
  case pxor =>
    exact onRegisters_of_issue (fun _ => rfl) (fun _ _ => rfl) (fun e w => by simp only [BitVec.getLsbD_xor])
      fun e => regEffect_predEff _ _ fun _ => rfl
  case pnot | pp | sp =>
    exact onRegisters_of_issue (fun _ => rfl) (fun _ _ => rfl) (fun _ _ => rfl) fun e => regEffect_predEff _ _ fun _ => rfl
  case ps => exact acrossLanes_of_issue (fun _ => rfl) (fun _ _ => rfl) fun e => regEffect_setS _ fun _ => rfl

/-- Settles O5: each instruction issues with the cause of a group and the claimed effect, the sets of active lanes and the lane that a shuffle
reads being put in the claim's words. -/
theorem laneExchange : Obligations.LaneExchange := by
  unfold Obligations.LaneExchange
  refine ⟨fun g d q a v bc => ⟨?pcnt, ?rfl, ?any, ?all, ?bal, ?matchw⟩, fun o n hd => ⟨fun k => ?shfl, ?bcast⟩⟩
  case pcnt =>
    exact acrossLanes_of_issue (fun _ => rfl) (fun e w => by rw [length_lanesOf]) fun e => regEffect_setS _ fun _ => rfl
  case rfl | bal => exact acrossLanes_of_issue (fun _ => rfl) (fun _ _ => rfl) fun e => regEffect_setS _ fun _ => rfl
  case any =>
    exact acrossLanes_of_issue (fun _ => rfl) (fun e w => by simp only [and_ne_zero_eq_any]) fun e => regEffect_predEff _ _ fun _ => rfl
  case all =>
    exact acrossLanes_of_issue (fun _ => rfl) (fun e w => by simp only [and_eq_self_eq_all]) fun e => regEffect_predEff _ _ fun _ => rfl
  case matchw =>
    exact acrossLanes_of_issue (fun _ => rfl) (fun e w => by simp only [all_differ_eq_not_any_equal e.act (w.vreg v.toNat)])
      fun e => regEffect_predEff _ _ fun _ => rfl
  case shfl =>
    refine acrossLanes_of_issue (fun _ => rfl) (fun e w => ?_) fun e => regEffect_vecEff _ _ _ fun _ => rfl
    simp only [hd, readLane_shflLane, apply_ite (o.a.word w _)]
    rfl
  case bcast =>
    refine acrossLanes_of_issue (fun _ => rfl) (fun e w => ?_) fun e => regEffect_vecEff _ _ _ fun _ => rfl
    simp only [hd, readLane, apply_ite (o.a.word w _)]

end

section
/-!
EXIT, YIELD, NOP and HINT (spec/07_wave_control.md R176, R178, R179): an instruction whose issue raises nothing and waits for nothing completes
with its effect (`completes_of_issue`), an update that is the identity changes no state, and EXIT takes lanes from the leaves of a tree.
-/

namespace Sys2Proof.Machine

/-! ## Updates that change nothing -/

theorem Table.put_of_look {α : Type} {n : Nat} {x : α} : ∀ {t : Table α}, t.look n = some x → t.put n x = t
  | [], h => by simp [Table.look] at h
  | (k, a) :: r, h => by
    unfold Table.look at h
    unfold Table.put
    by_cases hk : n = k
    · rw [if_pos hk] at h ⊢
      rw [hk, Option.some.inj h]
    · by_cases hlt : n < k
      · simp [hk, hlt] at h
      · rw [if_neg hk, if_neg hlt] at h ⊢
        rw [Table.put_of_look h]

theorem State.updWave_self (s : State) (k : Nat) : s.updWave k (fun w => w) = s := by
  have h : s.waves.upd k (fun w => w) = s.waves := by
    unfold Table.upd
    split
    · next x hx => exact Table.put_of_look hx
    · rfl
  unfold State.updWave
  rw [h]

theorem State.updWave_congr {s : State} {k : Nat} {f f' : Wave → Wave} (h : f (s.wave k) = f' (s.wave k)) : s.updWave k f = s.updWave k f' := by
  cases hk : s.waves.look k with
  | none => rw [State.updWave_none s k f hk, State.updWave_none s k f' hk]
  | some w =>
    have hw : s.wave k = w := by simp [State.wave, Table.lookD, hk]
    rw [hw] at h
    simp [State.updWave, Table.upd, hk, h]

/-- An effect on no register is no effect on the state. -/
theorem onWave_self : onWave (fun _ w => w) = fun _ s => s :=
  funext fun e => funext fun s => State.updWave_self s e.wave

/-! ## The home waves of one issue -/

theorem State.acting_leaf {s : State} {p : PathRef} {l : Leaf} {i : Instr} {g : Guard} {b : Bool} {e : Env}
    (h : e ∈ s.acting p l i g b) : e.leaf = l := by
  have key : ∀ e ∈ s.envs p l g (instrWord i), e.leaf = l := fun e he => by
    obtain ⟨x, -, rfl⟩ := List.mem_map.mp he; rfl
  unfold State.acting at h
  dsimp only at h
  split at h
  · exact key e h
  · exact key e (List.mem_filter.mp h).1

/-- Issuing an instruction does not make a single step due. -/
theorem State.stepDue_issued (s : State) (p : PathRef) (l : Leaf) (i : Instr) : (s.issued p l).stepDue p i = s.stepDue p i :=
  State.stepDue_onlyWaves (State.onlyWaves_issued s p l) p i (Wave.team_of_regs (State.regs_issued s p l p.wave))

/-! ## How YIELD, NOP and HINT issue -/

theorem exec_yield (g : Guard) (s : State) :
    exec (.yield g) s = issueWith (.yield g) g false noCause noWait
      (fun p _ s =>
        if s.stepDue p (.yield g) then (s.advance p (.yield g)).updWave p.wave fun w => { w with yieldedAt := some s.cycle }
        else ((s.advance p (.yield g)).updWave p.wave fun w => { w with yieldedAt := some s.cycle }).switchLeaf p .yielded)
      noCause s := rfl

theorem exec_nop (g : Guard) (s : State) : exec (.nop g) s = issue (.nop g) g noCause (onWave fun _ w => w) s := by
  rw [onWave_self]
  rfl

theorem exec_hint_of_ne (g : Guard) {n : BitVec 16} (h : n ≠ 1) (s : State) :
    exec (.hint g n) s = issue (.hint g n) g noCause (onWave fun _ w => w) s := by
  rw [onWave_self]
  show execHint g n s = _
  simp only [execHint, h, if_false]

/-! ## The lanes of a tree's leaves (R121, R176) -/

theorem getLsbD_foldl_masks (k : Nat) : ∀ (ls : List Leaf) (m : Mask),
    (ls.foldl (fun m l => m ||| l.mask) m).getLsbD k = (m.getLsbD k || ls.any fun l => l.mask.getLsbD k)
  | [], m => by simp
  | l :: r, m => by
    rw [List.foldl_cons, getLsbD_foldl_masks k r, BitVec.getLsbD_or, List.any_cons, Bool.or_assoc]

/-- A tree has the lanes of its leaves. -/
theorem PTree.getLsbD_lanes {t : PTree} {l : Leaf} {k : Nat} (hl : l ∈ t.leaves) (hk : l.mask.getLsbD k = true) :
    t.lanes.getLsbD k = true := by
  unfold PTree.lanes
  rw [getLsbD_foldl_masks, List.any_eq_true.mpr ⟨l, hl, hk⟩, Bool.or_true]

/-- A lane that does not leave is still in the mask. -/
theorem getLsbD_and_not {x m : Mask} {k : Nat} (hx : x.getLsbD k = true) (hm : m.getLsbD k = false) :
    (x &&& ~~~m).getLsbD k = true := by
  simp only [BitVec.getLsbD_and, BitVec.getLsbD_not, hx, hm, BitVec.lt_of_getLsbD hx, decide_true, Bool.not_false, Bool.and_true]

theorem ne_zero_of_getLsbD {x : Mask} {k : Nat} (h : x.getLsbD k = true) : x ≠ 0 := by
  rintro rfl
  simp at h

theorem and_not_and_self (x m : Mask) : x &&& ~~~m &&& m = 0 := by
  rw [BitVec.and_assoc, BitVec.and_comm (~~~m) m, BitVec.and_not_self]
  exact BitVec.and_zero

theorem PTree.and_eq_zero_of_mem_exit {m : Mask} : ∀ {t : PTree} {l : Leaf}, l ∈ (t.exit m).leaves → l.mask &&& m = 0
  | .empty, l, h => by simp [PTree.exit, PTree.leaves] at h
  | .leaf x, l, h => by
    unfold PTree.exit at h
    split at h
    · simp [PTree.leaves] at h
    · obtain rfl := List.mem_singleton.mp h
      exact and_not_and_self x.mask m
  | .node n a b, l, h => by
    unfold PTree.exit at h
    split at h
    · simp [PTree.leaves] at h
    · rcases List.mem_append.mp h with h | h
      · exact PTree.and_eq_zero_of_mem_exit h
      · exact PTree.and_eq_zero_of_mem_exit h

end Sys2Proof.Machine

namespace Sys2Proof.Claims

open Sys2Proof.Machine

/-- A lane of a subtree is a lane of the node above, where nodes have the lanes of their leaves. -/
theorem getLsbD_of_covers {x n : Mask} {k : Nat} (hc : x &&& ~~~n = 0) (hk : x.getLsbD k = true) : n.getLsbD k = true := by
  cases hn : n.getLsbD k with
  | true => rfl
  | false => exact absurd hc (ne_zero_of_getLsbD (getLsbD_and_not hk hn))

/-- A lane that stays keeps its leaf, in a tree whose nodes have the lanes of their leaves. -/
theorem exists_mem_exit {m : Mask} {k : Nat} (hm : m.getLsbD k = false) : ∀ {t : PTree} {l : Leaf}, covers t → l ∈ t.leaves →
    l.mask.getLsbD k = true → ∃ l' ∈ (t.exit m).leaves, l'.mask.getLsbD k = true ∧ l'.pc = l.pc
  | .empty, l, _, h, _ => by simp [PTree.leaves] at h
  | .leaf x, l, _, h, hk => by
    obtain rfl := List.mem_singleton.mp h
    have stays := getLsbD_and_not hk hm
    unfold PTree.exit
    rw [if_neg (ne_zero_of_getLsbD stays)]
    exact ⟨_, List.mem_singleton.mpr rfl, stays, rfl⟩
  | .node n a b, l, ⟨hn, ha, hb⟩, h, hk => by
    have inNode : n.mask.getLsbD k = true := by
      refine getLsbD_of_covers hn ?_
      rw [BitVec.getLsbD_or, Bool.or_eq_true]
      exact (List.mem_append.mp h).imp (PTree.getLsbD_lanes · hk) (PTree.getLsbD_lanes · hk)
    unfold PTree.exit
    rw [if_neg (ne_zero_of_getLsbD (getLsbD_and_not inNode hm))]
    rcases List.mem_append.mp h with h | h
    · obtain ⟨l', hl', stays⟩ := exists_mem_exit hm ha h hk
      exact ⟨l', List.mem_append_left _ hl', stays⟩
    · obtain ⟨l', hl', stays⟩ := exists_mem_exit hm hb h hk
      exact ⟨l', List.mem_append_right _ hl', stays⟩

/-- An instruction that issues with the effect `act` completes where no home wave has a cause or has to wait, with any effect equal to `act`
after the issue. -/
theorem completes_of_issue {i : Instr} {g : Guard} {b : Bool} {chk : Env → State → List Cause} {wait : Env → State → Option Nat}
    {act : PathRef → List Env → State → State} {ok : Env → State → Prop} {act' : PathRef → Leaf → List Env → State → State}
    (hx : ∀ s, exec i s = issueWith i g b chk wait act noCause s) (hc : ∀ e s, ok e s → chk e s = [])
    (hw : ∀ e s, ok e s → wait e s = none)
    (ha : ∀ (s : State) p l on, s.stepDue p i = false → act p on (s.issued p l) = act' p l on (s.issued p l)) : completes i g b ok act' := by
  intro s p l h hne hok
  obtain ⟨-, -, -, hdue, -, -⟩ := State.clear_parts h
  have none_ : (s.acting p l i g b).flatMap (fun e => noCause e s) = [] := List.flatMap_eq_nil_iff.mpr fun _ _ => rfl
  rw [hx, issueWith_clear h (fun e he => hc e s (hok e he)) (fun e he => hw e s (hok e he)) (.inr hne) (.inl none_), none_, ha s p l _ hdue]

/-- The same with the effect as it is claimed. -/
theorem completes_of_issueWith {i : Instr} {g : Guard} {b : Bool} {chk : Env → State → List Cause} {wait : Env → State → Option Nat}
    {act : PathRef → List Env → State → State} {ok : Env → State → Prop}
    (hx : ∀ s, exec i s = issueWith i g b chk wait act noCause s) (hc : ∀ e s, ok e s → chk e s = [])
    (hw : ∀ e s, ok e s → wait e s = none) : completes i g b ok fun p _ on s => act p on s :=
  completes_of_issue hx hc hw fun _ _ _ _ _ => rfl

end Sys2Proof.Claims

open Sys2Proof Sys2Proof.Machine Sys2Proof.Claims

/-- Settles O12: the four instructions issue with the claimed effect, a YIELD whose single step is not due giving way; a lane that stays is in
the mask of every node above its leaf, so that EXIT drops none of these nodes. -/
theorem exitYieldNop : Obligations.ExitYieldNop := by
  unfold Obligations.ExitYieldNop
  refine ⟨fun g n => ⟨?exit, ?yield, ?nop, fun hn => ?hint⟩, fun t m => ⟨fun l hl => PTree.and_eq_zero_of_mem_exit hl, ?stays⟩⟩
  case exit =>
    exact completes_of_issueWith (chk := noCause) (wait := noWait) (fun _ => rfl) (fun _ _ _ => rfl) fun _ _ _ => rfl
  case yield =>
    refine completes_of_issue (exec_yield g) (fun _ _ _ => rfl) (fun _ _ _ => rfl) fun s p l on hdue => ?_
    simp only [State.stepDue_issued, hdue, Bool.false_eq_true, if_false]
  case nop => exact onRegisters_of_issue (exec_nop g) (fun _ _ => rfl) (fun _ _ => rfl) fun _ => .of_regs (fun _ => rfl) fun _ => rfl
  case hint => exact onRegisters_of_issue (exec_hint_of_ne g hn) (fun _ _ => rfl) (fun _ _ => rfl) fun _ => .of_regs (fun _ => rfl) fun _ => rfl
  case stays => exact fun l hl k hk hm hc => exists_mem_exit hm hc hl hk
end

section
/-!
TFENCE, SETF and GETF (spec/07_wave_control.md R183, R185, R186): whether they wait is one answer for all home waves of the path (R128).
-/

namespace Sys2Proof.Claims

open Sys2Proof.Machine

/-- No older instruction of a home wave with an active lane can still set a flag (R128, R183). -/
def flagsQuiet (g : Guard) (e : Env) (s : State) : Prop :=
  ∀ h ∈ s.homes e.ref, g.active (s.wave h.1) (e.leaf.mask &&& h.2) ≠ 0 → s.flagsBusy h.1 = false

theorem flagsWait_of_quiet {g : Guard} {e : Env} {s : State} (h : flagsQuiet g e s) : flagsWait g e s = none := by
  refine if_neg fun hb => ?_
  obtain ⟨x, hx, hbusy⟩ := List.any_eq_true.mp hb
  rw [Bool.and_eq_true, bne_iff_ne] at hbusy
  exact absurd hbusy.2 (by simp [h x hx hbusy.1])

theorem flagsWait_of_not_quiet {g : Guard} {e : Env} {s : State} (h : ¬ flagsQuiet g e s) : flagsWait g e s = some 15 := by
  refine if_pos (List.any_eq_true.mpr ?_)
  simp only [flagsQuiet, Classical.not_forall, Bool.not_eq_false] at h
  obtain ⟨x, hx, hact, hbusy⟩ := h
  exact ⟨x, hx, Bool.and_eq_true_iff.mpr ⟨bne_iff_ne.mpr hact, hbusy⟩⟩

/-- All home waves of an issue wait for the flags, or none does. -/
theorem flagsWait_congr {s : State} {p : PathRef} {l : Leaf} {i : Instr} {g : Guard} {b : Bool} {e e' : Env}
    (h : e ∈ s.acting p l i g b) (h' : e' ∈ s.acting p l i g b) : flagsWait g e s = flagsWait g e' s := by
  unfold flagsWait
  rw [(State.acting_ref h).1, (State.acting_ref h').1, State.acting_leaf h, State.acting_leaf h']

/-- An instruction that waits for the flags, and raises no cause while it does, is held while one of its home waves is busy. -/
theorem holdsWhile_of_flagsWait {i : Instr} {g : Guard} {chk : Env → State → List Cause} {act : PathRef → List Env → State → State}
    (hx : ∀ s, exec i s = issueWith i g false chk (flagsWait g) act noCause s)
    (hc : ∀ e s, (flagsWait g e s).isSome → chk e s = []) : holdsWhile i g 15 fun e s => ¬ flagsQuiet g e s := by
  rintro s p l h ⟨e, he, hbusy⟩
  have waits : ∀ x ∈ s.acting p l i g false, flagsWait g x s = some 15 := fun x hx =>
    (flagsWait_congr hx he).trans (flagsWait_of_not_quiet hbusy)
  rw [hx]
  refine issueWith_waits h (fun x hx => hc x s (by rw [waits x hx]; rfl)) ?_
  cases hon : s.acting p l i g false with
  | nil => simp [hon] at he
  | cons x r => rw [List.findSome?_cons, waits x (by simp [hon])]

theorem foldl_keep (s : State) : ∀ on : List Env, on.foldl (fun s _ => s) s = s
  | [] => rfl
  | _ :: r => foldl_keep s r

/-- The causes that one clause each raises, where its condition holds, are those of the home waves in which it holds. -/
theorem flatMap_causeIf (on : List Env) (bad : Env → Bool) (c : Env → Cause) :
    on.flatMap (fun e => causeIf (bad e) (c e)) = (on.filter bad).map c := by
  induction on with
  | nil => rfl
  | cons e r ih => cases hb : bad e <;> simp [causeIf, hb, ← ih]

/-- What TFENCE raises in a home wave: its enabled flags, once nothing makes it wait (R183). -/
def tfenceCauses (g : Guard) (e : Env) (s : State) : List Cause :=
  if (flagsWait g e s).isSome then []
  else
    causeIf (enabledFlags (s.wave e.wave).flags e.leaf.fmt != 0) (whole e 0x48 (enabledFlags (s.wave e.wave).flags e.leaf.fmt).toNat)

theorem tfenceCauses_of_wait {g : Guard} {e : Env} {s : State} (h : (flagsWait g e s).isSome) : tfenceCauses g e s = [] := if_pos h

theorem tfenceCauses_of_quiet {g : Guard} {e : Env} {s : State} (h : flagsQuiet g e s) :
    tfenceCauses g e s =
      causeIf (enabledFlags (s.wave e.wave).flags e.leaf.fmt != 0)
        (whole e 0x48 (enabledFlags (s.wave e.wave).flags e.leaf.fmt).toNat) := by
  unfold tfenceCauses
  rw [flagsWait_of_quiet h]
  rfl

theorem flatMap_tfenceCauses {s : State} {g : Guard} {on : List Env} (h : ∀ e ∈ on, flagsQuiet g e s) :
    (on.flatMap fun e => tfenceCauses g e s) =
      (on.filter fun e => enabledFlags (s.wave e.wave).flags e.leaf.fmt != 0).map fun e =>
        whole e 0x48 (enabledFlags (s.wave e.wave).flags e.leaf.fmt).toNat := by
  rw [← flatMap_causeIf, List.flatMap_def, List.flatMap_def]
  exact congrArg List.flatten (List.map_congr_left fun e he => tfenceCauses_of_quiet (h e he))

/-! ## How the three issue -/

theorem exec_tfence (g : Guard) (s : State) :
    exec (.tfence g) s = issueWith (.tfence g) g false (tfenceCauses g) (flagsWait g) (seqAct (.tfence g) fun _ s => s) noCause s := rfl

theorem exec_setf_flags (g : Guard) (v : SetV) (s : State) :
    exec (.setf g true v) s = issueWith (.setf g true v) g false noCause (flagsWait g)
      (seqAct (.setf g true v) fun e s => s.updWave e.wave fun w => { w with flags := (setfValue v (s.wave e.wave)).setWidth 6 })
      noCause s := rfl

theorem exec_getf_flags (g : Guard) (d : SReg) (s : State) :
    exec (.getf g true d) s = issueWith (.getf g true d) g false noCause (flagsWait g)
      (seqAct (.getf g true d) (onWave fun _ w => w.setS d.toNat (w.flags.setWidth 64))) noCause s := rfl

end Sys2Proof.Claims

open Sys2Proof Sys2Proof.Machine Sys2Proof.Claims

/-- Settles O14: the wait is the claim's `quiet`, one answer for all home waves; once it is over the instructions issue with the claimed effect,
and TFENCE raises its cause in exactly the home waves with an enabled flag set. -/
theorem formatAndFlags : Obligations.FormatAndFlags := by
  unfold Obligations.FormatAndFlags
  refine fun g d v => ⟨?holds, ?tfence, ?traps, ?setFmt, ?setFlags, ?getFmt, ?getFlags⟩
  case holds =>
    simp only [List.forall_mem_cons, List.not_mem_nil, false_imp_iff, implies_true, and_true]
    refine ⟨?_, ?_, ?_⟩
    · exact holdsWhile_of_flagsWait (exec_tfence g) fun _ _ => tfenceCauses_of_wait
    · exact holdsWhile_of_flagsWait (exec_setf_flags g v) fun _ _ _ => rfl
    · exact holdsWhile_of_flagsWait (exec_getf_flags g d) fun _ _ _ => rfl
  case tfence =>
    refine completes_of_issue (exec_tfence g) (fun e s ⟨hq, hon⟩ => ?_) (fun e s ⟨hq, _⟩ => flagsWait_of_quiet hq) fun s p l on _ => ?_
    · have unset : enabledFlags (s.wave e.wave).flags e.leaf.fmt = 0 := hon
      simp [tfenceCauses_of_quiet hq, unset, causeIf]
    · unfold seqAct
      rw [foldl_keep]
  case traps =>
    rintro s p l h hq ⟨e, he, hon⟩
    have causes := flatMap_tfenceCauses hq
    rw [exec_tfence, issueWith_causes h, causes]
    · rfl
    · rw [causes, Ne, List.map_eq_nil_iff, List.filter_eq_nil_iff]
      exact fun unset => unset e he (bne_iff_ne.mpr hon)
  case setFmt =>
    exact completes_of_issue (fun _ => rfl) (fun _ _ _ => rfl) (fun _ _ _ => rfl) fun _ _ _ _ _ => rfl
  case setFlags =>
    refine completes_of_issue (exec_setf_flags g v) (fun _ _ _ => rfl) (fun _ _ hq => flagsWait_of_quiet hq) fun s p l on _ => ?_
    have onHome : ∀ (s : State) (e : Env), (s.updWave e.wave fun w => { w with flags := (setfValue v (s.wave e.wave)).setWidth 6 }) =
        s.updWave e.wave fun w => { w with flags := (setValue v w).setWidth 6 } := fun s e => State.updWave_congr rfl
    exact congrArg (fun eff => (on.foldl eff (s.issued p l)).advance p (.setf g true v)) (funext fun s => funext fun e => onHome s e)
  case getFmt => exact onRegisters_of_issue (fun _ => rfl) (fun _ _ => rfl) (fun _ _ => rfl) fun e => regEffect_setS _ fun _ => rfl
  case getFlags =>
    exact completes_of_issue (exec_getf_flags g d) (fun _ _ _ => rfl) (fun _ _ hq => flagsWait_of_quiet hq) fun _ _ _ _ _ => rfl
end

section
/-!
Boundary causes (spec/07_wave_control.md R200): what a path of one wave delivers, and that its step delivers it first.
-/

namespace Sys2Proof.Machine

theorem State.homes_of_no_group {s : State} {p : PathRef} (h : s.groupOf p = none) : s.homes p = [(p.wave, BitVec.allOnes 32)] := by
  unfold State.homes
  rw [h]

theorem takeBoundary_of_least {b : List (Nat × Nat)} {c : Nat × Nat} (h : leastBy Prod.fst b = some c) :
    takeBoundary b = some (c, b.erase c) := by
  unfold takeBoundary
  rw [h]
  rfl

/-- R200: a path of one wave delivers the wave's pending cause of least code, on all its lanes. -/
theorem State.deliverBoundary_of_least {s : State} {p : PathRef} {l : Leaf} {c v : Nat} (hg : s.groupOf p = none)
    (hb : leastBy Prod.fst (s.wave p.wave).boundary = some (c, v)) (hc : c < 2 ^ 16) :
    s.deliverBoundary p l =
      (s.updWave p.wave fun w => { w with boundary := w.boundary.erase (c, v) }).raise p [⟨p.wave, c, l.mask, v⟩] false := by
  have least : Nat.min 0xFFFF c = c := Nat.min_eq_right (by omega)
  unfold State.deliverBoundary
  simp [State.homes_of_no_group hg, takeBoundary_of_least hb, least, -BitVec.reduceAllOnes]

theorem execBoundaryCauseDelivery_of_due {s : State} {p : PathRef} {l : Leaf} (hl : s.leafAt p = some l) (hd : s.boundaryDue p l = true)
    (hm : (s.wave p.wave).mmt = none) : exec (.boundaryCauseDelivery p) s = .next (s.deliverBoundary p l) := by
  show execBoundaryCauseDelivery p s = _
  simp [execBoundaryCauseDelivery, hl, hd, hm]

/-- R200: a boundary cause that the path may take goes before whatever the path would do. -/
theorem State.runPath_of_boundaryDue {s : State} {p : PathRef} {l : Leaf} (hl : s.leafAt p = some l) (hb : l.bad = false)
    (hd : s.boundaryDue p l = true) : s.runPath p = exec (.boundaryCauseDelivery p) s := by
  unfold State.runPath
  simp [hl, hb, hd]

/-- With nothing due, the path that has been granted runs. -/
theorem State.nextStep_of_grant {s : State} {p : PathRef} (ha : s.agenda = []) (hp : s.grant = some p) :
    s.nextStep = ({ s with grant := none } : State).runPath p := by
  unfold State.nextStep
  simp [ha, hp]

end Sys2Proof.Machine

open Sys2Proof Sys2Proof.Machine

/-- Settles O18: the least cause alone is delivered and leaves the pending list, and the path's run asks for a due cause before it looks for an
instruction. -/
theorem boundaryDelivery : Obligations.BoundaryDelivery := by
  unfold Obligations.BoundaryDelivery
  refine ⟨fun s p l c v hl hg hd hm hb hc => ?least, fun s p l ha hp hl hbad hd => ?first⟩
  case least => rw [execBoundaryCauseDelivery_of_due hl hd hm, State.deliverBoundary_of_least hg hb hc]
  case first =>
    have hl' : ({ s with grant := none } : State).leafAt p = some l := hl
    unfold step
    rw [State.nextStep_of_grant ha hp, State.runPath_of_boundaryDue hl' hbad hd]
end
